-- ==== Sys2Proof/Word.lean ====
section
/-! DEFINITION. The word types of the block (00_scope.md rules R11 and R13) and nothing else: bytes of IN and OUT,
the 32-bit lookahead cache, the 64-bit result register and the 72-bit command word. Sample arithmetic is exact on
`Int` and narrows at the named points only (rule R304), so samples are not words. -/

namespace Sys2Proof

/-- A byte of IN or OUT (R11: bit 7 is the most significant). -/
abbrev Byte := BitVec 8

/-- The width of CACHE and of every unsigned 32-bit value (R7, R13). -/
abbrev Word32 := BitVec 32

/-- The width of RES (R36). -/
abbrev Word64 := BitVec 64

/-- A host command word CMD72 (R91). -/
abbrev CmdWord := BitVec 72

end Sys2Proof
end

