-- ==== Sys2Proof/Syntax.lean ====
section
/-! DEFINITION. The instructions: one constructor per row of spec/opcode_table.json. The block decodes two kinds of
encoded thing (30_encoding.md rule R90): host command words (format CMD72) and the fields of the bitstream in IN.
The six INTERNAL rows have no encoding; their operands are those their rules state. -/

namespace Sys2Proof

/-- The format column of the opcode table. VLU8 is split by position: the same byte pattern `10xxxxxx` is a malformed
lead byte or a continuation byte (rows vlu_lead_continuation and vlu_continuation). -/
inductive Format where
  | cmd72
  | hdrw32
  | chn4
  | tag8
  | method2
  | param4
  | param5
  | vluLead8
  | vluCont8
  | footer16
  | crc8f
  deriving DecidableEq, Repr

/-- Field width in bits (30_encoding.md rules R91, R94, R97, R101, R102, R105, R106, R108). -/
def Format.width : Format → Nat
  | .cmd72 => 72
  | .hdrw32 => 32
  | .chn4 => 4
  | .tag8 => 8
  | .method2 => 2
  | .param4 => 4
  | .param5 => 5
  | .vluLead8 => 8
  | .vluCont8 => 8
  | .footer16 => 16
  | .crc8f => 8

/-- The instruction set. -/
inductive Instr where
  /- CMD72: the host's commands (R92). -/
  | cursorNew (off : BitVec 32)
  | readBits (n : BitVec 32)
  | readBits64 (n : BitVec 32)
  | readSigned (n : BitVec 32)
  | readSigned64 (n : BitVec 32)
  | readUnary
  | readVariableLengthUint32
  | readVariableLengthUint64
  | seekBits (n : BitVec 32)
  | seekBytes (n : BitVec 32)
  | flushToByteBoundary
  | positionBits
  | crc8 (a b : BitVec 32)
  | crc16 (a b : BitVec 32)
  | parseFrameHeader
  | decodeFrame (a : BitVec 32)
  | pack
  /- HDRW32: the frame header word (R94). -/
  | frameHeaderWord (blk : Bool) (bsc src chn : BitVec 4) (bpc : BitVec 3)
  /- CHN4: the channel nibble (R97). -/
  | chnIndependent (n : BitVec 3)
  | chnLeftSide
  | chnRightSide
  | chnMidSide
  | chnReserved11
  | chnReserved12to15 (x : BitVec 2)
  /- TAG8: the subframe tag (R102, R103); `w` is the wasted-bits flag. -/
  | subframeConstant (w : Bool)
  | subframeVerbatim (w : Bool)
  | subframeFixed0 (w : Bool)
  | subframeFixed1 (w : Bool)
  | subframeFixed2 (w : Bool)
  | subframeFixed3 (w : Bool)
  | subframeFixed4 (w : Bool)
  | subframeLpc (orderM1 : BitVec 5) (w : Bool)
  | subframeReservedT2to3 (x : BitVec 1) (w : Bool)
  | subframeReservedT4to7 (x : BitVec 2) (w : Bool)
  | subframeFixedOrder5 (w : Bool)
  | subframeFixedOrder6to7 (x : BitVec 1) (w : Bool)
  | subframeReservedT16to31 (x : BitVec 4) (w : Bool)
  | subframeTagBit7 (x : BitVec 7)
  /- METHOD2: the residual coding method (R105). -/
  | residualMethodRice4
  | residualMethodRice5
  | residualMethodReserved (x : BitVec 1)
  /- PARAM4 and PARAM5: the partition parameter (R106). -/
  | partitionEscape4
  | partitionEscape5
  | partitionRice4 (k : BitVec 4)
  | partitionRice5 (k : BitVec 5)
  /- VLU8: the bytes of a variable-length integer (R101). -/
  | vluLead1byte (x : BitVec 7)
  | vluLead2byte (x : BitVec 5)
  | vluLead3byte (x : BitVec 4)
  | vluLead4byte (x : BitVec 3)
  | vluLead5byte (x : BitVec 2)
  | vluLead6byte (x : BitVec 1)
  | vluLead7byte
  | vluLeadContinuation (x : BitVec 6)
  | vluLeadFf
  | vluContinuation (payload : BitVec 6)
  /- FOOTER16 and CRC8F: the two stored checksums (R108, R99). -/
  | frameFooter (crc16f : BitVec 16)
  | headerCrc8 (crc : BitVec 8)
  /- INTERNAL: procedures selected by position, with no encoding of their own. -/
  | decodeSubframe (c : Fin 8) (base : Nat)
  | decodeResidual (c : Fin 8) (k : Fin 33)
  | restoreFixed (c : Fin 8) (k : Fin 5)
  | restoreLpc (c : Fin 8) (k : Fin 33)
  | decorrelate
  | decodeNextFrame (a : BitVec 32)
  deriving DecidableEq, Repr

/-- The format an instruction is encoded in; none for the INTERNAL rows. -/
def Instr.format : Instr → Option Format
  | .cursorNew _ | .readBits _ | .readBits64 _ | .readSigned _ | .readSigned64 _ | .readUnary
  | .readVariableLengthUint32 | .readVariableLengthUint64 | .seekBits _ | .seekBytes _
  | .flushToByteBoundary | .positionBits | .crc8 _ _ | .crc16 _ _ | .parseFrameHeader
  | .decodeFrame _ | .pack => some .cmd72
  | .frameHeaderWord _ _ _ _ _ => some .hdrw32
  | .chnIndependent _ | .chnLeftSide | .chnRightSide | .chnMidSide | .chnReserved11
  | .chnReserved12to15 _ => some .chn4
  | .subframeConstant _ | .subframeVerbatim _ | .subframeFixed0 _ | .subframeFixed1 _
  | .subframeFixed2 _ | .subframeFixed3 _ | .subframeFixed4 _ | .subframeLpc _ _
  | .subframeReservedT2to3 _ _ | .subframeReservedT4to7 _ _ | .subframeFixedOrder5 _
  | .subframeFixedOrder6to7 _ _ | .subframeReservedT16to31 _ _ | .subframeTagBit7 _ => some .tag8
  | .residualMethodRice4 | .residualMethodRice5 | .residualMethodReserved _ => some .method2
  | .partitionEscape4 | .partitionRice4 _ => some .param4
  | .partitionEscape5 | .partitionRice5 _ => some .param5
  | .vluLead1byte _ | .vluLead2byte _ | .vluLead3byte _ | .vluLead4byte _ | .vluLead5byte _
  | .vluLead6byte _ | .vluLead7byte | .vluLeadContinuation _ | .vluLeadFf => some .vluLead8
  | .vluContinuation _ => some .vluCont8
  | .frameFooter _ => some .footer16
  | .headerCrc8 _ => some .crc8f
  | .decodeSubframe _ _ | .decodeResidual _ _ | .restoreFixed _ _ | .restoreLpc _ _ | .decorrelate
  | .decodeNextFrame _ => none

end Sys2Proof
end

