-- ==== Sys2Proof/WellFormed.lean ====
section
/-! DEFINITION. The terms of Instr that stand for an instruction of the spec. Field widths are in the constructors'
types; what is left to check is below. A command operand outside the range its rule states is NOT ill-formed: the
command word encodes it and the block refuses it with ArgumentRange (60_exceptions.md rule R389). -/

namespace Sys2Proof

/-- The rows partition_rice4 and partition_rice5 exclude the escape pattern ("decode the escape row first", R106);
an LPC order is 1 to 32 (R296). -/
def Instr.wellFormed : Instr → Bool
  | .partitionRice4 k => k != 15
  | .partitionRice5 k => k != 31
  | .restoreLpc _ k => k.val != 0
  | .cursorNew _ | .readBits _ | .readBits64 _ | .readSigned _ | .readSigned64 _ | .readUnary
  | .readVariableLengthUint32 | .readVariableLengthUint64 | .seekBits _ | .seekBytes _
  | .flushToByteBoundary | .positionBits | .crc8 _ _ | .crc16 _ _ | .parseFrameHeader
  | .decodeFrame _ | .pack
  | .frameHeaderWord _ _ _ _ _
  | .chnIndependent _ | .chnLeftSide | .chnRightSide | .chnMidSide | .chnReserved11
  | .chnReserved12to15 _
  | .subframeConstant _ | .subframeVerbatim _ | .subframeFixed0 _ | .subframeFixed1 _
  | .subframeFixed2 _ | .subframeFixed3 _ | .subframeFixed4 _ | .subframeLpc _ _
  | .subframeReservedT2to3 _ _ | .subframeReservedT4to7 _ _ | .subframeFixedOrder5 _
  | .subframeFixedOrder6to7 _ _ | .subframeReservedT16to31 _ _ | .subframeTagBit7 _
  | .residualMethodRice4 | .residualMethodRice5 | .residualMethodReserved _
  | .partitionEscape4 | .partitionEscape5
  | .vluLead1byte _ | .vluLead2byte _ | .vluLead3byte _ | .vluLead4byte _ | .vluLead5byte _
  | .vluLead6byte _ | .vluLead7byte | .vluLeadContinuation _ | .vluLeadFf | .vluContinuation _
  | .frameFooter _ | .headerCrc8 _
  | .decodeSubframe _ _ | .decodeResidual _ _ | .restoreFixed _ _ | .decorrelate
  | .decodeNextFrame _ => true

end Sys2Proof
end

