-- ==== Sys2Proof/Decode.lean ====
section
/-! DEFINITION. From encoded words to instructions and back. Decoding is total: every word of every format gives an
instruction or a named rejection. Numbers are the encoding tables of 30_encoding.md (rules R91 to R109) and of
opcode_table.json. The sequencer does not decode its tags, nibbles and lead bytes through these tables but by the
tests of its own rules (R142, R196, R223, R250); that the two agree is a claim, not a definition. -/

namespace Sys2Proof

/-- Why a word is no instruction of its format. -/
inductive Reject where
  /-- CMD72: an opcode not in R92. -/
  | unassignedOpcode
  /-- CMD72: an operand the command does not use is not 0 (R91). -/
  | unusedOperand
  /-- HDRW32: bits 31:18 are not the sync code (R94). -/
  | syncCode
  /-- HDRW32: a reserved bit is set (R94). -/
  | reservedBit
  /-- VLU8 in continuation position: not of the form `10xxxxxx` (R101). -/
  | notContinuation
  deriving DecidableEq, Repr

/-- Opcode, operand A, operand B of a command word (R91). -/
def cmdOp (w : BitVec 72) : BitVec 8 := w.extractLsb' 64 8
def cmdA (w : BitVec 72) : BitVec 32 := w.extractLsb' 32 32
def cmdB (w : BitVec 72) : BitVec 32 := w.extractLsb' 0 32

/-- A command that uses A only: B must be 0. -/
def useA (i : BitVec 32 → Instr) (w : BitVec 72) : Except Reject Instr :=
  if cmdB w = 0 then .ok (i (cmdA w)) else .error .unusedOperand

/-- A command that uses no operand. -/
def useNone (i : Instr) (w : BitVec 72) : Except Reject Instr :=
  if cmdA w = 0 ∧ cmdB w = 0 then .ok i else .error .unusedOperand

/-- A command that uses both operands. -/
def useAB (i : BitVec 32 → BitVec 32 → Instr) (w : BitVec 72) : Except Reject Instr :=
  .ok (i (cmdA w) (cmdB w))

/-- The opcode table of R92. -/
def decodeCommand (w : BitVec 72) : Except Reject Instr :=
  match (cmdOp w).toNat with
  | 0x01 => useA .cursorNew w
  | 0x02 => useA .readBits w
  | 0x03 => useA .readBits64 w
  | 0x04 => useA .readSigned w
  | 0x05 => useA .readSigned64 w
  | 0x06 => useNone .readUnary w
  | 0x07 => useNone .readVariableLengthUint32 w
  | 0x08 => useNone .readVariableLengthUint64 w
  | 0x09 => useA .seekBits w
  | 0x0A => useA .seekBytes w
  | 0x0B => useNone .flushToByteBoundary w
  | 0x0C => useNone .positionBits w
  | 0x10 => useAB .crc8 w
  | 0x11 => useAB .crc16 w
  | 0x20 => useNone .parseFrameHeader w
  | 0x21 => useA .decodeFrame w
  | 0x22 => useNone .pack w
  | _ => .error .unassignedOpcode

/-- The header word layout of R94. -/
def decodeHeaderWord (w : BitVec 32) : Except Reject Instr :=
  if w.extractLsb' 18 14 ≠ 0x3FFE then .error .syncCode
  else if w.getLsbD 17 = true ∨ w.getLsbD 0 = true then .error .reservedBit
  else .ok (.frameHeaderWord (w.getLsbD 16) (w.extractLsb' 12 4) (w.extractLsb' 8 4)
    (w.extractLsb' 4 4) (w.extractLsb' 1 3))

/-- The channel nibble table of R97. -/
def decodeChannelNibble (w : BitVec 4) : Instr :=
  if w &&& 0x8 = 0x0 then .chnIndependent (w.extractLsb' 0 3)
  else if w = 0x8 then .chnLeftSide
  else if w = 0x9 then .chnRightSide
  else if w = 0xA then .chnMidSide
  else if w = 0xB then .chnReserved11
  else .chnReserved12to15 (w.extractLsb' 0 2)

/-- The subframe tag rows of the opcode table, by their match and mask columns (R102, R103). -/
def decodeTag (w : BitVec 8) : Instr :=
  if w &&& 0xFE = 0x00 then .subframeConstant (w.getLsbD 0)
  else if w &&& 0xFE = 0x02 then .subframeVerbatim (w.getLsbD 0)
  else if w &&& 0xFE = 0x10 then .subframeFixed0 (w.getLsbD 0)
  else if w &&& 0xFE = 0x12 then .subframeFixed1 (w.getLsbD 0)
  else if w &&& 0xFE = 0x14 then .subframeFixed2 (w.getLsbD 0)
  else if w &&& 0xFE = 0x16 then .subframeFixed3 (w.getLsbD 0)
  else if w &&& 0xFE = 0x18 then .subframeFixed4 (w.getLsbD 0)
  else if w &&& 0xC0 = 0x40 then .subframeLpc (w.extractLsb' 1 5) (w.getLsbD 0)
  else if w &&& 0xFC = 0x04 then .subframeReservedT2to3 (w.extractLsb' 1 1) (w.getLsbD 0)
  else if w &&& 0xF8 = 0x08 then .subframeReservedT4to7 (w.extractLsb' 1 2) (w.getLsbD 0)
  else if w &&& 0xFE = 0x1A then .subframeFixedOrder5 (w.getLsbD 0)
  else if w &&& 0xFC = 0x1C then .subframeFixedOrder6to7 (w.extractLsb' 1 1) (w.getLsbD 0)
  else if w &&& 0xE0 = 0x20 then .subframeReservedT16to31 (w.extractLsb' 1 4) (w.getLsbD 0)
  else .subframeTagBit7 (w.extractLsb' 0 7)

/-- The coding-method rows (R105). -/
def decodeMethod (w : BitVec 2) : Instr :=
  if w = 0 then .residualMethodRice4
  else if w = 1 then .residualMethodRice5
  else .residualMethodReserved (w.extractLsb' 0 1)

/-- The 4-bit partition parameter rows, the escape row first (R106). -/
def decodeParam4 (w : BitVec 4) : Instr :=
  if w = 15 then .partitionEscape4 else .partitionRice4 w

/-- The 5-bit partition parameter rows, the escape row first (R106). -/
def decodeParam5 (w : BitVec 5) : Instr :=
  if w = 31 then .partitionEscape5 else .partitionRice5 w

/-- The lead byte rows (R101). -/
def decodeVluLead (w : BitVec 8) : Instr :=
  if w &&& 0x80 = 0x00 then .vluLead1byte (w.extractLsb' 0 7)
  else if w &&& 0xE0 = 0xC0 then .vluLead2byte (w.extractLsb' 0 5)
  else if w &&& 0xF0 = 0xE0 then .vluLead3byte (w.extractLsb' 0 4)
  else if w &&& 0xF8 = 0xF0 then .vluLead4byte (w.extractLsb' 0 3)
  else if w &&& 0xFC = 0xF8 then .vluLead5byte (w.extractLsb' 0 2)
  else if w &&& 0xFE = 0xFC then .vluLead6byte (w.extractLsb' 0 1)
  else if w = 0xFE then .vluLead7byte
  else if w = 0xFF then .vluLeadFf
  else .vluLeadContinuation (w.extractLsb' 0 6)

/-- The continuation byte row (R101). -/
def decodeVluContinuation (w : BitVec 8) : Except Reject Instr :=
  if w &&& 0xC0 = 0x80 then .ok (.vluContinuation (w.extractLsb' 0 6)) else .error .notContinuation

/-- The instruction that the low bits of `w` encode in format `f`. -/
def decode (f : Format) (w : Nat) : Except Reject Instr :=
  match f with
  | .cmd72 => decodeCommand (BitVec.ofNat 72 w)
  | .hdrw32 => decodeHeaderWord (BitVec.ofNat 32 w)
  | .chn4 => .ok (decodeChannelNibble (BitVec.ofNat 4 w))
  | .tag8 => .ok (decodeTag (BitVec.ofNat 8 w))
  | .method2 => .ok (decodeMethod (BitVec.ofNat 2 w))
  | .param4 => .ok (decodeParam4 (BitVec.ofNat 4 w))
  | .param5 => .ok (decodeParam5 (BitVec.ofNat 5 w))
  | .vluLead8 => .ok (decodeVluLead (BitVec.ofNat 8 w))
  | .vluCont8 => decodeVluContinuation (BitVec.ofNat 8 w)
  | .footer16 => .ok (.frameFooter (BitVec.ofNat 16 w))
  | .crc8f => .ok (.headerCrc8 (BitVec.ofNat 8 w))

/-- The format an encoded word of `nbits` bits is read in where nothing but its length is known. One length does not
name one format (a byte can be a tag, a lead byte, a checksum, and a nibble filled up to a byte): of the one-byte
formats the subframe tag is taken, "the opcode" of the bitstream (R90). Log entry 4. -/
def formatOfLength : Nat → Option Format
  | 72 => some .cmd72
  | 32 => some .hdrw32
  | 16 => some .footer16
  | 8 => some .tag8
  | 5 => some .param5
  | 4 => some .chn4
  | 2 => some .method2
  | _ => none

/-- The decoder on a word as spec/opcode_table.json numbers its bits. -/
def decodeTableWord (nbits w : Nat) : Option Instr :=
  match formatOfLength nbits with
  | none => none
  | some f => (decode f w).toOption

/-! ### The encoder -/

/-- A command word from its three fields (R91). -/
def cmdWord (op : BitVec 8) (a b : BitVec 32) : BitVec 72 := op ++ a ++ b

/-- A subframe tag from its type code and its wasted-bits flag (R102). -/
def tagByte (t : BitVec 6) (w : Bool) : BitVec 8 := (0 : BitVec 1) ++ t ++ BitVec.ofBool w

/-- The word of an instruction, as a number; 0 for the INTERNAL rows, which have none (`Instr.format` is none). -/
def encode : Instr → Nat
  | .cursorNew a => (cmdWord 0x01 a 0).toNat
  | .readBits a => (cmdWord 0x02 a 0).toNat
  | .readBits64 a => (cmdWord 0x03 a 0).toNat
  | .readSigned a => (cmdWord 0x04 a 0).toNat
  | .readSigned64 a => (cmdWord 0x05 a 0).toNat
  | .readUnary => (cmdWord 0x06 0 0).toNat
  | .readVariableLengthUint32 => (cmdWord 0x07 0 0).toNat
  | .readVariableLengthUint64 => (cmdWord 0x08 0 0).toNat
  | .seekBits a => (cmdWord 0x09 a 0).toNat
  | .seekBytes a => (cmdWord 0x0A a 0).toNat
  | .flushToByteBoundary => (cmdWord 0x0B 0 0).toNat
  | .positionBits => (cmdWord 0x0C 0 0).toNat
  | .crc8 a b => (cmdWord 0x10 a b).toNat
  | .crc16 a b => (cmdWord 0x11 a b).toNat
  | .parseFrameHeader => (cmdWord 0x20 0 0).toNat
  | .decodeFrame a => (cmdWord 0x21 a 0).toNat
  | .pack => (cmdWord 0x22 0 0).toNat
  | .frameHeaderWord blk bsc src chn bpc =>
    ((0x3FFE : BitVec 14) ++ (0 : BitVec 1) ++ BitVec.ofBool blk ++ bsc ++ src ++ chn ++ bpc
      ++ (0 : BitVec 1)).toNat
  | .chnIndependent n => ((0 : BitVec 1) ++ n).toNat
  | .chnLeftSide => 0x8
  | .chnRightSide => 0x9
  | .chnMidSide => 0xA
  | .chnReserved11 => 0xB
  | .chnReserved12to15 x => ((3 : BitVec 2) ++ x).toNat
  | .subframeConstant w => (tagByte 0 w).toNat
  | .subframeVerbatim w => (tagByte 1 w).toNat
  | .subframeFixed0 w => (tagByte 8 w).toNat
  | .subframeFixed1 w => (tagByte 9 w).toNat
  | .subframeFixed2 w => (tagByte 10 w).toNat
  | .subframeFixed3 w => (tagByte 11 w).toNat
  | .subframeFixed4 w => (tagByte 12 w).toNat
  | .subframeLpc o w => (tagByte ((1 : BitVec 1) ++ o) w).toNat
  | .subframeReservedT2to3 x w => (tagByte ((1 : BitVec 5) ++ x) w).toNat
  | .subframeReservedT4to7 x w => (tagByte ((1 : BitVec 4) ++ x) w).toNat
  | .subframeFixedOrder5 w => (tagByte 13 w).toNat
  | .subframeFixedOrder6to7 x w => (tagByte ((7 : BitVec 5) ++ x) w).toNat
  | .subframeReservedT16to31 x w => (tagByte ((1 : BitVec 2) ++ x) w).toNat
  | .subframeTagBit7 x => ((1 : BitVec 1) ++ x).toNat
  | .residualMethodRice4 => 0
  | .residualMethodRice5 => 1
  | .residualMethodReserved x => ((1 : BitVec 1) ++ x).toNat
  | .partitionEscape4 => 15
  | .partitionEscape5 => 31
  | .partitionRice4 k => k.toNat
  | .partitionRice5 k => k.toNat
  | .vluLead1byte x => ((0 : BitVec 1) ++ x).toNat
  | .vluLead2byte x => ((0b110 : BitVec 3) ++ x).toNat
  | .vluLead3byte x => ((0b1110 : BitVec 4) ++ x).toNat
  | .vluLead4byte x => ((0b11110 : BitVec 5) ++ x).toNat
  | .vluLead5byte x => ((0b111110 : BitVec 6) ++ x).toNat
  | .vluLead6byte x => ((0b1111110 : BitVec 7) ++ x).toNat
  | .vluLead7byte => 0xFE
  | .vluLeadContinuation x => ((0b10 : BitVec 2) ++ x).toNat
  | .vluLeadFf => 0xFF
  | .vluContinuation x => ((0b10 : BitVec 2) ++ x).toNat
  | .frameFooter c => c.toNat
  | .headerCrc8 c => c.toNat
  | .decodeSubframe _ _ | .decodeResidual _ _ | .restoreFixed _ _ | .restoreLpc _ _ | .decorrelate
  | .decodeNextFrame _ => 0

end Sys2Proof
end

