-- ==== Sys2Proof/Config.lean ====
section
/-! DEFINITION. What is fixed for the machine: the limits of 00_scope.md rules R7 and R8, the record types of the
parameters a host sets before a run (10_state.md rules R40 and R41; their values are launch state, so they stand in
State and no step writes them), and the free values, which no proof can evaluate. -/

namespace Sys2Proof

namespace Config

/-- MAX_CHANNELS (R8, D36): the number of channel sample buffers. -/
def maxChannels : Nat := 8

/-- MAX_BLOCKSIZE (R8, D36): entries per channel sample buffer. -/
def maxBlocksize : Nat := 65536

/-- SLACK_BYTES (R8, R63): the bytes a host reserves after the last byte of frame data. -/
def slackBytes : Nat := 4

/-- The position just past the largest `decode_frame` operand (R360). -/
def frameIndexLimit : Nat := 2 ^ 29

/-- The first `seek_bits` operand out of range (R146). -/
def seekBitsLimit : Nat := 2 ^ 31

/-- The first `seek_bytes` operand out of range (R147). -/
def seekBytesLimit : Nat := 2 ^ 28

/-- What a byte of IN that nothing lists reads as. DESIGN CHOICE (log entry 2): IN is launch state (R21), every byte
string of CAP bytes is some memory, and a host load lists every byte below CAP (R63, log entry 16), so only
`State.reset`'s own memory, and a word placed for a fetch, lean on this value. -/
def unlistedByte : Byte := 0

/-! Free values. Each draw has a number (the counter `State.freeCount`); the constants have no body. Log entry 1. -/

/-- An unspecified number: draw, then which of the values of that draw. -/
opaque freeNat : Nat → Nat → Nat

/-- An unspecified integer: draw, then which of the values of that draw. -/
opaque freeInt : Nat → Nat → Int

/-- What HDR.sample_rate holds of a STREAMINFO value its 20 bits cannot hold (R26, R40; log entry 11). -/
opaque freeSampleRate : Nat → BitVec 20

/-- What HDR.bps holds of a STREAMINFO value its 6 bits cannot hold (R26, R40; log entry 11). -/
opaque freeBps : Nat → BitVec 6

/-- An unspecified flag. -/
opaque freeFlag : Nat → Bool

/-- The unspecified lookahead cache. -/
opaque freeCache : Nat → Word32

/-- The unspecified result register. -/
opaque freeRes : Nat → Word64

/-- The unspecified output buffer. -/
opaque freeOut : Nat → List Byte

/-- The unspecified word in sample-buffer entry (channel, index): draw, channel, index. -/
opaque freeSample : Nat → Nat → Nat → Word64

end Config

/-- NARROW_OVERFLOW (R8, R301, D23): what a 32-bit accumulation does when its value does not fit. -/
inductive NarrowOverflow where
  | wrap
  | fault
  deriving DecidableEq, Repr

/-- The parameters of R41: fixed for a run, readable by rules, never written. -/
structure Params where
  /-- CAP: the number of bytes of IN the block may touch (R8, D4). -/
  cap : Nat
  /-- CHECK_CRC8: whether the header parse verifies the CRC-8 (R8, D16). -/
  checkCrc8 : Bool
  /-- NARROW_OVERFLOW (R8, D23). -/
  narrowOverflow : NarrowOverflow
  deriving DecidableEq, Repr

/-- STREAMINFO (R40, D41): the defaults record the host supplies and the block never writes. -/
structure StreamInfo where
  sampleRate : Nat
  channels : Nat
  bps : Nat
  minBlocksize : Nat
  maxBlocksize : Nat
  minFramesize : Nat
  maxFramesize : Nat
  deriving DecidableEq, Repr

end Sys2Proof
end

