-- ==== Sys2Proof/Machine/State.lean ====
section
/-! DEFINITION. The state of the block: every element of 10_state.md rule R20, the launch state the host owns (IN,
STREAMINFO, the parameters: R21, R40, R41), the host's commands, and three fields of the model's own (`seq`,
`pending`, `freeCount`). Plain data throughout. -/

namespace Sys2Proof.Machine

/-- IN as a sparse array: (address, byte) pairs, addresses strictly rising, no entry equal to `Config.unlistedByte`. -/
abbrev Memory := List Host.Cell

/-- The error kinds of R380. FormatMismatch and SequenceMismatch are host-side: the block never raises them. -/
inductive ErrKind where
  | none
  | syncLoss
  | headerChecksumMismatch
  | frameChecksumMismatch
  | structuralError
  | arithmeticOverflow
  | formatMismatch
  | sequenceMismatch
  | bufferOverrun
  | formatError
  | noCursor
  | argumentRange
  | illegalCommand
  deriving DecidableEq, Repr

/-- FSTATE (R34). -/
inductive FState where
  | idle
  | headerParsed
  | subframesDecoded
  | verified
  | packed
  | failed
  deriving DecidableEq, Repr

/-- HDR.assignment (R26). -/
inductive Assignment where
  | independent
  | leftSide
  | rightSide
  | midSide
  deriving DecidableEq, Repr

/-- HDR.number_kind (R26). -/
inductive NumberKind where
  | frameNumber
  | sampleNumber
  deriving DecidableEq, Repr

/-- HDR, the frame header record, with the widths of R26. -/
structure Header where
  valid : Bool
  blocksize : BitVec 17
  sampleRate : BitVec 20
  channels : BitVec 4
  assignment : Assignment
  bps : BitVec 6
  numberKind : NumberKind
  number : BitVec 36
  crc8 : BitVec 8
  length : BitVec 5
  deriving DecidableEq, Repr

/-- SUB[c].type (R27). -/
inductive SubframeType where
  | constant
  | verbatim
  | fixed
  | lpc
  deriving DecidableEq, Repr

/-- SUB[c], the subframe descriptor (R27). -/
structure Subframe where
  type : SubframeType
  order : Nat
  wasted : Nat
  depth : Nat
  deriving DecidableEq, Repr

/-- RP, the residual parameters (R28). -/
structure ResidualParams where
  method : Nat
  paramBits : Nat
  partitionOrder : Nat
  param : Nat
  escapeWidth : Nat
  deriving DecidableEq, Repr

/-- LPCP, the LPC parameters (R29): coeff[j] for j in 0..31. -/
structure LpcParams where
  precision : Nat
  shift : Nat
  coeff : Vector Int 32
  deriving DecidableEq, Repr

/-- CH, the channel sample buffers (R30, R32). Entry i of channel c is element i of list c: `some v` holds v, `none`
and everything past the list's end was not written. What an entry nothing wrote reads as: nothing (a fault, R32)
when `background` is none; the free sample of draw k when `background` is `some k` (CH is unspecified after a raise,
60_exceptions.md rule R390). -/
structure ChannelFile where
  background : Option Nat
  cells : Vector (List (Option Int)) 8
  deriving DecidableEq, Repr

/-- The sequencer's place inside a frame-level command: the local names of the pseudocode (`start` of R190 and R361,
`c` and `base` of R220, the order k and partition j of R250 to R253, the codes of W that later steps use, the VLU
value in progress). It is empty between commands. The model's own carrier (log entry 5). -/
structure Sequencer where
  start : Nat
  chan : Fin 8
  base : Nat
  order : Nat
  part : Nat
  bsc : BitVec 4
  src : BitVec 4
  blk : Bool
  vlu : Nat
  vluWide : Bool
  deriving DecidableEq, Repr

/-- What the next steps are asked to run: a host command word (R91), or one field of the bitstream of a named format,
fetched at POS (R90 (a); log entry 4). -/
inductive Request where
  | command (w : CmdWord)
  | field (f : Format)
  deriving DecidableEq, Repr

/-- What the host writes itself (60_exceptions.md rule R395): IN from index 0 on, its data bytes and then its slack, with
CAP their number (R63); STREAMINFO; CHECK_CRC8 and NARROW_OVERFLOW. The values of the slack bytes are none the host
defines, so they stand here as an argument: any values, and what is said of a load holds for all (R63). -/
inductive HostWrite where
  | load (bytes slack : List Byte)
  | streamInfo (si : StreamInfo)
  | params (checkCrc8 : Bool) (narrowOverflow : NarrowOverflow)
  deriving DecidableEq, Repr

/-- Why the machine stops with a fault. -/
inductive Fault where
  /-- A read of sample-buffer entry CH[c][i] that no operation of the current frame wrote (R32, D42), raised by the
  predictors, the wasted-bits shift, the decorrelator and the packer through `readSamples`. Safe: the original would
  go on with a stale value. No command issued by a host reaches it. -/
  | unwrittenSample (c i : Nat)
  deriving DecidableEq, Repr

/-- Why an instruction has no meaning here. -/
inductive Refusal where
  /-- An instruction the model has not reached; no arm of exec answers it. Safe. -/
  | notModelled (mnemonic : String)
  /-- The host writes IN, STREAMINFO or a parameter while CUR_VALID = 1 (R73, D37), raised by `hostWrite`, which is no
  instruction. Safe: such a trace is outside the model. -/
  | hostWriteDuringAttempt
  deriving DecidableEq, Repr

/-- The state of the block. -/
structure State where
  /-- IN (R21): launch state, never written by a step. -/
  input : Memory
  /-- CAP, CHECK_CRC8, NARROW_OVERFLOW (R41): launch state, never written by a step. -/
  params : Params
  /-- STREAMINFO (R40): launch state, never written by a step. -/
  streamInfo : StreamInfo
  /-- BYTE of POS (R22). -/
  byte : Nat
  /-- BIT of POS (R22). -/
  bit : Fin 8
  /-- CACHE (R23). -/
  cache : Word32
  /-- CUR_VALID (R24). -/
  curValid : Bool
  /-- HDR (R26). -/
  hdr : Header
  /-- SUB[c], c in 0..7 (R27). -/
  sub : Vector Subframe 8
  /-- RP (R28). -/
  rp : ResidualParams
  /-- LPCP (R29). -/
  lpcp : LpcParams
  /-- CH (R30). -/
  ch : ChannelFile
  /-- WIDE (R31). -/
  wide : Bool
  /-- OUT (R33). -/
  out : List Byte
  /-- FSTATE (R34). -/
  fstate : FState
  /-- ERR (R35). -/
  err : ErrKind
  /-- RES (R36). -/
  res : Word64
  /-- OK (R37). -/
  ok : Bool
  /-- The model's own: the sequencer's local names. -/
  seq : Sequencer
  /-- The commands the host has issued and the block has not run, oldest first (R395: the command word). -/
  pending : List Request
  /-- The model's own: how many free values have been drawn (log entry 1). -/
  freeCount : Nat
  deriving DecidableEq, Repr

/-- The sequencer between commands. -/
def Sequencer.idle : Sequencer where
  start := 0
  chan := 0
  base := 0
  order := 0
  part := 0
  bsc := 0
  src := 0
  blk := false
  vlu := 0
  vluWide := false

/-- The header record at reset: HDR.valid = 0 (R45); the other fields are unspecified there and zero here, DESIGN
CHOICE (log entry 3). -/
def Header.reset : Header where
  valid := false
  blocksize := 0
  sampleRate := 0
  channels := 0
  assignment := .independent
  bps := 0
  numberKind := .frameNumber
  number := 0
  crc8 := 0
  length := 0

/-- A subframe descriptor at reset, unspecified in R45 and zero here, DESIGN CHOICE (log entry 3). -/
def Subframe.reset : Subframe where
  type := .constant
  order := 0
  wasted := 0
  depth := 0

/-- The state after reset (R45, R420): CUR_VALID, HDR.valid, OK, WIDE are 0, FSTATE is Idle, ERR is None, RES is 0.
The elements R45 leaves unspecified are zero or empty, DESIGN CHOICE (log entry 3), and CH holds no value in any
entry. IN, STREAMINFO and the parameters are the host's and reset does not touch them (R422): here they are those of a
host that has loaded no frame byte (CAP is the four slack bytes, R63) and uses the conventions of 95_test_vectors.md,
DESIGN CHOICE (log entry 3). No command is pending (R421). -/
def State.reset : State where
  input := []
  params := { cap := 4, checkCrc8 := true, narrowOverflow := .wrap }
  streamInfo :=
    { sampleRate := 44100, channels := 2, bps := 16, minBlocksize := 4096, maxBlocksize := 4096,
      minFramesize := 0, maxFramesize := 0 }
  byte := 0
  bit := 0
  cache := 0
  curValid := false
  hdr := Header.reset
  sub := Vector.replicate 8 Subframe.reset
  rp := { method := 0, paramBits := 0, partitionOrder := 0, param := 0, escapeWidth := 0 }
  lpcp := { precision := 0, shift := 0, coeff := Vector.replicate 32 0 }
  ch := { background := none, cells := Vector.replicate 8 [] }
  wide := false
  out := []
  fstate := .idle
  err := .none
  res := 0
  ok := false
  seq := Sequencer.idle
  pending := []
  freeCount := 0

end Sys2Proof.Machine
end

