-- ==== Sys2Proof/Machine/Ops.lean ====
section
/-! DEFINITION. The shared operations over memory, sample buffers and registers; the sequencing of internal steps that
may raise; taking an error (60_exceptions.md rule R390) and starting a new attempt (R386); refusing a command
(R388, R389). -/

namespace Sys2Proof.Machine

/-! ### IN -/

/-- The byte at address `a`, listed or not. -/
def Memory.read : Memory → Nat → Byte
  | [], _ => Config.unlistedByte
  | (x, v) :: rest, a => if x = a then v else Memory.read rest a

/-- Put the byte `v` at address `a`, keeping the canonical form. The block never writes IN (R21); the host does. -/
def Memory.write : Memory → Nat → Byte → Memory
  | [], a, v => if v = Config.unlistedByte then [] else [(a, v)]
  | (x, u) :: rest, a, v =>
    if a < x then (if v = Config.unlistedByte then (x, u) :: rest else (a, v) :: (x, u) :: rest)
    else if a = x then (if v = Config.unlistedByte then rest else (a, v) :: rest)
    else (x, u) :: Memory.write rest a v

/-- Put a byte string at consecutive addresses from `a`. -/
def Memory.load (m : Memory) (a : Nat) : List Byte → Memory
  | [] => m
  | v :: vs => Memory.load (m.write a v) (a + 1) vs

/-- The canonical form: addresses at least `lo` and strictly rising, no entry equal to what an unlisted address reads as. -/
def Memory.wfFrom : Nat → Memory → Bool
  | _, [] => true
  | lo, (x, v) :: rest => decide (lo ≤ x) && v != Config.unlistedByte && Memory.wfFrom (x + 1) rest

/-- The canonical form of IN. -/
def Memory.wf (m : Memory) : Bool := Memory.wfFrom 0 m

/-! ### CH -/

/-- The value a sample word denotes: i64 when WIDE = 1, i32 when WIDE = 0 (R30). -/
def sampleOfWord (wide : Bool) (w : Word64) : Int :=
  if wide then w.toInt else (w.setWidth 32).toInt

/-- What an entry nothing wrote reads as (R32; R390 item 5 after a raise). -/
def ChannelFile.backgroundAt (f : ChannelFile) (wide : Bool) (c i : Nat) : Option Int :=
  f.background.map fun k => sampleOfWord wide (Config.freeSample k c i)

/-- CH[c][i], where it holds a value. -/
def ChannelFile.read (f : ChannelFile) (wide : Bool) (c : Fin 8) (i : Nat) : Option Int :=
  match f.cells[c].getD i none with
  | some v => some v
  | none => f.backgroundAt wide c i

/-- The first `n` entries of a buffer from index `i` on, or the index of the first that holds no value. -/
def readFrom (back : Nat → Option Int) : List (Option Int) → Nat → Nat → Except Nat (List Int)
  | _, _, 0 => .ok []
  | cells, i, n + 1 =>
    match (match cells.head?.join with | some v => some v | none => back i) with
    | none => .error i
    | some v =>
      match readFrom back cells.tail (i + 1) n with
      | .ok vs => .ok (v :: vs)
      | .error j => .error j

/-- Write consecutive entries from index `i`. -/
def writeAt (cells : List (Option Int)) (i : Nat) (vs : List Int) : List (Option Int) :=
  if vs.isEmpty then cells
  else cells.take i ++ List.replicate (i - cells.length) none ++ vs.map some ++ cells.drop (i + vs.length)

/-- `MemWrite(CH[c], i, n, vs)` (R15). -/
def ChannelFile.write (f : ChannelFile) (c : Fin 8) (i : Nat) (vs : List Int) : ChannelFile :=
  { f with cells := f.cells.set c (writeAt f.cells[c] i vs) }

/-- CH with no entry written: the buffers of a new frame (R32, R423). -/
def ChannelFile.unwritten : ChannelFile where
  background := none
  cells := Vector.replicate 8 []

/-! ### Register writes -/

/-- `RES <- v`. -/
def State.withRes (v : Word64) (s : State) : State := { s with res := v }

/-- `OK <- b`. -/
def State.withOk (b : Bool) (s : State) : State := { s with ok := b }

/-- `FSTATE <- f`. -/
def State.withFState (f : FState) (s : State) : State := { s with fstate := f }

/-- `OUT <- bytes`. -/
def State.withOut (bytes : List Byte) (s : State) : State := { s with out := bytes }

/-- WIDE and CH are written together, when a frame's buffers are chosen. -/
def State.withBuffers (wide : Bool) (f : ChannelFile) (s : State) : State := { s with wide := wide, ch := f }

/-- HDR is written. -/
def State.mapHdr (f : Header → Header) (s : State) : State := { s with hdr := f s.hdr }

/-- The sequencer's local names are written. -/
def State.mapSeq (f : Sequencer → Sequencer) (s : State) : State := { s with seq := f s.seq }

/-- RP is written. -/
def State.mapRp (f : ResidualParams → ResidualParams) (s : State) : State := { s with rp := f s.rp }

/-- LPCP is written. -/
def State.mapLpcp (f : LpcParams → LpcParams) (s : State) : State := { s with lpcp := f s.lpcp }

/-- coeff[0], coeff[1], ... are written, as many as are given; the others keep their values (R29). -/
def LpcParams.withCoeff (l : LpcParams) (cs : List Int) : LpcParams :=
  { l with coeff := l.coeff.mapIdx fun j x => cs.getD j x }

/-- SUB[c] is written. -/
def State.mapSub (c : Fin 8) (f : Subframe → Subframe) (s : State) : State :=
  { s with sub := s.sub.set c (f s.sub[c]) }

/-- CH[c][i..] is written. -/
def State.writeCh (c : Fin 8) (i : Nat) (vs : List Int) (s : State) : State := { s with ch := s.ch.write c i vs }

/-! ### Internal steps -/

/-- How an internal step ends early: `raise K` of 00_scope.md rule R16, or a fault of the model. -/
inductive Stop where
  | raise (k : ErrKind)
  | halt (f : Fault)
  deriving DecidableEq, Repr

/-- An internal step: it answers a value and a state, or stops, with the state at that point. -/
abbrev Op (α : Type) := EStateM Stop State α

/-- `raise K(info)` (R16); the info is not stored (R382). -/
def raise {α : Type} (k : ErrKind) : Op α := fun s => .error (.raise k) s

/-- Read the state. -/
def view {α : Type} (f : State → α) : Op α := fun s => .ok (f s) s

/-- Write the state. -/
def update (f : State → State) : Op Unit := fun s => .ok () (f s)

/-- A computed value, or the error its absence stands for. -/
def orRaise {α : Type} (k : ErrKind) : Option α → Op α
  | some a => pure a
  | none => raise k

/-- Run an internal step `n` times and collect its values in order. -/
def repeatOp {α : Type} : Nat → Op α → Op (List α)
  | 0, _ => pure []
  | n + 1, op => do
    let v ← op
    let vs ← repeatOp n op
    pure (v :: vs)

/-- Run an internal step for each element of a list, in order. -/
def forEach {α : Type} : List α → (α → Op Unit) → Op Unit
  | [], _ => pure ()
  | a :: as, f => do
    f a
    forEach as f

/-- `IN[a]` (20_memory.md rule R62). -/
def readIn (a : Nat) : Op Byte := fun s =>
  if a < s.params.cap then .ok (s.input.read a) s else .error (.raise .bufferOverrun) s

/-- `RES <- v` (R36). -/
def setRes (v : Word64) : Op Unit := update (State.withRes v)

/-- `FSTATE <- f` (R34). -/
def setFState (f : FState) : Op Unit := update (State.withFState f)

/-- Write the header record. -/
def updateHdr (f : Header → Header) : Op Unit := update (State.mapHdr f)

/-- Write the sequencer's local names. -/
def updateSeq (f : Sequencer → Sequencer) : Op Unit := update (State.mapSeq f)

/-- Write the residual parameters. -/
def updateRp (f : ResidualParams → ResidualParams) : Op Unit := update (State.mapRp f)

/-- Write the LPC parameters. -/
def updateLpcp (f : LpcParams → LpcParams) : Op Unit := update (State.mapLpcp f)

/-- Write SUB[c]. -/
def updateSub (c : Fin 8) (f : Subframe → Subframe) : Op Unit := update (State.mapSub c f)

/-- CH[c][0..n-1]; an entry that holds no value faults (R32). -/
def readSamples (c : Fin 8) (n : Nat) : Op (List Int) := fun s =>
  match readFrom (s.ch.backgroundAt s.wide c) s.ch.cells[c] 0 n with
  | .ok vs => .ok vs s
  | .error i => .error (.halt (.unwrittenSample c i)) s

/-- CH[c][i..] <- vs. -/
def writeSamples (c : Fin 8) (i : Nat) (vs : List Int) : Op Unit := update (State.writeCh c i vs)

/-! ### Errors -/

/-- The code ERR holds for each kind (R380). -/
def ErrKind.code : ErrKind → BitVec 8
  | .none => 0
  | .syncLoss => 1
  | .headerChecksumMismatch => 2
  | .frameChecksumMismatch => 3
  | .structuralError => 4
  | .arithmeticOverflow => 5
  | .formatMismatch => 6
  | .sequenceMismatch => 7
  | .bufferOverrun => 8
  | .formatError => 9
  | .noCursor => 16
  | .argumentRange => 17
  | .illegalCommand => 18

/-- The codes of HDR.assignment (R26, D3). -/
def Assignment.code : Assignment → BitVec 2
  | .independent => 0
  | .leftSide => 1
  | .rightSide => 2
  | .midSide => 3

/-- The codes of HDR.number_kind (R26, D3). -/
def NumberKind.code : NumberKind → BitVec 1
  | .frameNumber => 0
  | .sampleNumber => 1

/-- The two classes of R390 item 4: a primitive cursor or checksum command, or `parse_frame_header`, `decode_frame`,
`pack` and what runs inside them. -/
inductive CommandClass where
  | primitive
  | frame
  deriving DecidableEq, Repr

/-- HDR with every field but HDR.valid unspecified (R204), each within its width. -/
def freeHeader (k : Nat) : Header where
  valid := false
  blocksize := BitVec.ofNat 17 (Config.freeNat k 2)
  sampleRate := BitVec.ofNat 20 (Config.freeNat k 3)
  channels := BitVec.ofNat 4 (Config.freeNat k 4)
  assignment :=
    match Config.freeNat k 5 % 4 with
    | 0 => .independent
    | 1 => .leftSide
    | 2 => .rightSide
    | _ => .midSide
  bps := BitVec.ofNat 6 (Config.freeNat k 6)
  numberKind := if Config.freeNat k 7 % 2 = 0 then .frameNumber else .sampleNumber
  number := BitVec.ofNat 36 (Config.freeNat k 8)
  crc8 := BitVec.ofNat 8 (Config.freeNat k 9)
  length := BitVec.ofNat 5 (Config.freeNat k 10)

/-- An unspecified subframe descriptor. -/
def freeSubframe (k : Nat) (c : Fin 8) : Subframe where
  type :=
    match Config.freeNat k (20 + 4 * c.val) % 4 with
    | 0 => .constant
    | 1 => .verbatim
    | 2 => .fixed
    | _ => .lpc
  order := Config.freeNat k (21 + 4 * c.val) % 2 ^ 6
  wasted := Config.freeNat k (22 + 4 * c.val)
  depth := Config.freeNat k (23 + 4 * c.val)

/-- Unspecified residual parameters, within the widths of R28. -/
def freeResidualParams (k : Nat) : ResidualParams where
  method := Config.freeNat k 11 % 2 ^ 2
  paramBits := 4 + Config.freeNat k 12 % 2
  partitionOrder := Config.freeNat k 13 % 2 ^ 4
  param := Config.freeNat k 14 % 2 ^ 5
  escapeWidth := Config.freeNat k 15 % 2 ^ 5

/-- Unspecified LPC parameters, precision and shift within the ranges of R29, and all 32 coefficients. -/
def freeLpcParams (k : Nat) : LpcParams where
  precision := 1 + Config.freeNat k 16 % 15
  shift := Config.freeNat k 17 % 2 ^ 4
  coeff := Vector.ofFn fun j => Config.freeInt k j.val

/-- The cursor is dropped: CUR_VALID <- 0, and BYTE, BIT and CACHE become unspecified (R372, R390 item 3). One draw. -/
def dropCursor (s : State) : State :=
  { s with
    curValid := false
    byte := Config.freeNat s.freeCount 0
    bit := Fin.ofNat 8 (Config.freeNat s.freeCount 1)
    cache := Config.freeCache s.freeCount
    seq := Sequencer.idle
    freeCount := s.freeCount + 1 }

/-- The header is rejected (R204): HDR.valid is 0 and every other field of HDR is unspecified. -/
def State.rejectHeader (s : State) : State := { s with hdr := freeHeader s.freeCount }

/-- Run steps of the header parse: a step that stops rejects the header (R204). -/
def rejecting {α : Type} (op : Op α) : Op α := fun s =>
  match op s with
  | .ok a t => .ok a t
  | .error e t => .error e t.rejectHeader

/-- The effects of a `raise K` (R390), on the state at the raise: ERR gets the kind, the cursor is dropped, FSTATE is
Failed for a frame-level command; RES, OK, CH, SUB, RP, LPCP and OUT are unspecified (R390 item 5, log entry 6). HDR is as
the raise found it: a header rejection has invalidated it there (`rejecting`), and no other raise writes it. Nothing is
saved and control goes nowhere (R390 items 6 and 7). -/
def takeRaise (c : CommandClass) (k : ErrKind) (s : State) : State :=
  { dropCursor s with
    err := k
    fstate := if c = .frame then .failed else s.fstate
    res := Config.freeRes s.freeCount
    ok := Config.freeFlag s.freeCount
    ch := { background := some s.freeCount, cells := Vector.replicate 8 [] }
    sub := Vector.ofFn (freeSubframe s.freeCount)
    rp := freeResidualParams s.freeCount
    lpcp := freeLpcParams s.freeCount
    out := Config.freeOut s.freeCount }

/-- There is no return from an error (R386): the state it leaves persists until the host starts a new attempt. This is
that start, the register writes of `cursor_new` before the position is set (40_bitcursor.md rule R132). OK <- 0 is
R132's (log entry 23). R132 writes no WIDE, and `decode_frame` clears it when a frame begins (R423, log entry 25). -/
def startAttempt (s : State) : State :=
  { s with
    err := .none
    ok := false
    hdr := { s.hdr with valid := false }
    fstate := .idle
    curValid := true }

/-- A refused command: `ERR <- code` and nothing else changes (R388, R389). -/
def refuse (k : ErrKind) (s : State) : State := { s with err := k }

/-! ### Running a command -/

/-- The outcome type of every meaning. -/
abbrev Result := Host.Outcome State Fault Refusal

/-- End a command: what its internal steps answered becomes the next state. `fin` is what a successful end still does. -/
def finish (c : CommandClass) (fin : State → State) : EStateM.Result Stop State Unit → Result
  | .ok _ t => .next (fin t)
  | .error (.raise k) t => .next (takeRaise c k t)
  | .error (.halt f) _ => .fault f

/-- A host command: between commands the sequencer holds nothing. -/
def runCommand (c : CommandClass) (op : Op Unit) (s : State) : Result :=
  finish c (fun t => { t with seq := Sequencer.idle }) (op s)

/-- A field of the bitstream or an internal procedure: the sequencer's local names stay for the next. -/
def runField (c : CommandClass) (op : Op Unit) (s : State) : Result := finish c id (op s)

/-- A command that needs a cursor (R150, R388). -/
def needCursor (s : State) (r : Result) : Result :=
  if s.curValid then r else .next (refuse .noCursor s)

/-- A command whose operand must lie in a range (R150, R389). -/
def needRange (inRange : Bool) (s : State) (r : Result) : Result :=
  if inRange then r else .next (refuse .argumentRange s)

end Sys2Proof.Machine
end

