-- ==== Sys2Proof/Machine/Operands.lean ====
section
/-! DEFINITION. Operands and number forms: the ranges of command operands (60_exceptions.md rule R389), sign extension
and shifts (00_scope.md rules R13 and R14), every operand assembled from stream bits (30_encoding.md rules R95 to R98
and R112), the zig-zag map (44_residual.md rule R256) and the narrowing points of 45_predictors.md rules R301 to R303. -/

namespace Sys2Proof.Machine

/-! ### Command operands -/

/-- `read_bits` and `read_signed`: n in 1 to 32. -/
def readRange32 (n : BitVec 32) : Bool := decide (1 ≤ n.toNat) && decide (n.toNat ≤ 32)

/-- `read_bits64` and `read_signed64`: n in 1 to 64. -/
def readRange64 (n : BitVec 32) : Bool := decide (1 ≤ n.toNat) && decide (n.toNat ≤ 64)

/-- `seek_bits`: n below 2^31. -/
def seekBitsRange (n : BitVec 32) : Bool := decide (n.toNat < Config.seekBitsLimit)

/-- `seek_bytes`: n below 2^28. -/
def seekBytesRange (n : BitVec 32) : Bool := decide (n.toNat < Config.seekBytesLimit)

/-- `decode_frame`: a below 2^29. -/
def frameIndexRange (a : BitVec 32) : Bool := decide (a.toNat < Config.frameIndexLimit)

/-! ### Integers -/

/-- `sext_N(v)` (R14): the low `n` bits of `v` as an `n`-bit two's-complement number. -/
def sext (n v : Nat) : Int :=
  let w := v % 2 ^ n
  if w.testBit (n - 1) then (w : Int) - 2 ^ n else w

/-- `v << s` on mathematical integers (R14). -/
def shl (v : Int) (s : Nat) : Int := v * 2 ^ s

/-- `asr(v, s)`: floor(v / 2^s) (R14). -/
def asr (v : Int) (s : Nat) : Int := v / 2 ^ s

/-- `fits32(v)` (R13). -/
def fits32 (v : Int) : Bool := decide (-2 ^ 31 ≤ v) && decide (v ≤ 2 ^ 31 - 1)

/-- `fits64(v)` (R13). -/
def fits64 (v : Int) : Bool := decide (-2 ^ 63 ≤ v) && decide (v ≤ 2 ^ 63 - 1)

/-- `wrap32(v)` (R13): the i32 congruent to v modulo 2^32. -/
def wrap32 (v : Int) : Int := Int.bmod v (2 ^ 32)

/-- `Narrow32(v)` (R301); none where it raises ArithmeticOverflow. -/
def narrow32 (mode : NarrowOverflow) (v : Int) : Option Int :=
  if fits32 v then some v
  else match mode with
    | .wrap => some (wrap32 v)
    | .fault => none

/-- `Wide64(v)` (R302); none where it raises ArithmeticOverflow. -/
def wide64 (v : Int) : Option Int := if fits64 v then some v else none

/-- `Store(v)` of a frame (43_subframe.md rule R229, 46_decorrelator.md rule R320). -/
def store (mode : NarrowOverflow) (wide : Bool) (v : Int) : Option Int :=
  if wide then wide64 v else narrow32 mode v

/-- The accumulation path of a subframe (R300). -/
inductive Path where
  | acc32
  | acc64
  deriving DecidableEq, Repr

/-- A Fixed subframe of depth `d` and order `k` (R300). -/
def fixedPath (d k : Nat) : Path := if d + k ≤ 32 then .acc32 else .acc64

/-- An LPC subframe of depth `d` (R300). -/
def lpcPath (d : Nat) : Path := if d ≤ 16 then .acc32 else .acc64

/-- `Acc(path, v)` (R303); none where it raises ArithmeticOverflow. -/
def acc (mode : NarrowOverflow) (wide : Bool) (path : Path) (v : Int) : Option Int :=
  match path, wide with
  | .acc32, _ => narrow32 mode v
  | .acc64, false => if fits32 v then some v else none
  | .acc64, true => wide64 v

/-- `ZigZag(u)` (R256). -/
def zigZag (u : Nat) : Int := if u % 2 = 0 then ((u / 2 : Nat) : Int) else -(((u + 1) / 2 : Nat) : Int)

/-! ### Header codes -/

/-- What a code of the header word stands for: rejected, a field that follows the number, or a value. -/
inductive CodeValue where
  | reserved
  | hint
  | value (n : Nat)
  deriving DecidableEq, Repr

/-- A sample rate in the 20 bits of HDR.sample_rate (R26). A STREAMINFO value they cannot hold (R40 bounds none) leaves a
free value (log entry 11). -/
def sampleRateBits (n : Nat) : BitVec 20 := if n < 2 ^ 20 then BitVec.ofNat 20 n else Config.freeSampleRate n

/-- A depth in the 6 bits of HDR.bps (R26), in the same way. -/
def bpsBits (n : Nat) : BitVec 6 := if n < 2 ^ 6 then BitVec.ofNat 6 n else Config.freeBps n

/-- Block-size code BSC (R95). -/
def blocksizeOf (bsc : BitVec 4) : CodeValue :=
  match bsc.toNat with
  | 0 => .reserved
  | 1 => .value 192
  | 6 => .hint
  | 7 => .hint
  | c => if c < 8 then .value (576 <<< (c - 2)) else .value (256 <<< (c - 8))

/-- Sample-rate code SRC (R96, 90_conflicts.md C3). -/
def sampleRateOf (si : StreamInfo) (src : BitVec 4) : CodeValue :=
  match src.toNat with
  | 0 => .value si.sampleRate
  | 1 => .value 88200
  | 2 => .value 176400
  | 3 => .value 192000
  | 4 => .value 8000
  | 5 => .value 16000
  | 6 => .value 22050
  | 7 => .value 24000
  | 8 => .value 32000
  | 9 => .value 44100
  | 10 => .value 48000
  | 11 => .value 96000
  | 15 => .reserved
  | _ => .hint

/-- Channel nibble CHN (R97): channels and assignment, none where reserved. -/
def channelsOf (chn : BitVec 4) : Option (Nat × Assignment) :=
  match chn.toNat with
  | 8 => some (2, .leftSide)
  | 9 => some (2, .rightSide)
  | 10 => some (2, .midSide)
  | c => if c < 8 then some (c + 1, .independent) else none

/-- Bits-per-sample code BPC (R98). -/
def bpsOf (si : StreamInfo) (bpc : BitVec 3) : CodeValue :=
  match bpc.toNat with
  | 0 => .value si.bps
  | 1 => .value 8
  | 2 => .value 12
  | 4 => .value 16
  | 5 => .value 20
  | 6 => .value 24
  | 7 => .value 32
  | _ => .reserved

end Sys2Proof.Machine
end

