-- ==== Sys2Proof/Machine/Flags.lean ====
section
/-! DEFINITION. The status flags of 10_state.md rule R39, which are all there are: OK, HDR.valid, WIDE, CUR_VALID. No
operation leaves a carry, zero, sign or overflow flag. CUR_VALID is written by `startAttempt` and `dropCursor`. -/

namespace Sys2Proof.Machine

/-- `OK <- b` (R37): written by the two variable-length reads and cleared by `cursor_new`. -/
def setOk (b : Bool) : Op Unit := update (State.withOk b)

/-- `HDR.valid <- b` (R26). -/
def setHdrValid (b : Bool) : Op Unit := updateHdr fun h => { h with valid := b }

/-- The extra bit of a decorrelated stereo frame (48_frame_decoder.md rules R363 and R364). -/
def sideBit (a : Assignment) : Nat := if a = .independent then 0 else 1

/-- The value of WIDE for a frame (R363). -/
def wideOf (h : Header) : Bool := decide (32 < h.bps.toNat + sideBit h.assignment)

/-- `WIDE <- 0`, its reset value, when a frame begins (70_reset_and_hazards.md rule R423; 48_frame_decoder.md rule R360 has
WIDE among the flags `decode_frame` writes). From there on `selectWide` is the one write of WIDE in the frame (R31, log entry
25). The entries of CH are as they were. -/
def clearWide : Op Unit := update fun s => s.withBuffers false s.ch

/-- `WIDE <- …` (R31, R363). The buffers are chosen, and are new, for each frame: no entry is written yet (R32). -/
def selectWide : Op Unit :=
  update fun s => s.withBuffers (wideOf s.hdr) ChannelFile.unwritten

end Sys2Proof.Machine
end

