-- ==== Sys2Proof/Machine/Decorrelator.lean ====
section
/-! DEFINITION. ChannelDecorrelator (46_decorrelator.md). -/

namespace Sys2Proof.Machine

/-- Apply a partial map to the pairs of two channels in order; none if one of them has none. -/
def zipOption {α : Type} (f : Int → Int → Option α) : List Int → List Int → Option (List α)
  | x :: xs, y :: ys =>
    match f x y with
    | none => none
    | some z =>
      match zipOption f xs ys with
      | none => none
      | some zs => some (z :: zs)
  | _, _ => some []

/-- LeftSide, one index (R322): right = left - side. -/
def leftSideRight (mode : NarrowOverflow) (wide : Bool) (left side : Int) : Option Int :=
  store mode wide (left - side)

/-- RightSide, one index (R323): left = side + right. -/
def rightSideLeft (mode : NarrowOverflow) (wide : Bool) (side right : Int) : Option Int :=
  store mode wide (side + right)

/-- MidSide, one index (R324): (left, right) from the stored mid and side. -/
def midSidePair (mode : NarrowOverflow) (wide : Bool) (a s : Int) : Option (Int × Int) :=
  match store mode wide (shl a 1 + s % 2) with
  | none => none
  | some m =>
    match store mode wide (m + s) with
    | none => none
    | some l =>
      match store mode wide (m - s) with
      | none => none
      | some r => some (asr l 1, asr r 1)

/-- `decorrelate` (R320): exactly one of R321 to R324. -/
def decorrelateOp : Op Unit := do
  let h ← view (·.hdr)
  let mode ← view (·.params.narrowOverflow)
  let wide ← view (·.wide)
  match h.assignment with
  | .independent => pure ()
  | .leftSide => do
    let xs ← readSamples 0 h.blocksize.toNat
    let ys ← readSamples 1 h.blocksize.toNat
    let zs ← orRaise .arithmeticOverflow (zipOption (leftSideRight mode wide) xs ys)
    writeSamples 1 0 zs
  | .rightSide => do
    let xs ← readSamples 0 h.blocksize.toNat
    let ys ← readSamples 1 h.blocksize.toNat
    let zs ← orRaise .arithmeticOverflow (zipOption (rightSideLeft mode wide) xs ys)
    writeSamples 0 0 zs
  | .midSide => do
    let xs ← readSamples 0 h.blocksize.toNat
    let ys ← readSamples 1 h.blocksize.toNat
    let zs ← orRaise .arithmeticOverflow (zipOption (midSidePair mode wide) xs ys)
    writeSamples 0 0 (zs.map Prod.fst)
    writeSamples 1 0 (zs.map Prod.snd)

/-- The internal procedure (R320). -/
def execDecorrelate (s : State) : Result := runField .frame decorrelateOp s

end Sys2Proof.Machine
end

