-- ==== Sys2Proof/Machine/BitCursor.lean ====
section
/-! DEFINITION. The BitCursor (40_bitcursor.md): refill, advance, the reads, the seeks, and the meanings of their
commands. -/

namespace Sys2Proof.Machine

/-! ### Position, refill, advance -/

/-- The cache word at a position (10_state.md rule R23): four bytes, the first most significant, shifted by BIT. -/
def cacheWord (m : Memory) (byte : Nat) (bit : Fin 8) : Word32 :=
  (m.read byte ++ m.read (byte + 1) ++ m.read (byte + 2) ++ m.read (byte + 3)) <<< bit.val

/-- `Refill()` (R131): four reads of IN, each of which can raise BufferOverrun (20_memory.md rule R62). -/
def refill : Op Unit := do
  let b ← view (·.byte)
  let b0 ← readIn b
  let b1 ← readIn (b + 1)
  let b2 ← readIn (b + 2)
  let b3 ← readIn (b + 3)
  update fun s => { s with cache := (b0 ++ b1 ++ b2 ++ b3) <<< s.bit.val }

/-- `POS <- (b, o)` (R131). -/
def setPos (b : Nat) (o : Fin 8) : Op Unit := do
  update fun s => { s with byte := b, bit := o }
  refill

/-- `Advance(n)` (R133). -/
def advance (n : Nat) : Op Unit := do
  let b ← view (·.byte)
  let t ← view fun s => s.bit.val + n
  setPos (b + t / 8) (Fin.ofNat 8 t)

/-- The stream bit index of the position (R22). -/
def State.position (s : State) : Nat := 8 * s.byte + s.bit.val

/-! ### Reads -/

/-- `Small(m)` (R134), 1 ≤ m ≤ 24. -/
def small (m : Nat) : Op Nat := do
  let c ← view (·.cache)
  advance m
  pure (c.toNat >>> (32 - m))

/-- `read_bits n` (R134): one cache read up to 24 bits, two above. -/
def readBits (n : Nat) : Op Nat := do
  let v ←
    if n ≤ 24 then small n
    else do
      let hi ← small 24
      let lo ← small (n - 24)
      pure ((hi <<< (n - 24)) ||| lo)
  setRes (BitVec.ofNat 64 v)
  pure v

/-- The loop of `read_bits64` (R136): `rem` bits still to read after the bits of `v`, at most 24 at a time. Every round
takes a bit, so as many rounds as bits suffice. -/
def readChunks : Nat → Nat → Nat → Op Nat
  | 0, _, v => pure v
  | rounds + 1, rem, v =>
    if rem = 0 then pure v
    else do
      let x ← readBits (min 24 rem)
      readChunks rounds (rem - min 24 rem) ((v <<< min 24 rem) ||| x)

/-- `read_bits64 n` (R136). -/
def readBits64 (n : Nat) : Op Nat := do
  let v ← readChunks n n 0
  setRes (BitVec.ofNat 64 v)
  pure v

/-- `read_signed n` (R138). -/
def readSigned (n : Nat) : Op Int := do
  let v ← readBits n
  setRes (BitVec.ofInt 64 (sext n v))
  pure (sext n v)

/-- `read_signed64 n` (R139). -/
def readSigned64 (n : Nat) : Op Int := do
  let v ← readBits64 n
  setRes (BitVec.ofInt 64 (sext n v))
  pure (sext n v)

/-- The loop of `read_unary` (R140), at most `rounds` times. Running out stands for a run of zeros longer than IN. -/
def unaryLoop : Nat → Nat → Op Nat
  | 0, _ => raise .bufferOverrun
  | rounds + 1, q => do
    let b ← readBits 1
    if b = 0 then unaryLoop rounds (q + 1)
    else do
      setRes (BitVec.ofNat 64 q)
      pure q

/-- `read_unary` (R140): IN has 8 * CAP bits, so BufferOverrun ends a run of zeros before the rounds do. -/
def readUnary : Op Nat := do
  let rounds ← view fun s => 8 * s.params.cap + 1
  unaryLoop rounds 0

/-! ### Position operations -/

/-- `cursor_new off` (R132). -/
def cursorNew (off : Nat) : Op Unit := do
  update startAttempt
  setPos (off / 8) (Fin.ofNat 8 off)

/-- `flush_to_byte_boundary` (R148). -/
def flush : Op Unit := do
  let o ← view (·.bit)
  if o.val = 0 then pure () else advance (8 - o.val)

/-- `position_bits` (R149). -/
def positionBits : Op Unit := do
  let p ← view State.position
  setRes (BitVec.ofNat 64 p)

/-! ### Meanings -/

/-- OP 0x01 (R132); it needs no cursor. -/
def execCursorNew (off : BitVec 32) (s : State) : Result :=
  runCommand .primitive (cursorNew off.toNat) s

/-- OP 0x02 (R134). -/
def execReadBits (n : BitVec 32) (s : State) : Result :=
  needCursor s (needRange (readRange32 n) s (runCommand .primitive (discard (readBits n.toNat)) s))

/-- OP 0x03 (R136). -/
def execReadBits64 (n : BitVec 32) (s : State) : Result :=
  needCursor s (needRange (readRange64 n) s (runCommand .primitive (discard (readBits64 n.toNat)) s))

/-- OP 0x04 (R138). -/
def execReadSigned (n : BitVec 32) (s : State) : Result :=
  needCursor s (needRange (readRange32 n) s (runCommand .primitive (discard (readSigned n.toNat)) s))

/-- OP 0x05 (R139). -/
def execReadSigned64 (n : BitVec 32) (s : State) : Result :=
  needCursor s (needRange (readRange64 n) s (runCommand .primitive (discard (readSigned64 n.toNat)) s))

/-- OP 0x06 (R140). -/
def execReadUnary (s : State) : Result :=
  needCursor s (runCommand .primitive (discard readUnary) s)

/-- OP 0x09 (R146). -/
def execSeekBits (n : BitVec 32) (s : State) : Result :=
  needCursor s (needRange (seekBitsRange n) s (runCommand .primitive (advance n.toNat) s))

/-- OP 0x0A (R147). -/
def execSeekBytes (n : BitVec 32) (s : State) : Result :=
  needCursor s (needRange (seekBytesRange n) s (runCommand .primitive (advance (8 * n.toNat)) s))

/-- OP 0x0B (R148). -/
def execFlushToByteBoundary (s : State) : Result :=
  needCursor s (runCommand .primitive flush s)

/-- OP 0x0C (R149). -/
def execPositionBits (s : State) : Result :=
  needCursor s (runCommand .primitive positionBits s)

end Sys2Proof.Machine
end

