-- ==== Sys2Proof/Machine/Checksum.lean ====
section
/-! DEFINITION. The checksum validators (41_checksums.md). T8 and T16 are constants (10_state.md rule R25), computed
here by the rules that define them. -/

namespace Sys2Proof.Machine

/-- One shift step of CRC-8 (R171). -/
def crc8Shift (c : BitVec 8) : BitVec 8 := if c.getLsbD 7 then (c <<< 1) ^^^ 0x07 else c <<< 1

/-- One shift step of CRC-16 (R172). -/
def crc16Shift (c : BitVec 16) : BitVec 16 := if c.getLsbD 15 then (c <<< 1) ^^^ 0x8005 else c <<< 1

/-- T8[i] (R171). -/
def t8 (i : BitVec 8) : BitVec 8 := Nat.repeat crc8Shift 8 i

/-- T16[i] (R172). -/
def t16 (i : BitVec 8) : BitVec 16 := Nat.repeat crc16Shift 8 (i ++ (0 : BitVec 8))

/-- One byte of `crc8` (R173). -/
def crc8Step (c : BitVec 8) (b : Byte) : BitVec 8 := t8 (c ^^^ b)

/-- One byte of `crc16` (R174). -/
def crc16Step (c : BitVec 16) (b : Byte) : BitVec 16 := (c <<< 8) ^^^ t16 (c.extractLsb' 8 8 ^^^ b)

/-- CRC-8 of a byte string (R173). -/
def crc8Of (bytes : List Byte) : BitVec 8 := bytes.foldl crc8Step 0

/-- CRC-16 of a byte string (R174). -/
def crc16Of (bytes : List Byte) : BitVec 16 := bytes.foldl crc16Step 0

/-- IN[a], ..., IN[a+n-1], read one at a time in order; the first index at or past CAP raises BufferOverrun (R62). -/
def readSpan : Nat → Nat → Op (List Byte)
  | _, 0 => pure []
  | a, n + 1 => do
    let x ← readIn a
    let xs ← readSpan (a + 1) n
    pure (x :: xs)

/-- `crc8 a b` (R173). -/
def crc8Op (a b : Nat) : Op (BitVec 8) := do
  let bytes ← readSpan a b
  setRes ((crc8Of bytes).setWidth 64)
  pure (crc8Of bytes)

/-- `crc16 a b` (R174). -/
def crc16Op (a b : Nat) : Op (BitVec 16) := do
  let bytes ← readSpan a b
  setRes ((crc16Of bytes).setWidth 64)
  pure (crc16Of bytes)

/-- OP 0x10 (R173); it needs no cursor and does not move POS. -/
def execCrc8 (a b : BitVec 32) (s : State) : Result :=
  runCommand .primitive (discard (crc8Op a.toNat b.toNat)) s

/-- OP 0x11 (R174); it needs no cursor and does not move POS. -/
def execCrc16 (a b : BitVec 32) (s : State) : Result :=
  runCommand .primitive (discard (crc16Op a.toNat b.toNat)) s

end Sys2Proof.Machine
end

