-- ==== Sys2Proof/Machine/Vlu.lean ====
section
/-! DEFINITION. Variable-length unsigned integers (40_bitcursor.md rules R142 to R145): the two reads and the rows of
their bytes. `seq.vluWide` says which read is running (maxcont = 6 for the 64-bit form, 5 for the 32-bit form) and
`seq.vlu` holds the value so far. -/

namespace Sys2Proof.Machine

/-- The all-ones value of the width, the failure value of RES (R142). -/
def vluSentinel (wide : Bool) : Word64 := if wide then 0xFFFFFFFFFFFFFFFF else 0x00000000FFFFFFFF

/-- The tests of `ReadVLU` on the lead byte, in R142's order: payload and number of continuation bytes. -/
def vluLeadClass (wide : Bool) (b : Nat) : Option (Nat × Nat) :=
  if b / 2 ^ 7 = 0 then some (b % 2 ^ 7, 0)
  else if b / 2 ^ 5 = 0b110 then some (b % 2 ^ 5, 1)
  else if b / 2 ^ 4 = 0b1110 then some (b % 2 ^ 4, 2)
  else if b / 2 ^ 3 = 0b11110 then some (b % 2 ^ 3, 3)
  else if b / 2 ^ 2 = 0b111110 then some (b % 2 ^ 2, 4)
  else if b / 2 = 0b1111110 then some (b % 2, 5)
  else if b = 0b11111110 ∧ wide then some (0, 6)
  else none

/-- The `fail` of R142: not a fault; OK <- 0 and RES is the sentinel. -/
def vluFail : Op (Option Nat) := do
  let wide ← view (·.seq.vluWide)
  setOk false
  setRes (vluSentinel wide)
  pure none

/-- The `succeed` of R142. -/
def vluSucceed : Op (Option Nat) := do
  let v ← view (·.seq.vlu)
  setOk true
  setRes (BitVec.ofNat 64 v)
  pure (some v)

/-- One continuation byte's payload joins the value: `v <- (v << 6) | x[5:0]`. -/
def vluAppend (payload : Nat) : Op Unit :=
  updateSeq fun q => { q with vlu := (q.vlu <<< 6) ||| payload }

/-- The continuation loop of R142: whether all `c` bytes had the form `10xxxxxx`. -/
def vluContinue : Nat → Op Bool
  | 0 => pure true
  | c + 1 => do
    let x ← readBits 8
    if x / 2 ^ 6 = 0b10 then do
      vluAppend (x % 2 ^ 6)
      vluContinue c
    else pure false

/-- What follows a lead byte that carries `payload` and announces `c` continuation bytes. -/
def vluAfterLead (payload c : Nat) : Op (Option Nat) := do
  updateSeq fun q => { q with vlu := payload }
  let good ← vluContinue c
  if good then vluSucceed else vluFail

/-- `ReadVLU(maxcont)` (R142). -/
def readVlu (wide : Bool) : Op (Option Nat) := do
  updateSeq fun q => { q with vluWide := wide }
  let b ← readBits 8
  match vluLeadClass wide b with
  | none => vluFail
  | some (payload, c) => vluAfterLead payload c

/-- OP 0x07 (R143). -/
def execReadVariableLengthUint32 (s : State) : Result :=
  needCursor s (runCommand .primitive (discard (readVlu false)) s)

/-- OP 0x08 (R144). -/
def execReadVariableLengthUint64 (s : State) : Result :=
  needCursor s (runCommand .primitive (discard (readVlu true)) s)

/-! ### The byte rows -/

/-- Lead `0xxxxxxx`. -/
def execVluLead1byte (x : BitVec 7) (s : State) : Result :=
  needCursor s (runField .primitive (discard (vluAfterLead x.toNat 0)) s)

/-- Lead `110xxxxx`. -/
def execVluLead2byte (x : BitVec 5) (s : State) : Result :=
  needCursor s (runField .primitive (discard (vluAfterLead x.toNat 1)) s)

/-- Lead `1110xxxx`. -/
def execVluLead3byte (x : BitVec 4) (s : State) : Result :=
  needCursor s (runField .primitive (discard (vluAfterLead x.toNat 2)) s)

/-- Lead `11110xxx`. -/
def execVluLead4byte (x : BitVec 3) (s : State) : Result :=
  needCursor s (runField .primitive (discard (vluAfterLead x.toNat 3)) s)

/-- Lead `111110xx`. -/
def execVluLead5byte (x : BitVec 2) (s : State) : Result :=
  needCursor s (runField .primitive (discard (vluAfterLead x.toNat 4)) s)

/-- Lead `1111110x`. -/
def execVluLead6byte (x : BitVec 1) (s : State) : Result :=
  needCursor s (runField .primitive (discard (vluAfterLead x.toNat 5)) s)

/-- Lead `11111110`: the 64-bit form only, malformed for the 32-bit form (R101, R143). -/
def execVluLead7byte (s : State) : Result :=
  needCursor s (runField .primitive
    (discard (if s.seq.vluWide then vluAfterLead 0 6 else vluFail)) s)

/-- A continuation pattern in lead position: failure (R101, R142). -/
def execVluLeadContinuation (_ : BitVec 6) (s : State) : Result :=
  needCursor s (runField .primitive (discard vluFail) s)

/-- Lead `11111111`: failure (R101, R142). -/
def execVluLeadFf (s : State) : Result :=
  needCursor s (runField .primitive (discard vluFail) s)

/-- A continuation byte (R142). -/
def execVluContinuation (payload : BitVec 6) (s : State) : Result :=
  needCursor s (runField .primitive (vluAppend payload.toNat) s)

end Sys2Proof.Machine
end

