-- ==== Sys2Proof/Machine/FrameHeader.lean ====
section
/-! DEFINITION. FrameHeader parse (42_frame_header.md), one definition per step, and the rows of the header word, the
channel nibble and the header checksum. Every rejection before the checksum raises SyncLoss (D17). -/

namespace Sys2Proof.Machine

/-- Entry (R190): `HDR.valid <- 0`, and `start <- BYTE`. -/
def headerBegin : Op Unit := do
  setHdrValid false
  let b ← view (·.byte)
  updateSeq fun q => { q with start := b }

/-- Step 2 (R193). -/
def applyBlocksize (bsc : BitVec 4) : Op Unit :=
  match blocksizeOf bsc with
  | .reserved => raise .syncLoss
  | .hint => pure ()
  | .value n => updateHdr fun h => { h with blocksize := BitVec.ofNat 17 n }

/-- Step 3 (R195). -/
def applySampleRate (src : BitVec 4) : Op Unit := do
  let si ← view (·.streamInfo)
  match sampleRateOf si src with
  | .reserved => raise .syncLoss
  | .hint => pure ()
  | .value n => updateHdr fun h => { h with sampleRate := sampleRateBits n }

/-- `HDR.channels` and `HDR.assignment` of step 4. -/
def setChannels (n : Nat) (a : Assignment) : Op Unit :=
  updateHdr fun h => { h with channels := BitVec.ofNat 4 n, assignment := a }

/-- Step 4 (R196). -/
def applyChannels (chn : BitVec 4) : Op Unit :=
  match channelsOf chn with
  | none => raise .syncLoss
  | some (n, a) => setChannels n a

/-- Step 5 (R197). -/
def applyBps (bpc : BitVec 3) : Op Unit := do
  let si ← view (·.streamInfo)
  match bpsOf si bpc with
  | .value n => updateHdr fun h => { h with bps := bpsBits n }
  | .reserved => raise .syncLoss
  | .hint => raise .syncLoss

/-- Steps 2 to 5, and the fields of W that later steps use. -/
def applyHeaderWord (blk : Bool) (bsc src chn : BitVec 4) (bpc : BitVec 3) : Op Unit := do
  updateSeq fun q => { q with blk := blk, bsc := bsc, src := src }
  applyBlocksize bsc
  applySampleRate src
  applyChannels chn
  applyBps bpc

/-- Steps 1 to 6 on the word W (R191 to R198). -/
def headerWord (w : BitVec 32) : Op Unit := do
  if w.extractLsb' 18 14 ≠ 0x3FFE then raise .syncLoss
  else do
    applyHeaderWord (w.getLsbD 16) (w.extractLsb' 12 4) (w.extractLsb' 8 4) (w.extractLsb' 4 4)
      (w.extractLsb' 1 3)
    if w.getLsbD 17 ∨ w.getLsbD 0 then raise .syncLoss else pure ()

/-- Whether the number is read in its 64-bit form (R199, D15). -/
def variableBlocksize (si : StreamInfo) (blk : Bool) : Bool :=
  blk || si.minBlocksize != si.maxBlocksize

/-- Step 7 (R199). -/
def headerNumber : Op Unit := do
  let wide ← view fun s => variableBlocksize s.streamInfo s.seq.blk
  let r ← readVlu wide
  match r with
  | none => raise .syncLoss
  | some v =>
    updateHdr fun h =>
      { h with numberKind := if wide then .sampleNumber else .frameNumber, number := BitVec.ofNat 36 v }

/-- Step 8 (R200). -/
def headerBlocksizeHint : Op Unit := do
  let bsc ← view (·.seq.bsc)
  if bsc = 6 then do
    let v ← readBits 8
    updateHdr fun h => { h with blocksize := BitVec.ofNat 17 (v + 1) }
  else if bsc = 7 then do
    let v ← readBits 16
    updateHdr fun h => { h with blocksize := BitVec.ofNat 17 (v + 1) }
  else pure ()

/-- Step 9 (R201). -/
def headerRateHint : Op Unit := do
  let src ← view (·.seq.src)
  if src = 12 then do
    let v ← readBits 8
    updateHdr fun h => { h with sampleRate := BitVec.ofNat 20 (v * 1000) }
  else if src = 13 then do
    let v ← readBits 16
    updateHdr fun h => { h with sampleRate := BitVec.ofNat 20 v }
  else if src = 14 then do
    let v ← readBits 16
    updateHdr fun h => { h with sampleRate := BitVec.ofNat 20 (v * 10) }
  else pure ()

/-- Step 10 after the checksum byte is read (R203). -/
def headerChecksum (crc : BitVec 8) : Op Unit := do
  let n ← view fun s => s.byte - s.seq.start
  updateHdr fun h => { h with crc8 := crc, length := BitVec.ofNat 5 n }
  let check ← view (·.params.checkCrc8)
  if check then do
    let start ← view (·.seq.start)
    let len ← view (·.hdr.length.toNat)
    let k ← crc8Op start (len - 1)
    if k ≠ crc then raise .headerChecksumMismatch else pure ()
  else pure ()
  setHdrValid true
  setFState .headerParsed

/-- `parse_frame_header` (R190): the steps in order; whichever stops rejects the header (R204, R205). -/
def parseHeader : Op Unit := rejecting do
  headerBegin
  let w ← readBits 32
  headerWord (BitVec.ofNat 32 w)
  headerNumber
  headerBlocksizeHint
  headerRateHint
  let c ← readBits 8
  headerChecksum (BitVec.ofNat 8 c)

/-- OP 0x20 (R190): BIT must be 0. -/
def execParseFrameHeader (s : State) : Result :=
  needCursor s (needRange (s.bit.val == 0) s (runCommand .frame parseHeader s))

/-! ### Rows -/

/-- The header word's fields, steps 2 to 5 (R193 to R197); the word matched, so steps 1 and 6 passed. -/
def execFrameHeaderWord (blk : Bool) (bsc src chn : BitVec 4) (bpc : BitVec 3) (s : State) : Result :=
  needCursor s (runField .frame (rejecting (applyHeaderWord blk bsc src chn bpc)) s)

/-- CHN = `0nnn` (R97, R196): n + 1 channels, no transform (R321). -/
def execChnIndependent (n : BitVec 3) (s : State) : Result :=
  needCursor s (runField .frame (setChannels (n.toNat + 1) .independent) s)

/-- CHN = `1000` (R97, R196): the frame is decorrelated by R322. -/
def execChnLeftSide (s : State) : Result :=
  needCursor s (runField .frame (setChannels 2 .leftSide) s)

/-- CHN = `1001` (R97, R196): the frame is decorrelated by R323. -/
def execChnRightSide (s : State) : Result :=
  needCursor s (runField .frame (setChannels 2 .rightSide) s)

/-- CHN = `1010` (R97, R196): the frame is decorrelated by R324. -/
def execChnMidSide (s : State) : Result :=
  needCursor s (runField .frame (setChannels 2 .midSide) s)

/-- CHN = `1011`, reserved (R196). -/
def execChnReserved11 (s : State) : Result := needCursor s (runField .frame (rejecting (raise .syncLoss)) s)

/-- CHN = `11xx`, reserved (R196). -/
def execChnReserved12to15 (_ : BitVec 2) (s : State) : Result :=
  needCursor s (runField .frame (rejecting (raise .syncLoss)) s)

/-- The stored CRC-8 (R203). -/
def execHeaderCrc8 (crc : BitVec 8) (s : State) : Result :=
  needCursor s (runField .frame (rejecting (headerChecksum crc)) s)

end Sys2Proof.Machine
end

