-- ==== Sys2Proof/Machine/SamplePacker.lean ====
section
/-! DEFINITION. SamplePacker (47_packer.md). -/

namespace Sys2Proof.Machine

/-- B, bytes per sample (R341). -/
def containerBytes (bps : Nat) : Nat := (bps + 7) / 8

/-- Whether 8*B is one of 8, 16, 24, 32 (R341). -/
def packable (bps : Nat) : Bool := decide (1 ≤ bps) && decide (bps ≤ 32)

/-- Scaling (R342): the low 8*B bits of v << sh, biased by 0x80 when B = 1. -/
def scaled (bps : Nat) (v : Int) : Nat :=
  let b := containerBytes bps
  let w := (shl v (8 * b - bps) % 2 ^ (8 * b)).toNat
  if b = 1 then (w + 0x80) % 256 else w

/-- Byte order (R344): least significant byte first. -/
def littleEndian : Nat → Nat → List Byte
  | 0, _ => []
  | n + 1, w => BitVec.ofNat 8 w :: littleEndian n (w / 256)

/-- The bytes of one sample (R342, R344). -/
def sampleBytes (bps : Nat) (v : Int) : List Byte := littleEndian (containerBytes bps) (scaled bps v)

/-- Narrowing (R343): a wide sample must fit 32 bits. -/
def packChecked (wide : Bool) (v : Int) : Bool := !wide || fits32 v

/-- The samples in output order (R345): index major, channels ascending. -/
def interleave : Nat → List (List Int) → List Int
  | 0, _ => []
  | n + 1, chans => chans.map (·.headD 0) ++ interleave n (chans.map List.tail)

/-- CH[c][0..n-1] for the channel numbers listed; a channel the block does not have holds no value. -/
def readChannels (n : Nat) : List Nat → Op (List (List Int))
  | [] => pure []
  | c :: cs => do
    let xs ← if h : c < 8 then readSamples ⟨c, h⟩ n
      else if n = 0 then pure []
      else fun s => .error (.halt (.unwrittenSample c 0)) s
    let rest ← readChannels n cs
    pure (xs :: rest)

/-- `pack` (R340): R341, then every sample in the order of R345. -/
def packOp : Op Unit := do
  let h ← view (·.hdr)
  if !packable h.bps.toNat then raise .formatError
  else do
    let wide ← view (·.wide)
    let chans ← readChannels h.blocksize.toNat (List.range h.channels.toNat)
    let vs := interleave h.blocksize.toNat chans
    if vs.all (packChecked wide) then do
      update (State.withOut (vs.map (sampleBytes h.bps.toNat)).flatten)
      setFState .packed
    else raise .arithmeticOverflow

/-- OP 0x22 (R340): FSTATE must be Verified; it needs no cursor. -/
def execPack (s : State) : Result :=
  if s.fstate = .verified then runCommand .frame packOp s else .next (refuse .illegalCommand s)

end Sys2Proof.Machine
end

