-- ==== Sys2Proof/Machine/Predictor.lean ====
section
/-! DEFINITION. Predictors (45_predictors.md): the Fixed restores of orders 0 to 4 and the LPC restore. A restore reads
the samples and residuals of one channel and no bit of the stream (R280). -/

namespace Sys2Proof.Machine

/-- The walk of R280 over the residuals: `f` makes a sample from the history, newest sample first, and a residual. -/
def restoreWalk (f : List Int → Int → Option Int) : List Int → List Int → Option (List Int)
  | _, [] => some []
  | h, r :: rs =>
    match f h r with
    | none => none
    | some v =>
      match restoreWalk f (v :: h) rs with
      | none => none
      | some vs => some (v :: vs)

/-- A restore of order `k` on channel `c` (R280): CH[c][0..k-1] are samples, CH[c][k..n-1] residuals. -/
def restoreWith (c : Fin 8) (k : Nat) (f : List Int → Int → Option Int) : Op Unit := do
  let n ← view (·.hdr.blocksize.toNat)
  if n ≤ k then pure ()
  else do
    let xs ← readSamples c n
    let vs ← orRaise .arithmeticOverflow (restoreWalk f (xs.take k).reverse (xs.drop k))
    writeSamples c k vs

/-- The prediction P of R282 to R285 from the history, newest first; 0 for order 0. -/
def predictFixed : Nat → List Int → Int
  | 1, a :: _ => a
  | 2, a :: b :: _ => 2 * a - b
  | 3, a :: b :: c :: _ => 3 * a - 3 * b + c
  | 4, a :: b :: c :: d :: _ => 4 * a - 6 * b + 4 * c - d
  | _, _ => 0

/-- One Fixed sample (R282 to R285). -/
def fixedSample (mode : NarrowOverflow) (wide : Bool) (path : Path) (k : Nat) (h : List Int) (r : Int) :
    Option Int :=
  acc mode wide path (r + predictFixed k h)

/-- `restore_fixed` of order k (R281 to R285); order 0 leaves CH as it is. -/
def restoreFixed (c : Fin 8) (k : Nat) : Op Unit :=
  if k = 0 then pure ()
  else do
    let mode ← view (·.params.narrowOverflow)
    let wide ← view (·.wide)
    let d ← view (·.sub[c].depth)
    restoreWith c k (fixedSample mode wide (fixedPath d k) k)

/-- The exact sum S of R296: coeff[0] meets the newest sample. -/
def lpcSum (coeff h : List Int) : Int := (List.zipWith (· * ·) coeff h).sum

/-- The narrowing of S before the shift (R296, R297). -/
def lpcNarrow (mode : NarrowOverflow) (path : Path) (v : Int) : Option Int :=
  match path with
  | .acc32 => narrow32 mode v
  | .acc64 => wide64 v

/-- One LPC sample (R296). -/
def lpcSample (mode : NarrowOverflow) (wide : Bool) (path : Path) (coeff : List Int) (shift : Nat)
    (h : List Int) (r : Int) : Option Int :=
  match lpcNarrow mode path (lpcSum coeff h) with
  | none => none
  | some v => acc mode wide path (r + asr v shift)

/-- `restore_lpc(c, k)` (R296). -/
def restoreLpc (c : Fin 8) (k : Nat) : Op Unit := do
  let mode ← view (·.params.narrowOverflow)
  let wide ← view (·.wide)
  let d ← view (·.sub[c].depth)
  let l ← view (·.lpcp)
  restoreWith c k (lpcSample mode wide (lpcPath d) (l.coeff.toList.take k) l.shift)

/-- The internal procedure (R280 to R285). -/
def execRestoreFixed (c : Fin 8) (k : Fin 5) (s : State) : Result :=
  runField .frame (restoreFixed c k.val) s

/-- The internal procedure (R296). -/
def execRestoreLpc (c : Fin 8) (k : Fin 33) (s : State) : Result :=
  runField .frame (restoreLpc c k.val) s

end Sys2Proof.Machine
end

