-- ==== Sys2Proof/Machine/Residual.lean ====
section
/-! DEFINITION. ResidualDecoder (44_residual.md): the residual section, its partitions, and the rows of its fields. The
channel, the predictor order and the partition index stand in `seq` (`chan`, `order`, `part`). -/

namespace Sys2Proof.Machine

/-- `cnt(j)` (R252). -/
def partitionSize (n p k j : Nat) : Nat := if j = 0 then (n >>> p) - k else n >>> p

/-- The write index at the start of partition j (R253: it starts at k and runs on, so partition j > 0 begins where the
j partitions before it end). -/
def partitionStart (n p k j : Nat) : Nat := if j = 0 then k else j * (n >>> p)

/-- Number of residuals of the current partition. -/
def State.partitionSize (s : State) : Nat :=
  Sys2Proof.Machine.partitionSize s.hdr.blocksize.toNat s.rp.partitionOrder s.seq.order s.seq.part

/-- Index in CH of the first residual of the current partition. -/
def State.partitionStart (s : State) : Nat :=
  Sys2Proof.Machine.partitionStart s.hdr.blocksize.toNat s.rp.partitionOrder s.seq.order s.seq.part

/-- The residuals of the current partition enter CH. -/
def storePartition (vs : List Int) : Op Unit := do
  let c ← view (·.seq.chan)
  let i ← view State.partitionStart
  writeSamples c i vs

/-- One Rice-coded residual with parameter `kk` (R255, R256, R257). -/
def riceResidual (kk : Nat) : Op Int := do
  let q ← readUnary
  let r ← if kk = 0 then pure 0 else readBits kk
  let u := (q <<< kk) ||| r
  if 2 ^ 32 ≤ u then raise .arithmeticOverflow else pure (zigZag u)

/-- A Rice partition (R255). -/
def ricePartition (kk : Nat) : Op Unit := do
  updateRp fun p => { p with param := kk }
  let cnt ← view State.partitionSize
  let vs ← repeatOp cnt (riceResidual kk)
  storePartition vs

/-- An escape partition whose parameter field was `esc` (R254). -/
def escapePartition (esc : Nat) : Op Unit := do
  updateRp fun p => { p with param := esc }
  let w ← readBits 5
  updateRp fun p => { p with escapeWidth := w }
  let cnt ← view State.partitionSize
  let vs ← if w = 0 then pure (List.replicate cnt 0) else repeatOp cnt (readSigned w)
  storePartition vs

/-- Partition j (R253). -/
def decodePartition (j : Nat) : Op Unit := do
  updateSeq fun q => { q with part := j }
  let bits ← view (·.rp.paramBits)
  let param ← readBits bits
  if param = 2 ^ bits - 1 then escapePartition param else ricePartition param

/-- METHOD (R250): 0 selects a 4-bit parameter field, 1 a 5-bit one. -/
def setMethod (m : Nat) : Op Unit :=
  updateRp fun p => { p with method := m, paramBits := 4 + m }

/-- METHOD 2 and 3: "unsupported entropy-coding method" (R250). -/
def rejectMethod (m : Nat) : Op Unit := do
  updateRp fun p => { p with method := m }
  raise .structuralError

/-- The checks of R252. -/
def partitionsFit (n p k : Nat) : Bool := n % 2 ^ p == 0 && decide (k ≤ n >>> p)

/-- `decode_residual(c, k)` (R250 to R257). -/
def decodeResidual (c : Fin 8) (k : Nat) : Op Unit := do
  updateSeq fun q => { q with chan := c, order := k }
  let m ← readBits 2
  if 2 ≤ m then rejectMethod m else setMethod m
  let p ← readBits 4
  updateRp fun r => { r with partitionOrder := p }
  let n ← view (·.hdr.blocksize.toNat)
  if partitionsFit n p k then forEach (List.range (2 ^ p)) decodePartition
  else raise .structuralError

/-! ### Rows -/

/-- METHOD = `00` (R250). -/
def execResidualMethodRice4 (s : State) : Result := needCursor s (runField .frame (setMethod 0) s)

/-- METHOD = `01` (R250). -/
def execResidualMethodRice5 (s : State) : Result := needCursor s (runField .frame (setMethod 1) s)

/-- METHOD = `1x` (R250). -/
def execResidualMethodReserved (x : BitVec 1) (s : State) : Result :=
  needCursor s (runField .frame (rejectMethod (2 + x.toNat)) s)

/-- PARAM = `1111` with METHOD 0 (R254). -/
def execPartitionEscape4 (s : State) : Result := needCursor s (runField .frame (escapePartition 15) s)

/-- PARAM = `11111` with METHOD 1 (R254). -/
def execPartitionEscape5 (s : State) : Result := needCursor s (runField .frame (escapePartition 31) s)

/-- PARAM = k with METHOD 0 (R255). -/
def execPartitionRice4 (k : BitVec 4) (s : State) : Result :=
  needCursor s (runField .frame (ricePartition k.toNat) s)

/-- PARAM = k with METHOD 1 (R255). -/
def execPartitionRice5 (k : BitVec 5) (s : State) : Result :=
  needCursor s (runField .frame (ricePartition k.toNat) s)

/-- The internal procedure (R250), entered from a Fixed or LPC body. -/
def execDecodeResidual (c : Fin 8) (k : Fin 33) (s : State) : Result :=
  needCursor s (runField .frame (decodeResidual c k.val) s)

end Sys2Proof.Machine
end

