-- ==== Sys2Proof/Machine/SubframeDecoder.lean ====
section
/-! DEFINITION. SubframeDecoder (43_subframe.md): tag, wasted bits, depth, classification, the four bodies, the
wasted-bits restore, and the rows of the tag. The channel c and its base depth stand in `seq` (`chan`, `base`). -/

namespace Sys2Proof.Machine

/-- Wasted bits (R221). -/
def wastedBits (c : Fin 8) (w : Bool) : Op Unit := do
  if w then do
    let q ← readUnary
    updateSub c fun f => { f with wasted := q + 1 }
  else updateSub c fun f => { f with wasted := 0 }

/-- Effective depth (R222). -/
def effectiveDepth (c : Fin 8) : Op Unit := do
  let base ← view (·.seq.base)
  let w ← view (·.sub[c].wasted)
  if base ≤ w then raise .structuralError
  else updateSub c fun f => { f with depth := base - w }

/-- `ReadSample(d)` (R227), d = SUB[c].depth. -/
def readSample (d : Nat) : Op Int := do
  let wide ← view (·.wide)
  if wide then readSigned64 d else readSigned d

/-- SUB[c].type and SUB[c].order (R223). -/
def setType (c : Fin 8) (t : SubframeType) (order : Nat) : Op Unit :=
  updateSub c fun f => { f with type := t, order := order }

/-- An order above the block size (R223). -/
def checkOrder (k : Nat) : Op Unit := do
  let n ← view (·.hdr.blocksize.toNat)
  if n < k then raise .structuralError else pure ()

/-- Constant body (R224). -/
def constantBody (c : Fin 8) : Op Unit := do
  setType c .constant 0
  let n ← view (·.hdr.blocksize.toNat)
  let d ← view (·.sub[c].depth)
  let v ← readSample d
  writeSamples c 0 (List.replicate n v)

/-- Verbatim body (R225). -/
def verbatimBody (c : Fin 8) : Op Unit := do
  setType c .verbatim 0
  let n ← view (·.hdr.blocksize.toNat)
  let d ← view (·.sub[c].depth)
  let vs ← repeatOp n (readSample d)
  writeSamples c 0 vs

/-- The warm-up samples of R226 and R228. -/
def warmUp (c : Fin 8) (k : Nat) : Op Unit := do
  let d ← view (·.sub[c].depth)
  let vs ← repeatOp k (readSample d)
  writeSamples c 0 vs

/-- Fixed body of order k (R226); an order above 4 is rejected (R223). -/
def fixedBody (c : Fin 8) (k : Nat) : Op Unit := do
  setType c .fixed k
  if 4 < k then raise .structuralError
  else do
    checkOrder k
    warmUp c k
    decodeResidual c k
    restoreFixed c k

/-- The LPC parameters of R228. -/
def lpcParameters (k : Nat) : Op Unit := do
  let prec ← readBits 4
  if prec = 15 then raise .structuralError
  else do
    updateLpcp fun l => { l with precision := prec + 1 }
    let shift ← readSigned 5
    if shift < 0 then raise .structuralError
    else do
      updateLpcp fun l => { l with shift := shift.toNat }
      let coeff ← repeatOp k (readSigned (prec + 1))
      updateLpcp fun l => l.withCoeff coeff

/-- LPC body of order k (R228). -/
def lpcBody (c : Fin 8) (k : Nat) : Op Unit := do
  setType c .lpc k
  checkOrder k
  warmUp c k
  lpcParameters k
  decodeResidual c k
  restoreLpc c k

/-- Apply a partial map to every value in order; none if one of them has none. -/
def mapOption (f : Int → Option Int) : List Int → Option (List Int)
  | [] => some []
  | x :: xs =>
    match f x with
    | none => none
    | some y =>
      match mapOption f xs with
      | none => none
      | some ys => some (y :: ys)

/-- Wasted-bits restore (R229). -/
def restoreWasted (c : Fin 8) : Op Unit := do
  let w ← view (·.sub[c].wasted)
  if w = 0 then pure ()
  else do
    let n ← view (·.hdr.blocksize.toNat)
    let mode ← view (·.params.narrowOverflow)
    let wide ← view (·.wide)
    let xs ← readSamples c n
    let ys ← orRaise .arithmeticOverflow (mapOption (fun v => store mode wide (shl v w)) xs)
    writeSamples c 0 ys

/-- Everything after the tag (R220): R221, R222, the body the type selects (R223), R229. -/
def subframeAfterTag (w : Bool) (body : Fin 8 → Op Unit) : Op Unit := do
  let c ← view (·.seq.chan)
  wastedBits c w
  effectiveDepth c
  body c
  restoreWasted c

/-- Classification of t = TAG[6:1] (R223), tests in the rule's order. -/
def classify (t : BitVec 6) (c : Fin 8) : Op Unit :=
  if t = 0 then constantBody c
  else if t = 1 then verbatimBody c
  else if t.getLsbD 5 then lpcBody c ((t.extractLsb' 0 5).toNat + 1)
  else if t.getLsbD 3 && !t.getLsbD 4 then fixedBody c (t.extractLsb' 0 3).toNat
  else raise .structuralError

/-- The tag byte (R220, R102). -/
def subframeTag (tag : BitVec 8) : Op Unit :=
  if tag.getLsbD 7 then raise .syncLoss
  else subframeAfterTag (tag.getLsbD 0) (classify (tag.extractLsb' 1 6))

/-- `decode_subframe(c, base)` (R220). -/
def decodeSubframe (c : Fin 8) (base : Nat) : Op Unit := do
  updateSeq fun q => { q with chan := c, base := base }
  let tag ← readBits 8
  subframeTag (BitVec.ofNat 8 tag)

/-! ### Rows -/

/-- A type the classification rejects (R223). -/
def rejectType (_ : Fin 8) : Op Unit := raise .structuralError

/-- t = 0 (R224). -/
def execSubframeConstant (w : Bool) (s : State) : Result :=
  needCursor s (runField .frame (subframeAfterTag w constantBody) s)

/-- t = 1 (R225). -/
def execSubframeVerbatim (w : Bool) (s : State) : Result :=
  needCursor s (runField .frame (subframeAfterTag w verbatimBody) s)

/-- t = 8 (R226, R281). -/
def execSubframeFixed0 (w : Bool) (s : State) : Result :=
  needCursor s (runField .frame (subframeAfterTag w fun c => fixedBody c 0) s)

/-- t = 9 (R226, R282). -/
def execSubframeFixed1 (w : Bool) (s : State) : Result :=
  needCursor s (runField .frame (subframeAfterTag w fun c => fixedBody c 1) s)

/-- t = 10 (R226, R283). -/
def execSubframeFixed2 (w : Bool) (s : State) : Result :=
  needCursor s (runField .frame (subframeAfterTag w fun c => fixedBody c 2) s)

/-- t = 11 (R226, R284). -/
def execSubframeFixed3 (w : Bool) (s : State) : Result :=
  needCursor s (runField .frame (subframeAfterTag w fun c => fixedBody c 3) s)

/-- t = 12 (R226, R285). -/
def execSubframeFixed4 (w : Bool) (s : State) : Result :=
  needCursor s (runField .frame (subframeAfterTag w fun c => fixedBody c 4) s)

/-- t = `1ooooo` (R228, R296). -/
def execSubframeLpc (orderM1 : BitVec 5) (w : Bool) (s : State) : Result :=
  needCursor s (runField .frame (subframeAfterTag w fun c => lpcBody c (orderM1.toNat + 1)) s)

/-- t = 2, 3: reserved (R223). The wasted bits and the depth come first (R230). -/
def execSubframeReservedT2to3 (_ : BitVec 1) (w : Bool) (s : State) : Result :=
  needCursor s (runField .frame (subframeAfterTag w rejectType) s)

/-- t = 4 to 7: reserved (R223, R230). -/
def execSubframeReservedT4to7 (_ : BitVec 2) (w : Bool) (s : State) : Result :=
  needCursor s (runField .frame (subframeAfterTag w rejectType) s)

/-- t = 13: Fixed order 5, "reject order > 4" (R223). -/
def execSubframeFixedOrder5 (w : Bool) (s : State) : Result :=
  needCursor s (runField .frame (subframeAfterTag w fun c => fixedBody c 5) s)

/-- t = 14, 15: Fixed order 6, 7, "reject order > 4" (R223). -/
def execSubframeFixedOrder6to7 (x : BitVec 1) (w : Bool) (s : State) : Result :=
  needCursor s (runField .frame (subframeAfterTag w fun c => fixedBody c (6 + x.toNat)) s)

/-- t = 16 to 31: reserved (R223, R230). -/
def execSubframeReservedT16to31 (_ : BitVec 4) (w : Bool) (s : State) : Result :=
  needCursor s (runField .frame (subframeAfterTag w rejectType) s)

/-- TAG[7] = 1: SyncLoss, before anything else (R220, R230). -/
def execSubframeTagBit7 (_ : BitVec 7) (s : State) : Result :=
  needCursor s (runField .frame (raise .syncLoss) s)

/-- The internal procedure (R220). -/
def execDecodeSubframe (c : Fin 8) (base : Nat) (s : State) : Result :=
  needCursor s (runField .frame (decodeSubframe c base) s)

end Sys2Proof.Machine
end

