-- ==== Sys2Proof/Machine/FrameDecoder.lean ====
section
/-! DEFINITION. FrameDecoder sequencing (48_frame_decoder.md). -/

namespace Sys2Proof.Machine

/-- Whether channel c carries the side signal (R364). -/
def isSide (a : Assignment) (c : Fin 8) : Bool :=
  match a with
  | .independent => false
  | .leftSide => c == 1
  | .rightSide => c == 0
  | .midSide => c == 1

/-- `base(c)` (R364). -/
def baseDepth (h : Header) (c : Fin 8) : Nat := if isSide h.assignment c then h.bps.toNat + 1 else h.bps.toNat

/-- The channels of a frame in ascending order (R365); a parsed header has at most 8. -/
def frameChannels (h : Header) : List (Fin 8) := (List.finRange 8).take h.channels.toNat

/-- One pass of step 5 (R365). -/
def frameSubframe (c : Fin 8) : Op Unit := do
  let h ← view (·.hdr)
  decodeSubframe c (baseDepth h c)

/-- Step 5 (R365). -/
def frameSubframes : Op Unit := do
  let h ← view (·.hdr)
  forEach (frameChannels h) frameSubframe
  setFState .subframesDecoded

/-- Step 8, with `end` the current BYTE (R367, R368). -/
def frameChecksum : Op Unit := do
  let start ← view (·.seq.start)
  let stop ← view (·.byte)
  let k ← crc16Op start (stop - start)
  if k ≠ 0 then raise .frameChecksumMismatch else setFState .verified

/-- Step 10 (R370): RES <- end - start. -/
def frameLength : Op Unit := do
  let n ← view fun s => s.byte - s.seq.start
  setRes (BitVec.ofNat 64 n)

/-- Step 1 (R361): the start of a frame. `cursor_new` puts OK, HDR.valid and FSTATE in their reset values and writes no WIDE
(R132), and R423 has every frame begin with its flags in their reset values, so WIDE is cleared here (log entry 25). -/
def frameStart (a : Nat) : Op Unit := do
  clearWide
  cursorNew (8 * a)

/-- The steps of `decode_frame a` (R361 to R370). -/
def frameSteps (a : Nat) : Op Unit := do
  frameStart a
  parseHeader
  selectWide
  frameSubframes
  flush
  discard (readBits 16)
  frameChecksum
  decorrelateOp
  frameLength

/-- OP 0x21 (R360); when the attempt ends the cursor is dropped (R372). -/
def execDecodeFrame (a : BitVec 32) (s : State) : Result :=
  needRange (frameIndexRange a) s (finish .frame dropCursor (frameSteps a.toNat s))

/-- The stored CRC-16 (R367, R368): its value is not compared; the CRC-16 of the whole frame must be 0. -/
def execFrameFooter (_ : BitVec 16) (s : State) : Result :=
  needCursor s (runField .frame frameChecksum s)

/-- After `decode_frame`: `pack`, when it ended Verified (R371). -/
def packAfter (r : Result) : Result :=
  match r with
  | .next t => if t.fstate = .verified then execPack t else .next t
  | .fault f => .fault f
  | .refused x => .refused x

/-- The pseudo-operation `decode_next_frame` (R115, R371). A refused `decode_frame` runs no `pack`. -/
def execDecodeNextFrame (a : BitVec 32) (s : State) : Result :=
  needRange (frameIndexRange a) s (packAfter (execDecodeFrame a s))

end Sys2Proof.Machine
end

