-- ==== Sys2Proof/Machine/Dispatch.lean ====
section
/-! DEFINITION. One arm per constructor of Instr, each a direct call of its meaning. -/

namespace Sys2Proof.Machine

def exec (i : Instr) (s : State) : Host.Outcome State Fault Refusal :=
  match i with
  | .cursorNew off => Sys2Proof.Machine.execCursorNew off s
  | .readBits n => Sys2Proof.Machine.execReadBits n s
  | .readBits64 n => Sys2Proof.Machine.execReadBits64 n s
  | .readSigned n => Sys2Proof.Machine.execReadSigned n s
  | .readSigned64 n => Sys2Proof.Machine.execReadSigned64 n s
  | .readUnary => Sys2Proof.Machine.execReadUnary s
  | .readVariableLengthUint32 => Sys2Proof.Machine.execReadVariableLengthUint32 s
  | .readVariableLengthUint64 => Sys2Proof.Machine.execReadVariableLengthUint64 s
  | .seekBits n => Sys2Proof.Machine.execSeekBits n s
  | .seekBytes n => Sys2Proof.Machine.execSeekBytes n s
  | .flushToByteBoundary => Sys2Proof.Machine.execFlushToByteBoundary s
  | .positionBits => Sys2Proof.Machine.execPositionBits s
  | .crc8 a b => Sys2Proof.Machine.execCrc8 a b s
  | .crc16 a b => Sys2Proof.Machine.execCrc16 a b s
  | .parseFrameHeader => Sys2Proof.Machine.execParseFrameHeader s
  | .decodeFrame a => Sys2Proof.Machine.execDecodeFrame a s
  | .pack => Sys2Proof.Machine.execPack s
  | .frameHeaderWord blk bsc src chn bpc => Sys2Proof.Machine.execFrameHeaderWord blk bsc src chn bpc s
  | .chnIndependent n => Sys2Proof.Machine.execChnIndependent n s
  | .chnLeftSide => Sys2Proof.Machine.execChnLeftSide s
  | .chnRightSide => Sys2Proof.Machine.execChnRightSide s
  | .chnMidSide => Sys2Proof.Machine.execChnMidSide s
  | .chnReserved11 => Sys2Proof.Machine.execChnReserved11 s
  | .chnReserved12to15 x => Sys2Proof.Machine.execChnReserved12to15 x s
  | .subframeConstant w => Sys2Proof.Machine.execSubframeConstant w s
  | .subframeVerbatim w => Sys2Proof.Machine.execSubframeVerbatim w s
  | .subframeFixed0 w => Sys2Proof.Machine.execSubframeFixed0 w s
  | .subframeFixed1 w => Sys2Proof.Machine.execSubframeFixed1 w s
  | .subframeFixed2 w => Sys2Proof.Machine.execSubframeFixed2 w s
  | .subframeFixed3 w => Sys2Proof.Machine.execSubframeFixed3 w s
  | .subframeFixed4 w => Sys2Proof.Machine.execSubframeFixed4 w s
  | .subframeLpc orderM1 w => Sys2Proof.Machine.execSubframeLpc orderM1 w s
  | .subframeReservedT2to3 x w => Sys2Proof.Machine.execSubframeReservedT2to3 x w s
  | .subframeReservedT4to7 x w => Sys2Proof.Machine.execSubframeReservedT4to7 x w s
  | .subframeFixedOrder5 w => Sys2Proof.Machine.execSubframeFixedOrder5 w s
  | .subframeFixedOrder6to7 x w => Sys2Proof.Machine.execSubframeFixedOrder6to7 x w s
  | .subframeReservedT16to31 x w => Sys2Proof.Machine.execSubframeReservedT16to31 x w s
  | .subframeTagBit7 x => Sys2Proof.Machine.execSubframeTagBit7 x s
  | .residualMethodRice4 => Sys2Proof.Machine.execResidualMethodRice4 s
  | .residualMethodRice5 => Sys2Proof.Machine.execResidualMethodRice5 s
  | .residualMethodReserved x => Sys2Proof.Machine.execResidualMethodReserved x s
  | .partitionEscape4 => Sys2Proof.Machine.execPartitionEscape4 s
  | .partitionEscape5 => Sys2Proof.Machine.execPartitionEscape5 s
  | .partitionRice4 k => Sys2Proof.Machine.execPartitionRice4 k s
  | .partitionRice5 k => Sys2Proof.Machine.execPartitionRice5 k s
  | .vluLead1byte x => Sys2Proof.Machine.execVluLead1byte x s
  | .vluLead2byte x => Sys2Proof.Machine.execVluLead2byte x s
  | .vluLead3byte x => Sys2Proof.Machine.execVluLead3byte x s
  | .vluLead4byte x => Sys2Proof.Machine.execVluLead4byte x s
  | .vluLead5byte x => Sys2Proof.Machine.execVluLead5byte x s
  | .vluLead6byte x => Sys2Proof.Machine.execVluLead6byte x s
  | .vluLead7byte => Sys2Proof.Machine.execVluLead7byte s
  | .vluLeadContinuation x => Sys2Proof.Machine.execVluLeadContinuation x s
  | .vluLeadFf => Sys2Proof.Machine.execVluLeadFf s
  | .vluContinuation payload => Sys2Proof.Machine.execVluContinuation payload s
  | .frameFooter crc16f => Sys2Proof.Machine.execFrameFooter crc16f s
  | .headerCrc8 crc => Sys2Proof.Machine.execHeaderCrc8 crc s
  | .decodeSubframe c base => Sys2Proof.Machine.execDecodeSubframe c base s
  | .decodeResidual c k => Sys2Proof.Machine.execDecodeResidual c k s
  | .restoreFixed c k => Sys2Proof.Machine.execRestoreFixed c k s
  | .restoreLpc c k => Sys2Proof.Machine.execRestoreLpc c k s
  | .decorrelate => Sys2Proof.Machine.execDecorrelate s
  | .decodeNextFrame a => Sys2Proof.Machine.execDecodeNextFrame a s

end Sys2Proof.Machine
end

