-- ==== Sys2Proof/Machine/Fetch.lean ====
section
/-! DEFINITION. What one step does with the oldest request: a host command word (30_encoding.md rule R91) or one field
of the bitstream fetched at POS (R90 (a)); and how a word is placed so that the next step runs it. -/

namespace Sys2Proof.Machine

/-- Run a command word; one that decodes to nothing is refused with IllegalCommand (R92, R389). -/
def runWord (w : CmdWord) (s : State) : Result :=
  match decodeCommand w with
  | .ok i => exec i s
  | .error _ => .next (refuse .illegalCommand s)

/-- What a field that is no row of its format does: a header word raises SyncLoss (R191, R198), a byte that is no
continuation byte fails the variable-length read (R142). The other formats have a row for every word. -/
def rejectField (r : Reject) (s : State) : Result :=
  match r with
  | .notContinuation => runField .primitive (discard vluFail) s
  | .syncCode => runField .frame (rejecting (raise .syncLoss)) s
  | .reservedBit => runField .frame (rejecting (raise .syncLoss)) s
  | .unassignedOpcode => .next (refuse .illegalCommand s)
  | .unusedOperand => .next (refuse .illegalCommand s)

/-- The class of the command a field belongs to (R390 item 4). -/
def fieldClass : Format → CommandClass
  | .vluLead8 => .primitive
  | .vluCont8 => .primitive
  | _ => .frame

/-- The fields of the frame header: one that cannot be fetched rejects the header (R204, R205). The number's bytes are those
of a variable-length read (R142), whoever runs it. -/
def headerField : Format → Bool
  | .hdrw32 => true
  | .chn4 => true
  | .crc8f => true
  | _ => false

/-- Before a header word is fetched on its own its first byte is noted, as on entry to the parse (R190). The other half of
that entry, `HDR.valid <- 0`, belongs to `parse_frame_header` and is not done here: DESIGN CHOICE (log entry 4). A header
row run on its own that passes so leaves HDR.valid as it was; one that is rejected makes it 0 (R204). -/
def fieldBegin (f : Format) (s : State) : State :=
  if f = .hdrw32 then { s with seq := { s.seq with start := s.byte } } else s

/-- Run one field of the bitstream: fetch its bits at POS, which moves past them (R130), and execute its row. -/
def runFieldAt (f : Format) (s : State) : Result :=
  needCursor s
    (match readBits f.width (fieldBegin f s) with
     | .ok w t =>
       match decode f w with
       | .ok i => exec i t
       | .error r => rejectField r t
     | .error (.raise k) t => .next (takeRaise (fieldClass f) k (if headerField f then t.rejectHeader else t))
     | .error (.halt x) _ => .fault x)

/-- Run one request. Command words are not fields of the bitstream (R90), so a request for one at POS is refused. -/
def runRequest (r : Request) (s : State) : Result :=
  match r with
  | .command w => runWord w s
  | .field f => if f = .cmd72 then .next (refuse .illegalCommand s) else runFieldAt f s

/-! ### The host's side (R395, R396) -/

/-- The effect of a host write. A load fills IN whole: no byte below CAP is left to what an unlisted byte reads as. -/
def applyHostWrite (w : HostWrite) (s : State) : State :=
  match w with
  | .load bytes slack =>
    { s with
      input := Memory.load [] 0 (bytes ++ slack)
      params := { s.params with cap := bytes.length + slack.length } }
  | .streamInfo si => { s with streamInfo := si }
  | .params check narrow => { s with params := { s.params with checkCrc8 := check, narrowOverflow := narrow } }

/-- A host write between commands; during an attempt it is refused (R73). With no attempt going on it takes effect at once,
also before commands the host has issued that still wait in the model's queue, which then run on what was written: DESIGN
CHOICE (log entry 16). -/
def hostWrite (w : HostWrite) (s : State) : Result :=
  if s.curValid then .refused .hostWriteDuringAttempt else .next (applyHostWrite w s)

/-- The host issues a command word. -/
def hostIssue (w : CmdWord) (s : State) : State := { s with pending := s.pending ++ [.command w] }

/-- The bytes of a field of `n` bytes, first byte most significant (R65). -/
def bigEndian : Nat → Nat → List Byte
  | 0, _ => []
  | n + 1, w => BitVec.ofNat 8 (w / 256 ^ n) :: bigEndian n w

/-- Place a field of the bitstream for the next step: its bits at the start of IN, left-aligned in whole bytes, the
cursor valid at position 0 with its cache filled, and CAP at least what the fetch and the refill after it reach. -/
def placeField (f : Format) (w : Nat) (s : State) : State :=
  let nbytes := (f.width + 7) / 8
  let m := Memory.load s.input 0 (bigEndian nbytes ((w % 2 ^ f.width) * 2 ^ (8 * nbytes - f.width)))
  { s with
    input := m
    params := { s.params with cap := max s.params.cap (nbytes + Config.slackBytes) }
    curValid := true
    byte := 0
    bit := 0
    cache := cacheWord m 0 0
    pending := [.field f] }

/-- Place a word of `nbits` bits, as spec/opcode_table.json numbers them, for the next step. -/
def placeWord (nbits w : Nat) (s : State) : State :=
  match formatOfLength nbits with
  | none => s
  | some .cmd72 => { s with pending := [.command (BitVec.ofNat 72 w)] }
  | some f => placeField f w s

end Sys2Proof.Machine
end

