-- ==== Sys2Proof/Machine/Step.lean ====
section
/-! DEFINITION. One step: the oldest request, whole, with all its effects (20_memory.md rule R73, 70_reset_and_hazards.md
rules R439 and R440). With no request pending the block does nothing (R421). -/

namespace Sys2Proof.Machine

/-- One step. -/
def step (s : State) : Host.Outcome State Fault Refusal :=
  match s.pending with
  | [] => .next s
  | r :: rest => runRequest r { s with pending := rest }

/-- The state whose next step runs the instruction of `nbits` bits `w`. -/
def State.withFetchWord (s : State) (nbits w : Nat) : State := placeWord nbits w s

end Sys2Proof.Machine
end

