-- ==== Sys2Proof/Safety.lean ====
section
/-! DEFINITION. The terms the claims are stated in: the stream as bits (00_scope.md rule R12), positions and valid
cursors (R22, R23, R133), and what a good state is: for every state, and for the states a host reaches that issues
command words only. -/

namespace Sys2Proof.Machine

/-! ### The stream -/

/-- Stream bit `p` (R12). -/
def streamBit (m : Memory) (p : Nat) : Bool := (m.read (p / 8)).getLsbD (7 - p % 8)

/-- `Window(p, n)` (R12): stream bit p is its most significant bit. -/
def window (m : Memory) (p : Nat) : Nat → Nat
  | 0 => 0
  | n + 1 => 2 * window m p n + (streamBit m (p + n)).toNat

/-- The stream holds the bits `bs` from position `p` on. -/
def carries (m : Memory) (p : Nat) : List Bool → Bool
  | [] => true
  | b :: bs => streamBit m p == b && carries m (p + 1) bs

/-- The stream begins with the bits `bs` from position `p` on, in a buffer of CAP = `cap` bytes: those of them after which
the position is admissible (R133) stand in it. So begins a stream that is cut short anywhere. -/
def begins (m : Memory) (cap p : Nat) : List Bool → Bool
  | [] => true
  | b :: bs => (!decide ((p + 1) / 8 + 4 ≤ cap) || streamBit m p == b) && begins m cap (p + 1) bs

/-- The bytes IN[a], ..., IN[a+n-1]. -/
def bytesAt (m : Memory) (a n : Nat) : List Byte := (List.range n).map fun j => m.read (a + j)

/-! ### The cursor -/

/-- A position at which a refill does not fault (R133). -/
abbrev State.admissible (s : State) (p : Nat) : Prop := p / 8 + 4 ≤ s.params.cap

/-- `POS <- p` with its refill, at an admissible position (R131). -/
def State.moveTo (s : State) (p : Nat) : State :=
  { s with
    byte := p / 8
    bit := Fin.ofNat 8 p
    cache := cacheWord s.input (p / 8) (Fin.ofNat 8 p) }

/-- A read that ends at position `p` and returns `r` (R36). -/
def State.readTo (s : State) (p : Nat) (r : Word64) : State := (s.moveTo p).withRes r

/-- The invariant of the cursor while it exists (R20's range of BYTE, R23). -/
abbrev State.CursorInv (s : State) : Prop :=
  s.curValid = true → s.byte + 4 ≤ s.params.cap ∧ s.cache = cacheWord s.input s.byte s.bit

/-- A cursor exists and is as R20 and R23 say. -/
structure State.Ready (s : State) : Prop where
  valid : s.curValid = true
  bound : s.byte + 4 ≤ s.params.cap
  cached : s.cache = cacheWord s.input s.byte s.bit

/-- Between commands the sequencer holds nothing (log entry 5). -/
abbrev State.atRest (s : State) : State := { s with seq := Sequencer.idle }

/-! ### What instructions do to the attempt -/

/-- A whole frame is decoded (R360, R371). -/
def decodesFrame : Instr → Bool
  | .decodeFrame _ => true
  | .decodeNextFrame _ => true
  | _ => false

/-- A new decode attempt begins: `cursor_new`, and `decode_frame` with what contains it (R386, R398). -/
def startsAttempt : Instr → Bool
  | .cursorNew _ => true
  | i => decodesFrame i

/-! ### Errors -/

/-- The kinds of class "fault" in 60_exceptions.md rule R380: those an operation of the block raises. -/
def ErrKind.isFault : ErrKind → Bool
  | .syncLoss | .headerChecksumMismatch | .frameChecksumMismatch | .structuralError | .arithmeticOverflow
  | .bufferOverrun | .formatError => true
  | .none | .formatMismatch | .sequenceMismatch | .noCursor | .argumentRange | .illegalCommand => false

/-- The kinds of class "refusal" in R380. -/
def ErrKind.isRefusal : ErrKind → Bool
  | .noCursor | .argumentRange | .illegalCommand => true
  | .none | .syncLoss | .headerChecksumMismatch | .frameChecksumMismatch | .structuralError | .arithmeticOverflow
  | .formatMismatch | .sequenceMismatch | .bufferOverrun | .formatError => false

/-! ### Good states -/

/-- What every step keeps, whatever request it runs: the canonical form of IN and the cursor's invariant. -/
structure State.Inv (s : State) : Prop where
  memory : s.input.wf = true
  cursor : s.CursorInv

/-- The legal values of a parsed header (10_state.md rule R26). A STREAMINFO value that its field cannot hold is a
free value there (log entry 11). -/
structure HeaderOk (si : StreamInfo) (h : Header) : Prop where
  blocksize : 1 ≤ h.blocksize.toNat ∧ h.blocksize.toNat ≤ Config.maxBlocksize
  sampleRate : h.sampleRate.toNat ≤ 655350 ∨ h.sampleRate = sampleRateBits si.sampleRate
  channels : 1 ≤ h.channels.toNat ∧ h.channels.toNat ≤ Config.maxChannels
  stereo : h.assignment ≠ .independent → h.channels = 2
  bps : h.bps ∈ [8, 12, 16, 20, 24, 32] ∨ h.bps = bpsBits si.bps
  frameNumber : h.numberKind = .frameNumber → h.number.toNat < 2 ^ 31
  length : 6 ≤ h.length.toNat ∧ h.length.toNat ≤ 16

/-- Every entry CH[c][i] with c < HDR.channels and i < HDR.blocksize holds a value (R32). -/
def State.SamplesPresent (s : State) : Prop :=
  ∀ c : Fin 8, c.val < s.hdr.channels.toNat → ∀ i, i < s.hdr.blocksize.toNat → (s.ch.read s.wide c i).isSome = true

/-- A request is a command word. -/
def Request.isCommand : Request → Bool
  | .command _ => true
  | .field _ => false

/-- What a host keeps that issues command words only (60_exceptions.md rule R396). -/
structure State.HostInv (s : State) : Prop where
  inv : s.Inv
  commands : s.pending.all Request.isCommand = true
  header : s.hdr.valid = true → HeaderOk s.streamInfo s.hdr
  parsed : s.fstate ≠ .idle → s.fstate ≠ .failed → s.hdr.valid = true
  samples : s.fstate = .verified → s.hdr.channels.toNat ≤ Config.maxChannels ∧ s.SamplesPresent

end Sys2Proof.Machine
end

