-- ==== Sys2Proof/Layout.lean ====
section
/-! DEFINITION. The wire format of a frame as bits, written from the layout rules of 30_encoding.md (R93 to R109), for
claims of the form "the stream holds this layout at POS". It is the other direction of what the block does: it says
which bits stand for given values, and nothing of the machine uses it. -/

namespace Sys2Proof.Machine

/-! ### Fields -/

/-- An unsigned field of `n` bits (R112), most significant bit first. -/
def fieldBits : Nat → Nat → List Bool
  | 0, _ => []
  | n + 1, v => v.testBit n :: fieldBits n v

/-- A two's-complement field of `n` bits (R112). -/
def signedBits (n : Nat) (v : Int) : List Bool := fieldBits n (v % 2 ^ n).toNat

/-- The values an `n`-bit two's-complement field holds. -/
def fitsBits (n : Nat) (v : Int) : Bool := decide (-2 ^ (n - 1) ≤ v) && decide (v < 2 ^ (n - 1)) && decide (1 ≤ n)

/-- A unary code (R109). -/
def unaryBits (q : Nat) : List Bool := List.replicate q false ++ [true]

/-- The number whose zig-zag value is `v` (R256). -/
def zigZagCode (v : Int) : Nat := if 0 ≤ v then (2 * v).toNat else (-2 * v - 1).toNat

/-- A Rice code with parameter `k` (R107). -/
def riceBits (k : Nat) (v : Int) : List Bool := unaryBits (zigZagCode v >>> k) ++ fieldBits k (zigZagCode v)

/-! ### Variable-length integers (R101) -/

/-- Value bits of the form with `c` continuation bytes. -/
def vluValueBits (c : Nat) : Nat := if c = 0 then 7 else 5 * c + 6

/-- The continuation bytes. -/
def vluTail : Nat → Nat → List Bool
  | 0, _ => []
  | c + 1, v => true :: false :: fieldBits 6 (v >>> (6 * c)) ++ vluTail c v

/-- The lead byte. -/
def vluHead (c v : Nat) : List Bool :=
  if c = 0 then false :: fieldBits 7 v
  else List.replicate (c + 1) true ++ false :: fieldBits (6 - c) (v >>> (6 * c))

/-- The bytes of `v` in the form with `c` continuation bytes. -/
def vluBits (c v : Nat) : List Bool := vluHead c v ++ vluTail c v

/-! ### Residual sections (R105, R106) -/

/-- How a partition is coded. -/
inductive Coding where
  | rice (k : Nat)
  | escape (w : Nat)
  deriving DecidableEq, Repr

/-- A partition: its coding and its residuals. -/
structure Partition where
  coding : Coding
  values : List Int
  deriving DecidableEq, Repr

/-- The bits of a partition whose parameter field has `pb` bits. -/
def Partition.bits (pb : Nat) (p : Partition) : List Bool :=
  match p.coding with
  | .rice k => fieldBits pb k ++ p.values.flatMap (riceBits k)
  | .escape w => fieldBits pb (2 ^ pb - 1) ++ fieldBits 5 w ++ p.values.flatMap (signedBits w)

/-- The residuals have codes: a Rice parameter below the escape pattern and 32-bit values (R255, R257), or a raw width
the values fit, 0 for zeros only (R254). -/
def Partition.codable (pb : Nat) (p : Partition) : Bool :=
  match p.coding with
  | .rice k => decide (k < 2 ^ pb - 1) && p.values.all fits32
  | .escape w => decide (w < 32) && p.values.all (fun v => if w = 0 then v == 0 else fitsBits w v)

/-- A residual section. -/
structure ResidualSection where
  method : Nat
  order : Nat
  partitions : List Partition
  deriving DecidableEq, Repr

/-- The residuals, in order. -/
def ResidualSection.values (r : ResidualSection) : List Int := r.partitions.flatMap Partition.values

/-- The bits of a residual section. -/
def ResidualSection.bits (r : ResidualSection) : List Bool :=
  fieldBits 2 r.method ++ fieldBits 4 r.order ++ r.partitions.flatMap (Partition.bits (4 + r.method))

/-- The section is one of predictor order `k` in a block of `n` samples: methods 0 and 1, 2^p partitions of the sizes
of R252, each codable. -/
def ResidualSection.legal (n k : Nat) (r : ResidualSection) : Bool :=
  decide (r.method < 2) && decide (r.order < 16) && partitionsFit n r.order k
    && r.partitions.map (fun p => p.values.length) == (List.range (2 ^ r.order)).map (partitionSize n r.order k)
    && r.partitions.all (Partition.codable (4 + r.method))

/-! ### Subframes (R102 to R104) -/

/-- The residuals of samples under a predictor that reads the history, newest sample first. -/
def residualsOf (predict : List Int → Option Int) : List Int → List Int → Option (List Int)
  | _, [] => some []
  | h, x :: xs =>
    match predict h with
    | none => none
    | some p => (residualsOf predict (x :: h) xs).map ((x - p) :: ·)

/-- The residuals of the samples `xs` after `k` warm-up samples. -/
def residualsAfter (k : Nat) (predict : List Int → Option Int) (xs : List Int) : Option (List Int) :=
  residualsOf predict (xs.take k).reverse (xs.drop k)

/-- The contents of a subframe, by type. -/
inductive Body where
  | constant (v : Int)
  | verbatim (xs : List Int)
  | fixed (k : Fin 5) (xs : List Int) (r : ResidualSection)
  | lpc (orderM1 : Fin 32) (precision shift : Nat) (coeff xs : List Int) (r : ResidualSection)
  deriving DecidableEq, Repr

/-- The type code t of the tag (R103). -/
def Body.typeCode : Body → Nat
  | .constant _ => 0
  | .verbatim _ => 1
  | .fixed k _ _ => 8 + k.val
  | .lpc o _ _ _ _ _ => 32 + o.val

/-- The row of the opcode table that a body's tag selects (R103). -/
def Body.row (w : Bool) : Body → Instr
  | .constant _ => .subframeConstant w
  | .verbatim _ => .subframeVerbatim w
  | .fixed k _ _ =>
    match k with
    | 0 => .subframeFixed0 w
    | 1 => .subframeFixed1 w
    | 2 => .subframeFixed2 w
    | 3 => .subframeFixed3 w
    | 4 => .subframeFixed4 w
  | .lpc o _ _ _ _ _ => .subframeLpc (BitVec.ofNat 5 o.val) w

/-- SUB[c].type of a body (R223). -/
def Body.type : Body → SubframeType
  | .constant _ => .constant
  | .verbatim _ => .verbatim
  | .fixed _ _ _ => .fixed
  | .lpc _ _ _ _ _ _ => .lpc

/-- SUB[c].order of a body (R223). -/
def Body.order : Body → Nat
  | .constant _ => 0
  | .verbatim _ => 0
  | .fixed k _ _ => k.val
  | .lpc o _ _ _ _ _ => o.val + 1

/-- What a body writes to LPCP (R228). -/
def Body.lpcp : Body → LpcParams → LpcParams
  | .constant _ => id
  | .verbatim _ => id
  | .fixed _ _ _ => id
  | .lpc _ precision shift coeff _ _ => fun l => { l with precision := precision, shift := shift }.withCoeff coeff

/-- The bits of a body of depth `d` (R104). -/
def Body.bits (d : Nat) : Body → List Bool
  | .constant v => signedBits d v
  | .verbatim xs => xs.flatMap (signedBits d)
  | .fixed k xs r => (xs.take k.val).flatMap (signedBits d) ++ r.bits
  | .lpc o precision shift coeff xs r =>
    (xs.take (o.val + 1)).flatMap (signedBits d) ++ fieldBits 4 (precision - 1) ++ fieldBits 5 shift
      ++ coeff.flatMap (signedBits precision) ++ r.bits

/-- The samples a body stands for, `n` of them. -/
def Body.samples (n : Nat) : Body → List Int
  | .constant v => List.replicate n v
  | .verbatim xs => xs
  | .fixed _ xs _ => xs
  | .lpc _ _ _ _ xs _ => xs

/-- The prediction of R296 for an LPC body of depth `d`. -/
def lpcPredict (mode : NarrowOverflow) (d shift : Nat) (coeff h : List Int) : Option Int :=
  (lpcNarrow mode (lpcPath d) (lpcSum coeff h)).map (asr · shift)

/-- The body can stand in a block of `n` samples at depth `d`: the samples fit the depth, the residual section is
legal and holds exactly the differences between the samples and their predictions. -/
def Body.legal (mode : NarrowOverflow) (n d : Nat) : Body → Bool
  | .constant v => fitsBits d v
  | .verbatim xs => xs.length == n && xs.all (fitsBits d)
  | .fixed k xs r =>
    xs.length == n && decide (k.val ≤ n) && xs.all (fitsBits d) && r.legal n k.val
      && residualsAfter k.val (fun h => some (predictFixed k.val h)) xs == some r.values
  | .lpc o precision shift coeff xs r =>
    xs.length == n && decide (o.val + 1 ≤ n) && xs.all (fitsBits d) && r.legal n (o.val + 1)
      && decide (1 ≤ precision) && decide (precision ≤ 15) && decide (shift < 16)
      && coeff.length == o.val + 1 && coeff.all (fitsBits precision)
      && residualsAfter (o.val + 1) (lpcPredict mode d shift coeff) xs == some r.values

/-- The fields of a body can be read in a block of `n` samples at depth `d`, whatever the residuals restore to. -/
def Body.readable (n d : Nat) : Body → Bool
  | .constant v => fitsBits d v
  | .verbatim xs => xs.length == n && xs.all (fitsBits d)
  | .fixed k xs r => decide (k.val ≤ n) && decide (k.val ≤ xs.length) && (xs.take k.val).all (fitsBits d) && r.legal n k.val
  | .lpc o precision shift coeff xs r =>
    decide (o.val + 1 ≤ n) && decide (o.val + 1 ≤ xs.length) && (xs.take (o.val + 1)).all (fitsBits d)
      && decide (1 ≤ precision) && decide (precision ≤ 15) && decide (shift < 16)
      && coeff.length == o.val + 1 && coeff.all (fitsBits precision) && r.legal n (o.val + 1)

/-- A subframe: the number of wasted bits (0: the flag is clear) and the body. -/
structure SubframeLayout where
  wasted : Nat
  body : Body
  deriving DecidableEq, Repr

/-- Whether the wasted-bits flag TAG[0] is set. -/
def SubframeLayout.flag (f : SubframeLayout) : Bool := f.wasted != 0

/-- The bits after the tag, for base depth `base`: the wasted-bits code (R221) and the body. -/
def SubframeLayout.bitsAfterTag (base : Nat) (f : SubframeLayout) : List Bool :=
  (if f.flag then unaryBits (f.wasted - 1) else []) ++ f.body.bits (base - f.wasted)

/-- The bits of a subframe (R102). -/
def SubframeLayout.bits (base : Nat) (f : SubframeLayout) : List Bool :=
  false :: fieldBits 6 f.body.typeCode ++ f.flag :: f.bitsAfterTag base

/-- SUB[c] (R221 to R223). -/
def SubframeLayout.record (base : Nat) (f : SubframeLayout) : Subframe where
  type := f.body.type
  order := f.body.order
  wasted := f.wasted
  depth := base - f.wasted

/-- The subframe can stand in a block of `n` samples with base depth `base`. -/
def SubframeLayout.legal (mode : NarrowOverflow) (n base : Nat) (f : SubframeLayout) : Bool :=
  decide (f.wasted < base) && f.body.legal mode n (base - f.wasted)

/-- The fields of the subframe can be read in a block of `n` samples with base depth `base`. -/
def SubframeLayout.readable (n base : Nat) (f : SubframeLayout) : Bool :=
  decide (f.wasted < base) && f.body.readable n (base - f.wasted)

/-- The samples the subframe stands for, the wasted bits restored (R229). -/
def SubframeLayout.samples (n : Nat) (f : SubframeLayout) : List Int := (f.body.samples n).map (shl · f.wasted)

/-! ### The header (R94 to R99) -/

/-- What a header says: the codes of the header word, the number in the form with `cont` continuation bytes, and the
fields that follow it where a code asks for one. -/
structure HeaderLayout where
  blk : Bool
  bsc : BitVec 4
  src : BitVec 4
  chn : BitVec 4
  bpc : BitVec 3
  cont : Nat
  number : Nat
  blocksizeField : Nat
  rateField : Nat
  deriving DecidableEq, Repr

/-- Width of the block-size field (R95). -/
def HeaderLayout.blocksizeWidth (h : HeaderLayout) : Nat := if h.bsc = 6 then 8 else if h.bsc = 7 then 16 else 0

/-- Width of the sample-rate field (R96). -/
def HeaderLayout.rateWidth (h : HeaderLayout) : Nat :=
  if h.src = 12 then 8 else if h.src = 13 ∨ h.src = 14 then 16 else 0

/-- The header's bits before the CRC-8 byte (R94, R99). -/
def HeaderLayout.bits (h : HeaderLayout) : List Bool :=
  fieldBits 32 (encode (.frameHeaderWord h.blk h.bsc h.src h.chn h.bpc)) ++ vluBits h.cont h.number
    ++ fieldBits h.blocksizeWidth h.blocksizeField ++ fieldBits h.rateWidth h.rateField

/-- No code is reserved, the number has the form's range and a form the stream's policy reads (R199), and the fields fit. -/
def HeaderLayout.legal (si : StreamInfo) (h : HeaderLayout) : Bool :=
  blocksizeOf h.bsc != .reserved && sampleRateOf si h.src != .reserved && (channelsOf h.chn).isSome
    && bpsOf si h.bpc != .reserved
    && decide (h.cont ≤ if variableBlocksize si h.blk then 6 else 5)
    && decide (h.number < 2 ^ vluValueBits h.cont)
    && decide (h.blocksizeField < 2 ^ h.blocksizeWidth) && decide (h.rateField < 2 ^ h.rateWidth)

/-- Bytes of the header, the CRC-8 byte included. -/
def HeaderLayout.length (h : HeaderLayout) : Nat := h.bits.length / 8 + 1

/-- The header record the layout stands for (R193 to R203), with the stored checksum `crc`. -/
def HeaderLayout.record (si : StreamInfo) (h : HeaderLayout) (crc : BitVec 8) : Header where
  valid := true
  blocksize := BitVec.ofNat 17
    (match blocksizeOf h.bsc with
    | .value n => n
    | _ => h.blocksizeField + 1)
  sampleRate :=
    match sampleRateOf si h.src with
    | .value n => sampleRateBits n
    | _ => BitVec.ofNat 20
      (if h.src = 12 then h.rateField * 1000
      else if h.src = 13 then h.rateField
      else h.rateField * 10)
  channels := BitVec.ofNat 4 ((channelsOf h.chn).getD (0, .independent)).1
  assignment := ((channelsOf h.chn).getD (0, .independent)).2
  bps :=
    match bpsOf si h.bpc with
    | .value n => bpsBits n
    | _ => 0
  numberKind := if variableBlocksize si h.blk then .sampleNumber else .frameNumber
  number := BitVec.ofNat 36 h.number
  crc8 := crc
  length := BitVec.ofNat 5 h.length

/-! ### The frame (R93) -/

/-- A frame: header, stored CRC-8, subframes, padding, stored CRC-16. -/
structure FrameLayout where
  header : HeaderLayout
  crc8 : BitVec 8
  subframes : List SubframeLayout
  padding : List Bool
  crc16 : BitVec 16
  deriving DecidableEq, Repr

/-- The header record of the frame. -/
def FrameLayout.record (si : StreamInfo) (f : FrameLayout) : Header := f.header.record si f.crc8

/-- The subframes with their channels, channel 0 first. -/
def FrameLayout.channels (f : FrameLayout) : List (Fin 8 × SubframeLayout) :=
  (List.finRange 8).zip f.subframes

/-- The bits before the padding. -/
def FrameLayout.dataBits (si : StreamInfo) (f : FrameLayout) : List Bool :=
  f.header.bits ++ fieldBits 8 f.crc8.toNat
    ++ f.channels.flatMap fun cf => cf.2.bits (baseDepth (f.record si) cf.1)

/-- The bits of the frame. -/
def FrameLayout.bits (si : StreamInfo) (f : FrameLayout) : List Bool :=
  f.dataBits si ++ f.padding ++ fieldBits 16 f.crc16.toNat

/-- The frame is one of the format: legal header, one legal subframe per channel at the channel's base depth, of 1 to
32 bits per sample, padded to a byte boundary. -/
def FrameLayout.legal (p : Params) (si : StreamInfo) (f : FrameLayout) : Bool :=
  let h := f.record si
  f.header.legal si && decide (1 ≤ h.bps.toNat) && decide (h.bps.toNat ≤ 32)
    && f.subframes.length == h.channels.toNat
    && f.channels.all (fun cf => cf.2.legal p.narrowOverflow h.blocksize.toNat (baseDepth h cf.1))
    && decide (f.padding.length < 8) && (f.dataBits si ++ f.padding).length % 8 == 0

/-- Bytes of the frame. -/
def FrameLayout.length (si : StreamInfo) (f : FrameLayout) : Nat := (f.bits si).length / 8

/-- The samples of the frame's channels, the stereo transform undone (R321 to R324); none where a store overflows. -/
def decorrelated (mode : NarrowOverflow) (wide : Bool) : Assignment → List (List Int) → Option (List (List Int))
  | .leftSide, [x, y] => (zipOption (leftSideRight mode wide) x y).map fun z => [x, z]
  | .rightSide, [x, y] => (zipOption (rightSideLeft mode wide) x y).map fun z => [z, y]
  | .midSide, [x, y] => (zipOption (midSidePair mode wide) x y).map fun z => [z.map Prod.fst, z.map Prod.snd]
  | _, chans => some chans

/-- The samples of the frame, channel by channel. -/
def FrameLayout.samples (p : Params) (si : StreamInfo) (f : FrameLayout) : Option (List (List Int)) :=
  let h := f.record si
  decorrelated p.narrowOverflow (wideOf h) h.assignment (f.subframes.map (·.samples h.blocksize.toNat))

/-! ### What a decoded frame leaves -/

/-- CH with the samples of the channels listed, channel 0 first, and nothing else. -/
def ChannelFile.holding (chans : List (List Int)) : ChannelFile :=
  ((List.finRange 8).zip chans).foldl (fun f cx => f.write cx.1 0 cx.2) ChannelFile.unwritten

/-- SUB after the subframes of a frame (R27). -/
def FrameLayout.descriptors (si : StreamInfo) (f : FrameLayout) (sub : Vector Subframe 8) : Vector Subframe 8 :=
  f.channels.foldl (fun v cf => v.set cf.1 (cf.2.record (baseDepth (f.record si) cf.1))) sub

/-- LPCP after the subframes of a frame (R29). -/
def FrameLayout.lpcp (f : FrameLayout) (l : LpcParams) : LpcParams :=
  f.channels.foldl (fun l cf => cf.2.body.lpcp l) l

/-- The state after `decode_frame` of a frame the stream carries, the cursor dropped. -/
def FrameLayout.after (f : FrameLayout) (outs : List (List Int)) (rp : ResidualParams) (s : State) : State :=
  dropCursor
    { s with
      err := .none
      ok := true
      hdr := f.record s.streamInfo
      fstate := .verified
      wide := wideOf (f.record s.streamInfo)
      ch := ChannelFile.holding outs
      sub := f.descriptors s.streamInfo s.sub
      lpcp := f.lpcp s.lpcp
      rp := rp
      res := BitVec.ofNat 64 (f.length s.streamInfo) }

end Sys2Proof.Machine
end

