-- ==== Sys2Proof/Certificates/Slice0/Obligations.lean ====
section
/-! DEFINITION. The statements for the provers. Most say what `exec` answers as one equation `exec i s = .next t` whose
right side names every field that changes: its frame is the record update itself. `s.readTo p r` moves POS to p with its
refill and puts r in RES; `.atRest` empties the sequencer, as a host command does when it ends (log entry 5);
`takeRaise c k s` is the state a raise leaves (60_exceptions.md rule R390) and `s.rejectHeader` is s with its header rejected
(42_frame_header.md rule R204), both spelled out in RaiseEffects. -/

namespace Sys2Proof.Machine

/-- The twelve commands that need a cursor (R388). -/
def needsCursor : Instr → Bool
  | .readBits _ | .readBits64 _ | .readSigned _ | .readSigned64 _ | .readUnary | .readVariableLengthUint32
  | .readVariableLengthUint64 | .seekBits _ | .seekBytes _ | .flushToByteBoundary | .positionBits
  | .parseFrameHeader => true
  | _ => false

/-- The five commands that need none (R388). -/
def needsNoCursor : Instr → Bool
  | .cursorNew _ | .decodeFrame _ | .crc8 _ _ | .crc16 _ _ | .pack => true
  | _ => false

/-- The primitive cursor and checksum commands but for `cursor_new` (R390 item 4). -/
def primitiveCommand : Instr → Bool
  | .readBits _ | .readBits64 _ | .readSigned _ | .readSigned64 _ | .readUnary | .readVariableLengthUint32
  | .readVariableLengthUint64 | .seekBits _ | .seekBytes _ | .flushToByteBoundary | .positionBits | .crc8 _ _
  | .crc16 _ _ => true
  | _ => false

/-- The two variable-length reads, the only commands that write OK but for those that start an attempt or parse. -/
def readsVlu : Instr → Bool
  | .readVariableLengthUint32 | .readVariableLengthUint64 => true
  | _ => false

/-- The tag rows, the rows of the residual section, and the procedures of a subframe and of the stereo transform. -/
def subframePart : Instr → Bool
  | .subframeConstant _ | .subframeVerbatim _ | .subframeFixed0 _ | .subframeFixed1 _ | .subframeFixed2 _
  | .subframeFixed3 _ | .subframeFixed4 _ | .subframeLpc _ _ | .subframeReservedT2to3 _ _
  | .subframeReservedT4to7 _ _ | .subframeFixedOrder5 _ | .subframeFixedOrder6to7 _ _
  | .subframeReservedT16to31 _ _ | .subframeTagBit7 _ | .residualMethodRice4 | .residualMethodRice5
  | .residualMethodReserved _ | .partitionEscape4 | .partitionEscape5 | .partitionRice4 _ | .partitionRice5 _
  | .decodeSubframe _ _ | .decodeResidual _ _ | .restoreFixed _ _ | .restoreLpc _ _ | .decorrelate => true
  | _ => false

/-- The tag rows of a subframe that is not rejected (R103). -/
def tagRow : Instr → Bool
  | .subframeConstant _ | .subframeVerbatim _ | .subframeFixed0 _ | .subframeFixed1 _ | .subframeFixed2 _
  | .subframeFixed3 _ | .subframeFixed4 _ | .subframeLpc _ _ => true
  | _ => false

/-- The rows of a partition (R254, R255). -/
def partitionRow : Instr → Bool
  | .partitionEscape4 | .partitionEscape5 | .partitionRice4 _ | .partitionRice5 _ => true
  | _ => false

/-- Whether a subframe part may write CH[d][j]: a tag row the block of its channel (R224 to R229), a partition row the
entries of its partition (R253), `decode_residual` and a restore those from its order on (R258, R280), the stereo
transform those its assignment names (R321 to R324). A coding method writes none. -/
def writesEntry (i : Instr) (s : State) (d : Fin 8) (j : Nat) : Prop :=
  let n := s.hdr.blocksize.toNat
  match i with
  | .decodeSubframe c _ => d = c ∧ j < n
  | .decodeResidual c k => d = c ∧ k.val ≤ j ∧ j < n
  | .restoreFixed c k => d = c ∧ 1 ≤ k.val ∧ k.val ≤ j ∧ j < n
  | .restoreLpc c k => d = c ∧ k.val ≤ j ∧ j < n
  | .decorrelate => j < n ∧ (match s.hdr.assignment with
      | .independent => False
      | .leftSide => d = 1
      | .rightSide => d = 0
      | .midSide => d = 0 ∨ d = 1)
  | _ => d = s.seq.chan ∧ ((tagRow i = true ∧ j < n)
      ∨ (partitionRow i = true ∧ s.partitionStart ≤ j ∧ j < s.partitionStart + s.partitionSize))

/-- The channel whose descriptor SUB[c] a subframe part may write (R221 to R223). -/
def describes (i : Instr) (s : State) : Option (Fin 8) :=
  match i with
  | .decodeSubframe c _ => some c
  | _ => if tagRow i then some s.seq.chan else none

/-- The subframe parts that read the stream. The restores and the stereo transform read none (R280, R320), and a coding
method is the row of bits already read. -/
def readsStream : Instr → Bool
  | .decodeSubframe _ _ | .decodeResidual _ _ => true
  | i => tagRow i || partitionRow i

/-- The subframe parts that read a residual section, or a part of one, and so write RP (R28). -/
def writesRp : Instr → Bool
  | .subframeConstant _ | .subframeVerbatim _ => false
  | .residualMethodRice4 | .residualMethodRice5 => true
  | i => readsStream i

/-- The subframe parts that can decode an LPC body, and so write LPCP (R228). -/
def writesLpcp : Instr → Bool
  | .subframeLpc _ _ | .decodeSubframe _ _ => true
  | _ => false

/-- The subframe parts that enter a subframe or a residual section, and so write the sequencer's names. -/
def movesSequencer : Instr → Bool
  | .subframeConstant _ | .subframeVerbatim _ => false
  | .decodeSubframe _ _ | .decodeResidual _ _ => true
  | i => tagRow i

/-- The opcodes of R92, by the operands they use. -/
def opcodesNone : List Nat := [0x06, 0x07, 0x08, 0x0B, 0x0C, 0x20, 0x22]
def opcodesA : List Nat := [0x01, 0x02, 0x03, 0x04, 0x05, 0x09, 0x0A, 0x21]
def opcodesAB : List Nat := [0x10, 0x11]

/-- A command word that is none of R92's, or that sets an operand its command does not use (R91). -/
def illegalWord (w : CmdWord) : Prop :=
  (cmdOp w).toNat ∉ opcodesNone ++ opcodesA ++ opcodesAB
    ∨ ((cmdOp w).toNat ∈ opcodesNone ∧ cmdA w ≠ 0)
    ∨ ((cmdOp w).toNat ∉ opcodesAB ∧ cmdB w ≠ 0)

/-- A header word that steps 1 to 6 reject (R191 to R198). -/
def rejectedWord (w : BitVec 32) : Prop :=
  w.extractLsb' 18 14 ≠ 0x3FFE ∨ w.getLsbD 17 = true ∨ w.getLsbD 0 = true
    ∨ w.extractLsb' 12 4 = 0 ∨ w.extractLsb' 8 4 = 15 ∨ 11 ≤ (w.extractLsb' 4 4).toNat ∨ w.extractLsb' 1 3 = 3

/-- The header marked invalid, its other fields as they were: the start of an attempt (R132, R361). -/
def State.invalidated (s : State) : State := s.mapHdr fun h => { h with valid := false }

/-- At POS stands a header word that steps 1 to 6 accept, and after it the lead byte of `v` in the form with `c`
continuation bytes, a form the number can have (R199: six for a variable block size, D15, else five). -/
def State.numberBegins (s : State) (c v : Nat) : Prop :=
  ¬ rejectedWord (BitVec.ofNat 32 (window s.input s.position 32))
  ∧ 1 ≤ c ∧ v < 2 ^ vluValueBits c
  ∧ (c ≤ 5 ∨ (c = 6 ∧ (streamBit s.input (s.position + 15) = true
      ∨ s.streamInfo.minBlocksize ≠ s.streamInfo.maxBlocksize)))
  ∧ carries s.input (s.position + 32) (vluHead c v) = true

/-- The bits of the wasted-bits code after the tag, for `w` wasted bits (R221). -/
def wastedCode (w : Nat) : List Bool := if w = 0 then [] else unaryBits (w - 1)

/-- A base depth the frame's buffers are made for (R227, R364). -/
def depthAllowed (wide : Bool) (base : Nat) : Prop := base ≤ 33 ∧ (wide = false → base ≤ 32)

/-- The lead row of a value `v` in the form with `c` continuation bytes (R101). -/
def vluLeadRow (c v : Nat) : Instr :=
  match c with
  | 0 => .vluLead1byte (BitVec.ofNat 7 v)
  | 1 => .vluLead2byte (BitVec.ofNat 5 (v >>> 6))
  | 2 => .vluLead3byte (BitVec.ofNat 4 (v >>> 12))
  | 3 => .vluLead4byte (BitVec.ofNat 3 (v >>> 18))
  | 4 => .vluLead5byte (BitVec.ofNat 2 (v >>> 24))
  | 5 => .vluLead6byte (BitVec.ofNat 1 (v >>> 30))
  | _ => .vluLead7byte

/-- CH[c][0..n-1] reads as `v 0`, ..., `v (n-1)`. -/
def State.channelIs (s : State) (c : Fin 8) (n : Nat) (v : Nat → Int) : Prop :=
  ∀ i, i < n → s.ch.read s.wide c i = some (v i)

/-- The list `v 0`, ..., `v (n-1)`. -/
def listOf (n : Nat) (v : Nat → Int) : List Int := (List.range n).map v

/-- A value of a subframe cannot be stored: a restored sample (`restored` is none), or one that is shifted back by the
wasted bits (R229). -/
def unstorable (mode : NarrowOverflow) (wide : Bool) (wasted : Nat) (warm : List Int) (restored : Option (List Int)) :
    Prop :=
  restored = none
    ∨ ∃ xs, restored = some xs ∧ wasted ≠ 0 ∧ ∃ v ∈ warm ++ xs, store mode wide (v * 2 ^ wasted) = none

/-- From position `p` on the stream begins with `bits`, and they end past the last admissible position (R133). -/
def State.cutShort (s : State) (p : Nat) (bits : List Bool) : Prop :=
  begins s.input s.params.cap p bits = true ∧ ¬ s.admissible (p + bits.length)

/-- The row of order `k` of a subframe with a residual section, and the bits between its warm-up samples and that section:
none (R226), or the LPC parameters (R228). -/
def residualRow (k : Nat) (w : Bool) (ty : SubframeType) (mid : List Bool) (i : Instr) : Prop :=
  (∃ j : Fin 5, j.val = k ∧ ty = .fixed ∧ mid = [] ∧ i = (Body.fixed j [] ⟨0, 0, []⟩).row w)
  ∨ (∃ (order : BitVec 5) (precision shift : Nat) (coeff : List Int), order.toNat + 1 = k ∧ ty = .lpc
    ∧ 1 ≤ precision ∧ precision ≤ 15 ∧ shift < 16 ∧ coeff.length = k ∧ (∀ v ∈ coeff, fitsBits precision v = true)
    ∧ mid = fieldBits 4 (precision - 1) ++ fieldBits 5 shift ++ coeff.flatMap (signedBits precision)
    ∧ i = .subframeLpc order w)

/-- A row of a partition that the stream cuts short: of Rice codes, in a code after good ones, whatever its value; of an
escape, anywhere. -/
def State.partitionCut (s : State) (i : Instr) : Prop :=
  (∃ (kk q x : Nat) (vs : List Int),
    ((∃ k : BitVec 4, k ≠ 15 ∧ k.toNat = kk ∧ i = .partitionRice4 k)
      ∨ (∃ k : BitVec 5, k ≠ 31 ∧ k.toNat = kk ∧ i = .partitionRice5 k))
    ∧ vs.length < s.partitionSize ∧ (∀ v ∈ vs, fits32 v = true)
    ∧ s.cutShort s.position (vs.flatMap (riceBits kk) ++ unaryBits q ++ fieldBits kk x))
  ∨ (∃ (w : Nat) (vs : List Int), (i = .partitionEscape4 ∨ i = .partitionEscape5)
    ∧ w < 32 ∧ vs.length = s.partitionSize ∧ (∀ v ∈ vs, if w = 0 then v = 0 else fitsBits w v = true)
    ∧ s.cutShort s.position (fieldBits 5 w ++ vs.flatMap (signedBits w)))

/-- A tag row whose wasted-bits code is zeros to the end, the row of a body cut short, whatever its residuals restore to, or
an LPC row cut in its shift, whatever its sign. -/
def State.tagRowCut (s : State) (i : Instr) : Prop :=
  (∃ q, s.cutShort s.position (unaryBits q)
    ∧ ((∃ b : Body, i = b.row true) ∨ (∃ x, i = .subframeReservedT2to3 x true) ∨ (∃ x, i = .subframeReservedT4to7 x true)
      ∨ (∃ x, i = .subframeReservedT16to31 x true) ∨ i = .subframeFixedOrder5 true
      ∨ (∃ x, i = .subframeFixedOrder6to7 x true)))
  ∨ (∃ lay : SubframeLayout, i = lay.body.row lay.flag ∧ depthAllowed s.wide s.seq.base
    ∧ lay.readable s.hdr.blocksize.toNat s.seq.base = true ∧ s.cutShort s.position (lay.bitsAfterTag s.seq.base))
  ∨ (∃ (order : BitVec 5) (wasted precision : Nat) (warm : List Int), i = .subframeLpc order (wasted != 0)
    ∧ depthAllowed s.wide s.seq.base ∧ wasted < s.seq.base ∧ order.toNat < s.hdr.blocksize.toNat
    ∧ warm.length = order.toNat + 1 ∧ (∀ v ∈ warm, fitsBits (s.seq.base - wasted) v = true)
    ∧ 1 ≤ precision ∧ precision ≤ 15
    ∧ (let bits := wastedCode wasted ++ warm.flatMap (signedBits (s.seq.base - wasted)) ++ fieldBits 4 (precision - 1)
       carries s.input s.position bits = true ∧ s.admissible (s.position + bits.length)
         ∧ ¬ s.admissible (s.position + bits.length + 5)))

/-- A part of a subframe that the stream cuts short: a row, or a procedure with the fields it fetches. -/
def State.partCut (s : State) (i : Instr) : Prop :=
  s.partitionCut i ∨ s.tagRowCut i
    ∨ (∃ c base, i = .decodeSubframe c base ∧ ¬ s.admissible (s.position + 8))
    ∨ (∃ c k, i = .decodeResidual c k ∧ (¬ s.admissible (s.position + 2)
      ∨ ∃ m, m < 2 ∧ carries s.input s.position (fieldBits 2 m) = true ∧ ¬ s.admissible (s.position + 6)))
    ∨ (∃ c base, ∃ lay : SubframeLayout, i = .decodeSubframe c base ∧ depthAllowed s.wide base
      ∧ lay.readable s.hdr.blocksize.toNat base = true ∧ s.cutShort s.position (lay.bits base))
    ∨ (∃ c, ∃ k : Fin 33, ∃ sec : ResidualSection, i = .decodeResidual c k
      ∧ sec.legal s.hdr.blocksize.toNat k.val = true ∧ s.cutShort s.position sec.bits)

/-- The state in which `decode_frame` at byte `a` decodes the subframe after those `f` lists (R361 to R365): the header
parsed, the buffers chosen, the channels before it in CH. SUB, RP, LPCP, RES and OUT are of no account there. -/
def FrameLayout.midway (f : FrameLayout) (a : Nat) (s : State) : State :=
  let h := f.record s.streamInfo
  State.moveTo { s with
      curValid := true
      err := .none
      ok := true
      fstate := .headerParsed
      hdr := h
      wide := wideOf h
      ch := ChannelFile.holding (f.subframes.map (·.samples h.blocksize.toNat))
      seq := { Sequencer.idle with start := a } } (8 * a + (f.dataBits s.streamInfo).length)

/-- The prediction P of R282 to R285 for sample i of `x`. -/
def fixedPrediction (k : Fin 5) (x : Nat → Int) (i : Nat) : Int :=
  match k.val with
  | 1 => x (i - 1)
  | 2 => 2 * x (i - 1) - x (i - 2)
  | 3 => 3 * x (i - 1) - 3 * x (i - 2) + x (i - 3)
  | 4 => 4 * x (i - 1) - 6 * x (i - 2) + 4 * x (i - 3) - x (i - 4)
  | _ => 0

/-- The number R342 makes of a sample: shifted to fill `8 * b` bits, and biased by 0x80 in one byte. -/
def packedNumber (bps b : Nat) (v : Int) : Nat :=
  let w := (v * 2 ^ (8 * b - bps) % 2 ^ (8 * b)).toNat
  if b = 1 then (w + 128) % 256 else w

end Sys2Proof.Machine

open Sys2Proof Sys2Proof.Machine

/-! ### Encodings -/

/-- Decoding an encoded well-formed instruction gives it back, with every operand. -/
def Obligations.DecodeOfEncode : Prop :=
  ∀ (i : Instr) (f : Format), i.wellFormed = true → i.format = some f → decode f (encode i) = .ok i

/-- Each word has one meaning: a word that decodes is the encoding of the well-formed instruction it decodes to. -/
def Obligations.EncodeOfDecode : Prop :=
  ∀ (f : Format) (w : Nat) (i : Instr), w < 2 ^ f.width → decode f w = .ok i →
    i.wellFormed = true ∧ i.format = some f ∧ encode i = w

/-- Words written out from the encodings of 30_encoding.md, one for each format. -/
def Obligations.SpecWords : Prop :=
  decode .cmd72 0x020000000500000000 = .ok (.readBits 5)
  ∧ decode .cmd72 0x11000000000000000B = .ok (.crc16 0 11)
  ∧ decode .hdrw32 0xFFF86902 = .ok (.frameHeaderWord false 6 9 0 1)
  ∧ decode .chn4 0b1010 = .ok .chnMidSide
  ∧ decode .tag8 0x1A = .ok (.subframeFixedOrder5 false)
  ∧ decode .tag8 0x43 = .ok (.subframeLpc 1 true)
  ∧ decode .method2 0b01 = .ok .residualMethodRice5
  ∧ decode .param4 0b1111 = .ok .partitionEscape4
  ∧ decode .param5 0b01111 = .ok (.partitionRice5 15)
  ∧ decode .vluLead8 0xC2 = .ok (.vluLead2byte 2)
  ∧ decode .vluCont8 0xBF = .ok (.vluContinuation 63)
  ∧ decode .footer16 0x08EC = .ok (.frameFooter 0x08EC)
  ∧ decode .crc8f 0x93 = .ok (.headerCrc8 0x93)

/-- The tests of R223 on a tag byte do what the row of the opcode table does that the byte decodes to; and R220:
`decode_subframe` reads a tag byte and runs its row, with the channel and base depth in the sequencer (log entry 5). -/
def Obligations.TagRowsAgree : Prop :=
  ∀ s : State,
    (∀ tag : BitVec 8, exec (decodeTag tag) s = needCursor s (runField .frame (subframeTag tag) s))
    ∧ (∀ (c : Fin 8) (base : Nat), s.Ready → s.admissible (s.position + 8) →
      let tag := window s.input s.position 8
      exec (.decodeSubframe c base) s = exec (decodeTag (BitVec.ofNat 8 tag))
        ((s.mapSeq fun q => { q with chan := c, base := base }).readTo (s.position + 8) (BitVec.ofNat 64 tag)))

/-- The same for the channel nibble (R196), the coding method (R250), the partition parameters (R253), the lead byte of
a variable-length integer (R142) and the header word (R191 to R198). -/
def Obligations.FieldRowsAgree : Prop :=
  ∀ s : State,
    (∀ chn : BitVec 4, exec (decodeChannelNibble chn) s = needCursor s
        (runField .frame (rejecting (applyChannels chn)) s))
    ∧ (∀ m : BitVec 2, exec (decodeMethod m) s = needCursor s (runField .frame
        (if 2 ≤ m.toNat then rejectMethod m.toNat else setMethod m.toNat) s))
    ∧ (∀ k : BitVec 4, exec (decodeParam4 k) s = needCursor s (runField .frame
        (if k.toNat = 2 ^ 4 - 1 then escapePartition k.toNat else ricePartition k.toNat) s))
    ∧ (∀ k : BitVec 5, exec (decodeParam5 k) s = needCursor s (runField .frame
        (if k.toNat = 2 ^ 5 - 1 then escapePartition k.toNat else ricePartition k.toNat) s))
    ∧ (∀ b : BitVec 8, exec (decodeVluLead b) s = needCursor s (runField .primitive
        (discard (match vluLeadClass s.seq.vluWide b.toNat with
          | none => vluFail
          | some (payload, c) => vluAfterLead payload c)) s))
    ∧ (∀ w i, decodeHeaderWord w = .ok i → exec i s = needCursor s (runField .frame (rejecting (headerWord w)) s))
    ∧ (∀ w r, decodeHeaderWord w = .error r → rejectField r s = runField .frame (rejecting (headerWord w)) s)

/-! ### Steps, refusals, reset -/

/-- A step takes the oldest request and runs the instruction it decodes to: a command word on the state as it is, a
field of the bitstream on the state after its bits are fetched at POS. With no request pending a step changes nothing.
The queue of requests, and running a field on its own, are the model's (log entry 4). -/
def Obligations.StepRunsRequest : Prop :=
  ∀ s : State,
    (s.pending = [] → step s = .next s)
    ∧ (∀ w rest i, s.pending = .command w :: rest → decodeCommand w = .ok i →
        step s = exec i { s with pending := rest })
    ∧ (∀ f rest, s.pending = .field f :: rest → f ≠ .cmd72 → s.Ready →
        s.admissible (s.position + f.width) →
        let v := window s.input s.position f.width
        let u := (fieldBegin f { s with pending := rest }).readTo (s.position + f.width) (BitVec.ofNat 64 v)
        (∀ i, decode f v = .ok i → step s = exec i u) ∧ (∀ r, decode f v = .error r → step s = rejectField r u))

/-- R388: without a cursor the twelve commands are refused with NoCursor and nothing else changes; the other five are
never refused so. -/
def Obligations.NoCursorRefused : Prop :=
  (∀ (i : Instr) (s : State), needsCursor i = true → s.curValid = false → exec i s = .next { s with err := .noCursor })
  ∧ (∀ (i : Instr) (s : State), needsNoCursor i = true → s.err ≠ .noCursor →
      exec i s ≠ .next { s with err := .noCursor })

/-- R389: an operand out of its range, `parse_frame_header` off a byte boundary, `pack` out of sequence and a word that
is no command are refused: ERR gets the code and nothing else changes. That `decode_next_frame` is refused as its
`decode_frame` is, in every state, and then runs no `pack`, is the model's choice (log entry 10), and so is the queue a
refused word leaves (log entry 4). -/
def Obligations.RefusalsChangeErrOnly : Prop :=
  ∀ s : State,
    (∀ n : BitVec 32, s.curValid = true → ¬(1 ≤ n.toNat ∧ n.toNat ≤ 32) →
      exec (.readBits n) s = .next { s with err := .argumentRange }
        ∧ exec (.readSigned n) s = .next { s with err := .argumentRange })
    ∧ (∀ n : BitVec 32, s.curValid = true → ¬(1 ≤ n.toNat ∧ n.toNat ≤ 64) →
      exec (.readBits64 n) s = .next { s with err := .argumentRange }
        ∧ exec (.readSigned64 n) s = .next { s with err := .argumentRange })
    ∧ (∀ n : BitVec 32, s.curValid = true → 2 ^ 31 ≤ n.toNat →
      exec (.seekBits n) s = .next { s with err := .argumentRange })
    ∧ (∀ n : BitVec 32, s.curValid = true → 2 ^ 28 ≤ n.toNat →
      exec (.seekBytes n) s = .next { s with err := .argumentRange })
    ∧ (∀ a : BitVec 32, 2 ^ 29 ≤ a.toNat → exec (.decodeFrame a) s = .next { s with err := .argumentRange }
        ∧ exec (.decodeNextFrame a) s = .next { s with err := .argumentRange })
    ∧ (s.curValid = true → s.bit ≠ 0 → exec .parseFrameHeader s = .next { s with err := .argumentRange })
    ∧ (s.fstate ≠ .verified → exec .pack s = .next { s with err := .illegalCommand })
    ∧ (∀ w rest, s.pending = .command w :: rest → illegalWord w →
        step s = .next { s with pending := rest, err := .illegalCommand })

/-- R45: the registers the spec gives a value, the entries of CH that hold none, and no command pending (R421). -/
def Obligations.ResetValues : Prop :=
  State.reset.curValid = false ∧ State.reset.fstate = .idle ∧ State.reset.err = .none
  ∧ State.reset.hdr.valid = false ∧ State.reset.ok = false ∧ State.reset.wide = false ∧ State.reset.res = 0
  ∧ (∀ (c : Fin 8) (i : Nat), State.reset.ch.read State.reset.wide c i = none) ∧ State.reset.pending = []

/-- The reset state is a good state. -/
def Obligations.ResetGood : Prop := State.reset.Inv ∧ State.reset.HostInv

/-! ### Whole-machine rules -/

/-- Every step keeps the canonical form of IN and the cursor's invariant: while CUR_VALID = 1 the refill at POS is inside
IN (R20) and CACHE holds the bits at POS (R23). -/
def Obligations.StepKeepsInv : Prop :=
  ∀ s t : State, s.Inv → step s = .next t → t.Inv

/-- A host that issues command words only never sees the block stop: every step answers a state, and that state is good
again: a parsed header holds legal values (R26) and a verified frame has every sample (R32). -/
def Obligations.HostRunsOn : Prop :=
  ∀ s : State, s.HostInv → ∃ t, step s = .next t ∧ t.HostInv

/-- IN (R21), STREAMINFO (R40) and the parameters (R41) are never written by a step. That a step takes at most the oldest
request from a queue is the model's (log entry 4). The host writes them: never during an attempt (R73, a write then is
refused: log entry 16), and otherwise at once, whatever the queue holds (log entry 16), the one element it names; a load
fills IN, data bytes and slack, the slack of any values (R63), and makes CAP their number. -/
def Obligations.LaunchStateFixed : Prop :=
  (∀ s t : State, step s = .next t →
    t.input = s.input ∧ t.params = s.params ∧ t.streamInfo = s.streamInfo ∧ t.pending = s.pending.tail)
  ∧ ∀ s : State,
    (s.curValid = true → ∀ w, hostWrite w s = .refused .hostWriteDuringAttempt)
    ∧ (s.curValid = false →
      (∀ si, hostWrite (.streamInfo si) s = .next { s with streamInfo := si })
      ∧ (∀ check narrow, hostWrite (.params check narrow) s =
          .next { s with params := { s.params with checkCrc8 := check, narrowOverflow := narrow } })
      ∧ ∀ bytes slack, ∃ m, hostWrite (.load bytes slack) s =
          .next { s with input := m, params := { s.params with cap := (bytes ++ slack).length } }
        ∧ m.wf = true ∧ ∀ a, a < (bytes ++ slack).length → (bytes ++ slack)[a]? = some (m.read a))

/-- What ERR can hold after an instruction: what it held, a kind of class fault, a code of class refusal, or None after an
instruction that starts an attempt. FormatMismatch and SequenceMismatch are never written by the block (R380, R386). -/
def Obligations.ErrHistory : Prop :=
  ∀ (i : Instr) (s t : State), exec i s = .next t →
    t.err = s.err ∨ t.err.isFault = true ∨ t.err.isRefusal = true ∨ (t.err = .none ∧ startsAttempt i = true)

/-- R373: what each host command, and `decode_next_frame`, can make of FSTATE. -/
def Obligations.FStateTransitions : Prop :=
  ∀ s t : State,
    (∀ i, primitiveCommand i = true → exec i s = .next t → t.fstate = s.fstate)
    ∧ (∀ off, exec (.cursorNew off) s = .next t → t.fstate = .idle)
    ∧ (exec .parseFrameHeader s = .next t →
        (t.err.isRefusal = true ∧ t.fstate = s.fstate) ∨ t.fstate = .headerParsed ∨ t.fstate = .failed)
    ∧ (∀ a, exec (.decodeFrame a) s = .next t →
        (t.err.isRefusal = true ∧ t.fstate = s.fstate) ∨ t.fstate = .verified ∨ t.fstate = .failed)
    ∧ (exec .pack s = .next t →
        (t.fstate = s.fstate ∧ s.fstate ≠ .verified)
          ∨ (s.fstate = .verified ∧ (t.fstate = .packed ∨ t.fstate = .failed)))
    ∧ (∀ a, exec (.decodeNextFrame a) s = .next t →
        (t.err.isRefusal = true ∧ t.fstate = s.fstate) ∨ t.fstate = .packed ∨ t.fstate = .failed)

/-- WIDE is written by a whole-frame decode only: at its start (R423) and in its step 3 (R31, R363). Two cases of it are the
model's: that a `cursor_new` of its own leaves WIDE, as R132 does not write it (log entry 25), and that a raise leaves it
(log entry 6). -/
def Obligations.WideWrittenPerFrame : Prop :=
  ∀ (i : Instr) (s t : State), decodesFrame i = false → exec i s = .next t → t.wide = s.wide

/-- What a primitive cursor or checksum command can do: be refused, raise, or write POS, CACHE, RES and (a variable-length
read only, R37) OK, nothing else, with POS never moving backward (R130). -/
def Obligations.PrimitiveFrame : Prop :=
  ∀ (i : Instr) (s t : State), primitiveCommand i = true → exec i s = .next t →
    (∃ k, k.isRefusal = true ∧ t = refuse k s)
    ∨ (∃ k, k.isFault = true ∧ t = takeRaise .primitive k s)
    ∨ ((∃ b o w r x, t = { s with byte := b, bit := o, cache := w, res := r, ok := x, seq := Sequencer.idle })
        ∧ s.position ≤ t.position ∧ (readsVlu i = false → t.ok = s.ok))

/-- What `parse_frame_header` and `pack` can do: be refused, raise (a parse with its header marked invalid, R204), or
succeed, when the parse writes HDR, FSTATE, POS, CACHE, RES and OK, and `pack` writes OUT and FSTATE. That a parse leaves
RES and OK as its last reads wrote them is the model's (log entry 7). -/
def Obligations.ParseAndPackFrame : Prop :=
  ∀ s t : State,
    (exec .parseFrameHeader s = .next t →
      (∃ k, k.isRefusal = true ∧ t = refuse k s)
      ∨ (∃ k, k.isFault = true ∧ t = takeRaise .frame k s.rejectHeader)
      ∨ (∃ h b o w r, h.valid = true ∧
          t = { s with
            hdr := h, fstate := .headerParsed, byte := b, bit := o, cache := w, res := r, ok := true
            seq := Sequencer.idle }))
    ∧ (exec .pack s = .next t →
      t = refuse .illegalCommand s
      ∨ (∃ k, k.isFault = true ∧ t = takeRaise .frame k s)
      ∨ (∃ bytes, t = { s with out := bytes, fstate := .packed, seq := Sequencer.idle }))

/-- What the rows of a subframe, and the procedures inside it, can do: be refused for want of a cursor, raise, or write
POS, CACHE, RES, SUB, RP, LPCP, CH and the sequencer's names, nothing else; of CH the entries of `writesEntry` alone, of
SUB the descriptor of `describes` alone, and the rest only where `readsStream`, `writesRp`, `writesLpcp` and
`movesSequencer` say. Running them one at a time is the model's (log entry 4), and so is which channel and which
partition is current (log entry 5). -/
def Obligations.SubframePartsFrame : Prop :=
  ∀ (i : Instr) (s t : State), subframePart i = true → exec i s = .next t →
    t = refuse .noCursor s
    ∨ (∃ k, k.isFault = true ∧ t = takeRaise .frame k s)
    ∨ (∃ b o w r q sub rp lpcp ch,
        t = { s with byte := b, bit := o, cache := w, res := r, seq := q, sub := sub, rp := rp, lpcp := lpcp, ch := ch }
        ∧ (∀ d j, ¬ writesEntry i s d j → ch.read s.wide d j = s.ch.read s.wide d j)
        ∧ (∀ d : Fin 8, describes i s ≠ some d → sub[d] = s.sub[d])
        ∧ (readsStream i = false → b = s.byte ∧ o = s.bit ∧ w = s.cache ∧ r = s.res)
        ∧ (writesRp i = false → rp = s.rp)
        ∧ (writesLpcp i = false → lpcp = s.lpcp)
        ∧ (movesSequencer i = false → q = s.seq))

/-- The state a raise leaves (R390): ERR holds the kind, the cursor is dropped, FSTATE is Failed for a frame-level command
and as it was for a primitive one; HDR, IN, the parameters, STREAMINFO, WIDE and the queue are as they were. BYTE, BIT,
CACHE, RES, OK, CH, SUB, RP, LPCP and OUT are unspecified: nothing is stated of them. Before its raise a header rejection
makes HDR.valid 0 and the other fields of HDR unspecified, and changes nothing else (R204). That WIDE and the queue are as
they were is the model's (log entry 6). -/
def Obligations.RaiseEffects : Prop :=
  ∀ (c : CommandClass) (k : ErrKind) (s : State),
    (takeRaise c k s).err = k ∧ (takeRaise c k s).curValid = false
    ∧ (takeRaise c k s).fstate = (match c with | .frame => .failed | .primitive => s.fstate)
    ∧ (takeRaise c k s).hdr = s.hdr
    ∧ (takeRaise c k s).input = s.input ∧ (takeRaise c k s).params = s.params
    ∧ (takeRaise c k s).streamInfo = s.streamInfo ∧ (takeRaise c k s).wide = s.wide
    ∧ (takeRaise c k s).pending = s.pending
    ∧ s.rejectHeader.hdr.valid = false ∧ s.rejectHeader = { s with hdr := s.rejectHeader.hdr }

/-- BufferOverrun (R133, R387): a checksum raises it when its span leaves IN, with or without a cursor; a cursor command when
a position it reaches is not admissible: the end of a fixed-width read or of a flush, any byte of a variable-length integer,
and any field of a header whose fields before it are good (by `lay`, a whole header cut anywhere; by `c` and `v`, a header
word and lead byte with the number cut after j continuation bytes). `decode_frame` raises it at each of its steps (R430):
when its start is not admissible, before any header is parsed, HDR as it was but for HDR.valid (R361, R390); in a header cut
anywhere, the header rejected; and in a frame, good so far, that is cut after its header, by the end of its footer at the
latest, HDR then the frame's. The parts of a subframe raise it when the stream cuts them short (`partCut`). WIDE is then 0
where no header was parsed, as a frame begins with its flags reset (R423, log entry 25), and the frame's after that: that a
raise leaves WIDE is the model's (log entry 6). A checksum of no bytes reads none and does not raise: the model's choice
(log entry 8). Running a part of a subframe on its own is the model's (log entries 4 and 13). -/
def Obligations.BufferOverrunRaised : Prop :=
  ∀ s : State,
    (∀ a b : BitVec 32, 0 < b.toNat → s.params.cap < a.toNat + b.toNat →
      exec (.crc8 a b) s = .next (takeRaise .primitive .bufferOverrun s)
        ∧ exec (.crc16 a b) s = .next (takeRaise .primitive .bufferOverrun s))
    ∧ (∀ a : BitVec 32, a.toNat < 2 ^ 29 → s.params.cap < a.toNat + 4 →
      exec (.decodeFrame a) s = .next (takeRaise .frame .bufferOverrun { s.invalidated with wide := false }))
    ∧ (∀ (a : BitVec 32) (lay : HeaderLayout), a.toNat < 2 ^ 29 → lay.legal s.streamInfo = true →
      begins s.input s.params.cap (8 * a.toNat) lay.bits = true →
      a.toNat + 4 ≤ s.params.cap → s.params.cap < a.toNat + lay.length + 4 →
      exec (.decodeFrame a) s = .next (takeRaise .frame .bufferOverrun { s.rejectHeader with wide := false }))
    ∧ (∀ (a : BitVec 32) (f : FrameLayout), a.toNat < 2 ^ 29 → f.legal s.params s.streamInfo = true →
      begins s.input s.params.cap (8 * a.toNat) (f.bits s.streamInfo) = true →
      a.toNat + f.header.length + 4 ≤ s.params.cap → s.params.cap < a.toNat + f.length s.streamInfo + 4 →
      (s.params.checkCrc8 = true → crc8Of (bytesAt s.input a.toNat (f.header.length - 1)) = f.crc8) →
      exec (.decodeFrame a) s = .next (takeRaise .frame .bufferOverrun
        { s with hdr := f.record s.streamInfo, wide := wideOf (f.record s.streamInfo) }))
    ∧ (s.Ready →
      (∀ i, s.partCut i → exec i s = .next (takeRaise .frame .bufferOverrun s))
      ∧ (∀ n : BitVec 32, 1 ≤ n.toNat → n.toNat ≤ 32 → ¬ s.admissible (s.position + n.toNat) →
        exec (.readBits n) s = .next (takeRaise .primitive .bufferOverrun s)
          ∧ exec (.readSigned n) s = .next (takeRaise .primitive .bufferOverrun s))
      ∧ (∀ n : BitVec 32, 1 ≤ n.toNat → n.toNat ≤ 64 → ¬ s.admissible (s.position + n.toNat) →
        exec (.readBits64 n) s = .next (takeRaise .primitive .bufferOverrun s)
          ∧ exec (.readSigned64 n) s = .next (takeRaise .primitive .bufferOverrun s))
      ∧ (s.bit ≠ 0 → ¬ s.admissible (s.position + (8 - s.bit.val)) →
        exec .flushToByteBoundary s = .next (takeRaise .primitive .bufferOverrun s))
      ∧ (¬ s.admissible (s.position + 8) →
        exec .readVariableLengthUint32 s = .next (takeRaise .primitive .bufferOverrun s)
          ∧ exec .readVariableLengthUint64 s = .next (takeRaise .primitive .bufferOverrun s))
      ∧ (∀ c v j, 1 ≤ c → v < 2 ^ vluValueBits c → carries s.input s.position (vluHead c v) = true → j < c →
        (∀ i, i < j → window s.input (s.position + 8 * (i + 1)) 8 / 64 = 2) →
        ¬ s.admissible (s.position + 8 * (j + 2)) →
        (c ≤ 5 → exec .readVariableLengthUint32 s = .next (takeRaise .primitive .bufferOverrun s))
        ∧ (c ≤ 6 → exec .readVariableLengthUint64 s = .next (takeRaise .primitive .bufferOverrun s)))
      ∧ (s.bit = 0 → ¬ s.admissible (s.position + 32) →
        exec .parseFrameHeader s = .next (takeRaise .frame .bufferOverrun s.rejectHeader))
      ∧ (∀ lay : HeaderLayout, s.bit = 0 → lay.legal s.streamInfo = true →
        begins s.input s.params.cap s.position lay.bits = true → ¬ s.admissible (s.position + 8 * lay.length) →
        exec .parseFrameHeader s = .next (takeRaise .frame .bufferOverrun s.rejectHeader))
      ∧ (∀ c v j, s.bit = 0 → s.numberBegins c v → j < c →
        (∀ i, i < j → window s.input (s.position + 32 + 8 * (i + 1)) 8 / 64 = 2) →
        ¬ s.admissible (s.position + 32 + 8 * (j + 2)) →
        exec .parseFrameHeader s = .next (takeRaise .frame .bufferOverrun s.rejectHeader)))

/-! ### The cursor -/

/-- R132: `cursor_new`, with or without a cursor before. It writes OK (log entry 23) and, issued on its own, no WIDE
(log entry 25). -/
def Obligations.CursorNew : Prop :=
  ∀ (off : BitVec 32) (s : State),
    (off.toNat / 8 + 4 ≤ s.params.cap →
      exec (.cursorNew off) s = .next
        { s with
          err := .none
          ok := false
          hdr := { s.hdr with valid := false }
          fstate := .idle
          curValid := true
          byte := off.toNat / 8
          bit := Fin.ofNat 8 off.toNat
          cache := cacheWord s.input (off.toNat / 8) (Fin.ofNat 8 off.toNat)
          seq := Sequencer.idle })
    ∧ (s.params.cap < off.toNat / 8 + 4 → ∃ t, exec (.cursorNew off) s = .next t ∧ t.err = .bufferOverrun
        ∧ t.curValid = false ∧ t.fstate = .idle ∧ t.hdr = { s.hdr with valid := false })

/-- R135: `read_bits n` returns `Window(p, n)` and leaves the position at p + n. -/
def Obligations.ReadBits : Prop :=
  ∀ (n : BitVec 32) (s : State), s.Ready → 1 ≤ n.toNat → n.toNat ≤ 32 → s.admissible (s.position + n.toNat) →
    exec (.readBits n) s = .next (s.readTo (s.position + n.toNat)
      (BitVec.ofNat 64 (window s.input s.position n.toNat))).atRest

/-- R136: `read_bits64`, the wide variant. -/
def Obligations.ReadBits64 : Prop :=
  ∀ (n : BitVec 32) (s : State), s.Ready → 1 ≤ n.toNat → n.toNat ≤ 64 → s.admissible (s.position + n.toNat) →
    exec (.readBits64 n) s = .next (s.readTo (s.position + n.toNat)
      (BitVec.ofNat 64 (window s.input s.position n.toNat))).atRest

/-- R138 and R139: the signed reads return the sign extension of the window. -/
def Obligations.ReadSigned : Prop :=
  ∀ (n : BitVec 32) (s : State), s.Ready → 1 ≤ n.toNat → s.admissible (s.position + n.toNat) →
    let v : Int := sext n.toNat (window s.input s.position n.toNat)
    (n.toNat ≤ 32 →
      exec (.readSigned n) s = .next (s.readTo (s.position + n.toNat) (BitVec.ofInt 64 v)).atRest)
    ∧ (n.toNat ≤ 64 →
      exec (.readSigned64 n) s = .next (s.readTo (s.position + n.toNat) (BitVec.ofInt 64 v)).atRest)

/-- R67: two reads return the same bits as one read of both widths, split; and a byte the checksums see is the same eight
stream bits. -/
def Obligations.ReadsCompose : Prop :=
  (∀ (a b : BitVec 32) (s : State), s.Ready → 1 ≤ a.toNat → 1 ≤ b.toNat → a.toNat + b.toNat ≤ 32 →
    s.admissible (s.position + a.toNat + b.toNat) →
    ∃ t u v, exec (.readBits a) s = .next t ∧ exec (.readBits b) t = .next u ∧ exec (.readBits (a + b)) s = .next v
      ∧ (t.res <<< b.toNat) ||| u.res = v.res ∧ u.position = v.position)
  ∧ (∀ (m : Memory) (a : Nat), window m (8 * a) 8 = (m.read a).toNat)

/-- R140: `read_unary` counts the zeros before the first 1 and stops after it; a run of zeros to the end raises
BufferOverrun. -/
def Obligations.ReadUnary : Prop :=
  ∀ s : State, s.Ready →
    (∀ q, (∀ j, j < q → streamBit s.input (s.position + j) = false) →
      streamBit s.input (s.position + q) = true → s.admissible (s.position + q + 1) →
      exec .readUnary s = .next (s.readTo (s.position + q + 1) (BitVec.ofNat 64 q)).atRest)
    ∧ ((∀ x, s.position ≤ x → x + 2 ≤ 8 * (s.params.cap - 3) → streamBit s.input x = false) →
      exec .readUnary s = .next (takeRaise .primitive .bufferOverrun s))

/-- R146 and R147: the seeks move forward by bits and by whole bytes, RES unchanged, or raise BufferOverrun. -/
def Obligations.Seeks : Prop :=
  ∀ (n : BitVec 32) (s : State), s.Ready →
    (n.toNat < 2 ^ 31 →
      (s.admissible (s.position + n.toNat) → exec (.seekBits n) s = .next (s.moveTo (s.position + n.toNat)).atRest)
      ∧ (¬ s.admissible (s.position + n.toNat) →
        exec (.seekBits n) s = .next (takeRaise .primitive .bufferOverrun s)))
    ∧ (n.toNat < 2 ^ 28 →
      (s.admissible (s.position + 8 * n.toNat) →
        exec (.seekBytes n) s = .next (s.moveTo (s.position + 8 * n.toNat)).atRest)
      ∧ (¬ s.admissible (s.position + 8 * n.toNat) →
        exec (.seekBytes n) s = .next (takeRaise .primitive .bufferOverrun s)))

/-- R148 and R149: the flush moves to the next byte boundary, or nowhere at one; `position_bits` returns the position. -/
def Obligations.FlushAndPosition : Prop :=
  ∀ s : State, s.Ready →
    (s.bit = 0 → exec .flushToByteBoundary s = .next s.atRest)
    ∧ (s.bit ≠ 0 → s.admissible (8 * (s.byte + 1)) →
      exec .flushToByteBoundary s = .next (s.moveTo (8 * (s.byte + 1))).atRest)
    ∧ exec .positionBits s = .next (s.withRes (BitVec.ofNat 64 (8 * s.byte + s.bit.val))).atRest

/-! ### Variable-length integers -/

/-- R142 to R144: a value in any form the width accepts, the shortest or not, is read with OK = 1. -/
def Obligations.VluRead : Prop :=
  ∀ (s : State) (c v : Nat), s.Ready → v < 2 ^ vluValueBits c →
    carries s.input s.position (vluBits c v) = true → s.admissible (s.position + 8 * (c + 1)) →
    (c ≤ 5 → exec .readVariableLengthUint32 s =
      .next ((s.withOk true).readTo (s.position + 8 * (c + 1)) (BitVec.ofNat 64 v)).atRest)
    ∧ (c ≤ 6 → exec .readVariableLengthUint64 s =
      .next ((s.withOk true).readTo (s.position + 8 * (c + 1)) (BitVec.ofNat 64 v)).atRest)

/-- R142: a malformed lead or continuation byte ends the read just after it, with OK = 0 and the all-ones value of the
width in RES; ERR and CUR_VALID do not change. -/
def Obligations.VluMalformed : Prop :=
  ∀ s : State, s.Ready →
    (s.admissible (s.position + 8) →
      let b := window s.input s.position 8
      (128 ≤ b ∧ b < 192 ∨ b = 254 ∨ b = 255 → exec .readVariableLengthUint32 s =
        .next ((s.withOk false).readTo (s.position + 8) 0x00000000FFFFFFFF).atRest)
      ∧ (128 ≤ b ∧ b < 192 ∨ b = 255 → exec .readVariableLengthUint64 s =
        .next ((s.withOk false).readTo (s.position + 8) 0xFFFFFFFFFFFFFFFF).atRest))
    ∧ (∀ c v j, 1 ≤ c → v < 2 ^ vluValueBits c → carries s.input s.position (vluHead c v) = true → j < c →
      (∀ i, i < j → window s.input (s.position + 8 * (i + 1)) 8 / 64 = 2) →
      window s.input (s.position + 8 * (j + 1)) 8 / 64 ≠ 2 → s.admissible (s.position + 8 * (j + 2)) →
      (c ≤ 5 → exec .readVariableLengthUint32 s =
        .next ((s.withOk false).readTo (s.position + 8 * (j + 2)) 0x00000000FFFFFFFF).atRest)
      ∧ (c ≤ 6 → exec .readVariableLengthUint64 s =
        .next ((s.withOk false).readTo (s.position + 8 * (j + 2)) 0xFFFFFFFFFFFFFFFF).atRest))

/-- R145 (a): a read that neither is refused nor raises yields a value of at most 31 or 36 bits with OK = 1, or the
all-ones value with OK = 0; so the all-ones value alone tells the failure. -/
def Obligations.VluRange : Prop :=
  ∀ s t : State, s.curValid = true → t.curValid = true →
    (exec .readVariableLengthUint32 s = .next t →
      (t.ok = true ∧ t.res.toNat < 2 ^ 31) ∨ (t.ok = false ∧ t.res = 0x00000000FFFFFFFF))
    ∧ (exec .readVariableLengthUint64 s = .next t →
      (t.ok = true ∧ t.res.toNat < 2 ^ 36) ∨ (t.ok = false ∧ t.res = 0xFFFFFFFFFFFFFFFF))

/-- The rows of R101's bytes: a lead row reads its continuation bytes and succeeds, a malformed lead fails, and a
continuation row appends six bits. The value in progress stands in the sequencer: the model's (log entry 5). -/
def Obligations.VluRows : Prop :=
  ∀ s : State, s.Ready →
    (∀ c v, c ≤ 6 → v < 2 ^ vluValueBits c → (c = 6 → s.seq.vluWide = true) →
      carries s.input s.position (vluTail c v) = true → s.admissible (s.position + 8 * c) →
      exec (vluLeadRow c v) s =
        .next (((s.mapSeq fun q => { q with vlu := v }).withOk true).readTo (s.position + 8 * c) (BitVec.ofNat 64 v)))
    ∧ (s.seq.vluWide = false → exec .vluLead7byte s = .next ((s.withOk false).withRes 0x00000000FFFFFFFF))
    ∧ (∀ x, exec (.vluLeadContinuation x) s = .next ((s.withOk false).withRes
        (if s.seq.vluWide then 0xFFFFFFFFFFFFFFFF else 0x00000000FFFFFFFF)))
    ∧ exec .vluLeadFf s = .next ((s.withOk false).withRes
        (if s.seq.vluWide then 0xFFFFFFFFFFFFFFFF else 0x00000000FFFFFFFF))
    ∧ (∀ x : BitVec 6, exec (.vluContinuation x) s =
        .next (s.mapSeq fun q => { q with vlu := 64 * q.vlu + x.toNat }))

/-! ### Checksums -/

/-- R173 and R174: the two checksums over a span inside IN, with or without a cursor; POS does not move. -/
def Obligations.Checksums : Prop :=
  ∀ (a b : BitVec 32) (s : State), a.toNat + b.toNat ≤ s.params.cap →
    let bytes := bytesAt s.input a.toNat b.toNat
    exec (.crc8 a b) s = .next (s.withRes
      ((bytes.foldl (fun (c : BitVec 8) x => t8 (c ^^^ x)) 0).setWidth 64)).atRest
    ∧ exec (.crc16 a b) s = .next (s.withRes
      ((bytes.foldl (fun (c : BitVec 16) x => (c <<< 8) ^^^ t16 ((c >>> 8).setWidth 8 ^^^ x)) 0).setWidth 64)).atRest

/-- R175: the table-driven checksums equal the bit-serial ones, for every input. -/
def Obligations.ChecksumsBitSerial : Prop :=
  ∀ bytes : List Byte,
    crc8Of bytes = bytes.foldl (fun c x => Nat.repeat crc8Shift 8 (c ^^^ x)) 0
    ∧ crc16Of bytes = bytes.foldl (fun c x => Nat.repeat crc16Shift 8 (c ^^^ (x ++ (0 : BitVec 8)))) 0

/-- R176: the checksum of data followed by its own checksum is 0; and by nothing else of that length. -/
def Obligations.ChecksumResidue : Prop :=
  ∀ (data : List Byte) (x y : Byte),
    (crc16Of (data ++ [x, y]) = 0 ↔ x ++ y = crc16Of data) ∧ (crc8Of (data ++ [x]) = 0 ↔ x = crc8Of data)

/-! ### The header -/

/-- R190 to R203: a legal header at a byte boundary parses to the record its fields stand for, and POS is just after its
checksum byte. That RES holds the checksum byte and OK is 1 is the model's reading (log entry 7). A STREAMINFO value
too wide for its field of HDR is a free value there (log entry 11, for every statement about HDR). -/
def Obligations.ParseHeader : Prop :=
  ∀ (s : State) (lay : HeaderLayout) (crc : BitVec 8), s.Ready → s.bit = 0 → lay.legal s.streamInfo = true →
    carries s.input s.position (lay.bits ++ fieldBits 8 crc.toNat) = true →
    s.admissible (s.position + 8 * lay.length) →
    (s.params.checkCrc8 = true → crc8Of (bytesAt s.input s.byte (lay.length - 1)) = crc) →
    exec .parseFrameHeader s = .next ({ s with
        hdr := lay.record s.streamInfo crc
        fstate := .headerParsed
        ok := true
        seq := Sequencer.idle }.readTo (s.position + 8 * lay.length) (crc.setWidth 64))

/-- R191 to R199, R203, R204: what the parse rejects, with the kind it raises, the header rejected: a word, a number
with a malformed lead byte or a malformed continuation byte (the j-th, those before it good), a wrong checksum. -/
def Obligations.HeaderRejected : Prop :=
  ∀ s : State, s.Ready → s.bit = 0 →
    (s.admissible (s.position + 32) → rejectedWord (BitVec.ofNat 32 (window s.input s.position 32)) →
      exec .parseFrameHeader s = .next (takeRaise .frame .syncLoss s.rejectHeader))
    ∧ (s.admissible (s.position + 40) → ¬ rejectedWord (BitVec.ofNat 32 (window s.input s.position 32)) →
      (let b := window s.input (s.position + 32) 8
       128 ≤ b ∧ b < 192 ∨ b = 255
         ∨ b = 254 ∧ streamBit s.input (s.position + 15) = false
           ∧ s.streamInfo.minBlocksize = s.streamInfo.maxBlocksize) →
      exec .parseFrameHeader s = .next (takeRaise .frame .syncLoss s.rejectHeader))
    ∧ (∀ c v j, s.numberBegins c v → j < c →
      (∀ i, i < j → window s.input (s.position + 32 + 8 * (i + 1)) 8 / 64 = 2) →
      window s.input (s.position + 32 + 8 * (j + 1)) 8 / 64 ≠ 2 → s.admissible (s.position + 32 + 8 * (j + 2)) →
      exec .parseFrameHeader s = .next (takeRaise .frame .syncLoss s.rejectHeader))
    ∧ (∀ (lay : HeaderLayout) (crc : BitVec 8), lay.legal s.streamInfo = true →
      carries s.input s.position (lay.bits ++ fieldBits 8 crc.toNat) = true →
      s.admissible (s.position + 8 * lay.length) → s.params.checkCrc8 = true →
      crc8Of (bytesAt s.input s.byte (lay.length - 1)) ≠ crc →
      exec .parseFrameHeader s = .next (takeRaise .frame .headerChecksumMismatch s.rejectHeader))

/-- The rows of the header word (R193 to R197) and of the channel nibble (R196, R97): what they write to HDR, and the
codes they reject, which leave a header marked invalid (R204). Running a row on its own, which then leaves HDR.valid as
it was where it passes, is the model's (log entry 4), and so is keeping BLK, BSC and SRC for later steps in the sequencer
(log entry 5). -/
def Obligations.HeaderRows : Prop :=
  ∀ s : State, s.curValid = true →
    (∀ blk bsc src chn bpc, blocksizeOf bsc ≠ .reserved → sampleRateOf s.streamInfo src ≠ .reserved →
      bpsOf s.streamInfo bpc ≠ .reserved →
      ∀ n x b, channelsOf chn = some (n, x) → bpsOf s.streamInfo bpc = .value b →
      exec (.frameHeaderWord blk bsc src chn bpc) s = .next ((s.mapSeq fun q =>
          { q with blk := blk, bsc := bsc, src := src }).mapHdr fun h =>
        { h with
          blocksize := (match blocksizeOf bsc with | .value v => BitVec.ofNat 17 v | _ => h.blocksize)
          sampleRate := (match sampleRateOf s.streamInfo src with | .value v => sampleRateBits v | _ => h.sampleRate)
          channels := BitVec.ofNat 4 n
          assignment := x
          bps := bpsBits b }))
    ∧ (∀ blk bsc src chn bpc,
      blocksizeOf bsc = .reserved ∨ sampleRateOf s.streamInfo src = .reserved ∨ channelsOf chn = none
        ∨ bpsOf s.streamInfo bpc = .reserved →
      exec (.frameHeaderWord blk bsc src chn bpc) s = .next (takeRaise .frame .syncLoss s.rejectHeader))
    ∧ (∀ n : BitVec 3, exec (.chnIndependent n) s =
        .next (s.mapHdr fun h => { h with channels := BitVec.ofNat 4 (n.toNat + 1), assignment := .independent }))
    ∧ exec .chnLeftSide s = .next (s.mapHdr fun h => { h with channels := 2, assignment := .leftSide })
    ∧ exec .chnRightSide s = .next (s.mapHdr fun h => { h with channels := 2, assignment := .rightSide })
    ∧ exec .chnMidSide s = .next (s.mapHdr fun h => { h with channels := 2, assignment := .midSide })
    ∧ exec .chnReserved11 s = .next (takeRaise .frame .syncLoss s.rejectHeader)
    ∧ (∀ x, exec (.chnReserved12to15 x) s = .next (takeRaise .frame .syncLoss s.rejectHeader))

/-- The code tables of R95 to R98, value by value. -/
def Obligations.CodeTables : Prop :=
  (∀ si : StreamInfo,
    (List.range 16).map (fun c => blocksizeOf (BitVec.ofNat 4 c)) =
      [.reserved, .value 192, .value 576, .value 1152, .value 2304, .value 4608, .hint, .hint, .value 256, .value 512,
        .value 1024, .value 2048, .value 4096, .value 8192, .value 16384, .value 32768]
    ∧ (List.range 16).map (fun c => sampleRateOf si (BitVec.ofNat 4 c)) =
      [.value si.sampleRate, .value 88200, .value 176400, .value 192000, .value 8000, .value 16000, .value 22050,
        .value 24000, .value 32000, .value 44100, .value 48000, .value 96000, .hint, .hint, .hint, .reserved]
    ∧ (List.range 8).map (fun c => bpsOf si (BitVec.ofNat 3 c)) =
      [.value si.bps, .value 8, .value 12, .reserved, .value 16, .value 20, .value 24, .value 32])
  ∧ (List.range 16).map (fun c => channelsOf (BitVec.ofNat 4 c)) =
      [some (1, .independent), some (2, .independent), some (3, .independent), some (4, .independent),
        some (5, .independent), some (6, .independent), some (7, .independent), some (8, .independent),
        some (2, .leftSide), some (2, .rightSide), some (2, .midSide), none, none, none, none, none]

/-- The rows of the two stored checksums: the CRC-8 byte ends the header (R203), and the CRC-16 field ends the frame,
whose whole span must have checksum 0, whatever the field's value (R367, R368). That RES holds the checksum computed, or
is as it was where none is, is the model's reading (log entry 7). The span begins where the sequencer says (log entry 5),
and HDR.length is its low five bits (R26). -/
def Obligations.ChecksumRows : Prop :=
  ∀ s : State, s.curValid = true → s.seq.start ≤ s.byte → s.byte ≤ s.params.cap →
    (∀ crc : BitVec 8,
      let n := (s.byte - s.seq.start) % 32
      let k := crc8Of (bytesAt s.input s.seq.start (n - 1))
      let done : State := (s.mapHdr fun h => { h with crc8 := crc, length := BitVec.ofNat 5 n, valid := true }).withFState .headerParsed
      (s.params.checkCrc8 = false → exec (.headerCrc8 crc) s = .next done)
      ∧ (s.params.checkCrc8 = true → k = crc → exec (.headerCrc8 crc) s = .next (done.withRes (k.setWidth 64)))
      ∧ (s.params.checkCrc8 = true → k ≠ crc →
        exec (.headerCrc8 crc) s = .next (takeRaise .frame .headerChecksumMismatch s.rejectHeader)))
    ∧ (∀ f : BitVec 16,
      let k := crc16Of (bytesAt s.input s.seq.start (s.byte - s.seq.start))
      (k = 0 → exec (.frameFooter f) s = .next ((s.withRes 0).withFState .verified))
      ∧ (k ≠ 0 → exec (.frameFooter f) s = .next (takeRaise .frame .frameChecksumMismatch s)))

/-! ### Subframes -/

/-- R221 to R229: after its tag, a subframe whose wasted-bits code and body the stream carries writes its descriptor to
SUB[c], its n samples to CH[c] and, for LPC, its parameters to LPCP. RP, RES and the sequencer are scratch. -/
def Obligations.SubframeRows : Prop :=
  ∀ (s : State) (lay : SubframeLayout), s.Ready → depthAllowed s.wide s.seq.base →
    lay.legal s.params.narrowOverflow s.hdr.blocksize.toNat s.seq.base = true →
    carries s.input s.position (lay.bitsAfterTag s.seq.base) = true →
    s.admissible (s.position + (lay.bitsAfterTag s.seq.base).length) →
    ∃ q rp r, exec (lay.body.row lay.flag) s = .next ({ s with
        sub := s.sub.set s.seq.chan (lay.record s.seq.base)
        ch := s.ch.write s.seq.chan 0 (lay.samples s.hdr.blocksize.toNat)
        lpcp := lay.body.lpcp s.lpcp
        rp := rp
        seq := q }.readTo (s.position + (lay.bitsAfterTag s.seq.base).length) r)

/-- R220: the same with the tag byte fetched. -/
def Obligations.DecodeSubframe : Prop :=
  ∀ (s : State) (c : Fin 8) (base : Nat) (lay : SubframeLayout), s.Ready → depthAllowed s.wide base →
    lay.legal s.params.narrowOverflow s.hdr.blocksize.toNat base = true →
    carries s.input s.position (lay.bits base) = true → s.admissible (s.position + (lay.bits base).length) →
    ∃ q rp r, exec (.decodeSubframe c base) s = .next ({ s with
        sub := s.sub.set c (lay.record base)
        ch := s.ch.write c 0 (lay.samples s.hdr.blocksize.toNat)
        lpcp := lay.body.lpcp s.lpcp
        rp := rp
        seq := q }.readTo (s.position + (lay.bits base).length) r)

/-- R220, R223: a tag with bit 7 set raises SyncLoss; a reserved type and a Fixed order above 4 raise StructuralError,
after the wasted-bits code. -/
def Obligations.TagsRejected : Prop :=
  ∀ s : State, s.Ready →
    (∀ x, exec (.subframeTagBit7 x) s = .next (takeRaise .frame .syncLoss s))
    ∧ (∀ w q, (w = true → carries s.input s.position (unaryBits q) = true ∧ s.admissible (s.position + (q + 1))) →
      (∀ x, exec (.subframeReservedT2to3 x w) s = .next (takeRaise .frame .structuralError s))
      ∧ (∀ x, exec (.subframeReservedT4to7 x w) s = .next (takeRaise .frame .structuralError s))
      ∧ (∀ x, exec (.subframeReservedT16to31 x w) s = .next (takeRaise .frame .structuralError s))
      ∧ exec (.subframeFixedOrder5 w) s = .next (takeRaise .frame .structuralError s)
      ∧ (∀ x, exec (.subframeFixedOrder6to7 x w) s = .next (takeRaise .frame .structuralError s)))

/-- R222, R223, R228: an effective depth below 1, an order above the block size, the reserved LPC precision and a negative
LPC shift raise StructuralError. `b` only names the row, by its type and order. -/
def Obligations.SubframesRejected : Prop :=
  ∀ (s : State) (wasted : Nat), s.Ready → carries s.input s.position (wastedCode wasted) = true →
    s.admissible (s.position + (wastedCode wasted).length) →
    (∀ b : Body, s.seq.base ≤ wasted ∨ s.hdr.blocksize.toNat < b.order →
      exec (b.row (wasted != 0)) s = .next (takeRaise .frame .structuralError s))
    ∧ (∀ (order : BitVec 5) (warm : List Int) (tail : List Bool), wasted < s.seq.base →
      depthAllowed s.wide s.seq.base →
      warm.length = order.toNat + 1 → (∀ v ∈ warm, fitsBits (s.seq.base - wasted) v = true) →
      (tail = fieldBits 4 15
        ∨ ∃ prec shift, prec < 15 ∧ fitsBits 5 shift = true ∧ shift < 0 ∧ tail = fieldBits 4 prec ++ signedBits 5 shift) →
      let bits := wastedCode wasted ++ warm.flatMap (signedBits (s.seq.base - wasted)) ++ tail
      carries s.input s.position bits = true → s.admissible (s.position + bits.length) →
      exec (.subframeLpc order (wasted != 0)) s = .next (takeRaise .frame .structuralError s))

/-! ### Residuals -/

/-- R250 to R258: a residual section the stream carries writes its residuals to CH[c][k..n-1], no other entry, and leaves
POS just after it. RP, RES and the sequencer are scratch. -/
def Obligations.DecodeResidual : Prop :=
  ∀ (s : State) (c : Fin 8) (k : Fin 33) (sec : ResidualSection), s.Ready →
    sec.legal s.hdr.blocksize.toNat k.val = true → carries s.input s.position sec.bits = true →
    s.admissible (s.position + sec.bits.length) →
    sec.values.length = s.hdr.blocksize.toNat - k.val
    ∧ ∃ q rp r, exec (.decodeResidual c k) s = .next ({ s with
        ch := s.ch.write c k.val sec.values
        rp := rp
        seq := q }.readTo (s.position + sec.bits.length) r)

/-- The rows of a residual section's fields (R250, R253 to R255): the method, and a partition of the current size whose
residuals the stream carries, stored at the current write index. Which partition is current stands in the sequencer (log
entry 5). -/
def Obligations.ResidualRows : Prop :=
  ∀ s : State, s.Ready →
    exec .residualMethodRice4 s = .next (s.mapRp fun p => { p with method := 0, paramBits := 4 })
    ∧ exec .residualMethodRice5 s = .next (s.mapRp fun p => { p with method := 1, paramBits := 5 })
    ∧ (∀ x, exec (.residualMethodReserved x) s = .next (takeRaise .frame .structuralError s))
    ∧ (∀ vs : List Int, vs.length = s.partitionSize →
      (∀ (kk : Nat) (i : Instr),
        (∃ k : BitVec 4, k ≠ 15 ∧ k.toNat = kk ∧ i = .partitionRice4 k)
          ∨ (∃ k : BitVec 5, k ≠ 31 ∧ k.toNat = kk ∧ i = .partitionRice5 k) →
        (∀ v ∈ vs, fits32 v = true) → carries s.input s.position (vs.flatMap (riceBits kk)) = true →
        s.admissible (s.position + (vs.flatMap (riceBits kk)).length) →
        ∃ r, exec i s = .next (((s.mapRp fun p => { p with param := kk }).writeCh s.seq.chan s.partitionStart vs).readTo
          (s.position + (vs.flatMap (riceBits kk)).length) r))
      ∧ (∀ (w esc : Nat) (i : Instr), (esc = 15 ∧ i = .partitionEscape4) ∨ (esc = 31 ∧ i = .partitionEscape5) →
        w < 32 → (∀ v ∈ vs, if w = 0 then v = 0 else fitsBits w v = true) →
        carries s.input s.position (fieldBits 5 w ++ vs.flatMap (signedBits w)) = true →
        s.admissible (s.position + (5 + w * vs.length)) →
        ∃ r, exec i s = .next (((s.mapRp fun p => { p with param := esc, escapeWidth := w }).writeCh s.seq.chan
          s.partitionStart vs).readTo (s.position + (5 + w * vs.length)) r)))

/-- R250, R252, R257: an unsupported method and partition sizes that do not fit the block raise StructuralError; a Rice
value of 2^32 or more raises ArithmeticOverflow. A section raises what the row of a partition after good ones raises, and a
Fixed or LPC subframe what its residual section raises (R226, R228, R253); the state a row or section is then run in on its
own names what it reads there (log entries 4, 5 and 13), and `v.err` is what it raised. -/
def Obligations.ResidualsRejected : Prop :=
  ∀ s : State, s.Ready →
    (∀ (c : Fin 8) (k : Fin 33) (m : Nat), 2 ≤ m → m < 4 → carries s.input s.position (fieldBits 2 m) = true →
      s.admissible (s.position + 2) →
      exec (.decodeResidual c k) s = .next (takeRaise .frame .structuralError s))
    ∧ (∀ (c : Fin 8) (k : Fin 33) (m p : Nat), m < 2 → p < 16 →
      carries s.input s.position (fieldBits 2 m ++ fieldBits 4 p) = true → s.admissible (s.position + 6) →
      s.hdr.blocksize.toNat % 2 ^ p ≠ 0 ∨ s.hdr.blocksize.toNat / 2 ^ p < k.val →
      exec (.decodeResidual c k) s = .next (takeRaise .frame .structuralError s))
    ∧ (∀ (vs : List Int) (kk q r : Nat) (i : Instr),
      (∃ k : BitVec 4, k ≠ 15 ∧ k.toNat = kk ∧ i = .partitionRice4 k)
        ∨ (∃ k : BitVec 5, k ≠ 31 ∧ k.toNat = kk ∧ i = .partitionRice5 k) →
      vs.length < s.partitionSize → (∀ v ∈ vs, fits32 v = true) → r < 2 ^ kk → 2 ^ 32 ≤ q * 2 ^ kk + r →
      let bits := vs.flatMap (riceBits kk) ++ unaryBits q ++ fieldBits kk r
      carries s.input s.position bits = true → s.admissible (s.position + bits.length) →
      exec i s = .next (takeRaise .frame .arithmeticOverflow s))
    ∧ (∀ (c : Fin 8) (k : Fin 33) (m p param : Nat) (parts : List Partition), m < 2 → p < 16 → param < 2 ^ (4 + m) →
      partitionsFit s.hdr.blocksize.toNat p k.val = true → parts.length < 2 ^ p →
      (∀ q ∈ parts, q.codable (4 + m) = true) →
      (∀ j (h : j < parts.length), parts[j].values.length = partitionSize s.hdr.blocksize.toNat p k.val j) →
      let bits := fieldBits 2 m ++ fieldBits 4 p ++ parts.flatMap (Partition.bits (4 + m)) ++ fieldBits (4 + m) param
      carries s.input s.position bits = true → s.admissible (s.position + bits.length) →
      let u := ((s.mapSeq fun q => { q with chan := c, order := k.val, part := parts.length }).mapRp fun r =>
        { r with method := m, paramBits := 4 + m, partitionOrder := p }).moveTo (s.position + bits.length)
      let row := if m = 0 then decodeParam4 (BitVec.ofNat 4 param) else decodeParam5 (BitVec.ofNat 5 param)
      ∀ v, exec row u = .next v → v.curValid = false →
        exec (.decodeResidual c k) s = .next (takeRaise .frame v.err s))
    ∧ (∀ (wasted : Nat) (k : Fin 33) (ty : SubframeType) (warm : List Int) (mid : List Bool) (row : Instr),
      residualRow k.val (wasted != 0) ty mid row →
      wasted < s.seq.base → depthAllowed s.wide s.seq.base → k.val ≤ s.hdr.blocksize.toNat → warm.length = k.val →
      let d := s.seq.base - wasted
      (∀ v ∈ warm, fitsBits d v = true) →
      let bits := wastedCode wasted ++ warm.flatMap (signedBits d) ++ mid
      carries s.input s.position bits = true → s.admissible (s.position + bits.length) →
      let u := ((s.mapSub s.seq.chan fun _ => { type := ty, order := k.val, wasted := wasted, depth := d }).writeCh s.seq.chan
        0 warm).moveTo (s.position + bits.length)
      ∀ v, exec (.decodeResidual s.seq.chan k) u = .next v → v.curValid = false →
        exec row s = .next (takeRaise .frame v.err s))

/-- R256: the zig-zag map is `(u >> 1) ^ -(u & 1)` on 32-bit two's-complement words, and fits 32 bits. -/
def Obligations.ZigZag : Prop :=
  ∀ u : Nat, u < 2 ^ 32 →
    zigZag u = ((BitVec.ofNat 32 u >>> 1) ^^^ -(BitVec.ofNat 32 u &&& 1)).toInt
    ∧ zigZag u = (if u % 2 = 0 then (u : Int) / 2 else -((u : Int) + 1) / 2)
    ∧ -2 ^ 31 ≤ zigZag u ∧ zigZag u ≤ 2 ^ 31 - 1

/-! ### Predictors -/

/-- R280 to R285, R287: a Fixed restore over warm-up samples and the residuals of given samples reproduces the samples,
when each is a value its path stores; order 0, and an order with no residual to restore, leave CH as it is. The
residuals may be the exact differences, or, where the 32-bit path wraps, any 32-bit values congruent to them. -/
def Obligations.FixedRestores : Prop :=
  ∀ (s : State) (c : Fin 8),
    exec (.restoreFixed c 0) s = .next s
    ∧ (∀ k : Fin 5, s.hdr.blocksize.toNat ≤ k.val → exec (.restoreFixed c k) s = .next s)
    ∧ (∀ (k : Fin 5) (x r : Nat → Int), 1 ≤ k.val → k.val ≤ s.hdr.blocksize.toNat →
      let narrow := s.wide = false ∨ fixedPath s.sub[c].depth k.val = .acc32
      (∀ i, i < s.hdr.blocksize.toNat → (narrow → fits32 (x i) = true) ∧ fits64 (x i) = true) →
      (∀ i, i < s.hdr.blocksize.toNat → s.ch.read s.wide c i = some (if i < k.val then x i else r i)) →
      (∀ i, k.val ≤ i → i < s.hdr.blocksize.toNat →
        let p : Int := match k.val with
          | 1 => x (i - 1)
          | 2 => 2 * x (i - 1) - x (i - 2)
          | 3 => 3 * x (i - 1) - 3 * x (i - 2) + x (i - 3)
          | _ => 4 * x (i - 1) - 6 * x (i - 2) + 4 * x (i - 3) - x (i - 4)
        r i = x i - p
          ∨ (fixedPath s.sub[c].depth k.val = .acc32 ∧ s.params.narrowOverflow = .wrap ∧ r i = wrap32 (x i - p))) →
      exec (.restoreFixed c k) s = .next
        { s with ch := s.ch.write c k.val ((listOf s.hdr.blocksize.toNat x).drop k.val) })

/-- R296: the LPC restore. Each sum of coefficient times sample is narrowed by the path before the shift, which rounds
toward minus infinity, and the residual is added after it. With no residual to restore nothing changes. -/
def Obligations.LpcRestores : Prop :=
  ∀ (s : State) (c : Fin 8) (k : Fin 33),
    (s.hdr.blocksize.toNat ≤ k.val → exec (.restoreLpc c k) s = .next s)
    ∧ (∀ x r : Nat → Int, 1 ≤ k.val → k.val ≤ s.hdr.blocksize.toNat →
      (∀ i, i < s.hdr.blocksize.toNat → s.ch.read s.wide c i = some (if i < k.val then x i else r i)) →
      (∀ i, k.val ≤ i → i < s.hdr.blocksize.toNat → ∃ sum : Int,
        lpcNarrow s.params.narrowOverflow (lpcPath s.sub[c].depth)
          ((List.range k.val).map fun j => s.lpcp.coeff.toList.getD j 0 * x (i - 1 - j)).sum = some sum
        ∧ acc s.params.narrowOverflow s.wide (lpcPath s.sub[c].depth) (r i + sum / 2 ^ s.lpcp.shift) = some (x i)) →
      exec (.restoreLpc c k) s = .next
        { s with ch := s.ch.write c k.val ((listOf s.hdr.blocksize.toNat x).drop k.val) })

/-- R303, R296, R229: a value that its path cannot store ends a restore with ArithmeticOverflow: the first such sample of
a Fixed restore of any order, the first LPC sum or sample, and, in the tag row of a Fixed or LPC subframe with wasted
bits, also a restored sample that the shift carries out of range. R32, D42: a restore, the stereo transform and `pack`
that read an entry holding no value stop there. Which entry is named, and that all entries are read before any is
computed, are the model's (log entry 24). The tag rows on their own are the model's (log entry 4). -/
def Obligations.RestoreOverflows : Prop :=
  ∀ (s : State) (c : Fin 8), let n := s.hdr.blocksize.toNat
    let mode := s.params.narrowOverflow
    let holds : Fin 8 → Nat → Prop := fun d j => (s.ch.read s.wide d j).isSome = true
    let missing : Fin 8 → Nat → Prop := fun d i => i < n ∧ s.ch.read s.wide d i = none ∧ ∀ j, j < i → holds d j
    (∀ (k : Fin 5) (x r : Nat → Int) (m : Nat), 1 ≤ k.val → k.val ≤ m → m < n →
      let path := fixedPath s.sub[c].depth k.val
      (∀ i, i < n → s.ch.read s.wide c i = some (if i < k.val then x i else r i)) →
      (∀ i, k.val ≤ i → i < m → acc mode s.wide path (r i + fixedPrediction k x i) = some (x i)) →
      acc mode s.wide path (r m + fixedPrediction k x m) = none →
      exec (.restoreFixed c k) s = .next (takeRaise .frame .arithmeticOverflow s))
    ∧ (∀ (k : Fin 33) (x r : Nat → Int) (m : Nat), 1 ≤ k.val → k.val ≤ m → m < n →
      let path := lpcPath s.sub[c].depth
      let sum := fun i => lpcNarrow mode path
        ((List.range k.val).map fun j => s.lpcp.coeff.toList.getD j 0 * x (i - 1 - j)).sum
      (∀ i, i < n → s.ch.read s.wide c i = some (if i < k.val then x i else r i)) →
      (∀ i, k.val ≤ i → i < m → ∃ v, sum i = some v ∧ acc mode s.wide path (r i + v / 2 ^ s.lpcp.shift) = some (x i)) →
      (sum m = none ∨ ∃ v, sum m = some v ∧ acc mode s.wide path (r m + v / 2 ^ s.lpcp.shift) = none) →
      exec (.restoreLpc c k) s = .next (takeRaise .frame .arithmeticOverflow s))
    ∧ (∀ (k : Fin 5) (wasted : Nat) (warm : List Int) (sec : ResidualSection), s.Ready → wasted < s.seq.base →
      depthAllowed s.wide s.seq.base →
      let d := s.seq.base - wasted
      let bits := wastedCode wasted ++ warm.flatMap (signedBits d) ++ sec.bits
      warm.length = k.val → (∀ v ∈ warm, fitsBits d v = true) → sec.legal n k.val = true →
      carries s.input s.position bits = true → s.admissible (s.position + bits.length) →
      unstorable mode s.wide wasted warm
        (restoreWalk (fixedSample mode s.wide (fixedPath d k.val) k.val) warm.reverse sec.values) →
      exec ((Body.fixed k [] sec).row (wasted != 0)) s = .next (takeRaise .frame .arithmeticOverflow s))
    ∧ (∀ (order : BitVec 5) (wasted precision shift : Nat) (warm coeff : List Int) (sec : ResidualSection), s.Ready →
      wasted < s.seq.base → depthAllowed s.wide s.seq.base → 1 ≤ precision → precision ≤ 15 → shift < 16 →
      let d := s.seq.base - wasted
      let k := order.toNat + 1
      let bits := wastedCode wasted ++ warm.flatMap (signedBits d) ++ fieldBits 4 (precision - 1) ++ fieldBits 5 shift
        ++ coeff.flatMap (signedBits precision) ++ sec.bits
      warm.length = k → (∀ v ∈ warm, fitsBits d v = true) → coeff.length = k →
      (∀ v ∈ coeff, fitsBits precision v = true) → sec.legal n k = true →
      carries s.input s.position bits = true → s.admissible (s.position + bits.length) →
      unstorable mode s.wide wasted warm
        (restoreWalk (lpcSample mode s.wide (lpcPath d) coeff shift) warm.reverse sec.values) →
      exec (.subframeLpc order (wasted != 0)) s = .next (takeRaise .frame .arithmeticOverflow s))
    ∧ (∀ i, missing c i →
      (∀ k : Fin 5, 1 ≤ k.val → k.val < n → exec (.restoreFixed c k) s = .fault (.unwrittenSample c.val i))
      ∧ (∀ k : Fin 33, k.val < n → exec (.restoreLpc c k) s = .fault (.unwrittenSample c.val i))
      ∧ (s.hdr.assignment ≠ .independent → c = 0 ∨ (c = 1 ∧ ∀ j, j < n → holds 0 j) →
        exec .decorrelate s = .fault (.unwrittenSample c.val i))
      ∧ (s.fstate = .verified → 1 ≤ s.hdr.bps.toNat → s.hdr.bps.toNat ≤ 32 → c.val < s.hdr.channels.toNat →
        (∀ d : Fin 8, d < c → ∀ j, j < n → holds d j) → exec .pack s = .fault (.unwrittenSample c.val i)))

/-- R300 to R303, R363: which path a subframe takes, what each narrowing gives, and the width of a frame's buffers. -/
def Obligations.WidthPolicy : Prop :=
  (∀ d k, (fixedPath d k = .acc32 ↔ d + k ≤ 32) ∧ (lpcPath d = .acc32 ↔ d ≤ 16))
  ∧ (∀ (mode : NarrowOverflow) (v : Int),
    (-2 ^ 31 ≤ v ∧ v ≤ 2 ^ 31 - 1 → narrow32 mode v = some v)
    ∧ (¬(-2 ^ 31 ≤ v ∧ v ≤ 2 ^ 31 - 1) → narrow32 .fault v = none
      ∧ ∃ u, narrow32 .wrap v = some u ∧ -2 ^ 31 ≤ u ∧ u ≤ 2 ^ 31 - 1 ∧ (u - v) % 2 ^ 32 = 0)
    ∧ (-2 ^ 63 ≤ v ∧ v ≤ 2 ^ 63 - 1 → wide64 v = some v)
    ∧ (¬(-2 ^ 63 ≤ v ∧ v ≤ 2 ^ 63 - 1) → wide64 v = none)
    ∧ (∀ wide, acc mode wide .acc32 v = narrow32 mode v)
    ∧ acc mode false .acc64 v = (if -2 ^ 31 ≤ v ∧ v ≤ 2 ^ 31 - 1 then some v else none)
    ∧ acc mode true .acc64 v = wide64 v
    ∧ store mode false v = narrow32 mode v ∧ store mode true v = wide64 v)
  ∧ (∀ h : Header, wideOf h = true ↔ h.bps.toNat + (if h.assignment = .independent then 0 else 1) > 32)

/-! ### The stereo transform -/

/-- R320 to R324: one transform per assignment, over every index, each value stored by `Store`; a value that `Store`
cannot store raises ArithmeticOverflow. -/
def Obligations.Decorrelate : Prop :=
  ∀ (s : State) (x y : Nat → Int), let n := s.hdr.blocksize.toNat
    let st := store s.params.narrowOverflow s.wide
    (s.hdr.assignment = .independent → exec .decorrelate s = .next s)
    ∧ (s.channelIs 0 n x → s.channelIs 1 n y →
      (s.hdr.assignment = .leftSide →
        (∀ z : Nat → Int, (∀ i, i < n → st (x i - y i) = some (z i)) →
          exec .decorrelate s = .next { s with ch := s.ch.write 1 0 (listOf n z) })
        ∧ ((∃ i, i < n ∧ st (x i - y i) = none) →
          exec .decorrelate s = .next (takeRaise .frame .arithmeticOverflow s)))
      ∧ (s.hdr.assignment = .rightSide →
        (∀ z : Nat → Int, (∀ i, i < n → st (x i + y i) = some (z i)) →
          exec .decorrelate s = .next { s with ch := s.ch.write 0 0 (listOf n z) })
        ∧ ((∃ i, i < n ∧ st (x i + y i) = none) →
          exec .decorrelate s = .next (takeRaise .frame .arithmeticOverflow s)))
      ∧ (s.hdr.assignment = .midSide →
        (∀ m l r : Nat → Int, (∀ i, i < n → st (2 * x i + y i % 2) = some (m i) ∧ st (m i + y i) = some (l i)
            ∧ st (m i - y i) = some (r i)) →
          exec .decorrelate s = .next
            { s with ch := (s.ch.write 0 0 (listOf n fun i => l i / 2)).write 1 0 (listOf n fun i => r i / 2) })
        ∧ ((∃ i, i < n ∧ (st (2 * x i + y i % 2) = none
            ∨ ∃ m, st (2 * x i + y i % 2) = some m ∧ (st (m + y i) = none ∨ st (m - y i) = none))) →
          exec .decorrelate s = .next (takeRaise .frame .arithmeticOverflow s))))

/-- R326: decorrelating an encoded pair of channels gives the pair back exactly, for every pair of integers for which no
`Store` overflows. -/
def Obligations.DecorrelateInvolution : Prop :=
  ∀ (s : State) (l r : Nat → Int), let n := s.hdr.blocksize.toNat
    let ok : Int → Prop := fun v => if s.wide then fits64 v = true else fits32 v = true
    (s.hdr.assignment = .leftSide → s.channelIs 0 n l → s.channelIs 1 n (fun i => l i - r i) →
      (∀ i, i < n → ok (r i)) → exec .decorrelate s = .next { s with ch := s.ch.write 1 0 (listOf n r) })
    ∧ (s.hdr.assignment = .rightSide → s.channelIs 0 n (fun i => l i - r i) → s.channelIs 1 n r →
      (∀ i, i < n → ok (l i)) → exec .decorrelate s = .next { s with ch := s.ch.write 0 0 (listOf n l) })
    ∧ (s.hdr.assignment = .midSide → s.channelIs 0 n (fun i => (l i + r i) / 2) →
      s.channelIs 1 n (fun i => l i - r i) →
      (∀ i, i < n → ok (l i + r i) ∧ ok (2 * l i) ∧ ok (2 * r i)) →
      exec .decorrelate s = .next { s with ch := (s.ch.write 0 0 (listOf n l)).write 1 0 (listOf n r) })

/-! ### The packer and the frame -/

/-- R340 to R345: `pack` of samples that are all there, of 1 to 32 bits, each in 32 bits where the buffers are wide, fills
OUT with n * C * B bytes: byte b of sample i of channel c stands at (i * C + c) * B + b, least significant byte first.
A depth that is not 1 to 32 raises FormatError, and a wide sample outside 32 bits ArithmeticOverflow. -/
def Obligations.Pack : Prop :=
  ∀ (s : State) (v : Nat → Nat → Int), s.fstate = .verified →
    let n := s.hdr.blocksize.toNat
    let C := s.hdr.channels.toNat
    let bps := s.hdr.bps.toNat
    let B := (bps + 7) / 8
    (bps < 1 ∨ 32 < bps → exec .pack s = .next (takeRaise .frame .formatError s))
    ∧ (1 ≤ bps → bps ≤ 32 → C ≤ 8 → (∀ c : Fin 8, c.val < C → s.channelIs c n (v c.val)) →
      ((s.wide = true → ∀ c i, c < C → i < n → fits32 (v c i) = true) →
        ∃ bytes : List Byte, exec .pack s = .next { s with out := bytes, fstate := .packed, seq := Sequencer.idle }
          ∧ bytes.length = n * C * B
          ∧ ∀ i c b, i < n → c < C → b < B →
            bytes[(i * C + c) * B + b]? = some (BitVec.ofNat 8 (packedNumber bps B (v c i) >>> (8 * b))))
      ∧ (s.wide = true → (∃ c i, c < C ∧ i < n ∧ fits32 (v c i) = false) →
        exec .pack s = .next (takeRaise .frame .arithmeticOverflow s)))

/-- R360 to R370: `decode_frame` of a frame of the format that IN holds, its two checksums good, ends Verified with the
frame's samples in CH, its header in HDR, its length in bytes in RES, ERR None and no cursor. What CH, SUB, RP, LPCP and
OUT hold beside this frame's part is as `FrameLayout.after` says: the model's (log entry 9). -/
def Obligations.DecodeFrame : Prop :=
  ∀ (s : State) (a : BitVec 32) (f : FrameLayout) (outs : List (List Int)), a.toNat < 2 ^ 29 →
    f.legal s.params s.streamInfo = true → carries s.input (8 * a.toNat) (f.bits s.streamInfo) = true →
    a.toNat + f.length s.streamInfo + 4 ≤ s.params.cap →
    (s.params.checkCrc8 = true → crc8Of (bytesAt s.input a.toNat (f.header.length - 1)) = f.crc8) →
    crc16Of (bytesAt s.input a.toNat (f.length s.streamInfo)) = 0 →
    f.samples s.params s.streamInfo = some outs →
    ∃ rp, exec (.decodeFrame a) s = .next (f.after outs rp s)

/-- The ends of `decode_frame` by a raise, but for BufferOverrun at its start and between its fields (R374). A rejected header
(R362): the frame ends as the parse at its start does, after `cursor_new`, with WIDE 0 (R423, log entry 25). A subframe that
raises after good ones (R365): the frame raises the same, HDR the frame's. R368: a frame good but for a checksum over its span that is not 0 raises
FrameChecksumMismatch, whether or not its samples can be stored. R369: one whose checksums are good but whose stereo
transform cannot store a sample raises ArithmeticOverflow. In all but the first HDR is still valid with the frame's header
(R372), and WIDE is the frame's, which a raise leaves (log entry 6). -/
def Obligations.FrameChecksumFails : Prop :=
  ∀ (s : State) (a : BitVec 32), a.toNat < 2 ^ 29 →
    (∀ u t, a.toNat + 4 ≤ s.params.cap → exec (.cursorNew (BitVec.ofNat 32 (8 * a.toNat))) { s with wide := false } = .next u →
      exec .parseFrameHeader u = .next t → t.curValid = false → exec (.decodeFrame a) s = .next t)
    ∧ (∀ f : FrameLayout, (s.params.checkCrc8 = true → crc8Of (bytesAt s.input a.toNat (f.header.length - 1)) = f.crc8) →
      let h := f.record s.streamInfo
      let failed : ErrKind → Result := fun k => .next (takeRaise .frame k { s with hdr := h, wide := wideOf h })
      (∀ (c : Fin 8) (v : State), f.header.legal s.streamInfo = true → h.bps.toNat ≤ 32 → c.val = f.subframes.length →
        c.val < h.channels.toNat →
        (∀ cf ∈ f.channels, cf.2.legal s.params.narrowOverflow h.blocksize.toNat (baseDepth h cf.1) = true) →
        carries s.input (8 * a.toNat) (f.dataBits s.streamInfo) = true →
        s.admissible (8 * a.toNat + (f.dataBits s.streamInfo).length) →
        exec (.decodeSubframe c (baseDepth h c)) (f.midway a.toNat s) = .next v → v.curValid = false →
        exec (.decodeFrame a) s = failed v.err)
      ∧ (f.legal s.params s.streamInfo = true → carries s.input (8 * a.toNat) (f.bits s.streamInfo) = true →
        a.toNat + f.length s.streamInfo + 4 ≤ s.params.cap →
        (crc16Of (bytesAt s.input a.toNat (f.length s.streamInfo)) ≠ 0 →
          exec (.decodeFrame a) s = failed .frameChecksumMismatch)
        ∧ (crc16Of (bytesAt s.input a.toNat (f.length s.streamInfo)) = 0 → f.samples s.params s.streamInfo = none →
          exec (.decodeFrame a) s = failed .arithmeticOverflow)))

/-- R371: `decode_next_frame` is `decode_frame` and, when that ends Verified, `pack`; of a frame of the format that IN
holds, its checksums good and its samples in the packer's range, it ends Packed with all of OUT written. That a refused
`decode_frame` runs no `pack` is the model's (log entry 10), and so is what CH, SUB, RP and LPCP hold beside this frame's
part, as `FrameLayout.after` says (log entry 9). -/
def Obligations.DecodeNextFrame : Prop :=
  (∀ (s t : State) (a : BitVec 32), a.toNat < 2 ^ 29 → exec (.decodeFrame a) s = .next t →
    (t.fstate = .verified → exec (.decodeNextFrame a) s = exec .pack t)
    ∧ (t.fstate ≠ .verified → exec (.decodeNextFrame a) s = .next t))
  ∧ (∀ (s : State) (a : BitVec 32) (f : FrameLayout) (outs : List (List Int)), a.toNat < 2 ^ 29 →
    f.legal s.params s.streamInfo = true → carries s.input (8 * a.toNat) (f.bits s.streamInfo) = true →
    a.toNat + f.length s.streamInfo + 4 ≤ s.params.cap →
    (s.params.checkCrc8 = true → crc8Of (bytesAt s.input a.toNat (f.header.length - 1)) = f.crc8) →
    crc16Of (bytesAt s.input a.toNat (f.length s.streamInfo)) = 0 →
    f.samples s.params s.streamInfo = some outs →
    (wideOf (f.record s.streamInfo) = true → ∀ xs ∈ outs, ∀ x ∈ xs, fits32 x = true) →
    let h := f.record s.streamInfo
    ∃ (rp : ResidualParams) (bytes : List Byte), exec (.decodeNextFrame a) s = .next
      { f.after outs rp s with out := bytes, fstate := .packed, seq := Sequencer.idle }
      ∧ bytes.length = h.blocksize.toNat * h.channels.toNat * ((h.bps.toNat + 7) / 8))

/-- R423: what `decode_frame` does depends on IN, the parameters and STREAMINFO only, not on what an earlier frame left:
two states that agree on these (and on the count of free values, log entry 1) end alike in everything a host reads of the
attempt. WIDE is 0 where no header was parsed (log entry 25), and a raise leaves it (log entry 6). HDR is compared whole where the start of the frame is admissible: a raise before the parse writes HDR.valid alone. -/
def Obligations.FrameIndependence : Prop :=
  ∀ (s₁ s₂ t₁ t₂ : State) (a : BitVec 32), a.toNat < 2 ^ 29 →
    s₁.input = s₂.input → s₁.params = s₂.params → s₁.streamInfo = s₂.streamInfo → s₁.freeCount = s₂.freeCount →
    exec (.decodeFrame a) s₁ = .next t₁ → exec (.decodeFrame a) s₂ = .next t₂ →
    t₁.err = t₂.err ∧ t₁.fstate = t₂.fstate ∧ t₁.hdr.valid = t₂.hdr.valid
    ∧ (a.toNat + 4 ≤ s₁.params.cap → t₁.hdr = t₂.hdr) ∧ t₁.res = t₂.res ∧ t₁.ok = t₂.ok ∧ t₁.ch = t₂.ch
    ∧ t₁.curValid = t₂.curValid ∧ t₁.freeCount = t₂.freeCount ∧ t₁.wide = t₂.wide
end

