-- ==== Sys2Proof/Laws/State.lean ====
section
/-! SUPPORT. What each update of the state leaves in each field: one lemma a field, true by rfl, so that no proof
unfolds a record update. -/

namespace Sys2Proof.Machine

/-! ### dropCursor -/

@[simp] theorem dropCursor_input (s : State) : (dropCursor s).input = s.input := rfl
@[simp] theorem dropCursor_params (s : State) : (dropCursor s).params = s.params := rfl
@[simp] theorem dropCursor_streamInfo (s : State) : (dropCursor s).streamInfo = s.streamInfo := rfl
@[simp] theorem dropCursor_byte (s : State) : (dropCursor s).byte = Config.freeNat s.freeCount 0 := rfl
@[simp] theorem dropCursor_bit (s : State) : (dropCursor s).bit = Fin.ofNat 8 (Config.freeNat s.freeCount 1) := rfl
@[simp] theorem dropCursor_cache (s : State) : (dropCursor s).cache = Config.freeCache s.freeCount := rfl
@[simp] theorem dropCursor_curValid (s : State) : (dropCursor s).curValid = false := rfl
@[simp] theorem dropCursor_hdr (s : State) : (dropCursor s).hdr = s.hdr := rfl
@[simp] theorem dropCursor_sub (s : State) : (dropCursor s).sub = s.sub := rfl
@[simp] theorem dropCursor_rp (s : State) : (dropCursor s).rp = s.rp := rfl
@[simp] theorem dropCursor_lpcp (s : State) : (dropCursor s).lpcp = s.lpcp := rfl
@[simp] theorem dropCursor_ch (s : State) : (dropCursor s).ch = s.ch := rfl
@[simp] theorem dropCursor_wide (s : State) : (dropCursor s).wide = s.wide := rfl
@[simp] theorem dropCursor_out (s : State) : (dropCursor s).out = s.out := rfl
@[simp] theorem dropCursor_fstate (s : State) : (dropCursor s).fstate = s.fstate := rfl
@[simp] theorem dropCursor_err (s : State) : (dropCursor s).err = s.err := rfl
@[simp] theorem dropCursor_res (s : State) : (dropCursor s).res = s.res := rfl
@[simp] theorem dropCursor_ok (s : State) : (dropCursor s).ok = s.ok := rfl
@[simp] theorem dropCursor_seq (s : State) : (dropCursor s).seq = Sequencer.idle := rfl
@[simp] theorem dropCursor_pending (s : State) : (dropCursor s).pending = s.pending := rfl
@[simp] theorem dropCursor_freeCount (s : State) : (dropCursor s).freeCount = s.freeCount + 1 := rfl

/-! ### takeRaise -/

section
variable (c : CommandClass) (k : ErrKind) (s : State)
@[simp] theorem takeRaise_input : (takeRaise c k s).input = s.input := rfl
@[simp] theorem takeRaise_params : (takeRaise c k s).params = s.params := rfl
@[simp] theorem takeRaise_streamInfo : (takeRaise c k s).streamInfo = s.streamInfo := rfl
@[simp] theorem takeRaise_byte : (takeRaise c k s).byte = Config.freeNat s.freeCount 0 := rfl
@[simp] theorem takeRaise_bit : (takeRaise c k s).bit = Fin.ofNat 8 (Config.freeNat s.freeCount 1) := rfl
@[simp] theorem takeRaise_cache : (takeRaise c k s).cache = Config.freeCache s.freeCount := rfl
@[simp] theorem takeRaise_curValid : (takeRaise c k s).curValid = false := rfl
@[simp] theorem takeRaise_hdr : (takeRaise c k s).hdr = s.hdr := rfl
@[simp] theorem takeRaise_sub : (takeRaise c k s).sub = Vector.ofFn (freeSubframe s.freeCount) := rfl
@[simp] theorem takeRaise_rp : (takeRaise c k s).rp = freeResidualParams s.freeCount := rfl
@[simp] theorem takeRaise_lpcp : (takeRaise c k s).lpcp = freeLpcParams s.freeCount := rfl
@[simp] theorem takeRaise_ch :
    (takeRaise c k s).ch = { background := some s.freeCount, cells := Vector.replicate 8 [] } := rfl
@[simp] theorem takeRaise_wide : (takeRaise c k s).wide = s.wide := rfl
@[simp] theorem takeRaise_out : (takeRaise c k s).out = Config.freeOut s.freeCount := rfl
@[simp] theorem takeRaise_fstate :
    (takeRaise c k s).fstate = if c = .frame then .failed else s.fstate := rfl
@[simp] theorem takeRaise_err : (takeRaise c k s).err = k := rfl
@[simp] theorem takeRaise_res : (takeRaise c k s).res = Config.freeRes s.freeCount := rfl
@[simp] theorem takeRaise_ok : (takeRaise c k s).ok = Config.freeFlag s.freeCount := rfl
@[simp] theorem takeRaise_seq : (takeRaise c k s).seq = Sequencer.idle := rfl
@[simp] theorem takeRaise_pending : (takeRaise c k s).pending = s.pending := rfl
@[simp] theorem takeRaise_freeCount : (takeRaise c k s).freeCount = s.freeCount + 1 := rfl
end

/-- What a raise leaves is fixed by these fields of the state it happens in. -/
theorem takeRaise_congr {c : CommandClass} {k : ErrKind} {s t : State} (h1 : s.input = t.input) (h2 : s.params = t.params)
    (h3 : s.streamInfo = t.streamInfo) (h4 : s.hdr = t.hdr) (h5 : s.wide = t.wide) (h6 : s.fstate = t.fstate)
    (h7 : s.pending = t.pending) (h8 : s.freeCount = t.freeCount) : takeRaise c k s = takeRaise c k t := by
  simp only [takeRaise, dropCursor, h1, h2, h3, h4, h5, h6, h7, h8]

/-! ### rejectHeader -/

@[simp] theorem rejectHeader_input (s : State) : s.rejectHeader.input = s.input := rfl
@[simp] theorem rejectHeader_params (s : State) : s.rejectHeader.params = s.params := rfl
@[simp] theorem rejectHeader_streamInfo (s : State) : s.rejectHeader.streamInfo = s.streamInfo := rfl
@[simp] theorem rejectHeader_byte (s : State) : s.rejectHeader.byte = s.byte := rfl
@[simp] theorem rejectHeader_bit (s : State) : s.rejectHeader.bit = s.bit := rfl
@[simp] theorem rejectHeader_cache (s : State) : s.rejectHeader.cache = s.cache := rfl
@[simp] theorem rejectHeader_curValid (s : State) : s.rejectHeader.curValid = s.curValid := rfl
@[simp] theorem rejectHeader_sub (s : State) : s.rejectHeader.sub = s.sub := rfl
@[simp] theorem rejectHeader_rp (s : State) : s.rejectHeader.rp = s.rp := rfl
@[simp] theorem rejectHeader_lpcp (s : State) : s.rejectHeader.lpcp = s.lpcp := rfl
@[simp] theorem rejectHeader_ch (s : State) : s.rejectHeader.ch = s.ch := rfl
@[simp] theorem rejectHeader_wide (s : State) : s.rejectHeader.wide = s.wide := rfl
@[simp] theorem rejectHeader_out (s : State) : s.rejectHeader.out = s.out := rfl
@[simp] theorem rejectHeader_fstate (s : State) : s.rejectHeader.fstate = s.fstate := rfl
@[simp] theorem rejectHeader_err (s : State) : s.rejectHeader.err = s.err := rfl
@[simp] theorem rejectHeader_res (s : State) : s.rejectHeader.res = s.res := rfl
@[simp] theorem rejectHeader_ok (s : State) : s.rejectHeader.ok = s.ok := rfl
@[simp] theorem rejectHeader_seq (s : State) : s.rejectHeader.seq = s.seq := rfl
@[simp] theorem rejectHeader_pending (s : State) : s.rejectHeader.pending = s.pending := rfl
@[simp] theorem rejectHeader_freeCount (s : State) : s.rejectHeader.freeCount = s.freeCount := rfl
@[simp] theorem rejectHeader_hdr (s : State) : s.rejectHeader.hdr = freeHeader s.freeCount := rfl
theorem rejectHeader_valid (s : State) : s.rejectHeader.hdr.valid = false := rfl

/-! ### startAttempt -/

@[simp] theorem startAttempt_input (s : State) : (startAttempt s).input = s.input := rfl
@[simp] theorem startAttempt_params (s : State) : (startAttempt s).params = s.params := rfl
@[simp] theorem startAttempt_streamInfo (s : State) : (startAttempt s).streamInfo = s.streamInfo := rfl
@[simp] theorem startAttempt_byte (s : State) : (startAttempt s).byte = s.byte := rfl
@[simp] theorem startAttempt_bit (s : State) : (startAttempt s).bit = s.bit := rfl
@[simp] theorem startAttempt_cache (s : State) : (startAttempt s).cache = s.cache := rfl
@[simp] theorem startAttempt_curValid (s : State) : (startAttempt s).curValid = true := rfl
@[simp] theorem startAttempt_hdr (s : State) : (startAttempt s).hdr = { s.hdr with valid := false } := rfl
@[simp] theorem startAttempt_sub (s : State) : (startAttempt s).sub = s.sub := rfl
@[simp] theorem startAttempt_rp (s : State) : (startAttempt s).rp = s.rp := rfl
@[simp] theorem startAttempt_lpcp (s : State) : (startAttempt s).lpcp = s.lpcp := rfl
@[simp] theorem startAttempt_ch (s : State) : (startAttempt s).ch = s.ch := rfl
@[simp] theorem startAttempt_wide (s : State) : (startAttempt s).wide = s.wide := rfl
@[simp] theorem startAttempt_out (s : State) : (startAttempt s).out = s.out := rfl
@[simp] theorem startAttempt_fstate (s : State) : (startAttempt s).fstate = .idle := rfl
@[simp] theorem startAttempt_err (s : State) : (startAttempt s).err = .none := rfl
@[simp] theorem startAttempt_res (s : State) : (startAttempt s).res = s.res := rfl
@[simp] theorem startAttempt_ok (s : State) : (startAttempt s).ok = false := rfl
@[simp] theorem startAttempt_seq (s : State) : (startAttempt s).seq = s.seq := rfl
@[simp] theorem startAttempt_pending (s : State) : (startAttempt s).pending = s.pending := rfl
@[simp] theorem startAttempt_freeCount (s : State) : (startAttempt s).freeCount = s.freeCount := rfl

/-! ### refuse -/

section
variable (k : ErrKind) (s : State)
@[simp] theorem refuse_input : (refuse k s).input = s.input := rfl
@[simp] theorem refuse_params : (refuse k s).params = s.params := rfl
@[simp] theorem refuse_streamInfo : (refuse k s).streamInfo = s.streamInfo := rfl
@[simp] theorem refuse_byte : (refuse k s).byte = s.byte := rfl
@[simp] theorem refuse_bit : (refuse k s).bit = s.bit := rfl
@[simp] theorem refuse_cache : (refuse k s).cache = s.cache := rfl
@[simp] theorem refuse_curValid : (refuse k s).curValid = s.curValid := rfl
@[simp] theorem refuse_hdr : (refuse k s).hdr = s.hdr := rfl
@[simp] theorem refuse_sub : (refuse k s).sub = s.sub := rfl
@[simp] theorem refuse_rp : (refuse k s).rp = s.rp := rfl
@[simp] theorem refuse_lpcp : (refuse k s).lpcp = s.lpcp := rfl
@[simp] theorem refuse_ch : (refuse k s).ch = s.ch := rfl
@[simp] theorem refuse_wide : (refuse k s).wide = s.wide := rfl
@[simp] theorem refuse_out : (refuse k s).out = s.out := rfl
@[simp] theorem refuse_fstate : (refuse k s).fstate = s.fstate := rfl
@[simp] theorem refuse_err : (refuse k s).err = k := rfl
@[simp] theorem refuse_res : (refuse k s).res = s.res := rfl
@[simp] theorem refuse_ok : (refuse k s).ok = s.ok := rfl
@[simp] theorem refuse_seq : (refuse k s).seq = s.seq := rfl
@[simp] theorem refuse_pending : (refuse k s).pending = s.pending := rfl
@[simp] theorem refuse_freeCount : (refuse k s).freeCount = s.freeCount := rfl
end

/-! ### Register writes -/

section
variable (v : Word64) (s : State)
@[simp] theorem withRes_input : (s.withRes v).input = s.input := rfl
@[simp] theorem withRes_params : (s.withRes v).params = s.params := rfl
@[simp] theorem withRes_streamInfo : (s.withRes v).streamInfo = s.streamInfo := rfl
@[simp] theorem withRes_byte : (s.withRes v).byte = s.byte := rfl
@[simp] theorem withRes_bit : (s.withRes v).bit = s.bit := rfl
@[simp] theorem withRes_cache : (s.withRes v).cache = s.cache := rfl
@[simp] theorem withRes_curValid : (s.withRes v).curValid = s.curValid := rfl
@[simp] theorem withRes_hdr : (s.withRes v).hdr = s.hdr := rfl
@[simp] theorem withRes_sub : (s.withRes v).sub = s.sub := rfl
@[simp] theorem withRes_rp : (s.withRes v).rp = s.rp := rfl
@[simp] theorem withRes_lpcp : (s.withRes v).lpcp = s.lpcp := rfl
@[simp] theorem withRes_ch : (s.withRes v).ch = s.ch := rfl
@[simp] theorem withRes_wide : (s.withRes v).wide = s.wide := rfl
@[simp] theorem withRes_out : (s.withRes v).out = s.out := rfl
@[simp] theorem withRes_fstate : (s.withRes v).fstate = s.fstate := rfl
@[simp] theorem withRes_err : (s.withRes v).err = s.err := rfl
@[simp] theorem withRes_res : (s.withRes v).res = v := rfl
@[simp] theorem withRes_ok : (s.withRes v).ok = s.ok := rfl
@[simp] theorem withRes_seq : (s.withRes v).seq = s.seq := rfl
@[simp] theorem withRes_pending : (s.withRes v).pending = s.pending := rfl
@[simp] theorem withRes_freeCount : (s.withRes v).freeCount = s.freeCount := rfl
@[simp] theorem withRes_position : (s.withRes v).position = s.position := rfl
end

section
variable (b : Bool) (s : State)
@[simp] theorem withOk_input : (s.withOk b).input = s.input := rfl
@[simp] theorem withOk_params : (s.withOk b).params = s.params := rfl
@[simp] theorem withOk_streamInfo : (s.withOk b).streamInfo = s.streamInfo := rfl
@[simp] theorem withOk_byte : (s.withOk b).byte = s.byte := rfl
@[simp] theorem withOk_bit : (s.withOk b).bit = s.bit := rfl
@[simp] theorem withOk_cache : (s.withOk b).cache = s.cache := rfl
@[simp] theorem withOk_curValid : (s.withOk b).curValid = s.curValid := rfl
@[simp] theorem withOk_hdr : (s.withOk b).hdr = s.hdr := rfl
@[simp] theorem withOk_sub : (s.withOk b).sub = s.sub := rfl
@[simp] theorem withOk_rp : (s.withOk b).rp = s.rp := rfl
@[simp] theorem withOk_lpcp : (s.withOk b).lpcp = s.lpcp := rfl
@[simp] theorem withOk_ch : (s.withOk b).ch = s.ch := rfl
@[simp] theorem withOk_wide : (s.withOk b).wide = s.wide := rfl
@[simp] theorem withOk_out : (s.withOk b).out = s.out := rfl
@[simp] theorem withOk_fstate : (s.withOk b).fstate = s.fstate := rfl
@[simp] theorem withOk_err : (s.withOk b).err = s.err := rfl
@[simp] theorem withOk_res : (s.withOk b).res = s.res := rfl
@[simp] theorem withOk_ok : (s.withOk b).ok = b := rfl
@[simp] theorem withOk_seq : (s.withOk b).seq = s.seq := rfl
@[simp] theorem withOk_pending : (s.withOk b).pending = s.pending := rfl
@[simp] theorem withOk_freeCount : (s.withOk b).freeCount = s.freeCount := rfl
@[simp] theorem withOk_position : (s.withOk b).position = s.position := rfl
end

section
variable (f : FState) (s : State)
@[simp] theorem withFState_input : (s.withFState f).input = s.input := rfl
@[simp] theorem withFState_params : (s.withFState f).params = s.params := rfl
@[simp] theorem withFState_streamInfo : (s.withFState f).streamInfo = s.streamInfo := rfl
@[simp] theorem withFState_byte : (s.withFState f).byte = s.byte := rfl
@[simp] theorem withFState_bit : (s.withFState f).bit = s.bit := rfl
@[simp] theorem withFState_cache : (s.withFState f).cache = s.cache := rfl
@[simp] theorem withFState_curValid : (s.withFState f).curValid = s.curValid := rfl
@[simp] theorem withFState_hdr : (s.withFState f).hdr = s.hdr := rfl
@[simp] theorem withFState_sub : (s.withFState f).sub = s.sub := rfl
@[simp] theorem withFState_rp : (s.withFState f).rp = s.rp := rfl
@[simp] theorem withFState_lpcp : (s.withFState f).lpcp = s.lpcp := rfl
@[simp] theorem withFState_ch : (s.withFState f).ch = s.ch := rfl
@[simp] theorem withFState_wide : (s.withFState f).wide = s.wide := rfl
@[simp] theorem withFState_out : (s.withFState f).out = s.out := rfl
@[simp] theorem withFState_fstate : (s.withFState f).fstate = f := rfl
@[simp] theorem withFState_err : (s.withFState f).err = s.err := rfl
@[simp] theorem withFState_res : (s.withFState f).res = s.res := rfl
@[simp] theorem withFState_ok : (s.withFState f).ok = s.ok := rfl
@[simp] theorem withFState_seq : (s.withFState f).seq = s.seq := rfl
@[simp] theorem withFState_pending : (s.withFState f).pending = s.pending := rfl
@[simp] theorem withFState_freeCount : (s.withFState f).freeCount = s.freeCount := rfl
@[simp] theorem withFState_position : (s.withFState f).position = s.position := rfl
end

section
variable (b : List Byte) (s : State)
@[simp] theorem withOut_input : (s.withOut b).input = s.input := rfl
@[simp] theorem withOut_params : (s.withOut b).params = s.params := rfl
@[simp] theorem withOut_streamInfo : (s.withOut b).streamInfo = s.streamInfo := rfl
@[simp] theorem withOut_byte : (s.withOut b).byte = s.byte := rfl
@[simp] theorem withOut_bit : (s.withOut b).bit = s.bit := rfl
@[simp] theorem withOut_cache : (s.withOut b).cache = s.cache := rfl
@[simp] theorem withOut_curValid : (s.withOut b).curValid = s.curValid := rfl
@[simp] theorem withOut_hdr : (s.withOut b).hdr = s.hdr := rfl
@[simp] theorem withOut_sub : (s.withOut b).sub = s.sub := rfl
@[simp] theorem withOut_rp : (s.withOut b).rp = s.rp := rfl
@[simp] theorem withOut_lpcp : (s.withOut b).lpcp = s.lpcp := rfl
@[simp] theorem withOut_ch : (s.withOut b).ch = s.ch := rfl
@[simp] theorem withOut_wide : (s.withOut b).wide = s.wide := rfl
@[simp] theorem withOut_out : (s.withOut b).out = b := rfl
@[simp] theorem withOut_fstate : (s.withOut b).fstate = s.fstate := rfl
@[simp] theorem withOut_err : (s.withOut b).err = s.err := rfl
@[simp] theorem withOut_res : (s.withOut b).res = s.res := rfl
@[simp] theorem withOut_ok : (s.withOut b).ok = s.ok := rfl
@[simp] theorem withOut_seq : (s.withOut b).seq = s.seq := rfl
@[simp] theorem withOut_pending : (s.withOut b).pending = s.pending := rfl
@[simp] theorem withOut_freeCount : (s.withOut b).freeCount = s.freeCount := rfl
@[simp] theorem withOut_position : (s.withOut b).position = s.position := rfl
end

section
variable (w : Bool) (f : ChannelFile) (s : State)
@[simp] theorem withBuffers_input : (s.withBuffers w f).input = s.input := rfl
@[simp] theorem withBuffers_params : (s.withBuffers w f).params = s.params := rfl
@[simp] theorem withBuffers_streamInfo : (s.withBuffers w f).streamInfo = s.streamInfo := rfl
@[simp] theorem withBuffers_byte : (s.withBuffers w f).byte = s.byte := rfl
@[simp] theorem withBuffers_bit : (s.withBuffers w f).bit = s.bit := rfl
@[simp] theorem withBuffers_cache : (s.withBuffers w f).cache = s.cache := rfl
@[simp] theorem withBuffers_curValid : (s.withBuffers w f).curValid = s.curValid := rfl
@[simp] theorem withBuffers_hdr : (s.withBuffers w f).hdr = s.hdr := rfl
@[simp] theorem withBuffers_sub : (s.withBuffers w f).sub = s.sub := rfl
@[simp] theorem withBuffers_rp : (s.withBuffers w f).rp = s.rp := rfl
@[simp] theorem withBuffers_lpcp : (s.withBuffers w f).lpcp = s.lpcp := rfl
@[simp] theorem withBuffers_ch : (s.withBuffers w f).ch = f := rfl
@[simp] theorem withBuffers_wide : (s.withBuffers w f).wide = w := rfl
@[simp] theorem withBuffers_out : (s.withBuffers w f).out = s.out := rfl
@[simp] theorem withBuffers_fstate : (s.withBuffers w f).fstate = s.fstate := rfl
@[simp] theorem withBuffers_err : (s.withBuffers w f).err = s.err := rfl
@[simp] theorem withBuffers_res : (s.withBuffers w f).res = s.res := rfl
@[simp] theorem withBuffers_ok : (s.withBuffers w f).ok = s.ok := rfl
@[simp] theorem withBuffers_seq : (s.withBuffers w f).seq = s.seq := rfl
@[simp] theorem withBuffers_pending : (s.withBuffers w f).pending = s.pending := rfl
@[simp] theorem withBuffers_freeCount : (s.withBuffers w f).freeCount = s.freeCount := rfl
@[simp] theorem withBuffers_position : (s.withBuffers w f).position = s.position := rfl
end

section
variable (f : Header → Header) (s : State)
@[simp] theorem mapHdr_input : (s.mapHdr f).input = s.input := rfl
@[simp] theorem mapHdr_params : (s.mapHdr f).params = s.params := rfl
@[simp] theorem mapHdr_streamInfo : (s.mapHdr f).streamInfo = s.streamInfo := rfl
@[simp] theorem mapHdr_byte : (s.mapHdr f).byte = s.byte := rfl
@[simp] theorem mapHdr_bit : (s.mapHdr f).bit = s.bit := rfl
@[simp] theorem mapHdr_cache : (s.mapHdr f).cache = s.cache := rfl
@[simp] theorem mapHdr_curValid : (s.mapHdr f).curValid = s.curValid := rfl
@[simp] theorem mapHdr_hdr : (s.mapHdr f).hdr = f s.hdr := rfl
@[simp] theorem mapHdr_sub : (s.mapHdr f).sub = s.sub := rfl
@[simp] theorem mapHdr_rp : (s.mapHdr f).rp = s.rp := rfl
@[simp] theorem mapHdr_lpcp : (s.mapHdr f).lpcp = s.lpcp := rfl
@[simp] theorem mapHdr_ch : (s.mapHdr f).ch = s.ch := rfl
@[simp] theorem mapHdr_wide : (s.mapHdr f).wide = s.wide := rfl
@[simp] theorem mapHdr_out : (s.mapHdr f).out = s.out := rfl
@[simp] theorem mapHdr_fstate : (s.mapHdr f).fstate = s.fstate := rfl
@[simp] theorem mapHdr_err : (s.mapHdr f).err = s.err := rfl
@[simp] theorem mapHdr_res : (s.mapHdr f).res = s.res := rfl
@[simp] theorem mapHdr_ok : (s.mapHdr f).ok = s.ok := rfl
@[simp] theorem mapHdr_seq : (s.mapHdr f).seq = s.seq := rfl
@[simp] theorem mapHdr_pending : (s.mapHdr f).pending = s.pending := rfl
@[simp] theorem mapHdr_freeCount : (s.mapHdr f).freeCount = s.freeCount := rfl
@[simp] theorem mapHdr_position : (s.mapHdr f).position = s.position := rfl
end

section
variable (f : Sequencer → Sequencer) (s : State)
@[simp] theorem mapSeq_input : (s.mapSeq f).input = s.input := rfl
@[simp] theorem mapSeq_params : (s.mapSeq f).params = s.params := rfl
@[simp] theorem mapSeq_streamInfo : (s.mapSeq f).streamInfo = s.streamInfo := rfl
@[simp] theorem mapSeq_byte : (s.mapSeq f).byte = s.byte := rfl
@[simp] theorem mapSeq_bit : (s.mapSeq f).bit = s.bit := rfl
@[simp] theorem mapSeq_cache : (s.mapSeq f).cache = s.cache := rfl
@[simp] theorem mapSeq_curValid : (s.mapSeq f).curValid = s.curValid := rfl
@[simp] theorem mapSeq_hdr : (s.mapSeq f).hdr = s.hdr := rfl
@[simp] theorem mapSeq_sub : (s.mapSeq f).sub = s.sub := rfl
@[simp] theorem mapSeq_rp : (s.mapSeq f).rp = s.rp := rfl
@[simp] theorem mapSeq_lpcp : (s.mapSeq f).lpcp = s.lpcp := rfl
@[simp] theorem mapSeq_ch : (s.mapSeq f).ch = s.ch := rfl
@[simp] theorem mapSeq_wide : (s.mapSeq f).wide = s.wide := rfl
@[simp] theorem mapSeq_out : (s.mapSeq f).out = s.out := rfl
@[simp] theorem mapSeq_fstate : (s.mapSeq f).fstate = s.fstate := rfl
@[simp] theorem mapSeq_err : (s.mapSeq f).err = s.err := rfl
@[simp] theorem mapSeq_res : (s.mapSeq f).res = s.res := rfl
@[simp] theorem mapSeq_ok : (s.mapSeq f).ok = s.ok := rfl
@[simp] theorem mapSeq_seq : (s.mapSeq f).seq = f s.seq := rfl
@[simp] theorem mapSeq_pending : (s.mapSeq f).pending = s.pending := rfl
@[simp] theorem mapSeq_freeCount : (s.mapSeq f).freeCount = s.freeCount := rfl
@[simp] theorem mapSeq_position : (s.mapSeq f).position = s.position := rfl
end

section
variable (f : ResidualParams → ResidualParams) (s : State)
@[simp] theorem mapRp_input : (s.mapRp f).input = s.input := rfl
@[simp] theorem mapRp_params : (s.mapRp f).params = s.params := rfl
@[simp] theorem mapRp_streamInfo : (s.mapRp f).streamInfo = s.streamInfo := rfl
@[simp] theorem mapRp_byte : (s.mapRp f).byte = s.byte := rfl
@[simp] theorem mapRp_bit : (s.mapRp f).bit = s.bit := rfl
@[simp] theorem mapRp_cache : (s.mapRp f).cache = s.cache := rfl
@[simp] theorem mapRp_curValid : (s.mapRp f).curValid = s.curValid := rfl
@[simp] theorem mapRp_hdr : (s.mapRp f).hdr = s.hdr := rfl
@[simp] theorem mapRp_sub : (s.mapRp f).sub = s.sub := rfl
@[simp] theorem mapRp_rp : (s.mapRp f).rp = f s.rp := rfl
@[simp] theorem mapRp_lpcp : (s.mapRp f).lpcp = s.lpcp := rfl
@[simp] theorem mapRp_ch : (s.mapRp f).ch = s.ch := rfl
@[simp] theorem mapRp_wide : (s.mapRp f).wide = s.wide := rfl
@[simp] theorem mapRp_out : (s.mapRp f).out = s.out := rfl
@[simp] theorem mapRp_fstate : (s.mapRp f).fstate = s.fstate := rfl
@[simp] theorem mapRp_err : (s.mapRp f).err = s.err := rfl
@[simp] theorem mapRp_res : (s.mapRp f).res = s.res := rfl
@[simp] theorem mapRp_ok : (s.mapRp f).ok = s.ok := rfl
@[simp] theorem mapRp_seq : (s.mapRp f).seq = s.seq := rfl
@[simp] theorem mapRp_pending : (s.mapRp f).pending = s.pending := rfl
@[simp] theorem mapRp_freeCount : (s.mapRp f).freeCount = s.freeCount := rfl
@[simp] theorem mapRp_position : (s.mapRp f).position = s.position := rfl
end

section
variable (f : LpcParams → LpcParams) (s : State)
@[simp] theorem mapLpcp_input : (s.mapLpcp f).input = s.input := rfl
@[simp] theorem mapLpcp_params : (s.mapLpcp f).params = s.params := rfl
@[simp] theorem mapLpcp_streamInfo : (s.mapLpcp f).streamInfo = s.streamInfo := rfl
@[simp] theorem mapLpcp_byte : (s.mapLpcp f).byte = s.byte := rfl
@[simp] theorem mapLpcp_bit : (s.mapLpcp f).bit = s.bit := rfl
@[simp] theorem mapLpcp_cache : (s.mapLpcp f).cache = s.cache := rfl
@[simp] theorem mapLpcp_curValid : (s.mapLpcp f).curValid = s.curValid := rfl
@[simp] theorem mapLpcp_hdr : (s.mapLpcp f).hdr = s.hdr := rfl
@[simp] theorem mapLpcp_sub : (s.mapLpcp f).sub = s.sub := rfl
@[simp] theorem mapLpcp_rp : (s.mapLpcp f).rp = s.rp := rfl
@[simp] theorem mapLpcp_lpcp : (s.mapLpcp f).lpcp = f s.lpcp := rfl
@[simp] theorem mapLpcp_ch : (s.mapLpcp f).ch = s.ch := rfl
@[simp] theorem mapLpcp_wide : (s.mapLpcp f).wide = s.wide := rfl
@[simp] theorem mapLpcp_out : (s.mapLpcp f).out = s.out := rfl
@[simp] theorem mapLpcp_fstate : (s.mapLpcp f).fstate = s.fstate := rfl
@[simp] theorem mapLpcp_err : (s.mapLpcp f).err = s.err := rfl
@[simp] theorem mapLpcp_res : (s.mapLpcp f).res = s.res := rfl
@[simp] theorem mapLpcp_ok : (s.mapLpcp f).ok = s.ok := rfl
@[simp] theorem mapLpcp_seq : (s.mapLpcp f).seq = s.seq := rfl
@[simp] theorem mapLpcp_pending : (s.mapLpcp f).pending = s.pending := rfl
@[simp] theorem mapLpcp_freeCount : (s.mapLpcp f).freeCount = s.freeCount := rfl
@[simp] theorem mapLpcp_position : (s.mapLpcp f).position = s.position := rfl
end

section
variable (c : Fin 8) (f : Subframe → Subframe) (s : State)
@[simp] theorem mapSub_input : (s.mapSub c f).input = s.input := rfl
@[simp] theorem mapSub_params : (s.mapSub c f).params = s.params := rfl
@[simp] theorem mapSub_streamInfo : (s.mapSub c f).streamInfo = s.streamInfo := rfl
@[simp] theorem mapSub_byte : (s.mapSub c f).byte = s.byte := rfl
@[simp] theorem mapSub_bit : (s.mapSub c f).bit = s.bit := rfl
@[simp] theorem mapSub_cache : (s.mapSub c f).cache = s.cache := rfl
@[simp] theorem mapSub_curValid : (s.mapSub c f).curValid = s.curValid := rfl
@[simp] theorem mapSub_hdr : (s.mapSub c f).hdr = s.hdr := rfl
@[simp] theorem mapSub_sub : (s.mapSub c f).sub = s.sub.set c (f s.sub[c]) := rfl
@[simp] theorem mapSub_rp : (s.mapSub c f).rp = s.rp := rfl
@[simp] theorem mapSub_lpcp : (s.mapSub c f).lpcp = s.lpcp := rfl
@[simp] theorem mapSub_ch : (s.mapSub c f).ch = s.ch := rfl
@[simp] theorem mapSub_wide : (s.mapSub c f).wide = s.wide := rfl
@[simp] theorem mapSub_out : (s.mapSub c f).out = s.out := rfl
@[simp] theorem mapSub_fstate : (s.mapSub c f).fstate = s.fstate := rfl
@[simp] theorem mapSub_err : (s.mapSub c f).err = s.err := rfl
@[simp] theorem mapSub_res : (s.mapSub c f).res = s.res := rfl
@[simp] theorem mapSub_ok : (s.mapSub c f).ok = s.ok := rfl
@[simp] theorem mapSub_seq : (s.mapSub c f).seq = s.seq := rfl
@[simp] theorem mapSub_pending : (s.mapSub c f).pending = s.pending := rfl
@[simp] theorem mapSub_freeCount : (s.mapSub c f).freeCount = s.freeCount := rfl
@[simp] theorem mapSub_position : (s.mapSub c f).position = s.position := rfl
end

section
variable (c : Fin 8) (i : Nat) (vs : List Int) (s : State)
@[simp] theorem writeCh_input : (s.writeCh c i vs).input = s.input := rfl
@[simp] theorem writeCh_params : (s.writeCh c i vs).params = s.params := rfl
@[simp] theorem writeCh_streamInfo : (s.writeCh c i vs).streamInfo = s.streamInfo := rfl
@[simp] theorem writeCh_byte : (s.writeCh c i vs).byte = s.byte := rfl
@[simp] theorem writeCh_bit : (s.writeCh c i vs).bit = s.bit := rfl
@[simp] theorem writeCh_cache : (s.writeCh c i vs).cache = s.cache := rfl
@[simp] theorem writeCh_curValid : (s.writeCh c i vs).curValid = s.curValid := rfl
@[simp] theorem writeCh_hdr : (s.writeCh c i vs).hdr = s.hdr := rfl
@[simp] theorem writeCh_sub : (s.writeCh c i vs).sub = s.sub := rfl
@[simp] theorem writeCh_rp : (s.writeCh c i vs).rp = s.rp := rfl
@[simp] theorem writeCh_lpcp : (s.writeCh c i vs).lpcp = s.lpcp := rfl
@[simp] theorem writeCh_ch : (s.writeCh c i vs).ch = s.ch.write c i vs := rfl
@[simp] theorem writeCh_wide : (s.writeCh c i vs).wide = s.wide := rfl
@[simp] theorem writeCh_out : (s.writeCh c i vs).out = s.out := rfl
@[simp] theorem writeCh_fstate : (s.writeCh c i vs).fstate = s.fstate := rfl
@[simp] theorem writeCh_err : (s.writeCh c i vs).err = s.err := rfl
@[simp] theorem writeCh_res : (s.writeCh c i vs).res = s.res := rfl
@[simp] theorem writeCh_ok : (s.writeCh c i vs).ok = s.ok := rfl
@[simp] theorem writeCh_seq : (s.writeCh c i vs).seq = s.seq := rfl
@[simp] theorem writeCh_pending : (s.writeCh c i vs).pending = s.pending := rfl
@[simp] theorem writeCh_freeCount : (s.writeCh c i vs).freeCount = s.freeCount := rfl
@[simp] theorem writeCh_position : (s.writeCh c i vs).position = s.position := rfl
end

/-! ### moveTo -/

section
variable (s : State) (p : Nat)
@[simp] theorem moveTo_input : (s.moveTo p).input = s.input := rfl
@[simp] theorem moveTo_params : (s.moveTo p).params = s.params := rfl
@[simp] theorem moveTo_streamInfo : (s.moveTo p).streamInfo = s.streamInfo := rfl
@[simp] theorem moveTo_byte : (s.moveTo p).byte = p / 8 := rfl
@[simp] theorem moveTo_bit : (s.moveTo p).bit = Fin.ofNat 8 p := rfl
@[simp] theorem moveTo_cache : (s.moveTo p).cache = cacheWord s.input (p / 8) (Fin.ofNat 8 p) := rfl
@[simp] theorem moveTo_curValid : (s.moveTo p).curValid = s.curValid := rfl
@[simp] theorem moveTo_hdr : (s.moveTo p).hdr = s.hdr := rfl
@[simp] theorem moveTo_sub : (s.moveTo p).sub = s.sub := rfl
@[simp] theorem moveTo_rp : (s.moveTo p).rp = s.rp := rfl
@[simp] theorem moveTo_lpcp : (s.moveTo p).lpcp = s.lpcp := rfl
@[simp] theorem moveTo_ch : (s.moveTo p).ch = s.ch := rfl
@[simp] theorem moveTo_wide : (s.moveTo p).wide = s.wide := rfl
@[simp] theorem moveTo_out : (s.moveTo p).out = s.out := rfl
@[simp] theorem moveTo_fstate : (s.moveTo p).fstate = s.fstate := rfl
@[simp] theorem moveTo_err : (s.moveTo p).err = s.err := rfl
@[simp] theorem moveTo_res : (s.moveTo p).res = s.res := rfl
@[simp] theorem moveTo_ok : (s.moveTo p).ok = s.ok := rfl
@[simp] theorem moveTo_seq : (s.moveTo p).seq = s.seq := rfl
@[simp] theorem moveTo_pending : (s.moveTo p).pending = s.pending := rfl
@[simp] theorem moveTo_freeCount : (s.moveTo p).freeCount = s.freeCount := rfl
@[simp] theorem moveTo_position : (s.moveTo p).position = p := by
  simp [State.position, Fin.ofNat]; omega
@[simp] theorem moveTo_moveTo (q : Nat) : (s.moveTo p).moveTo q = s.moveTo q := rfl
end

/-! ### readTo -/

section
variable (s : State) (p : Nat) (r : Word64)
@[simp] theorem readTo_input : (s.readTo p r).input = s.input := rfl
@[simp] theorem readTo_params : (s.readTo p r).params = s.params := rfl
@[simp] theorem readTo_streamInfo : (s.readTo p r).streamInfo = s.streamInfo := rfl
@[simp] theorem readTo_byte : (s.readTo p r).byte = p / 8 := rfl
@[simp] theorem readTo_bit : (s.readTo p r).bit = Fin.ofNat 8 p := rfl
@[simp] theorem readTo_cache : (s.readTo p r).cache = cacheWord s.input (p / 8) (Fin.ofNat 8 p) := rfl
@[simp] theorem readTo_curValid : (s.readTo p r).curValid = s.curValid := rfl
@[simp] theorem readTo_hdr : (s.readTo p r).hdr = s.hdr := rfl
@[simp] theorem readTo_sub : (s.readTo p r).sub = s.sub := rfl
@[simp] theorem readTo_rp : (s.readTo p r).rp = s.rp := rfl
@[simp] theorem readTo_lpcp : (s.readTo p r).lpcp = s.lpcp := rfl
@[simp] theorem readTo_ch : (s.readTo p r).ch = s.ch := rfl
@[simp] theorem readTo_wide : (s.readTo p r).wide = s.wide := rfl
@[simp] theorem readTo_out : (s.readTo p r).out = s.out := rfl
@[simp] theorem readTo_fstate : (s.readTo p r).fstate = s.fstate := rfl
@[simp] theorem readTo_err : (s.readTo p r).err = s.err := rfl
@[simp] theorem readTo_res : (s.readTo p r).res = r := rfl
@[simp] theorem readTo_ok : (s.readTo p r).ok = s.ok := rfl
@[simp] theorem readTo_seq : (s.readTo p r).seq = s.seq := rfl
@[simp] theorem readTo_pending : (s.readTo p r).pending = s.pending := rfl
@[simp] theorem readTo_freeCount : (s.readTo p r).freeCount = s.freeCount := rfl
@[simp] theorem readTo_position : (s.readTo p r).position = p := moveTo_position s p
@[simp] theorem readTo_moveTo (q : Nat) : (s.readTo p r).moveTo q = s.readTo q r := rfl
@[simp] theorem readTo_readTo (q : Nat) (r' : Word64) : (s.readTo p r).readTo q r' = s.readTo q r' := rfl
@[simp] theorem moveTo_readTo (q : Nat) : (s.moveTo q).readTo p r = s.readTo p r := rfl
end

/-! Register writes before a read end where the read ends. -/

section
variable (s : State) (p : Nat) (r : Word64)
@[simp] theorem readTo_withRes (v : Word64) : (s.readTo p r).withRes v = s.readTo p v := rfl
@[simp] theorem readTo_withOk (b : Bool) : (s.readTo p r).withOk b = (s.withOk b).readTo p r := rfl
@[simp] theorem readTo_withFState (f : FState) : (s.readTo p r).withFState f = (s.withFState f).readTo p r := rfl
@[simp] theorem readTo_withOut (b : List Byte) : (s.readTo p r).withOut b = (s.withOut b).readTo p r := rfl
@[simp] theorem readTo_withBuffers (w : Bool) (f : ChannelFile) : (s.readTo p r).withBuffers w f = (s.withBuffers w f).readTo p r := rfl
@[simp] theorem readTo_mapHdr (f : Header → Header) : (s.readTo p r).mapHdr f = (s.mapHdr f).readTo p r := rfl
@[simp] theorem readTo_mapSeq (f : Sequencer → Sequencer) : (s.readTo p r).mapSeq f = (s.mapSeq f).readTo p r := rfl
@[simp] theorem readTo_mapRp (f : ResidualParams → ResidualParams) : (s.readTo p r).mapRp f = (s.mapRp f).readTo p r := rfl
@[simp] theorem readTo_mapLpcp (f : LpcParams → LpcParams) : (s.readTo p r).mapLpcp f = (s.mapLpcp f).readTo p r := rfl
@[simp] theorem readTo_mapSub (c : Fin 8) (f : Subframe → Subframe) : (s.readTo p r).mapSub c f = (s.mapSub c f).readTo p r := rfl
@[simp] theorem readTo_writeCh (c : Fin 8) (i : Nat) (vs : List Int) : (s.readTo p r).writeCh c i vs = (s.writeCh c i vs).readTo p r := rfl
end

theorem position_div (s : State) : s.position / 8 = s.byte := by
  simp only [State.position]; omega

theorem position_ofNat (s : State) : Fin.ofNat 8 s.position = s.bit := by
  apply Fin.ext
  simp only [State.position, Fin.ofNat]
  omega

/-- A ready cursor stands where `moveTo` puts it. -/
theorem State.Ready.moveTo_self {s : State} (h : s.Ready) : s.moveTo s.position = s := by
  simp only [State.moveTo, position_div, position_ofNat, ← h.cached]

theorem State.Ready.readTo_self {s : State} (h : s.Ready) : s.readTo s.position s.res = s := by
  simp only [State.readTo, h.moveTo_self]; rfl

/-- A cursor put at an admissible position is ready. -/
theorem State.Ready.moveTo {s : State} (hs : s.Ready) {p : Nat} (hp : s.admissible p) : (s.moveTo p).Ready :=
  ⟨hs.valid, hp, rfl⟩

theorem State.Ready.readTo {s : State} (hs : s.Ready) {p : Nat} (r : Word64) (hp : s.admissible p) :
    (s.readTo p r).Ready :=
  ⟨hs.valid, hp, rfl⟩

theorem State.Ready.admissible {s : State} (h : s.Ready) : s.admissible s.position := by
  have := h.bound
  simp only [State.admissible, position_div]; exact this

theorem State.Ready.cursorInv {s : State} (h : s.Ready) : s.CursorInv := fun _ => ⟨h.bound, h.cached⟩

theorem State.CursorInv.ready {s : State} (h : s.CursorInv) (hv : s.curValid = true) : s.Ready :=
  ⟨hv, (h hv).1, (h hv).2⟩

end Sys2Proof.Machine
end

