-- ==== Sys2Proof/Laws/Op.lean ====
section
/-! SUPPORT. Internal steps: how sequencing computes, how a command ends, and a calculus for what a composed step can
do (`Op.Within R`: whether it answers or stops, the state it leaves is related by R to the state it began in). -/

namespace Sys2Proof.Machine

section
variable {α β : Type}

/-! ### Sequencing -/

@[simp] theorem pure_apply (a : α) (s : State) : (pure a : Op α) s = .ok a s := rfl

theorem bind_apply (x : Op α) (f : α → Op β) (s : State) :
    (x >>= f) s = match x s with
      | .ok a t => f a t
      | .error e t => .error e t := by
  cases h : x s <;> simp [bind, EStateM.bind, h]

theorem bind_ok {x : Op α} {f : α → Op β} {s t : State} {a : α} (h : x s = .ok a t) : (x >>= f) s = f a t := by
  rw [bind_apply, h]

theorem bind_error {x : Op α} {f : α → Op β} {s t : State} {e : Stop} (h : x s = .error e t) :
    (x >>= f) s = .error e t := by
  rw [bind_apply, h]

/-- A sequence that answers answered at both of its parts. -/
theorem of_bind_ok {x : Op α} {f : α → Op β} {s u : State} {b : β} (h : (x >>= f) s = .ok b u) :
    ∃ a t, x s = .ok a t ∧ f a t = .ok b u := by
  rw [bind_apply] at h
  cases hx : x s with
  | ok a t => exact ⟨a, t, rfl, by simpa [hx] using h⟩
  | error e t => simp [hx] at h

@[simp] theorem map_apply (g : α → β) (x : Op α) (s : State) :
    (g <$> x) s = match x s with
      | .ok a t => .ok (g a) t
      | .error e t => .error e t := by
  cases h : x s <;> simp [Functor.map, EStateM.map, h]

theorem discard_ok {x : Op α} {s t : State} {a : α} (h : x s = .ok a t) : (discard x : Op PUnit) s = .ok () t := by
  simp only [discard, Functor.discard, Functor.mapConst, Function.comp]
  show (Function.const α PUnit.unit <$> x) s = _
  rw [map_apply, h]

theorem discard_error {x : Op α} {s t : State} {e : Stop} (h : x s = .error e t) :
    (discard x : Op PUnit) s = .error e t := by
  simp only [discard, Functor.discard, Functor.mapConst, Function.comp]
  show (Function.const α PUnit.unit <$> x) s = _
  rw [map_apply, h]

@[simp] theorem raise_apply (k : ErrKind) (s : State) : (raise k : Op α) s = .error (.raise k) s := rfl
@[simp] theorem view_apply (f : State → α) (s : State) : view f s = .ok (f s) s := rfl
@[simp] theorem update_apply (f : State → State) (s : State) : update f s = .ok () (f s) := rfl
@[simp] theorem orRaise_some (k : ErrKind) (a : α) : orRaise k (some a) = pure a := rfl
@[simp] theorem orRaise_none (k : ErrKind) : (orRaise k none : Op α) = raise k := rfl

theorem view_bind (f : State → α) (g : α → Op β) (s : State) : (view f >>= g) s = g (f s) s := rfl
/-- A header step that answers is as it is; one that stops rejects the header. -/
theorem rejecting_ok {x : Op α} {s t : State} {a : α} (h : x s = .ok a t) : rejecting x s = .ok a t := by
  simp only [rejecting, h]
theorem rejecting_error {x : Op α} {s t : State} {e : Stop} (h : x s = .error e t) :
    rejecting x s = .error e t.rejectHeader := by
  simp only [rejecting, h]
theorem of_rejecting_error {x : Op α} {s t : State} {e : Stop} (h : rejecting x s = .error e t) :
    ∃ u, x s = .error e u ∧ t = u.rejectHeader := by
  cases hx : x s with
  | ok a u => rw [rejecting_ok hx] at h; cases h
  | error e' u => rw [rejecting_error hx] at h; cases h; exact ⟨u, rfl, rfl⟩

theorem update_bind (f : State → State) (g : Unit → Op β) (s : State) : (update f >>= g) s = g () (f s) := rfl

theorem forEach_append (as bs : List α) (f : α → Op Unit) (s : State) :
    forEach (as ++ bs) f s = (forEach as f >>= fun _ => forEach bs f) s := by
  induction as generalizing s with
  | nil => rfl
  | cons a as ih =>
    simp only [List.cons_append, forEach, bind_apply]
    cases f a s with
    | ok _ t => simp only [ih, bind_apply]
    | error => rfl

/-! ### Composed steps -/

/-- What a step can do: where it answers, the state it leaves is related by R to the one it began in; where it stops,
by E. -/
def Op.Within (R : State → State → Prop) (E : Stop → State → State → Prop) (x : Op α) : Prop :=
  ∀ s, match x s with
    | .ok _ t => R s t
    | .error e t => E e s t

/-- Relations that composed steps can be within. -/
structure Composable (R : State → State → Prop) (E : Stop → State → State → Prop) : Prop where
  refl : ∀ s, R s s
  trans : ∀ s t u, R s t → R t u → R s u
  raises : ∀ k s, k.isFault = true → E (.raise k) s s
  stop : ∀ e s t u, R s t → E e t u → E e s u

variable {R : State → State → Prop} {E : Stop → State → State → Prop}

theorem Op.Within.ok {x : Op α} (h : Op.Within R E x) {s t : State} {a : α} (hx : x s = .ok a t) : R s t := by
  have := h s; rw [hx] at this; exact this

theorem Op.Within.error {x : Op α} (h : Op.Within R E x) {s t : State} {e : Stop} (hx : x s = .error e t) :
    E e s t := by
  have := h s; rw [hx] at this; exact this

theorem within_pure (hR : Composable R E) (a : α) : Op.Within R E (pure a : Op α) := fun s => hR.refl s
theorem within_view (hR : Composable R E) (f : State → α) : Op.Within R E (view f) := fun s => hR.refl s
theorem within_raise (hR : Composable R E) (k : ErrKind) (hk : k.isFault = true := by rfl) :
    Op.Within R E (raise k : Op α) := fun s => hR.raises k s hk
theorem within_update {f : State → State} (h : ∀ s, R s (f s)) : Op.Within R E (update f) := fun s => h s

theorem within_orRaise (hR : Composable R E) (k : ErrKind) (o : Option α) (hk : k.isFault = true := by rfl) :
    Op.Within R E (orRaise k o) := by
  cases o with
  | none => exact within_raise hR k hk
  | some a => exact within_pure hR a

theorem within_bind (hR : Composable R E) {x : Op α} {f : α → Op β} (hx : Op.Within R E x)
    (hf : ∀ a, Op.Within R E (f a)) : Op.Within R E (x >>= f) := by
  intro s
  rw [bind_apply]
  have h1 := hx s
  cases hxs : x s with
  | error e t => rw [hxs] at h1; exact h1
  | ok a t =>
    rw [hxs] at h1
    have h2 := hf a t
    simp only
    cases hfs : f a t with
    | ok b u => rw [hfs] at h2; exact hR.trans _ _ _ h1 h2
    | error e u => rw [hfs] at h2; exact hR.stop _ _ _ _ h1 h2

theorem within_discard {x : Op α} (hx : Op.Within R E x) : Op.Within R E (discard x : Op PUnit) := by
  intro s
  have := hx s
  cases h : x s with
  | ok a t => rw [discard_ok h]; rw [h] at this; exact this
  | error e t => rw [discard_error h]; rw [h] at this; exact this

theorem within_ite {c : Prop} [Decidable c] {x y : Op α} (hx : Op.Within R E x) (hy : Op.Within R E y) :
    Op.Within R E (if c then x else y) := by
  split
  · exact hx
  · exact hy

theorem within_rejecting (hE : ∀ e s t, E e s t → E e s t.rejectHeader) {x : Op α} (hx : Op.Within R E x) :
    Op.Within R E (rejecting x) := by
  intro s
  cases h : x s with
  | ok a t => rw [rejecting_ok h]; exact hx.ok h
  | error e t => rw [rejecting_error h]; exact hE _ _ _ (hx.error h)

theorem within_repeatOp (hR : Composable R E) {op : Op α} (h : Op.Within R E op) (n : Nat) :
    Op.Within R E (repeatOp n op) := by
  induction n with
  | zero => exact within_pure hR []
  | succ n ih => exact within_bind hR h fun _ => within_bind hR ih fun _ => within_pure hR _

theorem within_forEach (hR : Composable R E) {f : α → Op Unit} (h : ∀ a, Op.Within R E (f a)) (as : List α) :
    Op.Within R E (forEach as f) := by
  induction as with
  | nil => exact within_pure hR ()
  | cons a as ih => exact within_bind hR (h a) fun _ => ih

/-- A relation that holds wherever a step ends. -/
def Anyhow (R : State → State → Prop) : Stop → State → State → Prop := fun _ => R

theorem composable_anyhow {R : State → State → Prop} (hrefl : ∀ s, R s s) (htrans : ∀ s t u, R s t → R t u → R s u) :
    Composable R (Anyhow R) :=
  ⟨hrefl, htrans, fun _ s _ => hrefl s, fun _ => htrans⟩

/-- A step leaves what `f` reads as it was. -/
def Same (f : State → α) (s t : State) : Prop := f t = f s

theorem composable_same (f : State → α) : Composable (Same f) (Anyhow (Same f)) :=
  composable_anyhow (fun _ => rfl) fun _ _ _ h1 h2 => h2.trans h1

end

/-! ### Ends of commands -/

/-- What a finished command can be: the answer with its end, the effects of a raise, or a fault. -/
theorem finish_cases (c : CommandClass) (fin : State → State) (r : EStateM.Result Stop State Unit) :
    (∃ t, r = .ok () t ∧ finish c fin r = .next (fin t)) ∨
    (∃ k t, r = .error (.raise k) t ∧ finish c fin r = .next (takeRaise c k t)) ∨
    (∃ f t, r = .error (.halt f) t ∧ finish c fin r = .fault f) := by
  cases r with
  | ok a t => exact .inl ⟨t, rfl, rfl⟩
  | error e t =>
    cases e with
    | raise k => exact .inr (.inl ⟨k, t, rfl, rfl⟩)
    | halt f => exact .inr (.inr ⟨f, t, rfl, rfl⟩)

theorem runCommand_ok {c : CommandClass} {op : Op Unit} {s t : State} (h : op s = .ok () t) :
    runCommand c op s = .next t.atRest := by
  simp [runCommand, h, finish]

theorem runCommand_raise {c : CommandClass} {op : Op Unit} {s t : State} {k : ErrKind}
    (h : op s = .error (.raise k) t) : runCommand c op s = .next (takeRaise c k t) := by
  simp [runCommand, h, finish]

theorem runField_ok {c : CommandClass} {op : Op Unit} {s t : State} (h : op s = .ok () t) :
    runField c op s = .next t := by
  simp [runField, h, finish]

theorem runField_raise {c : CommandClass} {op : Op Unit} {s t : State} {k : ErrKind}
    (h : op s = .error (.raise k) t) : runField c op s = .next (takeRaise c k t) := by
  simp [runField, h, finish]

theorem needCursor_valid {s : State} (r : Result) (h : s.curValid = true) : needCursor s r = r := if_pos h

theorem needCursor_none {s : State} (r : Result) (h : s.curValid = false) :
    needCursor s r = .next (refuse .noCursor s) := by
  simp [needCursor, h]

theorem needRange_in {s : State} (r : Result) {b : Bool} (h : b = true) : needRange b s r = r := if_pos h

theorem needRange_out {s : State} (r : Result) {b : Bool} (h : b = false) :
    needRange b s r = .next (refuse .argumentRange s) := by
  simp [needRange, h]

end Sys2Proof.Machine
end

