-- ==== Sys2Proof/Laws/BitCursor.lean ====
section
/-! SUPPORT. The cursor operations as windows of the stream: one lemma for what each answers at an admissible end, one
for where it stops. -/

namespace Sys2Proof.Machine

/-! ### Windows -/

theorem window_lt (m : Memory) (p n : Nat) : window m p n < 2 ^ n := by
  induction n with
  | zero => simp [window]
  | succ n ih =>
    simp only [window, Nat.pow_succ]
    have := Bool.toNat_lt (streamBit m (p + n))
    omega

theorem window_testBit (m : Memory) (p n i : Nat) :
    (window m p n).testBit i = (decide (i < n) && streamBit m (p + (n - 1 - i))) := by
  induction n generalizing i with
  | zero => simp [window]
  | succ n ih =>
    cases i with
    | zero =>
      have h2 : (2 * window m p n + (streamBit m (p + n)).toNat) % 2 = (streamBit m (p + n)).toNat := by
        have := Bool.toNat_lt (streamBit m (p + n)); omega
      simp only [window, Nat.testBit_zero, h2]
      cases h : streamBit m (p + n) <;> simp [h]
    | succ i =>
      have h2 : (2 * window m p n + (streamBit m (p + n)).toNat) / 2 = window m p n := by
        have := Bool.toNat_lt (streamBit m (p + n)); omega
      simp only [window, Nat.testBit_succ, h2, ih]
      by_cases h : i < n
      · simp only [h, decide_true, Bool.true_and, Nat.add_lt_add_right h 1]
        congr 2; omega
      · simp [h]

/-- Windows side by side. -/
theorem window_append (m : Memory) (p a b : Nat) :
    window m p (a + b) = window m p a * 2 ^ b + window m (p + a) b := by
  induction b with
  | zero => simp [window]
  | succ b ih =>
    rw [← Nat.add_assoc, window, ih, window, Nat.pow_succ, Nat.add_assoc p a b]
    ring

theorem window_append_or (m : Memory) (p a b : Nat) :
    window m p (a + b) = (window m p a <<< b) ||| window m (p + a) b := by
  rw [window_append, Nat.shiftLeft_eq, mul_comm, ← Nat.two_pow_add_eq_or_of_lt (window_lt m (p + a) b)]

theorem cacheWord_getLsbD (m : Memory) (byte : Nat) (bit : Fin 8) (j : Nat) :
    (cacheWord m byte bit).getLsbD j =
      (decide (j < 32) && decide (bit.val ≤ j) && streamBit m (8 * byte + (31 + bit.val - j))) := by
  simp only [cacheWord, BitVec.getLsbD_shiftLeft, BitVec.getLsbD_append]
  by_cases hj : j < 32
  · by_cases hb : bit.val ≤ j
    · have hb' : ¬ j < bit.val := by omega
      simp only [hj, hb, hb', decide_true, decide_false, Bool.true_and, Bool.not_false, streamBit]
      obtain ⟨k, rfl⟩ : ∃ k, j = bit.val + k := ⟨j - bit.val, by omega⟩
      have hk : bit.val + k - bit.val = k := by omega
      have hp : 31 + bit.val - (bit.val + k) = 31 - k := by omega
      rw [hk, hp]
      have hk32 : k < 32 := by omega
      clear hb hb' hp hj hk
      have h1 : (8 * byte + (31 - k)) / 8 = byte + (31 - k) / 8 := by omega
      have h2 : (8 * byte + (31 - k)) % 8 = (31 - k) % 8 := by omega
      rw [h1, h2]
      rcases (by omega : k < 8 ∨ (8 ≤ k ∧ k < 16) ∨ (16 ≤ k ∧ k < 24) ∨ (24 ≤ k ∧ k < 32)) with h | h | h | h
      · have e1 : byte + (31 - k) / 8 = byte + 3 := by omega
        have e2 : 7 - (31 - k) % 8 = k := by omega
        rw [if_pos h, e1, e2]
      · have e1 : byte + (31 - k) / 8 = byte + 2 := by omega
        have e2 : 7 - (31 - k) % 8 = k - 8 := by omega
        rw [if_neg (by omega), if_pos (by omega), e1, e2]
      · have e1 : byte + (31 - k) / 8 = byte + 1 := by omega
        have e2 : 7 - (31 - k) % 8 = k - 8 - 8 := by omega
        rw [if_neg (by omega), if_neg (by omega), if_pos (by omega), e1, e2]
      · have e1 : byte + (31 - k) / 8 = byte := by omega
        have e2 : 7 - (31 - k) % 8 = k - 8 - 8 - 8 := by omega
        rw [if_neg (by omega), if_neg (by omega), if_neg (by omega), e1, e2]
    · have hb' : j < bit.val := by omega
      simp [hb, hb']
  · simp [hj]

/-- The top bits of the cache are the stream bits at its position (R23). -/
theorem cacheWord_window (m : Memory) (byte : Nat) (bit : Fin 8) (n : Nat) (h : bit.val + n ≤ 32) :
    (cacheWord m byte bit).toNat >>> (32 - n) = window m (8 * byte + bit.val) n := by
  apply Nat.eq_of_testBit_eq
  intro i
  rw [Nat.testBit_shiftRight, BitVec.testBit_toNat, cacheWord_getLsbD, window_testBit]
  by_cases hi : i < n
  · have h1 : 32 - n + i < 32 := by omega
    have h2 : bit.val ≤ 32 - n + i := by omega
    simp only [hi, h1, h2, decide_true, Bool.true_and]
    congr 1; omega
  · have h1 : ¬ 32 - n + i < 32 := by omega
    simp [hi, h1]

theorem carries_append (m : Memory) (p : Nat) (as bs : List Bool) :
    carries m p (as ++ bs) = (carries m p as && carries m (p + as.length) bs) := by
  induction as generalizing p with
  | nil => simp [carries]
  | cons a as ih =>
    simp only [List.cons_append, carries, ih, List.length_cons, Bool.and_assoc]
    rw [Nat.add_assoc, Nat.add_comm 1]

/-! ### Positions -/

theorem readIn_ok {s : State} {a : Nat} (h : a < s.params.cap) : readIn a s = .ok (s.input.read a) s := if_pos h

theorem readIn_error {s : State} {a : Nat} (h : ¬ a < s.params.cap) :
    readIn a s = .error (.raise .bufferOverrun) s := if_neg h

/-- `Refill()` at an admissible position. -/
theorem refill_ok {s : State} (h : s.byte + 4 ≤ s.params.cap) :
    refill s = .ok () { s with cache := cacheWord s.input s.byte s.bit } := by
  simp only [refill, view_bind]
  rw [bind_ok (readIn_ok (by omega)), bind_ok (readIn_ok (by omega)), bind_ok (readIn_ok (by omega)),
    bind_ok (readIn_ok (by omega))]
  rfl

/-- `Refill()` faults exactly when BYTE + 4 > CAP (R62). -/
theorem refill_error {s : State} (h : ¬ s.byte + 4 ≤ s.params.cap) :
    refill s = .error (.raise .bufferOverrun) s := by
  simp only [refill, view_bind]
  by_cases h0 : s.byte < s.params.cap
  · rw [bind_ok (readIn_ok h0)]
    by_cases h1 : s.byte + 1 < s.params.cap
    · rw [bind_ok (readIn_ok h1)]
      by_cases h2 : s.byte + 2 < s.params.cap
      · rw [bind_ok (readIn_ok h2), bind_error (readIn_error (by omega))]
      · rw [bind_error (readIn_error h2)]
    · rw [bind_error (readIn_error h1)]
  · rw [bind_error (readIn_error h0)]

theorem setPos_ok {s : State} {b : Nat} (o : Fin 8) (h : b + 4 ≤ s.params.cap) :
    setPos b o s = .ok () { s with byte := b, bit := o, cache := cacheWord s.input b o } := by
  simp only [setPos, update_bind]
  exact refill_ok h

theorem setPos_error {s : State} {b : Nat} (o : Fin 8) (h : ¬ b + 4 ≤ s.params.cap) :
    setPos b o s = .error (.raise .bufferOverrun) { s with byte := b, bit := o } := by
  simp only [setPos, update_bind]
  exact refill_error h

theorem advance_div (s : State) (n : Nat) : s.byte + (s.bit.val + n) / 8 = (s.position + n) / 8 := by
  simp only [State.position]; omega

theorem advance_mod (s : State) (n : Nat) : Fin.ofNat 8 (s.bit.val + n) = Fin.ofNat 8 (s.position + n) := by
  apply Fin.ext
  simp only [Fin.ofNat, State.position]
  omega

/-- `Advance(n)` to an admissible position (R133). -/
theorem advance_ok {s : State} {n : Nat} (h : s.admissible (s.position + n)) :
    advance n s = .ok () (s.moveTo (s.position + n)) := by
  simp only [advance, view_bind]
  rw [advance_div, advance_mod]
  exact setPos_ok _ h

/-- `Advance(n)` raises BufferOverrun when the position it ends at is not admissible (R133). -/
theorem advance_error {s : State} {n : Nat} (h : ¬ s.admissible (s.position + n)) :
    advance n s = .error (.raise .bufferOverrun)
      { s with byte := (s.position + n) / 8, bit := Fin.ofNat 8 (s.position + n) } := by
  simp only [advance, view_bind]
  rw [advance_div, advance_mod]
  exact setPos_error _ h

theorem admissible_mono {s : State} {p q : Nat} (h : s.admissible q) (hpq : p ≤ q) : s.admissible p := by
  have : p / 8 ≤ q / 8 := Nat.div_le_div_right hpq
  simp only [State.admissible] at *
  omega

/-- `Small(m)` (R134). -/
theorem small_ok {s : State} {m : Nat} (hs : s.Ready) (hm : m ≤ 24) (h : s.admissible (s.position + m)) :
    small m s = .ok (window s.input s.position m) (s.moveTo (s.position + m)) := by
  simp only [small, view_bind]
  rw [bind_ok (advance_ok h), hs.cached, cacheWord_window _ _ _ _ (by omega)]
  rfl

theorem small_error {s : State} {m : Nat} (h : ¬ s.admissible (s.position + m)) :
    small m s = .error (.raise .bufferOverrun)
      { s with byte := (s.position + m) / 8, bit := Fin.ofNat 8 (s.position + m) } := by
  simp only [small, view_bind]
  rw [bind_error (advance_error h)]

/-! ### Reads -/

/-- `read_bits n` answers the window at its position and moves past it (R135). -/
theorem readBits_ok {s : State} {n : Nat} (hs : s.Ready) (hn : n ≤ 32) (h : s.admissible (s.position + n)) :
    readBits n s = .ok (window s.input s.position n)
      (s.readTo (s.position + n) (BitVec.ofNat 64 (window s.input s.position n))) := by
  simp only [readBits]
  by_cases h24 : n ≤ 24
  · rw [if_pos h24, bind_ok (small_ok hs h24 h)]
    rfl
  · rw [if_neg h24]
    have ha : s.admissible (s.position + 24) := admissible_mono h (by omega)
    have he : s.position + 24 + (n - 24) = s.position + n := by omega
    have hb : (s.moveTo (s.position + 24)).admissible ((s.moveTo (s.position + 24)).position + (n - 24)) := by
      rw [moveTo_position, he]; exact h
    have hv : (window s.input s.position 24 <<< (n - 24)) ||| window s.input (s.position + 24) (n - 24) =
        window s.input s.position n := by
      rw [← window_append_or]; congr 1; omega
    rw [bind_ok (small_ok hs (by omega) ha), bind_ok (small_ok (hs.moveTo ha) (by omega) hb)]
    simp only [moveTo_position, moveTo_input, moveTo_moveTo, he, hv]
    rfl

/-- `read_bits n` raises BufferOverrun when it does not end at an admissible position; everything but the cursor is as
it was, RES included. -/
theorem readBits_error {s : State} {n : Nat} (hs : s.Ready) (hn : n ≤ 32) (h : ¬ s.admissible (s.position + n)) :
    ∃ b o c, readBits n s = .error (.raise .bufferOverrun) { s with byte := b, bit := o, cache := c } := by
  simp only [readBits]
  by_cases h24 : n ≤ 24
  · rw [if_pos h24, bind_error (small_error h)]
    exact ⟨_, _, _, rfl⟩
  · rw [if_neg h24]
    by_cases ha : s.admissible (s.position + 24)
    · have hb : ¬ (s.moveTo (s.position + 24)).admissible ((s.moveTo (s.position + 24)).position + (n - 24)) := by
        rw [moveTo_position, show s.position + 24 + (n - 24) = s.position + n by omega]; exact h
      rw [bind_ok (small_ok hs (by omega) ha), bind_error (small_error hb)]
      exact ⟨_, _, _, rfl⟩
    · rw [bind_error (small_error ha)]
      exact ⟨_, _, _, rfl⟩

/-- The loop of `read_bits64`. -/
theorem readChunks_ok {rounds : Nat} {s : State} {rem v : Nat} (hs : s.Ready) (hr : rem ≤ rounds)
    (h : s.admissible (s.position + rem)) :
    ∃ r, readChunks rounds rem v s =
      .ok (v * 2 ^ rem + window s.input s.position rem) (s.readTo (s.position + rem) r) := by
  induction rounds generalizing s rem v with
  | zero =>
    obtain rfl : rem = 0 := by omega
    refine ⟨s.res, ?_⟩
    simp [readChunks, window, hs.readTo_self]
  | succ rounds ih =>
    simp only [readChunks]
    by_cases h0 : rem = 0
    · subst h0
      refine ⟨s.res, ?_⟩
      simp [window, hs.readTo_self]
    · rw [if_neg h0]
      have hk : min 24 rem ≤ rem := Nat.min_le_right _ _
      have hk1 : 1 ≤ min 24 rem := by omega
      have hk24 : min 24 rem ≤ 24 := Nat.min_le_left _ _
      generalize min 24 rem = k at hk hk1 hk24
      have ha : s.admissible (s.position + k) := admissible_mono h (by omega)
      have he : s.position + k + (rem - k) = s.position + rem := by omega
      rw [bind_ok (readBits_ok hs (by omega) ha)]
      obtain ⟨r, hr'⟩ := ih (v := (v <<< k) ||| window s.input s.position k) (rem := rem - k)
        (hs.readTo (BitVec.ofNat 64 (window s.input s.position k)) ha) (by omega)
        (by rw [readTo_position, he]; exact h)
      refine ⟨r, ?_⟩
      have h1 : (v <<< k) ||| window s.input s.position k = v * 2 ^ k + window s.input s.position k := by
        rw [Nat.shiftLeft_eq, mul_comm, Nat.two_pow_add_eq_or_of_lt (window_lt _ _ _)]
      have h2 := window_append s.input s.position k (rem - k)
      rw [show k + (rem - k) = rem by omega] at h2
      have h3 : (2 : Nat) ^ rem = 2 ^ k * 2 ^ (rem - k) := by rw [← Nat.pow_add]; congr 1; omega
      rw [hr']
      simp only [readTo_position, readTo_input, readTo_readTo, he]
      congr 1
      rw [h1, h2, h3]
      ring

/-- `read_bits64 n` answers the window at its position and moves past it (R136). -/
theorem readBits64_ok {s : State} {n : Nat} (hs : s.Ready) (h : s.admissible (s.position + n)) :
    readBits64 n s = .ok (window s.input s.position n)
      (s.readTo (s.position + n) (BitVec.ofNat 64 (window s.input s.position n))) := by
  obtain ⟨r, hr⟩ := readChunks_ok (v := 0) hs (Nat.le_refl n) h
  simp only [readBits64]
  rw [bind_ok hr, Nat.zero_mul, Nat.zero_add]
  rfl

/-- `read_signed n` (R138). -/
theorem readSigned_ok {s : State} {n : Nat} (hs : s.Ready) (hn : n ≤ 32) (h : s.admissible (s.position + n)) :
    readSigned n s = .ok (sext n (window s.input s.position n))
      (s.readTo (s.position + n) (BitVec.ofInt 64 (sext n (window s.input s.position n)))) := by
  simp only [readSigned]
  rw [bind_ok (readBits_ok hs hn h)]
  rfl

/-- `read_signed64 n` (R139). -/
theorem readSigned64_ok {s : State} {n : Nat} (hs : s.Ready) (h : s.admissible (s.position + n)) :
    readSigned64 n s = .ok (sext n (window s.input s.position n))
      (s.readTo (s.position + n) (BitVec.ofInt 64 (sext n (window s.input s.position n)))) := by
  simp only [readSigned64]
  rw [bind_ok (readBits64_ok hs h)]
  rfl

/-! ### Unary -/

theorem window_one (m : Memory) (p : Nat) : window m p 1 = (streamBit m p).toNat := by simp [window]

/-- The loop of `read_unary` over `q` zeros and a one. -/
theorem unaryLoop_ok {rounds q q0 : Nat} {s : State} (hs : s.Ready) (hr : q < rounds)
    (hz : ∀ j, j < q → streamBit s.input (s.position + j) = false)
    (h1 : streamBit s.input (s.position + q) = true) (h : s.admissible (s.position + q + 1)) :
    unaryLoop rounds q0 s = .ok (q0 + q) (s.readTo (s.position + q + 1) (BitVec.ofNat 64 (q0 + q))) := by
  induction rounds generalizing s q q0 with
  | zero => omega
  | succ rounds ih =>
    simp only [unaryLoop]
    rw [bind_ok (readBits_ok hs (by omega) (admissible_mono h (by omega))), window_one]
    cases q with
    | zero =>
      rw [show streamBit s.input s.position = true from h1]
      rfl
    | succ q =>
      rw [show streamBit s.input s.position = false from hz 0 (by omega)]
      have ha : s.admissible (s.position + 1) := admissible_mono h (by omega)
      have he : s.position + 1 + q = s.position + (q + 1) := by omega
      have := ih (q := q) (q0 := q0 + 1) (hs.readTo (BitVec.ofNat 64 (false.toNat)) ha) (by omega)
        (by
          intro j hj
          rw [readTo_position, readTo_input, show s.position + 1 + j = s.position + (j + 1) by omega]
          exact hz (j + 1) (by omega))
        (by rw [readTo_position, readTo_input, he]; exact h1)
        (by rw [readTo_position, he]; exact h)
      rw [Bool.toNat_false, if_pos rfl]
      rw [Bool.toNat_false] at this
      rw [this]
      simp only [readTo_position, readTo_readTo, he, show q0 + 1 + q = q0 + (q + 1) by omega]

/-- `read_unary` over `q` zeros and a one (R140). -/
theorem readUnary_ok {q : Nat} {s : State} (hs : s.Ready)
    (hz : ∀ j, j < q → streamBit s.input (s.position + j) = false)
    (h1 : streamBit s.input (s.position + q) = true) (h : s.admissible (s.position + q + 1)) :
    readUnary s = .ok q (s.readTo (s.position + q + 1) (BitVec.ofNat 64 q)) := by
  simp only [readUnary, view_bind]
  have hq : q < 8 * s.params.cap + 1 := by
    simp only [State.admissible] at h
    omega
  rw [unaryLoop_ok hs hq hz h1 h, Nat.zero_add]

/-! ### Position operations -/

theorem flush_ok {s : State} (hs : s.Ready) (h : s.admissible ((s.position + 7) / 8 * 8)) :
    flush s = .ok () (s.moveTo ((s.position + 7) / 8 * 8)) := by
  simp only [flush, view_bind]
  by_cases h0 : s.bit.val = 0
  · rw [if_pos h0, pure_apply]
    have : (s.position + 7) / 8 * 8 = s.position := by simp only [State.position]; omega
    rw [this, hs.moveTo_self]
  · rw [if_neg h0]
    have : (s.position + 7) / 8 * 8 = s.position + (8 - s.bit.val) := by simp only [State.position]; omega
    rw [this] at h ⊢
    exact advance_ok h

end Sys2Proof.Machine
end

