-- ==== Sys2Proof/Laws/Checksum.lean ====
section
/-! SUPPORT. The checksum operations: the span they read and where they stop. -/

namespace Sys2Proof.Machine

theorem bytesAt_succ (m : Memory) (a n : Nat) : bytesAt m a (n + 1) = m.read a :: bytesAt m (a + 1) n := by
  simp only [bytesAt, List.range_succ_eq_map, List.map_cons, List.map_map, Nat.add_zero]
  congr 1
  apply List.map_congr_left
  intro j _
  simp only [Function.comp, Nat.succ_eq_add_one]
  congr 1
  omega

/-- A span inside IN. -/
theorem readSpan_ok {s : State} {a n : Nat} (h : a + n ≤ s.params.cap) :
    readSpan a n s = .ok (bytesAt s.input a n) s := by
  induction n generalizing a with
  | zero => rfl
  | succ n ih =>
    have h0 : readIn a s = .ok (s.input.read a) s := if_pos (by omega)
    rw [readSpan, bind_ok h0, bind_ok (ih (a := a + 1) (by omega)), pure_apply, bytesAt_succ]

/-- A span that reaches past CAP (R62). -/
theorem readSpan_error {s : State} {a n : Nat} (hn : 0 < n) (h : ¬ a + n ≤ s.params.cap) :
    readSpan a n s = .error (.raise .bufferOverrun) s := by
  induction n generalizing a with
  | zero => omega
  | succ n ih =>
    rw [readSpan]
    by_cases ha : a < s.params.cap
    · have h0 : readIn a s = .ok (s.input.read a) s := if_pos ha
      rw [bind_ok h0, bind_error (ih (a := a + 1) (by omega) (by omega))]
    · have h0 : readIn a s = .error (.raise .bufferOverrun) s := if_neg ha
      rw [bind_error h0]

theorem crc8Op_ok {s : State} {a b : Nat} (h : a + b ≤ s.params.cap) :
    crc8Op a b s = .ok (crc8Of (bytesAt s.input a b)) (s.withRes ((crc8Of (bytesAt s.input a b)).setWidth 64)) := by
  rw [crc8Op, bind_ok (readSpan_ok h)]
  rfl

theorem crc8Op_error {s : State} {a b : Nat} (hb : 0 < b) (h : ¬ a + b ≤ s.params.cap) :
    crc8Op a b s = .error (.raise .bufferOverrun) s := by
  rw [crc8Op, bind_error (readSpan_error hb h)]

theorem crc16Op_ok {s : State} {a b : Nat} (h : a + b ≤ s.params.cap) :
    crc16Op a b s = .ok (crc16Of (bytesAt s.input a b)) (s.withRes ((crc16Of (bytesAt s.input a b)).setWidth 64)) := by
  rw [crc16Op, bind_ok (readSpan_ok h)]
  rfl

theorem crc16Op_error {s : State} {a b : Nat} (hb : 0 < b) (h : ¬ a + b ≤ s.params.cap) :
    crc16Op a b s = .error (.raise .bufferOverrun) s := by
  rw [crc16Op, bind_error (readSpan_error hb h)]

end Sys2Proof.Machine
end

