-- ==== Sys2Proof/Laws/Frame.lean ====
section
/-! SUPPORT. What an internal step can write. `R` is any relation between the state before and after that composes and
allows the writes a layer makes, `E` the same where the step stops; then every step of the layer is within them. A
frame claim is one choice of `R` and `E`. -/

namespace Sys2Proof.Machine

variable {R : State → State → Prop} {E : Stop → State → State → Prop}

/-- The writes of a cursor operation: POS, CACHE, RES. -/
structure CursorWrites (R : State → State → Prop) (E : Stop → State → State → Prop) : Prop extends Composable R E where
  move : ∀ b o, Op.Within R E (setPos b o)
  result : ∀ (s : State) v, R s (s.withRes v)

/-- The writes of a variable-length read: OK and the sequencer's names as well. -/
structure VluWrites (R : State → State → Prop) (E : Stop → State → State → Prop) : Prop extends CursorWrites R E where
  okFlag : ∀ (s : State) b, R s (s.withOk b)
  names : ∀ (s : State) f, R s (s.mapSeq f)

/-- The writes of the header parse: HDR, but for HDR.valid, FSTATE to HeaderParsed, and, where it stops, a rejected header. -/
structure HeaderWrites (R : State → State → Prop) (E : Stop → State → State → Prop) : Prop extends VluWrites R E where
  header : ∀ (s : State) f, (∀ h, (f h).valid = h.valid) → R s (s.mapHdr f)
  parsed : ∀ (s : State), R s (s.withFState .headerParsed)
  rejected : ∀ e s t, E e s t → E e s t.rejectHeader

/-- HDR.valid is written, at the two ends of the parse. -/
def MayValidate (R : State → State → Prop) : Prop := ∀ (s : State) b, R s (s.mapHdr fun h => { h with valid := b })

/-- The writes of a residual section: RP and CH. -/
structure ResidualWrites (R : State → State → Prop) (E : Stop → State → State → Prop) : Prop extends CursorWrites R E where
  names : ∀ (s : State) f, R s (s.mapSeq f)
  params : ∀ (s : State) f, R s (s.mapRp f)
  samples : ∀ (s : State) c i vs, R s (s.writeCh c i vs)

/-- A read of an entry of CH that holds no value may stop. -/
def MayHalt (E : Stop → State → State → Prop) : Prop := ∀ f s, E (.halt f) s s

/-- The writes of a subframe: SUB and LPCP. -/
structure SubframeWrites (R : State → State → Prop) (E : Stop → State → State → Prop) : Prop extends ResidualWrites R E where
  descriptor : ∀ (s : State) c f, R s (s.mapSub c f)
  lpc : ∀ (s : State) f, R s (s.mapLpcp f)

/-! ### The cursor -/

theorem within_readIn (hR : Composable R E) (a : Nat) : Op.Within R E (readIn a) := by
  intro s
  by_cases h : a < s.params.cap
  · rw [show readIn a s = .ok (s.input.read a) s from if_pos h]; exact hR.refl s
  · rw [show readIn a s = .error (.raise .bufferOverrun) s from if_neg h]; exact hR.raises _ s rfl

theorem within_advance (hR : CursorWrites R E) (n : Nat) : Op.Within R E (advance n) :=
  within_bind hR.toComposable (within_view hR.toComposable _) fun _ =>
  within_bind hR.toComposable (within_view hR.toComposable _) fun _ => hR.move _ _

theorem within_small (hR : CursorWrites R E) (m : Nat) : Op.Within R E (small m) :=
  within_bind hR.toComposable (within_view hR.toComposable _) fun _ =>
  within_bind hR.toComposable (within_advance hR m) fun _ => within_pure hR.toComposable _

theorem within_setRes (hR : CursorWrites R E) (v : Word64) : Op.Within R E (setRes v) :=
  within_update fun s => hR.result s v

theorem within_readBits (hR : CursorWrites R E) (n : Nat) : Op.Within R E (readBits n) := by
  have hend : ∀ v, Op.Within R E (do setRes (BitVec.ofNat 64 v); pure v) := fun v =>
    within_bind hR.toComposable (within_setRes hR _) fun _ => within_pure hR.toComposable v
  exact within_ite (within_bind hR.toComposable (within_small hR n) fun v => hend v)
    (within_bind hR.toComposable (within_small hR 24) fun _ =>
      within_bind hR.toComposable (within_small hR (n - 24)) fun _ =>
      within_bind hR.toComposable (within_pure hR.toComposable _) fun v => hend v)

theorem within_readChunks (hR : CursorWrites R E) (rounds rem v : Nat) : Op.Within R E (readChunks rounds rem v) := by
  induction rounds generalizing rem v with
  | zero => exact within_pure hR.toComposable v
  | succ rounds ih =>
    exact within_ite (within_pure hR.toComposable v)
      (within_bind hR.toComposable (within_readBits hR _) fun _ => ih _ _)

theorem within_readBits64 (hR : CursorWrites R E) (n : Nat) : Op.Within R E (readBits64 n) :=
  within_bind hR.toComposable (within_readChunks hR _ _ _) fun v =>
  within_bind hR.toComposable (within_setRes hR _) fun _ => within_pure hR.toComposable v

theorem within_readSigned (hR : CursorWrites R E) (n : Nat) : Op.Within R E (readSigned n) :=
  within_bind hR.toComposable (within_readBits hR n) fun _ =>
  within_bind hR.toComposable (within_setRes hR _) fun _ => within_pure hR.toComposable _

theorem within_readSigned64 (hR : CursorWrites R E) (n : Nat) : Op.Within R E (readSigned64 n) :=
  within_bind hR.toComposable (within_readBits64 hR n) fun _ =>
  within_bind hR.toComposable (within_setRes hR _) fun _ => within_pure hR.toComposable _

theorem within_unaryLoop (hR : CursorWrites R E) (rounds q : Nat) : Op.Within R E (unaryLoop rounds q) := by
  induction rounds generalizing q with
  | zero => exact within_raise hR.toComposable _
  | succ rounds ih =>
    exact within_bind hR.toComposable (within_readBits hR 1) fun _ => within_ite (ih _)
      (within_bind hR.toComposable (within_setRes hR _) fun _ => within_pure hR.toComposable q)

theorem within_readUnary (hR : CursorWrites R E) : Op.Within R E readUnary :=
  within_bind hR.toComposable (within_view hR.toComposable _) fun _ => within_unaryLoop hR _ _

theorem within_flush (hR : CursorWrites R E) : Op.Within R E flush :=
  within_bind hR.toComposable (within_view hR.toComposable _) fun _ =>
  within_ite (within_pure hR.toComposable ()) (within_advance hR _)

theorem within_positionBits (hR : CursorWrites R E) : Op.Within R E positionBits :=
  within_bind hR.toComposable (within_view hR.toComposable _) fun _ => within_setRes hR _

theorem within_cursorNew (hR : CursorWrites R E) (hstart : ∀ s, R s (startAttempt s)) (off : Nat) :
    Op.Within R E (cursorNew off) :=
  within_bind hR.toComposable (within_update hstart) fun _ => hR.move _ _

/-! ### Checksums -/

theorem within_readSpan (hR : Composable R E) (a n : Nat) : Op.Within R E (readSpan a n) := by
  induction n generalizing a with
  | zero => exact within_pure hR []
  | succ n ih =>
    exact within_bind hR (within_readIn hR a) fun _ => within_bind hR (ih _) fun _ => within_pure hR _

theorem within_crc8Op (hR : CursorWrites R E) (a b : Nat) : Op.Within R E (crc8Op a b) :=
  within_bind hR.toComposable (within_readSpan hR.toComposable a b) fun _ =>
  within_bind hR.toComposable (within_setRes hR _) fun _ => within_pure hR.toComposable _

theorem within_crc16Op (hR : CursorWrites R E) (a b : Nat) : Op.Within R E (crc16Op a b) :=
  within_bind hR.toComposable (within_readSpan hR.toComposable a b) fun _ =>
  within_bind hR.toComposable (within_setRes hR _) fun _ => within_pure hR.toComposable _

/-! ### Variable-length integers -/

theorem within_vluFail (hR : VluWrites R E) : Op.Within R E vluFail :=
  within_bind hR.toComposable (within_view hR.toComposable _) fun _ =>
  within_bind hR.toComposable (within_update fun s => hR.okFlag s false) fun _ =>
  within_bind hR.toComposable (within_setRes hR.toCursorWrites _) fun _ => within_pure hR.toComposable _

theorem within_vluSucceed (hR : VluWrites R E) : Op.Within R E vluSucceed :=
  within_bind hR.toComposable (within_view hR.toComposable _) fun _ =>
  within_bind hR.toComposable (within_update fun s => hR.okFlag s true) fun _ =>
  within_bind hR.toComposable (within_setRes hR.toCursorWrites _) fun _ => within_pure hR.toComposable _

theorem within_vluAppend (hR : VluWrites R E) (x : Nat) : Op.Within R E (vluAppend x) :=
  within_update fun s => hR.names s _

theorem within_vluContinue (hR : VluWrites R E) (c : Nat) : Op.Within R E (vluContinue c) := by
  induction c with
  | zero => exact within_pure hR.toComposable true
  | succ c ih =>
    exact within_bind hR.toComposable (within_readBits hR.toCursorWrites 8) fun _ =>
      within_ite (within_bind hR.toComposable (within_vluAppend hR _) fun _ => ih) (within_pure hR.toComposable false)

theorem within_vluAfterLead (hR : VluWrites R E) (payload c : Nat) : Op.Within R E (vluAfterLead payload c) :=
  within_bind hR.toComposable (within_update fun s => hR.names s _) fun _ =>
  within_bind hR.toComposable (within_vluContinue hR c) fun _ =>
  within_ite (within_vluSucceed hR) (within_vluFail hR)

theorem within_readVlu (hR : VluWrites R E) (wide : Bool) : Op.Within R E (readVlu wide) :=
  within_bind hR.toComposable (within_update fun s => hR.names s _) fun _ =>
  within_bind hR.toComposable (within_readBits hR.toCursorWrites 8) fun b => by
    cases vluLeadClass wide b with
    | none => exact within_vluFail hR
    | some x => exact within_vluAfterLead hR x.1 x.2

/-! ### The header -/

theorem within_headerBegin (hR : HeaderWrites R E) (hV : MayValidate R) : Op.Within R E headerBegin :=
  within_bind hR.toComposable (within_update fun s => hV s _) fun _ =>
  within_bind hR.toComposable (within_view hR.toComposable _) fun _ => within_update fun s => hR.names s _

theorem within_applyHeaderWord (hR : HeaderWrites R E) (blk : Bool) (bsc src chn : BitVec 4) (bpc : BitVec 3) :
    Op.Within R E (applyHeaderWord blk bsc src chn bpc) := by
  have hh : ∀ f, (∀ h, (f h).valid = h.valid) → Op.Within R E (updateHdr f) := fun f hf =>
    within_update fun s => hR.header s f hf
  refine within_bind hR.toComposable (within_update fun s => hR.names s _) fun _ =>
    within_bind hR.toComposable ?_ fun _ => within_bind hR.toComposable ?_ fun _ =>
    within_bind hR.toComposable ?_ fun _ => ?_
  · simp only [applyBlocksize]
    split
    · exact within_raise hR.toComposable _
    · exact within_pure hR.toComposable ()
    · exact hh _ fun _ => rfl
  · refine within_bind hR.toComposable (within_view hR.toComposable _) fun _ => ?_
    split
    · exact within_raise hR.toComposable _
    · exact within_pure hR.toComposable ()
    · exact hh _ fun _ => rfl
  · simp only [applyChannels]
    split
    · exact within_raise hR.toComposable _
    · exact hh _ fun _ => rfl
  · refine within_bind hR.toComposable (within_view hR.toComposable _) fun _ => ?_
    split
    · exact hh _ fun _ => rfl
    · exact within_raise hR.toComposable _
    · exact within_raise hR.toComposable _

theorem within_headerWord (hR : HeaderWrites R E) (w : BitVec 32) : Op.Within R E (headerWord w) :=
  within_ite (within_raise hR.toComposable _)
    (within_bind hR.toComposable (within_applyHeaderWord hR _ _ _ _ _) fun _ =>
      within_ite (within_raise hR.toComposable _) (within_pure hR.toComposable ()))

theorem within_headerNumber (hR : HeaderWrites R E) : Op.Within R E headerNumber :=
  within_bind hR.toComposable (within_view hR.toComposable _) fun _ =>
  within_bind hR.toComposable (within_readVlu hR.toVluWrites _) fun r => by
    cases r with
    | none => exact within_raise hR.toComposable _
    | some v => exact within_update fun s => hR.header s _ fun _ => rfl

theorem within_headerBlocksizeHint (hR : HeaderWrites R E) : Op.Within R E headerBlocksizeHint :=
  within_bind hR.toComposable (within_view hR.toComposable _) fun _ =>
  within_ite
    (within_bind hR.toComposable (within_readBits hR.toCursorWrites 8) fun _ => within_update fun s => hR.header s _ fun _ => rfl)
    (within_ite
      (within_bind hR.toComposable (within_readBits hR.toCursorWrites 16) fun _ => within_update fun s => hR.header s _ fun _ => rfl)
      (within_pure hR.toComposable ()))

theorem within_headerRateHint (hR : HeaderWrites R E) : Op.Within R E headerRateHint :=
  within_bind hR.toComposable (within_view hR.toComposable _) fun _ =>
  within_ite
    (within_bind hR.toComposable (within_readBits hR.toCursorWrites 8) fun _ => within_update fun s => hR.header s _ fun _ => rfl)
    (within_ite
      (within_bind hR.toComposable (within_readBits hR.toCursorWrites 16) fun _ => within_update fun s => hR.header s _ fun _ => rfl)
      (within_ite
        (within_bind hR.toComposable (within_readBits hR.toCursorWrites 16) fun _ => within_update fun s => hR.header s _ fun _ => rfl)
        (within_pure hR.toComposable ())))

theorem within_headerChecksum (hR : HeaderWrites R E) (hV : MayValidate R) (crc : BitVec 8) :
    Op.Within R E (headerChecksum crc) := by
  have hend : Op.Within R E (do setHdrValid true; setFState .headerParsed) :=
    within_bind hR.toComposable (within_update fun s => hV s _) fun _ => within_update fun s => hR.parsed s
  refine within_bind hR.toComposable (within_view hR.toComposable _) fun _ =>
    within_bind hR.toComposable (within_update fun s => hR.header s _ fun _ => rfl) fun _ =>
    within_bind hR.toComposable (within_view hR.toComposable _) fun _ => within_ite ?_ hend
  exact within_bind hR.toComposable (within_view hR.toComposable _) fun _ =>
    within_bind hR.toComposable (within_view hR.toComposable _) fun _ =>
    within_bind hR.toComposable (within_crc8Op hR.toCursorWrites _ _) fun _ =>
    within_ite (within_bind hR.toComposable (within_raise hR.toComposable _) fun _ => hend) hend

theorem within_parseHeader (hR : HeaderWrites R E) (hV : MayValidate R) : Op.Within R E parseHeader :=
  within_rejecting hR.rejected <| within_bind hR.toComposable (within_headerBegin hR hV) fun _ =>
  within_bind hR.toComposable (within_readBits hR.toCursorWrites 32) fun _ =>
  within_bind hR.toComposable (within_headerWord hR _) fun _ =>
  within_bind hR.toComposable (within_headerNumber hR) fun _ =>
  within_bind hR.toComposable (within_headerBlocksizeHint hR) fun _ =>
  within_bind hR.toComposable (within_headerRateHint hR) fun _ =>
  within_bind hR.toComposable (within_readBits hR.toCursorWrites 8) fun _ => within_headerChecksum hR hV _

/-! ### Residuals -/

theorem within_storePartition (hR : ResidualWrites R E) (vs : List Int) : Op.Within R E (storePartition vs) :=
  within_bind hR.toComposable (within_view hR.toComposable _) fun _ =>
  within_bind hR.toComposable (within_view hR.toComposable _) fun _ => within_update fun s => hR.samples s _ _ _

theorem within_riceResidual (hR : CursorWrites R E) (k : Nat) : Op.Within R E (riceResidual k) := by
  have hend : ∀ u, Op.Within R E (if 2 ^ 32 ≤ u then raise .arithmeticOverflow else pure (zigZag u)) := fun u =>
    within_ite (within_raise hR.toComposable _) (within_pure hR.toComposable _)
  exact within_bind hR.toComposable (within_readUnary hR) fun _ =>
    within_ite (within_bind hR.toComposable (within_pure hR.toComposable 0) fun _ => hend _)
      (within_bind hR.toComposable (within_readBits hR k) fun _ => hend _)

theorem within_ricePartition (hR : ResidualWrites R E) (k : Nat) : Op.Within R E (ricePartition k) :=
  within_bind hR.toComposable (within_update fun s => hR.params s _) fun _ =>
  within_bind hR.toComposable (within_view hR.toComposable _) fun _ =>
  within_bind hR.toComposable (within_repeatOp hR.toComposable (within_riceResidual hR.toCursorWrites k) _) fun _ =>
  within_storePartition hR _

theorem within_escapePartition (hR : ResidualWrites R E) (e : Nat) : Op.Within R E (escapePartition e) :=
  within_bind hR.toComposable (within_update fun s => hR.params s _) fun _ =>
  within_bind hR.toComposable (within_readBits hR.toCursorWrites 5) fun _ =>
  within_bind hR.toComposable (within_update fun s => hR.params s _) fun _ =>
  within_bind hR.toComposable (within_view hR.toComposable _) fun _ =>
  within_ite (within_bind hR.toComposable (within_pure hR.toComposable _) fun _ => within_storePartition hR _)
    (within_bind hR.toComposable (within_repeatOp hR.toComposable (within_readSigned hR.toCursorWrites _) _) fun _ =>
      within_storePartition hR _)

theorem within_decodePartition (hR : ResidualWrites R E) (j : Nat) : Op.Within R E (decodePartition j) :=
  within_bind hR.toComposable (within_update fun s => hR.names s _) fun _ =>
  within_bind hR.toComposable (within_view hR.toComposable _) fun _ =>
  within_bind hR.toComposable (within_readBits hR.toCursorWrites _) fun _ =>
  within_ite (within_escapePartition hR _) (within_ricePartition hR _)

theorem within_rejectMethod (hR : ResidualWrites R E) (m : Nat) : Op.Within R E (rejectMethod m) :=
  within_bind hR.toComposable (within_update fun s => hR.params s _) fun _ => within_raise hR.toComposable _

theorem within_decodeResidual (hR : ResidualWrites R E) (c : Fin 8) (k : Nat) : Op.Within R E (decodeResidual c k) := by
  have hrest : Op.Within R E (do
      let p ← readBits 4
      updateRp fun r => { r with partitionOrder := p }
      let n ← view (·.hdr.blocksize.toNat)
      if partitionsFit n p k then forEach (List.range (2 ^ p)) decodePartition
      else raise .structuralError) :=
    within_bind hR.toComposable (within_readBits hR.toCursorWrites 4) fun _ =>
    within_bind hR.toComposable (within_update fun s => hR.params s _) fun _ =>
    within_bind hR.toComposable (within_view hR.toComposable _) fun _ =>
    within_ite (within_forEach hR.toComposable (within_decodePartition hR) _) (within_raise hR.toComposable _)
  exact within_bind hR.toComposable (within_update fun s => hR.names s _) fun _ =>
    within_bind hR.toComposable (within_readBits hR.toCursorWrites 2) fun m =>
    within_ite (within_bind hR.toComposable (within_rejectMethod hR m) fun _ => hrest)
      (within_bind hR.toComposable (within_update fun s => hR.params s _) fun _ => hrest)

/-! ### Samples -/

theorem within_readSamples (hR : Composable R E) (hE : MayHalt E) (c : Fin 8) (n : Nat) : Op.Within R E (readSamples c n) := by
  intro s
  cases hr : readFrom (s.ch.backgroundAt s.wide c) s.ch.cells[c] 0 n with
  | ok vs => rw [show readSamples c n s = .ok vs s by simp only [readSamples, hr]]; exact hR.refl s
  | error i =>
    rw [show readSamples c n s = .error (.halt (.unwrittenSample c i)) s by simp only [readSamples, hr]]
    exact hE _ s

theorem within_writeSamples (hw : ∀ (s : State) c i vs, R s (s.writeCh c i vs)) (c : Fin 8) (i : Nat)
    (vs : List Int) : Op.Within R E (writeSamples c i vs) := within_update fun s => hw s c i vs

theorem within_restoreWith (hR : Composable R E) (hE : MayHalt E) (hw : ∀ (s : State) c i vs, R s (s.writeCh c i vs)) (c : Fin 8)
    (k : Nat) (f : List Int → Int → Option Int) : Op.Within R E (restoreWith c k f) :=
  within_bind hR (within_view hR _) fun _ => within_ite (within_pure hR ())
    (within_bind hR (within_readSamples hR hE _ _) fun _ => within_bind hR (within_orRaise hR _ _) fun _ =>
      within_writeSamples hw _ _ _)

theorem within_restoreFixed (hR : Composable R E) (hE : MayHalt E) (hw : ∀ (s : State) c i vs, R s (s.writeCh c i vs)) (c : Fin 8)
    (k : Nat) : Op.Within R E (restoreFixed c k) :=
  within_ite (within_pure hR ())
    (within_bind hR (within_view hR _) fun _ => within_bind hR (within_view hR _) fun _ =>
      within_bind hR (within_view hR _) fun _ => within_restoreWith hR hE hw _ _ _)

theorem within_restoreLpc (hR : Composable R E) (hE : MayHalt E) (hw : ∀ (s : State) c i vs, R s (s.writeCh c i vs)) (c : Fin 8)
    (k : Nat) : Op.Within R E (restoreLpc c k) :=
  within_bind hR (within_view hR _) fun _ => within_bind hR (within_view hR _) fun _ =>
  within_bind hR (within_view hR _) fun _ => within_bind hR (within_view hR _) fun _ => within_restoreWith hR hE hw _ _ _

theorem within_decorrelateOp (hR : Composable R E) (hE : MayHalt E) (hw : ∀ (s : State) c i vs, R s (s.writeCh c i vs)) :
    Op.Within R E decorrelateOp := by
  refine within_bind hR (within_view hR _) fun h => within_bind hR (within_view hR _) fun _ =>
    within_bind hR (within_view hR _) fun _ => ?_
  have hr := fun c n => within_readSamples hR hE c n
  cases h.assignment with
  | independent => exact within_pure hR ()
  | leftSide =>
    exact within_bind hR (hr _ _) fun _ => within_bind hR (hr _ _) fun _ =>
      within_bind hR (within_orRaise hR _ _) fun _ => within_writeSamples hw _ _ _
  | rightSide =>
    exact within_bind hR (hr _ _) fun _ => within_bind hR (hr _ _) fun _ =>
      within_bind hR (within_orRaise hR _ _) fun _ => within_writeSamples hw _ _ _
  | midSide =>
    exact within_bind hR (hr _ _) fun _ => within_bind hR (hr _ _) fun _ =>
      within_bind hR (within_orRaise hR _ _) fun _ => within_bind hR (within_writeSamples hw _ _ _) fun _ =>
      within_writeSamples hw _ _ _

theorem within_readChannels (hR : Composable R E) (hE : MayHalt E) (n : Nat) (cs : List Nat) : Op.Within R E (readChannels n cs) := by
  induction cs with
  | nil => exact within_pure hR []
  | cons c cs ih =>
    have hend : ∀ xs, Op.Within R E (do let rest ← readChannels n cs; pure (xs :: rest)) := fun xs =>
      within_bind hR ih fun _ => within_pure hR _
    simp only [readChannels]
    split
    · exact within_bind hR (within_readSamples hR hE _ _) hend
    · split
      · exact within_bind hR (within_pure hR []) hend
      · exact within_bind hR (fun s => hE _ s) hend

theorem within_packOp (hR : Composable R E) (hE : MayHalt E) (hout : ∀ (s : State) b, R s (s.withOut b))
    (hf : ∀ s : State, R s (s.withFState .packed)) : Op.Within R E packOp :=
  within_bind hR (within_view hR _) fun _ => within_ite (within_raise hR _)
    (within_bind hR (within_view hR _) fun _ => within_bind hR (within_readChannels hR hE _ _) fun _ =>
      within_ite (within_bind hR (within_update fun s => hout s _) fun _ => within_update fun s => hf s)
        (within_raise hR _))

/-! ### Subframes -/

theorem within_wastedBits (hR : SubframeWrites R E) (c : Fin 8) (w : Bool) : Op.Within R E (wastedBits c w) :=
  within_ite
    (within_bind hR.toComposable (within_readUnary hR.toCursorWrites) fun _ => within_update fun s => hR.descriptor s _ _)
    (within_update fun s => hR.descriptor s _ _)

theorem within_effectiveDepth (hR : SubframeWrites R E) (c : Fin 8) : Op.Within R E (effectiveDepth c) :=
  within_bind hR.toComposable (within_view hR.toComposable _) fun _ =>
  within_bind hR.toComposable (within_view hR.toComposable _) fun _ =>
  within_ite (within_raise hR.toComposable _) (within_update fun s => hR.descriptor s _ _)

theorem within_readSample (hR : CursorWrites R E) (d : Nat) : Op.Within R E (readSample d) :=
  within_bind hR.toComposable (within_view hR.toComposable _) fun _ =>
  within_ite (within_readSigned64 hR d) (within_readSigned hR d)

theorem within_setType (hR : SubframeWrites R E) (c : Fin 8) (t : SubframeType) (k : Nat) :
    Op.Within R E (setType c t k) := within_update fun s => hR.descriptor s _ _

theorem within_checkOrder (hR : Composable R E) (k : Nat) : Op.Within R E (checkOrder k) :=
  within_bind hR (within_view hR _) fun _ => within_ite (within_raise hR _) (within_pure hR ())

theorem within_warmUp (hR : SubframeWrites R E) (c : Fin 8) (k : Nat) : Op.Within R E (warmUp c k) :=
  within_bind hR.toComposable (within_view hR.toComposable _) fun _ =>
  within_bind hR.toComposable (within_repeatOp hR.toComposable (within_readSample hR.toCursorWrites _) k) fun _ =>
  within_writeSamples hR.samples _ _ _

theorem within_constantBody (hR : SubframeWrites R E) (c : Fin 8) : Op.Within R E (constantBody c) :=
  within_bind hR.toComposable (within_setType hR _ _ _) fun _ =>
  within_bind hR.toComposable (within_view hR.toComposable _) fun _ =>
  within_bind hR.toComposable (within_view hR.toComposable _) fun _ =>
  within_bind hR.toComposable (within_readSample hR.toCursorWrites _) fun _ => within_writeSamples hR.samples _ _ _

theorem within_verbatimBody (hR : SubframeWrites R E) (c : Fin 8) : Op.Within R E (verbatimBody c) :=
  within_bind hR.toComposable (within_setType hR _ _ _) fun _ =>
  within_bind hR.toComposable (within_view hR.toComposable _) fun _ =>
  within_bind hR.toComposable (within_view hR.toComposable _) fun _ =>
  within_bind hR.toComposable (within_repeatOp hR.toComposable (within_readSample hR.toCursorWrites _) _) fun _ =>
  within_writeSamples hR.samples _ _ _

theorem within_fixedBody (hR : SubframeWrites R E) (hE : MayHalt E) (c : Fin 8) (k : Nat) : Op.Within R E (fixedBody c k) :=
  within_bind hR.toComposable (within_setType hR _ _ _) fun _ =>
  within_ite (within_raise hR.toComposable _)
    (within_bind hR.toComposable (within_checkOrder hR.toComposable k) fun _ =>
      within_bind hR.toComposable (within_warmUp hR c k) fun _ =>
      within_bind hR.toComposable (within_decodeResidual hR.toResidualWrites c k) fun _ =>
      within_restoreFixed hR.toComposable hE hR.samples c k)

theorem within_lpcParameters (hR : SubframeWrites R E) (k : Nat) : Op.Within R E (lpcParameters k) :=
  within_bind hR.toComposable (within_readBits hR.toCursorWrites 4) fun _ =>
  within_ite (within_raise hR.toComposable _)
    (within_bind hR.toComposable (within_update fun s => hR.lpc s _) fun _ =>
      within_bind hR.toComposable (within_readSigned hR.toCursorWrites 5) fun _ =>
      within_ite (within_raise hR.toComposable _)
        (within_bind hR.toComposable (within_update fun s => hR.lpc s _) fun _ =>
          within_bind hR.toComposable (within_repeatOp hR.toComposable (within_readSigned hR.toCursorWrites _) k) fun _ =>
          within_update fun s => hR.lpc s _))

theorem within_lpcBody (hR : SubframeWrites R E) (hE : MayHalt E) (c : Fin 8) (k : Nat) : Op.Within R E (lpcBody c k) :=
  within_bind hR.toComposable (within_setType hR _ _ _) fun _ =>
  within_bind hR.toComposable (within_checkOrder hR.toComposable k) fun _ =>
  within_bind hR.toComposable (within_warmUp hR c k) fun _ =>
  within_bind hR.toComposable (within_lpcParameters hR k) fun _ =>
  within_bind hR.toComposable (within_decodeResidual hR.toResidualWrites c k) fun _ =>
  within_restoreLpc hR.toComposable hE hR.samples c k

theorem within_restoreWasted (hR : SubframeWrites R E) (hE : MayHalt E) (c : Fin 8) : Op.Within R E (restoreWasted c) :=
  within_bind hR.toComposable (within_view hR.toComposable _) fun _ =>
  within_ite (within_pure hR.toComposable ())
    (within_bind hR.toComposable (within_view hR.toComposable _) fun _ =>
      within_bind hR.toComposable (within_view hR.toComposable _) fun _ =>
      within_bind hR.toComposable (within_view hR.toComposable _) fun _ =>
      within_bind hR.toComposable (within_readSamples hR.toComposable hE _ _) fun _ =>
      within_bind hR.toComposable (within_orRaise hR.toComposable _ _) fun _ => within_writeSamples hR.samples _ _ _)

theorem within_subframeAfterTag (hR : SubframeWrites R E) (hE : MayHalt E) (w : Bool) {body : Fin 8 → Op Unit}
    (hb : ∀ c, Op.Within R E (body c)) : Op.Within R E (subframeAfterTag w body) :=
  within_bind hR.toComposable (within_view hR.toComposable _) fun c =>
  within_bind hR.toComposable (within_wastedBits hR c w) fun _ =>
  within_bind hR.toComposable (within_effectiveDepth hR c) fun _ =>
  within_bind hR.toComposable (hb c) fun _ => within_restoreWasted hR hE c

theorem within_classify (hR : SubframeWrites R E) (hE : MayHalt E) (t : BitVec 6) (c : Fin 8) : Op.Within R E (classify t c) :=
  within_ite (within_constantBody hR c)
    (within_ite (within_verbatimBody hR c)
      (within_ite (within_lpcBody hR hE c _)
        (within_ite (within_fixedBody hR hE c _) (within_raise hR.toComposable _))))

theorem within_subframeTag (hR : SubframeWrites R E) (hE : MayHalt E) (tag : BitVec 8) : Op.Within R E (subframeTag tag) :=
  within_ite (within_raise hR.toComposable _) (within_subframeAfterTag hR hE _ (within_classify hR hE _))

theorem within_decodeSubframe (hR : SubframeWrites R E) (hE : MayHalt E) (c : Fin 8) (base : Nat) : Op.Within R E (decodeSubframe c base) :=
  within_bind hR.toComposable (within_update fun s => hR.names s _) fun _ =>
  within_bind hR.toComposable (within_readBits hR.toCursorWrites 8) fun _ => within_subframeTag hR hE _

/-! ### The frame -/

theorem within_selectWide (hR : ∀ (s : State) w f, R s (s.withBuffers w f)) : Op.Within R E selectWide :=
  within_update fun s => hR s _ _

theorem within_frameSubframes (hR : SubframeWrites R E) (hE : MayHalt E) (hf : ∀ s : State, R s (s.withFState .subframesDecoded)) :
    Op.Within R E frameSubframes :=
  within_bind hR.toComposable (within_view hR.toComposable _) fun _ =>
  within_bind hR.toComposable (within_forEach hR.toComposable (fun c =>
    within_bind hR.toComposable (within_view hR.toComposable _) fun _ => within_decodeSubframe hR hE c _) _) fun _ =>
  within_update hf

theorem within_frameChecksum (hR : CursorWrites R E) (hf : ∀ s : State, R s (s.withFState .verified)) :
    Op.Within R E frameChecksum :=
  within_bind hR.toComposable (within_view hR.toComposable _) fun _ =>
  within_bind hR.toComposable (within_view hR.toComposable _) fun _ =>
  within_bind hR.toComposable (within_crc16Op hR _ _) fun _ =>
  within_ite (within_raise hR.toComposable _) (within_update hf)

theorem within_frameLength (hR : CursorWrites R E) : Op.Within R E frameLength :=
  within_bind hR.toComposable (within_view hR.toComposable _) fun _ => within_setRes hR _

/-- What the start of a frame does (R361, R423): `cursor_new` from a state whose WIDE is 0. -/
theorem frameStart_eq (a : Nat) (s : State) : frameStart a s = cursorNew (8 * a) (s.withBuffers false s.ch) := rfl

theorem within_frameStart (hR : CursorWrites R E) (hstart : ∀ s, R s (startAttempt s))
    (hbuf : ∀ (s : State) w f, R s (s.withBuffers w f)) (a : Nat) : Op.Within R E (frameStart a) :=
  within_bind hR.toComposable (within_update fun s => hbuf s _ _) fun _ => within_cursorNew hR hstart _

/-- The steps of `decode_frame`, start to end. -/
theorem within_frameSteps (hh : HeaderWrites R E) (hV : MayValidate R) (hs : SubframeWrites R E) (hE : MayHalt E)
    (hstart : ∀ s, R s (startAttempt s))
    (hbuf : ∀ (s : State) w f, R s (s.withBuffers w f)) (hf : ∀ (s : State) f, R s (s.withFState f)) (a : Nat) :
    Op.Within R E (frameSteps a) :=
  within_bind hh.toComposable (within_frameStart hh.toCursorWrites hstart hbuf _) fun _ =>
  within_bind hh.toComposable (within_parseHeader hh hV) fun _ =>
  within_bind hh.toComposable (within_selectWide hbuf) fun _ =>
  within_bind hh.toComposable (within_frameSubframes hs hE fun s => hf s _) fun _ =>
  within_bind hh.toComposable (within_flush hh.toCursorWrites) fun _ =>
  within_bind hh.toComposable (within_discard (within_readBits hh.toCursorWrites 16)) fun _ =>
  within_bind hh.toComposable (within_frameChecksum hh.toCursorWrites fun s => hf s _) fun _ =>
  within_bind hh.toComposable (within_decorrelateOp hs.toComposable hE hs.samples) fun _ =>
  within_frameLength hh.toCursorWrites

/-! ### Relations of the fields a move of the cursor keeps -/

/-- A relation that holds of the writes of a move, wherever it ends. -/
theorem within_setPos_anyhow {R : State → State → Prop} (hR : Composable R (Anyhow R))
    (hplace : ∀ (s : State) b o, R s { s with byte := b, bit := o }) (hcache : ∀ (s : State) w, R s { s with cache := w })
    (b : Nat) (o : Fin 8) : Op.Within R (Anyhow R) (setPos b o) :=
  within_bind hR (within_update fun s => hplace s b o) fun _ =>
  within_bind hR (within_view hR _) fun _ =>
  within_bind hR (within_readIn hR _) fun _ =>
  within_bind hR (within_readIn hR _) fun _ =>
  within_bind hR (within_readIn hR _) fun _ =>
  within_bind hR (within_readIn hR _) fun _ =>
  within_update fun s => hcache s _

/-! ### What a raise of a frame-level command shows -/

/-- What `takeRaise` keeps of the state at the raise, HDR aside. -/
def State.shown (s : State) := (s.input, s.params, s.streamInfo, s.wide, s.pending, s.freeCount)

/-- A frame-level raise shows nothing else. -/
theorem takeRaise_shown {k : ErrKind} {s t : State} (h : Same State.shown s t) (hh : t.hdr = s.hdr) :
    takeRaise .frame k t = takeRaise .frame k s := by
  simp only [Same, State.shown, Prod.mk.injEq] at h
  obtain ⟨h1, h2, h3, h4, h5, h6⟩ := h
  simp only [takeRaise, dropCursor, h1, h2, h3, h4, h5, h6, hh, if_true]

theorem header_sameShown : HeaderWrites (Same State.shown) (Anyhow (Same State.shown)) where
  toComposable := composable_same _
  move := within_setPos_anyhow (composable_same _) (fun _ _ _ => rfl) fun _ _ => rfl
  result _ _ := rfl
  okFlag _ _ := rfl
  names _ _ := rfl
  header _ _ _ := rfl
  parsed _ := rfl
  rejected _ _ _ h := h

/-- No part of a subframe writes it, nor HDR. -/
theorem subframe_sameShown : SubframeWrites (Same fun s => (s.shown, s.hdr)) (Anyhow (Same fun s => (s.shown, s.hdr))) where
  toComposable := composable_same _
  move := within_setPos_anyhow (composable_same _) (fun _ _ _ => rfl) fun _ _ => rfl
  result _ _ := rfl
  names _ _ := rfl
  params _ _ := rfl
  samples _ _ _ _ := rfl
  descriptor _ _ _ := rfl
  lpc _ _ := rfl

/-- Where a part of a subframe raises, the raise shows the state the part began in. -/
theorem raise_of_within {α : Type} {x : Op α} {k : ErrKind} {s t : State}
    (hw : Op.Within (Same fun s => (s.shown, s.hdr)) (Anyhow (Same fun s => (s.shown, s.hdr))) x)
    (h : x s = .error (.raise k) t) : takeRaise .frame k t = takeRaise .frame k s := by
  have := hw.error h
  simp only [Anyhow, Same, Prod.mk.injEq] at this
  exact takeRaise_shown this.1 this.2

/-! ### The selection of WIDE in a frame (R31) -/

/-- The steps after the selection leave WIDE, and the header it was made from, wherever they end (R31). -/
theorem within_afterSelection : Op.Within (Same fun s => (s.shown, s.hdr)) (Anyhow (Same fun s => (s.shown, s.hdr)))
    (do frameSubframes; flush; discard (readBits 16); frameChecksum; decorrelateOp; frameLength : Op Unit) :=
  have hS := subframe_sameShown
  have hE : MayHalt (Anyhow (Same fun s => (s.shown, s.hdr))) := fun _ _ => rfl
  within_bind hS.toComposable (within_frameSubframes hS hE fun _ => rfl) fun _ =>
  within_bind hS.toComposable (within_flush hS.toCursorWrites) fun _ =>
  within_bind hS.toComposable (within_discard (within_readBits hS.toCursorWrites 16)) fun _ =>
  within_bind hS.toComposable (within_frameChecksum hS.toCursorWrites fun _ => rfl) fun _ =>
  within_bind hS.toComposable (within_decorrelateOp hS.toComposable hE hS.samples) fun _ =>
  within_frameLength hS.toCursorWrites

/-- A decoded frame's WIDE is the one selection R363 makes from its header (R31). -/
theorem frameSteps_wide {a : Nat} {s t : State} (h : frameSteps a s = .ok () t) : t.wide = wideOf t.hdr := by
  obtain ⟨_, s1, -, h⟩ := of_bind_ok h
  obtain ⟨_, s2, -, h⟩ := of_bind_ok h
  obtain ⟨_, s3, h3, h⟩ := of_bind_ok h
  obtain rfl : _ = s3 := (EStateM.Result.ok.inj h3).2
  have hw := within_afterSelection.ok h
  simp only [Same, State.shown, Prod.mk.injEq] at hw
  rw [hw.2]
  exact hw.1.2.2.2.1

end Sys2Proof.Machine
end

