-- ==== Sys2Proof/Laws/Layout.lean ====
section
/-! SUPPORT. What the cursor reads where the stream carries a field, a two's-complement field, a unary code. -/

namespace Sys2Proof.Machine

@[simp] theorem fieldBits_length (n v : Nat) : (fieldBits n v).length = n := by
  induction n with
  | zero => rfl
  | succ n ih => simp [fieldBits, ih]

@[simp] theorem signedBits_length (n : Nat) (v : Int) : (signedBits n v).length = n := fieldBits_length _ _

@[simp] theorem unaryBits_length (q : Nat) : (unaryBits q).length = q + 1 := by simp [unaryBits]

theorem fieldBits_mod (n v : Nat) : fieldBits n (v % 2 ^ n) = fieldBits n v := by
  have : ∀ k, fieldBits n (v % 2 ^ (n + k)) = fieldBits n v := by
    induction n with
    | zero => intro k; rfl
    | succ n ih =>
      intro k
      simp only [fieldBits]
      congr 1
      · rw [Nat.testBit_mod_two_pow]; simp; intro hlt; omega
      · have := ih (k + 1)
        rw [show n + (k + 1) = n + 1 + k by omega] at this
        exact this
  exact this 0

theorem carries_window {m : Memory} {p n v : Nat} (h : carries m p (fieldBits n v) = true) :
    window m p n = v % 2 ^ n := by
  induction n generalizing p with
  | zero => simp [window, Nat.mod_one]
  | succ n ih =>
    simp only [fieldBits, carries, Bool.and_eq_true, beq_iff_eq] at h
    have h1 := window_append m p 1 n
    rw [window_one, Nat.add_comm 1 n, ih h.2, h.1] at h1
    rw [h1]
    have := Nat.mod_pow_succ (x := v) (b := 2) (k := n)
    rw [this, Nat.testBit_eq_decide_div_mod_eq]
    have h2 : v / 2 ^ n % 2 = 0 ∨ v / 2 ^ n % 2 = 1 := by omega
    rcases h2 with h2 | h2 <;> simp [h2, Nat.add_comm]

theorem window_carries {m : Memory} {p n v : Nat} (h : window m p n = v % 2 ^ n) :
    carries m p (fieldBits n v) = true := by
  induction n generalizing p with
  | zero => rfl
  | succ n ih =>
    have h1 := window_append m p 1 n
    rw [window_one, Nat.add_comm 1 n, h, Nat.mod_pow_succ] at h1
    have hw := window_lt m (p + 1) n
    have hm : v % 2 ^ n < 2 ^ n := Nat.mod_lt _ (Nat.two_pow_pos n)
    have h2 : v / 2 ^ n % 2 = 0 ∨ v / 2 ^ n % 2 = 1 := by omega
    simp only [fieldBits, carries, Bool.and_eq_true, beq_iff_eq, Nat.testBit_eq_decide_div_mod_eq]
    cases hb : streamBit m p <;> rcases h2 with h2 | h2 <;>
      simp only [hb, h2, Bool.toNat_false, Bool.toNat_true] at h1 ⊢ <;>
      first
        | exact ⟨rfl, ih (by omega)⟩
        | (exfalso; omega)

theorem sext_of_window {n : Nat} {v : Int} (h : fitsBits n v = true) : sext n ((v % 2 ^ n).toNat % 2 ^ n) = v := by
  simp only [fitsBits, Bool.and_eq_true, decide_eq_true_eq] at h
  obtain ⟨⟨hlo, hhi⟩, hn⟩ := h
  obtain ⟨k, rfl⟩ : ∃ k, n = k + 1 := ⟨n - 1, by omega⟩
  simp only [Nat.add_sub_cancel] at hlo hhi
  have hp : (0 : Int) < 2 ^ k := by positivity
  have hp1 : (2 : Int) ^ (k + 1) = 2 * 2 ^ k := by ring
  have hw0 : 0 ≤ v % 2 ^ (k + 1) := Int.emod_nonneg _ (by positivity)
  have hw1 : v % 2 ^ (k + 1) < 2 ^ (k + 1) := Int.emod_lt_of_pos _ (by positivity)
  have hcast : (((v % 2 ^ (k + 1)).toNat : Nat) : Int) = v % 2 ^ (k + 1) := Int.toNat_of_nonneg hw0
  have hlt : (v % 2 ^ (k + 1)).toNat < 2 ^ (k + 1) := by
    zify; rw [hcast]; exact hw1
  simp only [sext, Nat.mod_eq_of_lt hlt, Nat.add_sub_cancel]
  rw [Nat.testBit_eq_decide_div_mod_eq]
  by_cases hv : 0 ≤ v
  · have he : v % 2 ^ (k + 1) = v := Int.emod_eq_of_lt hv (by omega)
    have hq : (v % 2 ^ (k + 1)).toNat / 2 ^ k = 0 := by
      apply Nat.div_eq_of_lt
      zify; rw [hcast, he]; exact hhi
    rw [hq]
    simp only [Nat.zero_mod, Nat.zero_ne_one, decide_false, Bool.false_eq_true, if_false]
    rw [hcast, he]
  · have he : v % 2 ^ (k + 1) = v + 2 ^ (k + 1) := by
      have : v % 2 ^ (k + 1) = (v + 2 ^ (k + 1)) % 2 ^ (k + 1) := by simp
      rw [this]
      exact Int.emod_eq_of_lt (by omega) (by omega)
    have hq : (v % 2 ^ (k + 1)).toNat / 2 ^ k = 1 := by
      have h1 : 2 ^ k ≤ (v % 2 ^ (k + 1)).toNat := by zify; rw [hcast, he]; omega
      have h2 : (v % 2 ^ (k + 1)).toNat < 2 * 2 ^ k := by zify; rw [hcast, he]; omega
      rw [Nat.div_eq_iff (Nat.two_pow_pos k)]
      omega
    rw [hq]
    simp only [Nat.one_mod, decide_true, if_true]
    rw [hcast, he]; ring

/-- A carried two's-complement field reads as its value. -/
theorem carries_sext {m : Memory} {p n : Nat} {v : Int} (hv : fitsBits n v = true)
    (h : carries m p (signedBits n v) = true) : sext n (window m p n) = v := by
  rw [carries_window h]; exact sext_of_window hv

theorem carries_unary {m : Memory} {p q : Nat} (h : carries m p (unaryBits q) = true) :
    (∀ j, j < q → streamBit m (p + j) = false) ∧ streamBit m (p + q) = true := by
  induction q generalizing p with
  | zero => simpa [unaryBits, carries] using h
  | succ q ih =>
    have hu : unaryBits (q + 1) = false :: unaryBits q := by simp [unaryBits, List.replicate_succ]
    rw [hu] at h
    simp only [carries, Bool.and_eq_true, beq_iff_eq] at h
    obtain ⟨h0, h1⟩ := ih h.2
    refine ⟨fun j hj => ?_, by rw [show p + (q + 1) = p + 1 + q by omega]; exact h1⟩
    cases j with
    | zero => exact h.1
    | succ j => rw [show p + (j + 1) = p + 1 + j by omega]; exact h0 j (by omega)

/-! ### Reading carried fields

The state is written `u.readTo p r`: the cursor stands at `p` and RES holds `r`. -/

section
variable {u : State} {p : Nat} {r : Word64}

theorem ready_at (hv : u.curValid = true) (h : u.admissible p) : (u.readTo p r).Ready := ⟨hv, h, rfl⟩

/-- A ready state is of that form. -/
theorem State.Ready.eq_at {s : State} (hs : s.Ready) : s = s.readTo s.position s.res := hs.readTo_self.symm

theorem readBits_at {n v : Nat} (hu : u.curValid = true) (hn : n ≤ 32) (hv : v < 2 ^ n)
    (hc : carries u.input p (fieldBits n v) = true) (h : u.admissible (p + n)) :
    readBits n (u.readTo p r) = .ok v (u.readTo (p + n) (BitVec.ofNat 64 v)) := by
  have hr : (u.readTo p r).Ready := ready_at hu (admissible_mono h (by omega))
  rw [readBits_ok hr hn (by rw [readTo_position]; exact h)]
  simp only [readTo_position, readTo_input, readTo_readTo, carries_window hc, Nat.mod_eq_of_lt hv]

theorem readSigned_at {n : Nat} {v : Int} (hu : u.curValid = true) (hn : n ≤ 32) (hv : fitsBits n v = true)
    (hc : carries u.input p (signedBits n v) = true) (h : u.admissible (p + n)) :
    readSigned n (u.readTo p r) = .ok v (u.readTo (p + n) (BitVec.ofInt 64 v)) := by
  have hr : (u.readTo p r).Ready := ready_at hu (admissible_mono h (by omega))
  rw [readSigned_ok hr hn (by rw [readTo_position]; exact h)]
  simp only [readTo_position, readTo_input, readTo_readTo, carries_sext hv hc]

theorem readSigned64_at {n : Nat} {v : Int} (hu : u.curValid = true) (hv : fitsBits n v = true)
    (hc : carries u.input p (signedBits n v) = true) (h : u.admissible (p + n)) :
    readSigned64 n (u.readTo p r) = .ok v (u.readTo (p + n) (BitVec.ofInt 64 v)) := by
  have hr : (u.readTo p r).Ready := ready_at hu (admissible_mono h (by omega))
  rw [readSigned64_ok hr (by rw [readTo_position]; exact h)]
  simp only [readTo_position, readTo_input, readTo_readTo, carries_sext hv hc]

theorem readUnary_at {q : Nat} (hu : u.curValid = true)
    (hc : carries u.input p (unaryBits q) = true) (h : u.admissible (p + (q + 1))) :
    readUnary (u.readTo p r) = .ok q (u.readTo (p + (q + 1)) (BitVec.ofNat 64 q)) := by
  have hr : (u.readTo p r).Ready := ready_at hu (admissible_mono h (by omega))
  obtain ⟨h0, h1⟩ := carries_unary hc
  rw [readUnary_ok (q := q) hr (by simpa using h0) (by simpa using h1) (by rw [readTo_position]; exact h)]
  simp only [readTo_position, readTo_readTo, Nat.add_assoc]

/-- The stream carries a list of codes one after another: reading one code again and again reads them all. `read` is
a step that reads one carried code `bits v` and answers `v`, whatever RES holds. -/
theorem repeatOp_at {α : Type} {read : Op α} {bits : α → List Bool} (vs : List α)
    (hread : ∀ v ∈ vs, ∀ p r, carries u.input p (bits v) = true → u.admissible (p + (bits v).length) →
      ∃ r', read (u.readTo p r) = .ok v (u.readTo (p + (bits v).length) r'))
    (hc : carries u.input p (vs.flatMap bits) = true) (h : u.admissible (p + (vs.flatMap bits).length)) :
    ∃ r', repeatOp vs.length read (u.readTo p r) = .ok vs (u.readTo (p + (vs.flatMap bits).length) r') := by
  induction vs generalizing p r with
  | nil => exact ⟨r, by simp [repeatOp]⟩
  | cons v vs ih =>
    simp only [List.flatMap_cons, carries_append, Bool.and_eq_true, List.length_append] at hc h ⊢
    obtain ⟨r1, h1⟩ := hread v (List.mem_cons_self ..) p r hc.1 (admissible_mono h (by omega))
    obtain ⟨r2, h2⟩ := ih (p := p + (bits v).length) (r := r1) (fun w hw => hread w (List.mem_cons_of_mem _ hw)) hc.2
      (by rw [Nat.add_assoc]; exact h)
    refine ⟨r2, ?_⟩
    rw [List.length_cons, repeatOp, bind_ok h1, bind_ok h2, pure_apply, Nat.add_assoc]

/-- Two's-complement fields one after another. -/
theorem repeatSigned_at {w : Nat} {vs : List Int} (hu : u.curValid = true) (hw : w ≤ 32)
    (hv : ∀ v ∈ vs, fitsBits w v = true)
    (hc : carries u.input p (vs.flatMap (signedBits w)) = true)
    (h : u.admissible (p + (vs.flatMap (signedBits w)).length)) :
    ∃ r', repeatOp vs.length (readSigned w) (u.readTo p r) =
      .ok vs (u.readTo (p + (vs.flatMap (signedBits w)).length) r') :=
  repeatOp_at vs
    (fun v hm p r hc h => ⟨_, by simpa using readSigned_at (r := r) hu hw (hv v hm) hc (by simpa using h)⟩) hc h

end

end Sys2Proof.Machine
end

