-- ==== Sys2Proof/Laws/Vlu.lean ====
section
/-! SUPPORT. Variable-length integers: what `ReadVLU` does where the stream carries one, and where it carries none. -/

namespace Sys2Proof.Machine

/-- The lead byte as a number. -/
def vluLead (c v : Nat) : Nat := if c = 0 then v else 256 - 2 ^ (7 - c) + v >>> (6 * c)

theorem vluHead_length {c : Nat} (hc : c ≤ 6) (v : Nat) : (vluHead c v).length = 8 := by
  simp only [vluHead]
  split
  · simp
  · simp; omega

@[simp] theorem vluTail_length (c v : Nat) : (vluTail c v).length = 8 * c := by
  induction c with
  | zero => rfl
  | succ c ih => simp [vluTail, ih]; omega

theorem vluBits_length {c : Nat} (hc : c ≤ 6) (v : Nat) : (vluBits c v).length = 8 * (c + 1) := by
  simp [vluBits, vluHead_length hc]; omega

/-- The lead byte's bits, by form. -/
theorem vluHead_field {c v : Nat} (hc : c ≤ 6) (hv : v < 2 ^ vluValueBits c) :
    vluHead c v = fieldBits 8 (vluLead c v) ∧ vluLead c v < 2 ^ 8 := by
  have h1 : ∀ x, x < 32 → List.replicate 2 true ++ false :: fieldBits 5 x = fieldBits 8 (192 + x) := by decide
  have h2 : ∀ x, x < 16 → List.replicate 3 true ++ false :: fieldBits 4 x = fieldBits 8 (224 + x) := by decide
  have h3 : ∀ x, x < 8 → List.replicate 4 true ++ false :: fieldBits 3 x = fieldBits 8 (240 + x) := by decide
  have h4 : ∀ x, x < 4 → List.replicate 5 true ++ false :: fieldBits 2 x = fieldBits 8 (248 + x) := by decide
  have h5 : ∀ x, x < 2 → List.replicate 6 true ++ false :: fieldBits 1 x = fieldBits 8 (252 + x) := by decide
  have h0 : ∀ x, x < 128 → false :: fieldBits 7 x = fieldBits 8 x := by decide
  simp only [vluValueBits] at hv
  obtain rfl | rfl | rfl | rfl | rfl | rfl | rfl : c = 0 ∨ c = 1 ∨ c = 2 ∨ c = 3 ∨ c = 4 ∨ c = 5 ∨ c = 6 := by omega
  all_goals simp only [vluHead, vluLead, Nat.shiftRight_eq_div_pow] at *; norm_num at hv ⊢
  · exact ⟨h0 v hv, by omega⟩
  · exact ⟨h1 _ (by omega), by omega⟩
  · exact ⟨h2 _ (by omega), by omega⟩
  · exact ⟨h3 _ (by omega), by omega⟩
  · exact ⟨h4 _ (by omega), by omega⟩
  · exact ⟨h5 _ (by omega), by omega⟩
  · have : v / 68719476736 = 0 := by omega
    rw [this]; decide

/-- The tests of R142 recognise each form of R101. -/
theorem vluLeadClass_lead {c v : Nat} {wide : Bool} (hc : c ≤ if wide then 6 else 5) (hv : v < 2 ^ vluValueBits c) :
    vluLeadClass wide (vluLead c v) = some (v >>> (6 * c), c) := by
  have hc6 : c ≤ 6 := by split at hc <;> omega
  simp only [vluValueBits] at hv
  have k1 : ∀ x, x < 32 → vluLeadClass wide (192 + x) = some (x, 1) := by cases wide <;> decide
  have k2 : ∀ x, x < 16 → vluLeadClass wide (224 + x) = some (x, 2) := by cases wide <;> decide
  have k3 : ∀ x, x < 8 → vluLeadClass wide (240 + x) = some (x, 3) := by cases wide <;> decide
  have k4 : ∀ x, x < 4 → vluLeadClass wide (248 + x) = some (x, 4) := by cases wide <;> decide
  have k5 : ∀ x, x < 2 → vluLeadClass wide (252 + x) = some (x, 5) := by cases wide <;> decide
  have k0 : ∀ x, x < 128 → vluLeadClass wide x = some (x, 0) := by cases wide <;> decide
  obtain rfl | rfl | rfl | rfl | rfl | rfl | rfl : c = 0 ∨ c = 1 ∨ c = 2 ∨ c = 3 ∨ c = 4 ∨ c = 5 ∨ c = 6 := by omega
  all_goals simp only [vluLead, Nat.shiftRight_eq_div_pow] at *; norm_num at hv ⊢
  · exact k0 v hv
  · exact k1 _ (by omega)
  · exact k2 _ (by omega)
  · exact k3 _ (by omega)
  · exact k4 _ (by omega)
  · exact k5 _ (by omega)
  · have h0 : v / 68719476736 = 0 := by omega
    have hw : wide = true := by cases wide <;> simp_all
    subst hw
    rw [h0]; decide

section
variable {u : State} {p : Nat} {r : Word64}

/-- The continuation loop over carried continuation bytes. -/
theorem vluContinue_at {c v : Nat} (hu : u.curValid = true) (hq : u.seq.vlu = v >>> (6 * c))
    (hcar : carries u.input p (vluTail c v) = true) (h : u.admissible (p + 8 * c)) :
    ∃ r', vluContinue c (u.readTo p r) =
      .ok true ((u.mapSeq fun q => { q with vlu := v }).readTo (p + 8 * c) r') := by
  induction c generalizing u p r with
  | zero =>
    refine ⟨r, ?_⟩
    simp only [Nat.mul_zero, Nat.shiftRight_zero] at hq
    have : (u.mapSeq fun q => { q with vlu := v }) = u := by simp only [State.mapSeq, ← hq]
    rw [this]
    rfl
  | succ c ih =>
    have hx : ∀ x, x < 64 → true :: false :: fieldBits 6 x = fieldBits 8 (128 + x) := by decide
    simp only [vluTail, carries_append, Bool.and_eq_true] at hcar
    have hlt : (v >>> (6 * c)) % 64 < 64 := Nat.mod_lt _ (by omega)
    have hb : carries u.input p (fieldBits 8 (128 + (v >>> (6 * c)) % 64)) = true := by
      rw [← hx _ hlt, show v >>> (6 * c) % 64 = v >>> (6 * c) % 2 ^ 6 from rfl, fieldBits_mod]; exact hcar.1
    have ha : u.admissible (p + 8) := admissible_mono h (by omega)
    simp only [vluContinue]
    rw [bind_ok (readBits_at hu (by omega) (by omega) hb ha)]
    have hd : (128 + (v >>> (6 * c)) % 64) / 2 ^ 6 = 0b10 := by omega
    have hm : (128 + (v >>> (6 * c)) % 64) % 2 ^ 6 = (v >>> (6 * c)) % 64 := by omega
    have hval : (u.seq.vlu <<< 6) ||| (v >>> (6 * c)) % 64 = v >>> (6 * c) := by
      rw [hq, Nat.shiftLeft_eq, Nat.mul_comm, ← Nat.two_pow_add_eq_or_of_lt (by omega)]
      have : v >>> (6 * (c + 1)) = (v >>> (6 * c)) / 2 ^ 6 := by
        rw [Nat.mul_add, Nat.shiftRight_add, Nat.shiftRight_eq_div_pow (v >>> (6 * c))]
      rw [this]; omega
    rw [if_pos hd, hm]
    simp only [vluAppend, updateSeq, update_bind, readTo_mapSeq]
    have h2 := hcar.2
    simp only [List.length_cons, fieldBits_length] at h2
    obtain ⟨r', hr⟩ := ih (u := u.mapSeq fun q => { q with vlu := (q.vlu <<< 6) ||| (v >>> (6 * c)) % 64 })
      (p := p + 8) (r := BitVec.ofNat 64 (128 + v >>> (6 * c) % 64)) hu hval h2
      (by rw [show p + 8 + 8 * c = p + 8 * (c + 1) by omega]; exact h)
    refine ⟨r', ?_⟩
    rw [hr, show p + 8 + 8 * c = p + 8 * (c + 1) by omega]
    rfl

/-- After a lead byte, over carried continuation bytes: the value (R142). -/
theorem vluAfterLead_at {c v : Nat} (hu : u.curValid = true)
    (hcar : carries u.input p (vluTail c v) = true) (h : u.admissible (p + 8 * c)) :
    vluAfterLead (v >>> (6 * c)) c (u.readTo p r) =
      .ok (some v) (((u.mapSeq fun q => { q with vlu := v }).withOk true).readTo (p + 8 * c) (BitVec.ofNat 64 v)) := by
  simp only [vluAfterLead, updateSeq, update_bind, readTo_mapSeq]
  obtain ⟨r', hr⟩ := vluContinue_at (c := c) (v := v) (r := r)
    (u := u.mapSeq fun q => { q with vlu := v >>> (6 * c) }) hu rfl hcar h
  rw [bind_ok hr]
  rfl

/-- `ReadVLU` where the stream carries an integer in a form it reads (R142). -/
theorem readVlu_at {c v : Nat} {wide : Bool} (hu : u.curValid = true) (hc : c ≤ if wide then 6 else 5)
    (hv : v < 2 ^ vluValueBits c) (hcar : carries u.input p (vluBits c v) = true)
    (h : u.admissible (p + 8 * (c + 1))) :
    readVlu wide (u.readTo p r) =
      .ok (some v) (((u.mapSeq fun q => { q with vlu := v, vluWide := wide }).withOk true).readTo (p + 8 * (c + 1))
        (BitVec.ofNat 64 v)) := by
  have hc6 : c ≤ 6 := by split at hc <;> omega
  obtain ⟨hf, hlt⟩ := vluHead_field hc6 hv
  simp only [vluBits, carries_append, Bool.and_eq_true] at hcar
  have h2 := hcar.2
  rw [vluHead_length hc6] at h2
  rw [hf] at hcar
  have ha : u.admissible (p + 8) := admissible_mono h (by omega)
  have he : p + 8 + 8 * c = p + 8 * (c + 1) := by omega
  simp only [readVlu, updateSeq, update_bind, readTo_mapSeq]
  rw [bind_ok (readBits_at (u := u.mapSeq fun q => { q with vluWide := wide }) hu (by omega) hlt hcar.1 ha),
    vluLeadClass_lead hc hv]
  simp only
  rw [vluAfterLead_at (u := u.mapSeq fun q => { q with vluWide := wide }) (c := c) (v := v) hu h2 (by rw [he]; exact h),
    he]
  rfl

/-- The `fail` of R142. -/
theorem vluFail_apply (s : State) :
    vluFail s = .ok none ((s.withOk false).withRes (vluSentinel s.seq.vluWide)) := rfl

/-- A lead byte that begins no form fails after one byte (R142). -/
theorem readVlu_badLead {b : Nat} {wide : Bool} (hu : u.curValid = true) (hb : b < 256)
    (hl : vluLeadClass wide b = none) (hcar : carries u.input p (fieldBits 8 b) = true)
    (h : u.admissible (p + 8)) :
    readVlu wide (u.readTo p r) =
      .ok none (((u.mapSeq fun q => { q with vluWide := wide }).withOk false).readTo (p + 8) (vluSentinel wide)) := by
  simp only [readVlu, updateSeq, update_bind, readTo_mapSeq]
  rw [bind_ok (readBits_at (u := u.mapSeq fun q => { q with vluWide := wide }) hu (by omega) hb hcar h), hl]
  rfl

end

end Sys2Proof.Machine
end

