-- ==== Sys2Proof/Laws/FrameHeader.lean ====
section
/-! SUPPORT. The header parse where the stream carries a header (42_frame_header.md). -/

namespace Sys2Proof.Machine

/-! ### The word -/

theorem headerWord_fields (blk : Bool) (bsc src chn : BitVec 4) (bpc : BitVec 3) :
    let w := BitVec.ofNat 32 (encode (.frameHeaderWord blk bsc src chn bpc))
    w.extractLsb' 18 14 = 0x3FFE ∧ w.getLsbD 16 = blk ∧ w.extractLsb' 12 4 = bsc ∧ w.extractLsb' 8 4 = src
      ∧ w.extractLsb' 4 4 = chn ∧ w.extractLsb' 1 3 = bpc ∧ w.getLsbD 17 = false ∧ w.getLsbD 0 = false := by
  intro w
  have hw : w = (0x3FFE : BitVec 14) ++ (0 : BitVec 1) ++ BitVec.ofBool blk ++ bsc ++ src ++ chn ++ bpc
      ++ (0 : BitVec 1) := by
    simp only [w, encode, BitVec.ofNat_toNat]
    rfl
  rw [hw]
  refine ⟨?_, ?_, ?_, ?_, ?_, ?_, ?_, ?_⟩
  all_goals first
    | (apply BitVec.eq_of_getLsbD_eq
       intro i hi
       simp only [BitVec.getLsbD_extractLsb', BitVec.getLsbD_append]
       interval_cases i <;> simp)
    | (simp only [BitVec.getLsbD_append]
       simp)

theorem sampleRateBits_of_lt {n : Nat} (h : n < 2 ^ 20) : sampleRateBits n = BitVec.ofNat 20 n := if_pos h

theorem bpsBits_of_lt {n : Nat} (h : n < 2 ^ 6) : bpsBits n = BitVec.ofNat 6 n := if_pos h

/-- What steps 2 to 5 leave in HDR (R193 to R197). -/
def headerWordRecord (si : StreamInfo) (bsc src chn : BitVec 4) (bpc : BitVec 3) (h : Header) : Header :=
  { h with
    blocksize := match blocksizeOf bsc with | .value n => BitVec.ofNat 17 n | _ => h.blocksize
    sampleRate := match sampleRateOf si src with | .value n => sampleRateBits n | _ => h.sampleRate
    channels := BitVec.ofNat 4 ((channelsOf chn).getD (0, .independent)).1
    assignment := ((channelsOf chn).getD (0, .independent)).2
    bps := match bpsOf si bpc with | .value n => bpsBits n | _ => h.bps }

theorem bpsOf_not_hint (si : StreamInfo) (bpc : BitVec 3) : bpsOf si bpc ≠ .hint := by
  simp only [bpsOf]
  split <;> simp

/-- Steps 2 to 5 on codes none of which is reserved. -/
theorem applyHeaderWord_ok {blk : Bool} {bsc src chn : BitVec 4} {bpc : BitVec 3} {s : State}
    (h1 : blocksizeOf bsc ≠ .reserved) (h2 : sampleRateOf s.streamInfo src ≠ .reserved)
    (h3 : (channelsOf chn).isSome = true) (h4 : bpsOf s.streamInfo bpc ≠ .reserved) :
    applyHeaderWord blk bsc src chn bpc s =
      .ok () ((s.mapSeq fun q => { q with blk := blk, bsc := bsc, src := src }).mapHdr
        (headerWordRecord s.streamInfo bsc src chn bpc)) := by
  obtain ⟨⟨n, a⟩, hc⟩ := Option.isSome_iff_exists.mp h3
  simp only [applyHeaderWord, updateSeq, update_bind, applyBlocksize, applySampleRate, applyChannels, applyBps, hc]
  cases hb : blocksizeOf bsc with
  | reserved => exact absurd hb h1
  | _ =>
    cases hr : sampleRateOf s.streamInfo src with
    | reserved => exact absurd hr h2
    | _ =>
      cases hp : bpsOf s.streamInfo bpc with
      | reserved => exact absurd hp h4
      | hint => exact absurd hp (bpsOf_not_hint _ _)
      | value b =>
        simp only [bind_apply, view_apply, mapSeq_streamInfo, updateHdr, pure_apply, update_apply, setChannels,
          mapHdr_streamInfo, hr, hp]
        simp only [State.mapHdr, headerWordRecord, hb, hr, hp, hc, Option.getD_some]

/-- Steps 1 to 6 on an encoded word (R191 to R198). -/
theorem headerWord_ok {blk : Bool} {bsc src chn : BitVec 4} {bpc : BitVec 3} {s : State}
    (h1 : blocksizeOf bsc ≠ .reserved) (h2 : sampleRateOf s.streamInfo src ≠ .reserved)
    (h3 : (channelsOf chn).isSome = true) (h4 : bpsOf s.streamInfo bpc ≠ .reserved) :
    headerWord (BitVec.ofNat 32 (encode (.frameHeaderWord blk bsc src chn bpc))) s =
      .ok () ((s.mapSeq fun q => { q with blk := blk, bsc := bsc, src := src }).mapHdr
        (headerWordRecord s.streamInfo bsc src chn bpc)) := by
  obtain ⟨e1, e2, e3, e4, e5, e6, e7, e8⟩ := headerWord_fields blk bsc src chn bpc
  simp only [headerWord]
  rw [if_neg (not_not.mpr e1), e2, e3, e4, e5, e6, bind_ok (applyHeaderWord_ok h1 h2 h3 h4), e7, e8]
  rfl

/-! ### The fields that follow -/

section
variable {u : State} {p : Nat} {r : Word64}

/-- Step 7 (R199). -/
theorem headerNumber_at {c v : Nat} (hu : u.curValid = true)
    (hc : c ≤ if variableBlocksize u.streamInfo u.seq.blk then 6 else 5) (hv : v < 2 ^ vluValueBits c)
    (hcar : carries u.input p (vluBits c v) = true) (h : u.admissible (p + 8 * (c + 1))) :
    ∃ g, (∀ q, (g q).start = q.start ∧ (g q).bsc = q.bsc ∧ (g q).src = q.src) ∧ headerNumber (u.readTo p r) =
      .ok () ((((u.mapSeq g).withOk true).mapHdr fun x =>
        { x with
          numberKind := if variableBlocksize u.streamInfo u.seq.blk then .sampleNumber else .frameNumber
          number := BitVec.ofNat 36 v }).readTo (p + 8 * (c + 1)) (BitVec.ofNat 64 v)) := by
  refine ⟨fun q => { q with vlu := v, vluWide := variableBlocksize u.streamInfo u.seq.blk }, fun q => ⟨rfl, rfl, rfl⟩, ?_⟩
  simp only [headerNumber, view_bind, readTo_streamInfo, readTo_seq]
  rw [bind_ok (readVlu_at hu hc hv hcar h)]
  rfl

/-- Step 8 (R200). -/
theorem headerBlocksizeHint_at {lay : HeaderLayout} (hu : u.curValid = true) (hb : u.seq.bsc = lay.bsc)
    (hv : lay.blocksizeField < 2 ^ lay.blocksizeWidth)
    (hcar : carries u.input p (fieldBits lay.blocksizeWidth lay.blocksizeField) = true)
    (h : u.admissible (p + lay.blocksizeWidth)) :
    ∃ r', headerBlocksizeHint (u.readTo p r) =
      .ok () ((u.mapHdr fun x =>
        { x with blocksize := if lay.blocksizeWidth = 0 then x.blocksize else BitVec.ofNat 17 (lay.blocksizeField + 1) }).readTo
          (p + lay.blocksizeWidth) r') := by
  simp only [headerBlocksizeHint, view_bind, readTo_seq, hb]
  simp only [HeaderLayout.blocksizeWidth] at *
  by_cases h6 : lay.bsc = 6
  · simp only [h6, if_true] at *
    refine ⟨BitVec.ofNat 64 lay.blocksizeField, ?_⟩
    rw [bind_ok (readBits_at hu (by omega) hv hcar h)]
    rfl
  · by_cases h7 : lay.bsc = 7
    · simp only [h7, if_true, if_neg (by decide : ¬ (7 : BitVec 4) = 6)] at *
      refine ⟨BitVec.ofNat 64 lay.blocksizeField, ?_⟩
      rw [bind_ok (readBits_at hu (by omega) hv hcar h)]
      rfl
    · simp only [if_neg h6, if_neg h7, if_true]
      exact ⟨r, rfl⟩

/-- Step 9 (R201). -/
theorem headerRateHint_at {lay : HeaderLayout} (hu : u.curValid = true) (hb : u.seq.src = lay.src)
    (hv : lay.rateField < 2 ^ lay.rateWidth)
    (hcar : carries u.input p (fieldBits lay.rateWidth lay.rateField) = true)
    (h : u.admissible (p + lay.rateWidth)) :
    ∃ r', headerRateHint (u.readTo p r) =
      .ok () ((u.mapHdr fun x =>
        { x with sampleRate :=
            if lay.rateWidth = 0 then x.sampleRate
            else if lay.src = 12 then BitVec.ofNat 20 (lay.rateField * 1000)
            else if lay.src = 13 then BitVec.ofNat 20 lay.rateField
            else BitVec.ofNat 20 (lay.rateField * 10) }).readTo (p + lay.rateWidth) r') := by
  simp only [headerRateHint, view_bind, readTo_seq, hb]
  simp only [HeaderLayout.rateWidth] at *
  by_cases h12 : lay.src = 12
  · simp only [h12, if_true] at *
    refine ⟨BitVec.ofNat 64 lay.rateField, ?_⟩
    rw [bind_ok (readBits_at hu (by omega) hv hcar h)]
    rfl
  · by_cases h13 : lay.src = 13
    · simp only [h13, if_true, true_or, if_neg (by decide : ¬ (13 : BitVec 4) = 12)] at *
      refine ⟨BitVec.ofNat 64 lay.rateField, ?_⟩
      rw [bind_ok (readBits_at hu (by omega) hv hcar h)]
      rfl
    · by_cases h14 : lay.src = 14
      · simp only [h14, if_true, or_true, if_neg (by decide : ¬ (14 : BitVec 4) = 12),
          if_neg (by decide : ¬ (14 : BitVec 4) = 13)] at *
        refine ⟨BitVec.ofNat 64 lay.rateField, ?_⟩
        rw [bind_ok (readBits_at hu (by omega) hv hcar h)]
        rfl
      · simp only [if_neg h12, if_neg h13, if_neg h14, if_neg (fun e => e.elim h13 h14 : ¬ (lay.src = 13 ∨ lay.src = 14)),
          if_true]
        exact ⟨r, rfl⟩

/-- Step 10 and the end of the parse (R203). -/
theorem headerChecksum_at {crc : BitVec 8} (hn : p / 8 - u.seq.start < 32)
    (hcrc : u.params.checkCrc8 = true → u.seq.start + (p / 8 - u.seq.start - 1) ≤ u.params.cap
      ∧ crc8Of (bytesAt u.input u.seq.start (p / 8 - u.seq.start - 1)) = crc) :
    headerChecksum crc (u.readTo p (crc.setWidth 64)) =
      .ok () (((u.mapHdr fun x => { x with crc8 := crc, length := BitVec.ofNat 5 (p / 8 - u.seq.start), valid := true }).withFState
        .headerParsed).readTo p (crc.setWidth 64)) := by
  simp only [headerChecksum, view_bind, updateHdr, update_bind, readTo_byte, readTo_seq, readTo_mapHdr]
  rcases Bool.eq_false_or_eq_true u.params.checkCrc8 with hk | hk
  · obtain ⟨hcap, hval⟩ := hcrc hk
    rw [if_pos (by exact hk)]
    have h1 := crc8Op_ok (s := (u.mapHdr fun x => { x with crc8 := crc, length := BitVec.ofNat 5 (p / 8 - u.seq.start) }).readTo p
      (crc.setWidth 64)) (a := u.seq.start) (b := p / 8 - u.seq.start - 1) hcap
    simp only [readTo_input, mapHdr_input, hval] at h1
    simp only [view_bind, readTo_seq, mapHdr_seq, readTo_hdr, mapHdr_hdr, BitVec.toNat_ofNat, Nat.mod_eq_of_lt hn]
    rw [bind_ok h1, if_neg (by simp)]
    rfl
  · rw [if_neg (by rw [readTo_params, mapHdr_params, hk]; exact Bool.false_ne_true)]
    rfl

theorem HeaderLayout.blocksizeWidth_zero (lay : HeaderLayout) :
    lay.blocksizeWidth = 0 ↔ blocksizeOf lay.bsc ≠ .hint := by
  have h : ∀ bsc : BitVec 4,
      (if bsc = 6 then 8 else if bsc = 7 then 16 else 0) = 0 ↔ blocksizeOf bsc ≠ .hint := by decide
  exact h lay.bsc

theorem HeaderLayout.rateWidth_zero (si : StreamInfo) (lay : HeaderLayout) :
    lay.rateWidth = 0 ↔ sampleRateOf si lay.src ≠ .hint := by
  have h : ∀ src : BitVec 4,
      (if src = 12 then 8 else if src = 13 ∨ src = 14 then 16 else 0) = 0 ↔ sampleRateOf si src ≠ .hint := by
    rintro ⟨src⟩
    fin_cases src <;> simp [sampleRateOf]
  exact h lay.src

/-- The header record of a layout is what the steps write, one after another. -/
theorem HeaderLayout.record_eq (si : StreamInfo) (lay : HeaderLayout) (crc : BitVec 8) (h : Header)
    (hp : ∃ b, bpsOf si lay.bpc = .value b)
    (h1 : blocksizeOf lay.bsc ≠ .reserved) (h2 : sampleRateOf si lay.src ≠ .reserved) :
    lay.record si crc =
      { headerWordRecord si lay.bsc lay.src lay.chn lay.bpc h with
        valid := true
        blocksize := if lay.blocksizeWidth = 0 then (headerWordRecord si lay.bsc lay.src lay.chn lay.bpc h).blocksize
          else BitVec.ofNat 17 (lay.blocksizeField + 1)
        sampleRate :=
          if lay.rateWidth = 0 then (headerWordRecord si lay.bsc lay.src lay.chn lay.bpc h).sampleRate
          else if lay.src = 12 then BitVec.ofNat 20 (lay.rateField * 1000)
          else if lay.src = 13 then BitVec.ofNat 20 lay.rateField
          else BitVec.ofNat 20 (lay.rateField * 10)
        numberKind := if variableBlocksize si lay.blk then .sampleNumber else .frameNumber
        number := BitVec.ofNat 36 lay.number
        crc8 := crc
        length := BitVec.ofNat 5 lay.length } := by
  obtain ⟨b, hb⟩ := hp
  have hbw := lay.blocksizeWidth_zero
  have hrw := lay.rateWidth_zero si
  simp only [HeaderLayout.record, headerWordRecord, hb, hbw, hrw]
  cases h3 : blocksizeOf lay.bsc with
  | reserved => exact absurd h3 h1
  | _ =>
    cases h4 : sampleRateOf si lay.src with
    | reserved => exact absurd h4 h2
    | _ => simp [apply_ite (BitVec.ofNat 20)]

/-! ### The parse -/

theorem HeaderLayout.bits_length (lay : HeaderLayout) (hc : lay.cont ≤ 6) :
    lay.bits.length = 32 + 8 * (lay.cont + 1) + lay.blocksizeWidth + lay.rateWidth := by
  simp [HeaderLayout.bits, vluBits_length hc, Nat.add_assoc]

theorem HeaderLayout.length_eq (lay : HeaderLayout) (hc : lay.cont ≤ 6) :
    8 * lay.length = lay.bits.length + 8 := by
  have h := lay.bits_length hc
  have h1 : lay.blocksizeWidth % 8 = 0 := by
    simp only [HeaderLayout.blocksizeWidth]; split <;> [rfl; (split <;> rfl)]
  have h2 : lay.rateWidth % 8 = 0 := by
    simp only [HeaderLayout.rateWidth]; split <;> [rfl; (split <;> rfl)]
  simp only [HeaderLayout.length]
  omega

/-- A header has at most 16 bytes (R26). -/
theorem HeaderLayout.length_le (lay : HeaderLayout) (hc : lay.cont ≤ 6) : lay.length ≤ 16 := by
  have h := lay.bits_length hc
  have h1 : lay.blocksizeWidth ≤ 16 := by
    simp only [HeaderLayout.blocksizeWidth]; split <;> [omega; (split <;> omega)]
  have h2 : lay.rateWidth ≤ 16 := by
    simp only [HeaderLayout.rateWidth]; split <;> [omega; (split <;> omega)]
  simp only [HeaderLayout.length]
  omega

/-- `parse_frame_header` where the stream carries a header and its stored checksum at a byte boundary (R190 to R203). -/
theorem parseHeader_at {lay : HeaderLayout} {crc : BitVec 8} {a : Nat} (hu : u.curValid = true) (hp : p = 8 * a)
    (hl : lay.legal u.streamInfo = true)
    (hc : carries u.input p (lay.bits ++ fieldBits 8 crc.toNat) = true) (h : u.admissible (p + 8 * lay.length))
    (hcrc : u.params.checkCrc8 = true → crc8Of (bytesAt u.input a (lay.length - 1)) = crc) :
    ∃ g, (∀ q, (g q).start = a) ∧ parseHeader (u.readTo p r) =
      .ok () (((((u.mapHdr fun _ => lay.record u.streamInfo crc).mapSeq g).withOk true).withFState
        .headerParsed).readTo (p + 8 * lay.length) (crc.setWidth 64)) := by
  simp only [HeaderLayout.legal, Bool.and_eq_true, decide_eq_true_eq, bne_iff_ne] at hl
  obtain ⟨⟨⟨⟨⟨⟨⟨hl1, hl2⟩, hl3⟩, hl4⟩, hl5⟩, hl6⟩, hl7⟩, hl8⟩ := hl
  have hc6 : lay.cont ≤ 6 := by split at hl5 <;> omega
  have hlen := lay.length_eq hc6
  have hbl := lay.bits_length hc6
  simp only [HeaderLayout.bits, carries_append, Bool.and_eq_true, fieldBits_length, List.length_append,
    vluBits_length hc6] at hc
  obtain ⟨⟨⟨⟨hw, hv⟩, hbf⟩, hrf⟩, hcr⟩ := hc
  have hadm : ∀ n, n ≤ 8 * lay.length → u.admissible (p + n) := fun n hn => admissible_mono h (by omega)
  have hw32 : encode (.frameHeaderWord lay.blk lay.bsc lay.src lay.chn lay.bpc) < 2 ^ 32 := by
    simp only [encode]; exact BitVec.isLt _
  have hadm : ∀ {v : State} {n}, v.params = u.params → n ≤ p + 8 * lay.length → v.admissible n := fun {v n} hv hn => by
    simp only [State.admissible, hv] at h ⊢; omega
  have e0 : headerBegin (u.readTo p r) =
      .ok () (((u.mapHdr fun x => { x with valid := false }).mapSeq fun q => { q with start := a }).readTo p r) := by
    have : p / 8 = a := by omega
    simp only [headerBegin, setHdrValid, updateHdr, updateSeq, update_bind, view_bind, readTo_mapHdr, readTo_byte,
      update_apply, readTo_mapSeq, this]
  obtain ⟨u0, hu0⟩ : ∃ x, x = (u.mapHdr fun x => { x with valid := false }).mapSeq fun q => { q with start := a } :=
    ⟨_, rfl⟩
  have k0 : u0.curValid = true ∧ u0.input = u.input ∧ u0.params = u.params ∧ u0.streamInfo = u.streamInfo := by
    simp [hu0, hu]
  have e1 := readBits_at (u := u0) (p := p) (r := r) k0.1 (by omega) hw32 (by rw [k0.2.1]; exact hw)
    (hadm k0.2.2.1 (by omega))
  have e2 := headerWord_ok (blk := lay.blk) (chn := lay.chn) (bpc := lay.bpc)
    (s := u0.readTo (p + 32) (BitVec.ofNat 64 (encode (.frameHeaderWord lay.blk lay.bsc lay.src lay.chn lay.bpc))))
    hl1 (by rw [readTo_streamInfo, k0.2.2.2]; exact hl2) hl3 (by rw [readTo_streamInfo, k0.2.2.2]; exact hl4)
  simp only [readTo_mapSeq, readTo_mapHdr, readTo_streamInfo, k0.2.2.2] at e2
  obtain ⟨u1, hu1⟩ : ∃ x, x = (u0.mapSeq fun q => { q with blk := lay.blk, bsc := lay.bsc, src := lay.src }).mapHdr
    (headerWordRecord u.streamInfo lay.bsc lay.src lay.chn lay.bpc) := ⟨_, rfl⟩
  have k1 : u1.curValid = true ∧ u1.input = u.input ∧ u1.params = u.params ∧ u1.streamInfo = u.streamInfo := by
    simp [hu1, k0]
  have q1 : u1.seq.start = a ∧ u1.seq.blk = lay.blk ∧ u1.seq.bsc = lay.bsc ∧ u1.seq.src = lay.src := by
    simp [hu1, hu0]
  obtain ⟨g, hg, e3⟩ := headerNumber_at (u := u1) (p := p + 32)
    (r := BitVec.ofNat 64 (encode (.frameHeaderWord lay.blk lay.bsc lay.src lay.chn lay.bpc)))
    (c := lay.cont) (v := lay.number) k1.1 (by rw [k1.2.2.2, q1.2.1]; exact hl5) hl6 (by rw [k1.2.1]; exact hv)
    (hadm k1.2.2.1 (by omega))
  rw [k1.2.2.2, q1.2.1] at e3
  obtain ⟨u2, hu2⟩ : ∃ x, x = ((u1.mapSeq g).withOk true).mapHdr fun x =>
    { x with
      numberKind := if variableBlocksize u.streamInfo lay.blk then .sampleNumber else .frameNumber
      number := BitVec.ofNat 36 lay.number } := ⟨_, rfl⟩
  rw [← hu2] at e3
  have k2 : u2.curValid = true ∧ u2.input = u.input ∧ u2.params = u.params := by
    simp [hu2, k1]
  have q2 : u2.seq.start = a ∧ u2.seq.bsc = lay.bsc ∧ u2.seq.src = lay.src := by
    simp [hu2, hg u1.seq, q1]
  obtain ⟨r4, e4⟩ := headerBlocksizeHint_at (u := u2) (p := p + 32 + 8 * (lay.cont + 1)) (r := BitVec.ofNat 64 lay.number)
    (lay := lay) k2.1 q2.2.1 hl7 (by rw [k2.2.1, Nat.add_assoc]; exact hbf) (hadm k2.2.2 (by omega))
  obtain ⟨u3, hu3⟩ : ∃ x, x = u2.mapHdr fun x =>
    { x with blocksize := if lay.blocksizeWidth = 0 then x.blocksize else BitVec.ofNat 17 (lay.blocksizeField + 1) } := ⟨_, rfl⟩
  rw [← hu3] at e4
  have k3 : u3.curValid = true ∧ u3.input = u.input ∧ u3.params = u.params ∧ u3.seq = u2.seq := by
    simp [hu3, k2]
  obtain ⟨r5, e5⟩ := headerRateHint_at (u := u3) (p := p + 32 + 8 * (lay.cont + 1) + lay.blocksizeWidth) (r := r4)
    (lay := lay) k3.1 (by rw [k3.2.2.2]; exact q2.2.2) hl8
    (by rw [k3.2.1, Nat.add_assoc p, Nat.add_assoc p]; exact hrf) (hadm k3.2.2.1 (by omega))
  obtain ⟨u4, hu4⟩ : ∃ x, x = u3.mapHdr fun x =>
    { x with sampleRate :=
        if lay.rateWidth = 0 then x.sampleRate
        else if lay.src = 12 then BitVec.ofNat 20 (lay.rateField * 1000)
        else if lay.src = 13 then BitVec.ofNat 20 lay.rateField
        else BitVec.ofNat 20 (lay.rateField * 10) } := ⟨_, rfl⟩
  rw [← hu4] at e5
  have k4 : u4.curValid = true ∧ u4.input = u.input ∧ u4.params = u.params ∧ u4.seq = u2.seq := by
    simp [hu4, k3]
  have e6 := readBits_at (u := u4) (p := p + 32 + 8 * (lay.cont + 1) + lay.blocksizeWidth + lay.rateWidth) (r := r5)
    (n := 8) (v := crc.toNat) k4.1 (by omega) crc.isLt
    (by rw [k4.2.1, Nat.add_assoc p, Nat.add_assoc p, Nat.add_assoc p]; exact hcr) (hadm k4.2.2.1 (by omega))
  have hend : p + 32 + 8 * (lay.cont + 1) + lay.blocksizeWidth + lay.rateWidth + 8 = p + 8 * lay.length := by omega
  rw [hend] at e6
  have hstart : u4.seq.start = a := by rw [k4.2.2.2]; exact q2.1
  have hdiv : (p + 8 * lay.length) / 8 - a = lay.length := by omega
  have e7 := headerChecksum_at (u := u4) (p := p + 8 * lay.length) (crc := crc)
    (by rw [hstart, hdiv]; have := lay.length_le hc6; omega) (fun hk => by
    rw [hstart, hdiv, k4.2.1, k4.2.2.1]
    rw [k4.2.2.1] at hk
    refine ⟨?_, hcrc hk⟩
    simp only [State.admissible] at h
    omega)
  rw [hstart, hdiv] at e7
  obtain ⟨n, hbps⟩ : ∃ b, bpsOf u.streamInfo lay.bpc = .value b := by
    cases hb : bpsOf u.streamInfo lay.bpc with
    | reserved => exact absurd hb hl4
    | hint => exact absurd hb (bpsOf_not_hint _ _)
    | value b => exact ⟨b, rfl⟩
  have hrec := HeaderLayout.record_eq u.streamInfo lay crc { u.hdr with valid := false } ⟨n, hbps⟩ hl1 hl2
  refine ⟨fun q => g { q with start := a, blk := lay.blk, bsc := lay.bsc, src := lay.src }, fun q => (hg _).1, ?_⟩
  have hcw : BitVec.ofNat 64 crc.toNat = crc.setWidth 64 := by
    apply BitVec.eq_of_toNat_eq; simp
  have hchain : parseHeader (u.readTo p r) =
      rejecting (headerChecksum crc) (u4.readTo (p + 8 * lay.length) (crc.setWidth 64)) := by
    simp only [parseHeader, rejecting]
    rw [bind_ok e0, ← hu0, bind_ok e1, bind_ok e2, ← hu1, bind_ok e3, bind_ok e4, bind_ok e5, bind_ok e6,
      BitVec.ofNat_toNat, BitVec.setWidth_eq, hcw]
  rw [hchain, rejecting_ok e7]
  congr 2
  simp only [hu4, hu3, hu2, hu1, hu0, hrec, State.mapHdr, State.mapSeq, State.withOk, State.withFState]

end

end Sys2Proof.Machine
end

