-- ==== Sys2Proof/Laws/Samples.lean ====
section
/-! SUPPORT. CH: a write is read back, leaves every other entry and channel alone, and consecutive writes are one. -/

namespace Sys2Proof.Machine

theorem writeAt_nil (cells : List (Option Int)) (i : Nat) : writeAt cells i [] = cells := rfl

/-- A written buffer, entry by entry. -/
theorem writeAt_getD (cells : List (Option Int)) (i : Nat) (vs : List Int) (j : Nat) :
    (writeAt cells i vs).getD j none =
      if h : i ≤ j ∧ j < i + vs.length then some (vs[j - i]'(by omega)) else cells.getD j none := by
  cases vs with
  | nil => simp [writeAt_nil]
  | cons v vs =>
    simp only [writeAt, List.isEmpty_cons, Bool.false_eq_true, if_false, List.getD_eq_getElem?_getD,
      List.append_assoc]
    have hlen : (List.take i cells ++ List.replicate (i - cells.length) none).length = i := by simp; omega
    rw [← List.append_assoc]
    rcases Nat.lt_or_ge j i with hj | hj
    · rw [List.getElem?_append_left (by omega), dif_neg (by omega)]
      rcases Nat.lt_or_ge j cells.length with hc | hc
      · rw [List.getElem?_append_left (by simp; omega), List.getElem?_take, if_pos hj]
      · rw [List.getElem?_append_right (by simp; omega), List.getElem?_replicate, List.getElem?_eq_none hc]
        split <;> rfl
    · rw [List.getElem?_append_right (by omega), hlen]
      rcases Nat.lt_or_ge j (i + (v :: vs).length) with hv | hv
      · rw [dif_pos ⟨hj, hv⟩, List.getElem?_append_left (by simp at hv ⊢; omega), List.getElem?_map,
          List.getElem?_eq_getElem (by omega)]
        rfl
      · rw [dif_neg (by omega), List.getElem?_append_right (by simp at hv ⊢; omega), List.getElem?_drop]
        congr 2
        simp only [List.length_map] at *
        omega

/-- Writes side by side are one write. -/
theorem writeAt_writeAt (cells : List (Option Int)) (i : Nat) (vs ws : List Int) :
    writeAt (writeAt cells i vs) (i + vs.length) ws = writeAt cells i (vs ++ ws) := by
  cases vs with
  | nil => simp [writeAt_nil]
  | cons v vs =>
    cases ws with
    | nil => simp [writeAt_nil]
    | cons w ws =>
      have h1 : writeAt cells i (v :: vs) = (List.take i cells ++ List.replicate (i - cells.length) none
          ++ (v :: vs).map some) ++ cells.drop (i + (v :: vs).length) := rfl
      have hl : (List.take i cells ++ List.replicate (i - cells.length) none ++ (v :: vs).map some).length
          = i + (v :: vs).length := by simp; omega
      have h2 : writeAt cells i (v :: vs ++ w :: ws) = (List.take i cells ++ List.replicate (i - cells.length) none
          ++ (v :: vs).map some) ++ ((w :: ws).map some ++ cells.drop (i + (v :: vs).length + (w :: ws).length)) := by
        simp [writeAt, Nat.add_comm, Nat.add_left_comm]
      rw [h1, h2]
      generalize List.take i cells ++ List.replicate (i - cells.length) none ++ (v :: vs).map some = A at *
      rw [← hl]
      simp [writeAt, List.drop_append, Nat.sub_eq_zero_of_le]

/-! ### Channels -/

theorem write_read (f : ChannelFile) (wide : Bool) (c : Fin 8) (i : Nat) (vs : List Int) (d : Fin 8) (j : Nat) :
    (f.write c i vs).read wide d j =
      if h : d = c ∧ i ≤ j ∧ j < i + vs.length then some (vs[j - i]'(by omega)) else f.read wide d j := by
  have hb : (f.write c i vs).backgroundAt wide d j = f.backgroundAt wide d j := rfl
  by_cases hd : d = c
  · subst hd
    have hc : (f.write d i vs).cells[d] = writeAt f.cells[d] i vs := by simp [ChannelFile.write]
    simp only [ChannelFile.read, hc, hb, writeAt_getD]
    by_cases h : i ≤ j ∧ j < i + vs.length
    · rw [dif_pos h, dif_pos ⟨trivial, h⟩]
    · rw [dif_neg h, dif_neg (fun e => h e.2)]
  · have hc : (f.write c i vs).cells[d] = f.cells[d] := by
      have : c.val ≠ d.val := fun e => hd (Fin.ext e.symm)
      simp [ChannelFile.write, this]
    simp only [ChannelFile.read, hc, hb]
    rw [dif_neg (by simp [hd])]

theorem write_write (f : ChannelFile) (c : Fin 8) (i : Nat) (vs ws : List Int) :
    (f.write c i vs).write c (i + vs.length) ws = f.write c i (vs ++ ws) := by
  simp [ChannelFile.write, writeAt_writeAt]

theorem write_nil (f : ChannelFile) (c : Fin 8) (i : Nat) : f.write c i [] = f := by
  simp [ChannelFile.write, writeAt_nil]

/-- Overwriting everything written before. -/
theorem writeAt_over (cells : List (Option Int)) (i : Nat) (vs ws : List Int) (h : vs.length = ws.length) :
    writeAt (writeAt cells i vs) i ws = writeAt cells i ws := by
  apply List.ext_getElem?
  intro j
  cases vs with
  | nil => cases ws with
    | nil => rfl
    | cons w ws => simp at h
  | cons v vs =>
    cases ws with
    | nil => simp at h
    | cons w ws =>
      have hl : (List.take i cells ++ List.replicate (i - cells.length) none).length = i := by simp; omega
      have h1 : writeAt cells i (v :: vs) = (List.take i cells ++ List.replicate (i - cells.length) none)
          ++ ((v :: vs).map some ++ cells.drop (i + (v :: vs).length)) := by
        simp [writeAt]
      have h2 : writeAt cells i (w :: ws) = (List.take i cells ++ List.replicate (i - cells.length) none)
          ++ ((w :: ws).map some ++ cells.drop (i + (v :: vs).length)) := by
        rw [h]; simp [writeAt]
      rw [h1, h2]
      generalize List.take i cells ++ List.replicate (i - cells.length) none = A at *
      subst hl
      generalize hW : (w :: ws).map some = W at *
      generalize hV : (v :: vs).map some = V at *
      have hw : (w :: ws).length = V.length := by rw [← hV, List.length_map, h]
      show (List.take A.length (A ++ (V ++ _)) ++ List.replicate (A.length - (A ++ (V ++ _)).length) none
        ++ (w :: ws).map some ++ List.drop (A.length + (w :: ws).length) (A ++ (V ++ _)))[j]? = _
      rw [hW, hw]
      congr 1
      simp [List.drop_append, Nat.sub_eq_zero_of_le]

theorem write_over (f : ChannelFile) (c : Fin 8) (i : Nat) (vs ws : List Int) (h : vs.length = ws.length) :
    (f.write c i vs).write c i ws = f.write c i ws := by
  simp [ChannelFile.write, writeAt_over _ _ _ _ h]

/-! ### Reading a buffer -/

theorem readFrom_ok {back : Nat → Option Int} {cells : List (Option Int)} {i : Nat} {xs : List Int}
    (h : ∀ j (hj : j < xs.length), cells.getD j none = some xs[j]) : readFrom back cells i xs.length = .ok xs := by
  induction xs generalizing cells i with
  | nil => rfl
  | cons x xs ih =>
    have h0 := h 0 (by simp)
    have hh : cells.head?.join = some x := by
      cases cells with
      | nil => simp at h0
      | cons c cs => simpa using h0
    simp only [List.length_cons, readFrom, hh]
    rw [ih (cells := cells.tail)]
    intro j hj
    have := h (j + 1) (by simpa using hj)
    cases cells with
    | nil => simp at h0
    | cons c cs => simpa using this

/-- A buffer all of whose first `n` entries hold a value is read without a fault. -/
theorem readFrom_present {back : Nat → Option Int} {cells : List (Option Int)} {i n : Nat}
    (h : ∀ j, j < n → (match cells.getD j none with | some v => some v | none => back (i + j)).isSome = true) :
    ∃ xs, readFrom back cells i n = .ok xs ∧ xs.length = n := by
  induction n generalizing cells i with
  | zero => exact ⟨[], rfl, rfl⟩
  | succ n ih =>
    have h0 := h 0 (by omega)
    have hh : cells.getD 0 none = cells.head?.join := by cases cells <;> simp
    rw [hh, Nat.add_zero] at h0
    obtain ⟨xs, hx, hl⟩ := ih (cells := cells.tail) (i := i + 1) (by
      intro j hj
      have := h (j + 1) (by omega)
      have ht : cells.tail.getD j none = cells.getD (j + 1) none := by cases cells <;> simp
      rw [ht, Nat.add_assoc, Nat.add_comm 1 j]; exact this)
    obtain ⟨v, hv⟩ := Option.isSome_iff_exists.mp h0
    refine ⟨v :: xs, ?_, by simp [hl]⟩
    rw [readFrom]
    simp only [hx]
    split
    · next hn => exact absurd (hv.symm.trans hn) (by simp)
    · next w hw => rw [Option.some.inj (hw.symm.trans hv)]

/-- A buffer whose entry `i + m` is the first that holds no value stops there. -/
theorem readFrom_missing {back : Nat → Option Int} {cells : List (Option Int)} {i m n : Nat} (hm : m < n)
    (h : ∀ j, j < m → (match cells.getD j none with | some v => some v | none => back (i + j)).isSome = true)
    (hn : (match cells.getD m none with | some v => some v | none => back (i + m)) = none) :
    readFrom back cells i n = .error (i + m) := by
  induction n generalizing cells i m with
  | zero => omega
  | succ n ih =>
    have h0 : cells.getD 0 none = cells.head?.join := by cases cells <;> simp
    have ht : ∀ j, cells.tail.getD j none = cells.getD (j + 1) none := by intro j; cases cells <;> simp
    rw [readFrom]
    cases m with
    | zero =>
      rw [h0, Nat.add_zero] at hn
      split
      · rfl
      · next e => exact absurd (hn.symm.trans e) (by simp)
    | succ m =>
      have hv := h 0 (by omega)
      rw [h0, Nat.add_zero] at hv
      obtain ⟨v, hv⟩ := Option.isSome_iff_exists.mp hv
      have := ih (cells := cells.tail) (i := i + 1) (m := m) (by omega)
        (fun j hj => by rw [ht, Nat.add_assoc, Nat.add_comm 1 j]; exact h (j + 1) (by omega))
        (by rw [ht, Nat.add_assoc, Nat.add_comm 1 m]; exact hn)
      simp only [this]
      split
      · next e => exact absurd (hv.symm.trans e) (by simp)
      · rw [Nat.add_assoc, Nat.add_comm 1 m]

/-- Reading a channel of which entry `i` is the first that holds no value stops the machine there (R32). -/
theorem readSamples_missing {s : State} {c : Fin 8} {i n : Nat} (hi : i < n) (hm : s.ch.read s.wide c i = none)
    (hb : ∀ j, j < i → (s.ch.read s.wide c j).isSome = true) :
    readSamples c n s = .error (.halt (.unwrittenSample c.val i)) s := by
  have : readFrom (s.ch.backgroundAt s.wide c) s.ch.cells[c] 0 n = .error (0 + i) :=
    readFrom_missing hi (fun j hj => by rw [Nat.zero_add]; exact hb j hj) (by rw [Nat.zero_add]; exact hm)
  simp only [readSamples, this, Nat.zero_add]

/-- The samples of a channel, read entry by entry. -/
theorem readSamples_values {s : State} {c : Fin 8} {xs : List Int}
    (h : ∀ j (hj : j < xs.length), s.ch.read s.wide c j = some xs[j]) : readSamples c xs.length s = .ok xs s := by
  obtain ⟨ys, hy, hl⟩ := readFrom_present (back := s.ch.backgroundAt s.wide c) (cells := s.ch.cells[c]) (i := 0)
    (n := xs.length) (fun j hj => by
      rw [Nat.zero_add]
      exact Option.isSome_iff_exists.mpr ⟨_, h j hj⟩)
  have e : ∀ (xs ys : List Int) (cells : List (Option Int)) (i : Nat), ys.length = xs.length →
      (∀ j (hj : j < xs.length), (match cells.getD j none with
        | some v => some v | none => s.ch.backgroundAt s.wide c (i + j)) = some xs[j]) →
      readFrom (s.ch.backgroundAt s.wide c) cells i xs.length = .ok ys → ys = xs := by
    intro xs
    induction xs with
    | nil => intro ys cells i hl _ _; exact List.length_eq_zero_iff.mp hl
    | cons x xs ih =>
      intro ys cells i hl hx hr
      have h0 : cells.getD 0 none = cells.head?.join := by cases cells <;> simp
      have ht : ∀ j, cells.tail.getD j none = cells.getD (j + 1) none := by intro j; cases cells <;> simp
      have hv := hx 0 (by simp)
      rw [h0, Nat.add_zero] at hv
      rw [List.length_cons, readFrom] at hr
      split at hr
      · cases hr
      · next v e =>
        obtain rfl := Option.some.inj (hv.symm.trans e)
        split at hr
        · next vs hvs =>
          cases hr
          rw [ih vs cells.tail (i + 1) (by simpa using hl) (fun j hj => by
            rw [ht, Nat.add_assoc, Nat.add_comm 1 j]; exact hx (j + 1) (by simpa using hj)) hvs]
          rfl
        · cases hr
  rw [readSamples, hy]
  simp only
  rw [e xs ys _ 0 hl (fun j hj => by rw [Nat.zero_add]; exact h j hj) hy]

/-- The same with the samples given index by index. -/
theorem readSamples_range {s : State} {c : Fin 8} {n : Nat} {f : Nat → Int}
    (h : ∀ i, i < n → s.ch.read s.wide c i = some (f i)) : readSamples c n s = .ok ((List.range n).map f) s := by
  have := readSamples_values (s := s) (c := c) (xs := (List.range n).map f) fun j hj => by
    simp [h j (by simpa using hj)]
  simpa using this

/-- The samples of a channel that a write left there. -/
theorem readSamples_ok {s : State} {c : Fin 8} {xs : List Int}
    (h : ∀ j (hj : j < xs.length), s.ch.cells[c].getD j none = some xs[j]) :
    readSamples c xs.length s = .ok xs s := by
  have := readFrom_ok (back := s.ch.backgroundAt s.wide c) (cells := s.ch.cells[c]) (i := 0) (xs := xs) h
  simp only [readSamples, this]

theorem write_getD (f : ChannelFile) (c : Fin 8) (xs : List Int) (j : Nat) (hj : j < xs.length) :
    (f.write c 0 xs).cells[c].getD j none = some xs[j] := by
  have hc : (f.write c 0 xs).cells[c] = writeAt f.cells[c] 0 xs := by simp [ChannelFile.write]
  rw [hc, writeAt_getD, dif_pos ⟨Nat.zero_le _, by omega⟩]
  simp

end Sys2Proof.Machine
end

