-- ==== Sys2Proof/Laws/Predictor.lean ====
section
/-! SUPPORT. The predictors: a restore of the residuals of some samples gives the samples back (45_predictors.md). -/

namespace Sys2Proof.Machine

/-! ### Ranges -/

theorem fits32_of_bits {d : Nat} {v : Int} (h : fitsBits d v = true) (hd : d ≤ 32) : fits32 v = true := by
  simp only [fitsBits, fits32, Bool.and_eq_true, decide_eq_true_eq] at *
  have : (2 : Int) ^ (d - 1) ≤ 2 ^ 31 := pow_le_pow_right₀ (by norm_num) (by omega)
  omega

theorem fits64_of_bits {d : Nat} {v : Int} (h : fitsBits d v = true) (hd : d ≤ 64) : fits64 v = true := by
  simp only [fitsBits, fits64, Bool.and_eq_true, decide_eq_true_eq] at *
  have : (2 : Int) ^ (d - 1) ≤ 2 ^ 63 := pow_le_pow_right₀ (by norm_num) (by omega)
  omega

theorem narrow32_of_fits (mode : NarrowOverflow) {v : Int} (h : fits32 v = true) : narrow32 mode v = some v := if_pos h

theorem wide64_of_fits {v : Int} (h : fits64 v = true) : wide64 v = some v := if_pos h

/-- The depths a buffer holds: 32 bits in a narrow frame, 33 in a wide one (R227). -/
def DepthOk (wide : Bool) (d : Nat) : Prop := d ≤ 33 ∧ (wide = false → d ≤ 32)

/-- `Acc` of a value that fits the subframe's depth is the value (R303). -/
theorem acc_of_bits {mode : NarrowOverflow} {wide : Bool} {path : Path} {d : Nat} {v : Int} (hd : DepthOk wide d)
    (hp : path = .acc32 → d ≤ 32) (h : fitsBits d v = true) : acc mode wide path v = some v := by
  cases path with
  | acc32 => exact narrow32_of_fits mode (fits32_of_bits h (hp rfl))
  | acc64 =>
    cases wide with
    | false => exact if_pos (fits32_of_bits h (hd.2 rfl))
    | true => exact wide64_of_fits (fits64_of_bits h (by have := hd.1; omega))

theorem fixedPath_acc32 {d k : Nat} (h : fixedPath d k = .acc32) : d ≤ 32 := by
  simp only [fixedPath] at h
  split at h
  · omega
  · cases h

theorem lpcPath_acc32 {d : Nat} (h : lpcPath d = .acc32) : d ≤ 32 := by
  simp only [lpcPath] at h
  split at h
  · omega
  · cases h

/-- `Store` of a value that fits the frame's buffer. -/
theorem store_of_bits {mode : NarrowOverflow} {wide : Bool} {d : Nat} {v : Int} (hd : DepthOk wide d)
    (h : fitsBits d v = true) : store mode wide v = some v := by
  cases wide with
  | false => exact narrow32_of_fits mode (fits32_of_bits h (hd.2 rfl))
  | true => exact wide64_of_fits (fits64_of_bits h (by have := hd.1; omega))

/-! ### LPCP -/

@[simp] theorem LpcParams.withCoeff_precision (l : LpcParams) (cs : List Int) :
    (l.withCoeff cs).precision = l.precision := rfl
@[simp] theorem LpcParams.withCoeff_shift (l : LpcParams) (cs : List Int) : (l.withCoeff cs).shift = l.shift := rfl

/-- The coefficients written are the first ones of LPCP (R29). -/
theorem LpcParams.withCoeff_take (l : LpcParams) (cs : List Int) (h : cs.length ≤ 32) :
    (l.withCoeff cs).coeff.toList.take cs.length = cs := by
  apply List.ext_getElem
  · simp [h]
  · intro i h1 h2
    simp [LpcParams.withCoeff, List.getElem?_eq_getElem h2]

/-- Coefficients that are written do not depend on those LPCP held (R29). -/
theorem LpcParams.withCoeff_take_congr (l m : LpcParams) (cs : List Int) :
    (l.withCoeff cs).coeff.toList.take cs.length = (m.withCoeff cs).coeff.toList.take cs.length := by
  apply List.ext_getElem
  · simp
  · intro i h1 h2
    have h : i < cs.length := by simp at h1; omega
    simp [LpcParams.withCoeff, List.getElem?_eq_getElem h]

/-- A coefficient that is not written keeps its value (R29). -/
theorem LpcParams.withCoeff_rest (l : LpcParams) (cs : List Int) (j : Fin 32) (h : cs.length ≤ j.val) :
    (l.withCoeff cs).coeff[j] = l.coeff[j] := by
  simp [LpcParams.withCoeff, List.getElem?_eq_none h]

/-! ### The walk -/

/-- The walk inverts the difference (R287). -/
theorem restoreWalk_residuals {f : List Int → Int → Option Int} {predict : List Int → Option Int} {xs : List Int}
    (hf : ∀ x ∈ xs, ∀ h q, predict h = some q → f h (x - q) = some x) {h rs : List Int}
    (hr : residualsOf predict h xs = some rs) : restoreWalk f h rs = some xs := by
  induction xs generalizing h rs with
  | nil =>
    simp only [residualsOf, Option.some.injEq] at hr
    subst hr; rfl
  | cons x xs ih =>
    simp only [residualsOf] at hr
    cases hp : predict h with
    | none => simp [hp] at hr
    | some q =>
      simp only [hp, Option.map_eq_some_iff] at hr
      obtain ⟨rs', hrs', rfl⟩ := hr
      simp only [restoreWalk, hf x (List.mem_cons_self ..) h q hp,
        ih (fun y hy => hf y (List.mem_cons_of_mem _ hy)) hrs']

theorem residualsOf_length {predict : List Int → Option Int} {h xs rs : List Int}
    (hr : residualsOf predict h xs = some rs) : rs.length = xs.length := by
  induction xs generalizing h rs with
  | nil =>
    simp only [residualsOf, Option.some.injEq] at hr
    subst hr; rfl
  | cons x xs ih =>
    simp only [residualsOf] at hr
    cases hp : predict h with
    | none => simp [hp] at hr
    | some q =>
      simp only [hp, Option.map_eq_some_iff] at hr
      obtain ⟨rs', hrs', rfl⟩ := hr
      simp [ih hrs']

/-- The walk over residuals `r k`, ..., `r (n-1)` after samples `x 0`, ..., `x (k-1)` stops at the first index `m` where
`f` has no value. -/
theorem restoreWalk_stops {f : List Int → Int → Option Int} {x r : Nat → Int} {k m n : Nat} (hk : k ≤ m) (hm : m < n)
    (hg : ∀ i, k ≤ i → i < m → f ((List.range i).map x).reverse (r i) = some (x i))
    (hb : f ((List.range m).map x).reverse (r m) = none) :
    restoreWalk f ((List.range k).map x).reverse (((List.range n).map r).drop k) = none := by
  obtain ⟨d, rfl⟩ : ∃ d, m = k + d := ⟨m - k, by omega⟩
  clear hk
  induction d generalizing k with
  | zero =>
    rw [List.drop_eq_getElem_cons (by simpa using hm)]
    simp only [restoreWalk]
    simp at hb ⊢
    rw [hb]
  | succ d ih =>
    rw [List.drop_eq_getElem_cons (by simp; omega)]
    have h1 := hg k (by omega) (by omega)
    simp only [restoreWalk, List.getElem_map, List.getElem_range, h1]
    have : x k :: ((List.range k).map x).reverse = ((List.range (k + 1)).map x).reverse := by simp [List.range_succ]
    rw [this, ih (k := k + 1) (by omega) (fun i h1 h2 => hg i (by omega) (by omega)) (by
      rw [show k + 1 + d = k + (d + 1) by omega]; exact hb)]

/-- The sum of R296 over the history of sample `i`. -/
theorem lpcSum_history {k : Nat} {coeff : List Int} (hc : coeff.length = k) {x : Nat → Int} {i : Nat} (hi : k ≤ i) :
    lpcSum coeff ((List.range i).map x).reverse
      = ((List.range k).map fun j => coeff.getD j 0 * x (i - 1 - j)).sum := by
  rw [lpcSum]
  congr 1
  apply List.ext_getElem
  · simp; omega
  · intro j h1 h2
    simp at h1 h2
    simp [List.getElem?_eq_getElem (show j < coeff.length by omega)]

/-! ### A restore in CH -/

/-- CH[c] holds the list `ys` from entry 0 on. -/
def ChannelFile.Holds (f : ChannelFile) (c : Fin 8) (ys : List Int) : Prop :=
  ∀ j (hj : j < ys.length), f.cells[c].getD j none = some ys[j]

theorem write_holds (f : ChannelFile) (c : Fin 8) (ys : List Int) : (f.write c 0 ys).Holds c ys :=
  fun j hj => write_getD f c ys j hj

/-- A restore over a channel that holds warm-up samples and residuals. -/
theorem restoreWith_ok {s : State} {c : Fin 8} {k : Nat} {f : List Int → Int → Option Int} {warm rs vs : List Int}
    (hk : warm.length = k) (hn : s.hdr.blocksize.toNat = k + rs.length) (hh : s.ch.Holds c (warm ++ rs))
    (hw : restoreWalk f warm.reverse rs = some vs) :
    restoreWith c k f s = .ok () (s.writeCh c k vs) := by
  simp only [restoreWith, view_bind]
  by_cases hle : s.hdr.blocksize.toNat ≤ k
  · rw [if_pos hle, pure_apply]
    have : rs = [] := List.length_eq_zero_iff.mp (by omega)
    subst this
    simp only [restoreWalk, Option.some.injEq] at hw
    subst hw
    simp [State.writeCh, write_nil]
  · rw [if_neg hle, show s.hdr.blocksize.toNat = (warm ++ rs).length by simp; omega, bind_ok (readSamples_ok hh)]
    rw [← hk, List.take_left, List.drop_left, hw]
    rfl

/-- The Fixed restore of an order above 0 (R282 to R285). -/
theorem restoreFixed_ok {s : State} {c : Fin 8} {k d : Nat} {warm rs vs : List Int} (h0 : k ≠ 0)
    (hd : s.sub[c].depth = d) (hk : warm.length = k) (hn : s.hdr.blocksize.toNat = k + rs.length)
    (hh : s.ch.Holds c (warm ++ rs))
    (hw : restoreWalk (fixedSample s.params.narrowOverflow s.wide (fixedPath d k) k) warm.reverse rs = some vs) :
    restoreFixed c k s = .ok () (s.writeCh c k vs) := by
  simp only [restoreFixed, if_neg h0, view_bind, hd]
  exact restoreWith_ok hk hn hh hw

/-- The LPC restore (R296). -/
theorem restoreLpc_ok {s : State} {c : Fin 8} {k d : Nat} {warm rs vs : List Int}
    (hd : s.sub[c].depth = d) (hk : warm.length = k) (hn : s.hdr.blocksize.toNat = k + rs.length)
    (hh : s.ch.Holds c (warm ++ rs))
    (hw : restoreWalk (lpcSample s.params.narrowOverflow s.wide (lpcPath d) (s.lpcp.coeff.toList.take k) s.lpcp.shift)
      warm.reverse rs = some vs) :
    restoreLpc c k s = .ok () (s.writeCh c k vs) := by
  simp only [restoreLpc, view_bind, hd]
  exact restoreWith_ok hk hn hh hw

/-- A Fixed sample of a residual is the sample, where it fits the subframe's depth (R287). -/
theorem fixedSample_residual {mode : NarrowOverflow} {wide : Bool} {d k : Nat} {x q : Int} {h : List Int}
    (hd : DepthOk wide d) (hx : fitsBits d x = true) (hq : some (predictFixed k h) = some q) :
    fixedSample mode wide (fixedPath d k) k h (x - q) = some x := by
  obtain rfl := Option.some.inj hq
  simp only [fixedSample, Int.sub_add_cancel]
  exact acc_of_bits hd fixedPath_acc32 hx

/-- An LPC sample of a residual is the sample, where it fits the subframe's depth. -/
theorem lpcSample_residual {mode : NarrowOverflow} {wide : Bool} {d shift : Nat} {x q : Int} {coeff h : List Int}
    (hd : DepthOk wide d) (hx : fitsBits d x = true) (hq : lpcPredict mode d shift coeff h = some q) :
    lpcSample mode wide (lpcPath d) coeff shift h (x - q) = some x := by
  simp only [lpcPredict, Option.map_eq_some_iff] at hq
  obtain ⟨v, hv, rfl⟩ := hq
  simp only [lpcSample, hv, Int.sub_add_cancel]
  exact acc_of_bits hd lpcPath_acc32 hx

end Sys2Proof.Machine
end

