-- ==== Sys2Proof/Laws/Residual.lean ====
section
/-! SUPPORT. The entropy decoder where the stream carries a residual section (44_residual.md). -/

namespace Sys2Proof.Machine

/-! ### Zig-zag -/

theorem zigZag_code (v : Int) : zigZag (zigZagCode v) = v := by
  simp only [zigZag, zigZagCode]
  split
  · split <;> omega
  · split <;> omega

theorem zigZagCode_lt {v : Int} (h : fits32 v = true) : zigZagCode v < 2 ^ 32 := by
  simp only [fits32, Bool.and_eq_true, decide_eq_true_eq] at h
  simp only [zigZagCode]
  split <;> omega

section
variable {u : State} {p : Nat} {r : Word64}

/-! ### One residual -/

theorem riceBits_length (k : Nat) (v : Int) : (riceBits k v).length = zigZagCode v >>> k + 1 + k := by
  simp [riceBits]

/-- One Rice code (R255). -/
theorem riceResidual_at {kk : Nat} {v : Int} (hu : u.curValid = true) (hk : kk ≤ 32) (hv : fits32 v = true)
    (hc : carries u.input p (riceBits kk v) = true) (h : u.admissible (p + (riceBits kk v).length)) :
    ∃ r', riceResidual kk (u.readTo p r) = .ok v (u.readTo (p + (riceBits kk v).length) r') := by
  rw [riceBits_length] at h ⊢
  have hz := zigZag_code v
  generalize hx : zigZagCode v = x at *
  have hx32 : x < 2 ^ 32 := hx ▸ zigZagCode_lt hv
  simp only [riceBits, hx, carries_append, Bool.and_eq_true, unaryBits_length] at hc
  have ha : u.admissible (p + (x >>> kk + 1)) := admissible_mono h (by omega)
  have hjoin : (x >>> kk) <<< kk ||| x % 2 ^ kk = x := by
    rw [Nat.shiftLeft_eq, Nat.mul_comm, ← Nat.two_pow_add_eq_or_of_lt (Nat.mod_lt _ (Nat.two_pow_pos kk)),
      Nat.shiftRight_eq_div_pow]
    exact Nat.div_add_mod x (2 ^ kk)
  simp only [riceResidual]
  rw [bind_ok (readUnary_at hu hc.1 ha)]
  by_cases h0 : kk = 0
  · subst h0
    refine ⟨BitVec.ofNat 64 (x >>> 0), ?_⟩
    have hj : (x >>> 0) <<< 0 ||| 0 = x := by simp
    rw [if_pos rfl, bind_ok (pure_apply 0 _), hj, if_neg (by omega), hz]
    rfl
  · refine ⟨BitVec.ofNat 64 (x % 2 ^ kk), ?_⟩
    rw [if_neg h0, bind_ok (readBits_at hu hk (Nat.mod_lt _ (Nat.two_pow_pos kk)) (by rw [fieldBits_mod]; exact hc.2)
      (by rw [Nat.add_assoc]; exact h)), hjoin, if_neg (by omega), hz, Nat.add_assoc]
    rfl

/-! ### One partition -/

/-- A write of RP that keeps the section's method and order. -/
def KeepsSection (f : ResidualParams → ResidualParams) : Prop :=
  ∀ x, (f x).method = x.method ∧ (f x).paramBits = x.paramBits ∧ (f x).partitionOrder = x.partitionOrder

/-- What a decoded partition leaves: its residuals in CH, its parameter in RP. -/
def State.afterPartition (u : State) (j : Nat) (f : ResidualParams → ResidualParams) (vs : List Int) : State :=
  ((u.mapSeq fun q => { q with part := j }).mapRp f).writeCh u.seq.chan
    (Sys2Proof.Machine.partitionStart u.hdr.blocksize.toNat u.rp.partitionOrder u.seq.order j) vs

/-- A partition the stream carries (R253 to R255). -/
theorem decodePartition_at {j pb : Nat} {q : Partition} (hu : u.curValid = true)
    (hpbe : u.rp.paramBits = pb) (hpb : pb = 4 ∨ pb = 5) (hq : q.codable pb = true)
    (hn : q.values.length = partitionSize u.hdr.blocksize.toNat u.rp.partitionOrder u.seq.order j)
    (hc : carries u.input p (q.bits pb) = true) (h : u.admissible (p + (q.bits pb).length)) :
    ∃ f r', KeepsSection f ∧ decodePartition j (u.readTo p r) =
      .ok () ((u.afterPartition j f q.values).readTo (p + (q.bits pb).length) r') := by
  obtain ⟨coding, vs⟩ := q
  simp only [decodePartition, updateSeq, update_bind, view_bind, readTo_mapSeq, readTo_rp, mapSeq_rp, hpbe]
  have hpb32 : pb ≤ 32 := by omega
  cases coding with
  | rice k =>
    simp only [Partition.codable, Bool.and_eq_true, decide_eq_true_eq, List.all_eq_true] at hq
    simp only [Partition.bits, carries_append, Bool.and_eq_true, fieldBits_length, List.length_append] at hc h
    have hk32 : k ≤ 32 := by rcases hpb with rfl | rfl <;> omega
    have ha : u.admissible (p + pb) := admissible_mono h (by omega)
    rw [bind_ok (readBits_at (u := u.mapSeq fun q => { q with part := j }) (v := k) hu hpb32 (by omega) hc.1 ha), if_neg (by omega)]
    simp only [ricePartition, updateRp, update_bind, view_bind, readTo_mapRp]
    let u' := (u.mapSeq fun q => { q with part := j }).mapRp fun x => { x with param := k }
    have hsz : State.partitionSize (u'.readTo (p + pb) (BitVec.ofNat 64 k)) = vs.length := hn.symm
    obtain ⟨r', hr'⟩ := repeatOp_at (u := u') (p := p + pb) (r := BitVec.ofNat 64 k) (read := riceResidual k)
      (bits := riceBits k) vs (fun v hv p r hcv hav => riceResidual_at hu hk32 (hq.2 v hv) hcv hav) hc.2
      (by rw [Nat.add_assoc]; exact h)
    refine ⟨fun x => { x with param := k }, r', fun x => ⟨rfl, rfl, rfl⟩, ?_⟩
    rw [hsz, bind_ok hr']
    simp only [Partition.bits, List.length_append, fieldBits_length, Nat.add_assoc]
    rfl
  | escape w =>
    simp only [Partition.codable, Bool.and_eq_true, decide_eq_true_eq, List.all_eq_true] at hq
    simp only [Partition.bits, carries_append, Bool.and_eq_true, fieldBits_length, List.length_append] at hc h
    have hesc : 2 ^ pb - 1 < 2 ^ pb := by have := Nat.two_pow_pos pb; omega
    have ha : u.admissible (p + pb) := admissible_mono h (by omega)
    have ha5 : u.admissible (p + pb + 5) := admissible_mono h (by omega)
    rw [bind_ok (readBits_at (u := u.mapSeq fun q => { q with part := j }) (v := 2 ^ pb - 1) hu hpb32 hesc hc.1.1 ha), if_pos rfl]
    simp only [escapePartition, updateRp, update_bind, readTo_mapRp]
    let u0 := (u.mapSeq fun q => { q with part := j }).mapRp fun x => { x with param := 2 ^ pb - 1 }
    rw [bind_ok (readBits_at (u := u0) (v := w) hu (by omega) (by omega) hc.1.2 ha5)]
    simp only [update_bind, view_bind, readTo_mapRp]
    let u' := u0.mapRp fun x => { x with escapeWidth := w }
    have hsz : State.partitionSize (u'.readTo (p + pb + 5) (BitVec.ofNat 64 w)) = vs.length := hn.symm
    have hread : ∃ r', (if w = 0 then pure (List.replicate vs.length 0) else repeatOp vs.length (readSigned w) :
        Op (List Int)) (u'.readTo (p + pb + 5) (BitVec.ofNat 64 w)) =
        .ok vs (u'.readTo (p + pb + 5 + (vs.flatMap (signedBits w)).length) r') := by
      by_cases h0 : w = 0
      · subst h0
        refine ⟨BitVec.ofNat 64 0, ?_⟩
        have hz : vs = List.replicate vs.length 0 :=
          List.eq_replicate_iff.mpr ⟨rfl, fun v hv => by simpa using hq.2 v hv⟩
        rw [if_pos rfl, pure_apply, ← hz]
        simp
      · rw [if_neg h0]
        exact repeatSigned_at (u := u') hu (by omega) (fun v hv => by have := hq.2 v hv; rwa [if_neg h0] at this)
          (by rw [Nat.add_assoc]; exact hc.2) (by rw [Nat.add_assoc, Nat.add_assoc, ← Nat.add_assoc pb]; exact h)
    obtain ⟨r', hr'⟩ := hread
    refine ⟨fun x => { x with param := 2 ^ pb - 1, escapeWidth := w }, r', fun x => ⟨rfl, rfl, rfl⟩, ?_⟩
    rw [hsz]
    simp only [Partition.bits, List.length_append, fieldBits_length, ← Nat.add_assoc]
    by_cases h0 : w = 0
    · subst h0
      rw [if_pos rfl] at hr' ⊢
      rw [bind_ok hr']
      rfl
    · rw [if_neg h0] at hr' ⊢
      rw [bind_ok hr']
      rfl

/-! ### The section -/

/-- A write of the sequencer's names that changes the partition index only. -/
def KeepsNames (g : Sequencer → Sequencer) : Prop := ∀ q, g q = { q with part := (g q).part }

/-- Partition j + 1 begins where partition j ends (R253). -/
theorem partitionStart_succ {n po k : Nat} (hk : k ≤ n >>> po) (j : Nat) :
    partitionStart n po k j + partitionSize n po k j = partitionStart n po k (j + 1) := by
  simp only [partitionStart, partitionSize, Nat.add_eq_zero_iff, Nat.one_ne_zero, and_false, if_false]
  split
  · next h => subst h; omega
  · rw [Nat.succ_mul]

/-- The partitions from index `j` on (R253). -/
theorem partitions_at {parts : List Partition} {j n po k pb : Nat} (hu : u.curValid = true)
    (hn : u.hdr.blocksize.toNat = n) (hpo : u.rp.partitionOrder = po) (hk : u.seq.order = k) (hpbe : u.rp.paramBits = pb)
    (hpb : pb = 4 ∨ pb = 5) (hfit : k ≤ n >>> po) (hq : ∀ q ∈ parts, q.codable pb = true)
    (hsz : ∀ i (h : i < parts.length), parts[i].values.length = partitionSize n po k (j + i))
    (hc : carries u.input p (parts.flatMap (Partition.bits pb)) = true)
    (h : u.admissible (p + (parts.flatMap (Partition.bits pb)).length)) :
    ∃ f g r', KeepsSection f ∧ KeepsNames g ∧
      forEach (List.range' j parts.length) decodePartition (u.readTo p r) =
        .ok () ((((u.mapSeq g).mapRp f).writeCh u.seq.chan (partitionStart n po k j)
          (parts.flatMap Partition.values)).readTo (p + (parts.flatMap (Partition.bits pb)).length) r') := by
  induction parts generalizing u j p r with
  | nil =>
    refine ⟨id, id, r, fun x => ⟨rfl, rfl, rfl⟩, fun q => rfl, ?_⟩
    simp only [List.flatMap_nil, State.writeCh, write_nil]
    rfl
  | cons q parts ih =>
    simp only [List.flatMap_cons, carries_append, Bool.and_eq_true, List.length_append] at hc h ⊢
    have h0 : q.values.length = partitionSize n po k j := hsz 0 (by simp)
    obtain ⟨f1, r1, hf1, h1⟩ := decodePartition_at (j := j) (r := r) hu hpbe hpb (hq q (List.mem_cons_self ..))
      (by rw [hn, hpo, hk]; exact h0) hc.1 (admissible_mono h (by omega))
    obtain ⟨f2, g2, r2, hf2, hg2, h2⟩ := ih (u := u.afterPartition j f1 q.values) (j := j + 1)
      (p := p + (q.bits pb).length) (r := r1) hu hn ((hf1 _).2.2.trans hpo) hk ((hf1 _).2.1.trans hpbe)
      (fun q' hq' => hq q' (List.mem_cons_of_mem _ hq'))
      (fun i hi => by
        have := hsz (i + 1) (by simpa using hi)
        rw [show j + 1 + i = j + (i + 1) by omega]; exact this)
      hc.2 (by rw [Nat.add_assoc]; exact h)
    refine ⟨f2 ∘ f1, fun x => g2 { x with part := j }, r2, fun x => ?_, fun x => ?_, ?_⟩
    · exact ⟨(hf2 _).1.trans (hf1 _).1, (hf2 _).2.1.trans (hf1 _).2.1, (hf2 _).2.2.trans (hf1 _).2.2⟩
    · exact hg2 { x with part := j }
    · rw [List.length_cons, List.range'_succ, forEach, bind_ok h1, h2, Nat.add_assoc]
      congr 2
      have hst : partitionStart n po k (j + 1) = partitionStart n po k j + q.values.length := by
        rw [h0]; exact (partitionStart_succ hfit j).symm
      simp only [State.afterPartition, State.writeCh, State.mapRp, State.mapSeq, hn, hpo, hk, hst, write_write]
      rfl

/-- A residual section the stream carries (R250 to R258): the residuals enter CH[c][k..n-1], in order, in one walk. -/
theorem decodeResidual_at {c : Fin 8} {k : Nat} {sec : ResidualSection} (hu : u.curValid = true)
    (hl : sec.legal u.hdr.blocksize.toNat k = true) (hc : carries u.input p sec.bits = true)
    (h : u.admissible (p + sec.bits.length)) :
    ∃ f g r', (∀ q, (g q).chan = c ∧ (g q).base = q.base ∧ (g q).start = q.start) ∧
      decodeResidual c k (u.readTo p r) =
        .ok () ((((u.mapSeq g).mapRp f).writeCh c k sec.values).readTo (p + sec.bits.length) r') := by
  obtain ⟨method, order, parts⟩ := sec
  simp only [ResidualSection.legal, Bool.and_eq_true, decide_eq_true_eq, beq_iff_eq, List.all_eq_true] at hl
  obtain ⟨⟨⟨⟨hm, ho⟩, hfit⟩, hsizes⟩, hcod⟩ := hl
  simp only [ResidualSection.bits, carries_append, Bool.and_eq_true, fieldBits_length, List.length_append] at hc h
  obtain ⟨⟨hc1, hc2⟩, hc3⟩ := hc
  have ha2 : u.admissible (p + 2) := admissible_mono h (by omega)
  have ha6 : u.admissible (p + 2 + 4) := admissible_mono h (by omega)
  simp only [decodeResidual, updateSeq, update_bind, readTo_mapSeq]
  let u1 := u.mapSeq fun q => { q with chan := c, order := k }
  rw [bind_ok (readBits_at (u := u1) (v := method) hu (by omega) (by omega) hc1 ha2), if_neg (by omega)]
  simp only [setMethod, updateRp, update_bind, readTo_mapRp]
  let u2 := u1.mapRp fun x => { x with method := method, paramBits := 4 + method }
  rw [bind_ok (readBits_at (u := u2) (v := order) hu (by omega) (by omega) hc2 ha6)]
  simp only [update_bind, view_bind, readTo_mapRp]
  let u3 := u2.mapRp fun x => { x with partitionOrder := order }
  rw [if_pos (by exact hfit)]
  have hlen : parts.length = 2 ^ order := by simpa using congrArg List.length hsizes
  have hfit' : k ≤ u.hdr.blocksize.toNat >>> order := by
    simp only [partitionsFit, Bool.and_eq_true, decide_eq_true_eq] at hfit; exact hfit.2
  obtain ⟨f, g, r', hf, hg, hr⟩ := partitions_at (u := u3) (p := p + 2 + 4) (r := BitVec.ofNat 64 order)
    (parts := parts) (j := 0) (pb := 4 + method) hu rfl rfl rfl rfl (by omega) hfit' hcod
    (fun i hi => by
      have := congrArg (fun l => l[i]?) hsizes
      simp only [List.getElem?_map, List.getElem?_eq_getElem hi, Option.map_some] at this
      rw [List.getElem?_range (by omega)] at this
      simp only [Option.map_some, Option.some.injEq] at this
      rw [Nat.zero_add]; exact this)
    (by rw [Nat.add_assoc]; exact hc3) (by rw [Nat.add_assoc p, Nat.add_assoc p]; exact h)
  refine ⟨fun x => f { x with method := method, paramBits := 4 + method, partitionOrder := order },
    fun q => g { q with chan := c, order := k }, r', fun q => ?_, ?_⟩
  · have e := hg { q with chan := c, order := k }
    refine ⟨?_, ?_, ?_⟩ <;> dsimp only <;> rw [e]
  · rw [List.range_eq_range', ← hlen]
    refine hr.trans ?_
    simp only [ResidualSection.bits, List.length_append, fieldBits_length, Nat.add_assoc]
    rfl

end

end Sys2Proof.Machine
end

