-- ==== Sys2Proof/Laws/Subframe.lean ====
section
/-! SUPPORT. A subframe the stream carries is decoded to its samples (43_subframe.md). -/

namespace Sys2Proof.Machine

theorem mapSub_mapSub (c : Fin 8) (f g : Subframe → Subframe) (s : State) :
    (s.mapSub c f).mapSub c g = s.mapSub c (g ∘ f) := by
  simp [State.mapSub, Function.comp]

theorem mapSub_get (c : Fin 8) (f : Subframe → Subframe) (s : State) : (s.mapSub c f).sub[c] = f s.sub[c] := by
  simp

/-- Everything a subframe body writes: the sequencer's names, RP, LPCP, SUB[c] and the samples of channel c. -/
def State.afterBody (u : State) (c : Fin 8) (g : Sequencer → Sequencer) (f : ResidualParams → ResidualParams)
    (l : LpcParams → LpcParams) (b : Subframe → Subframe) (xs : List Int) : State :=
  ((((u.mapSeq g).mapRp f).mapLpcp l).mapSub c b).writeCh c 0 xs

/-- A write of SUB[c] before a body is part of what the body leaves. -/
theorem afterBody_mapSub (u : State) (c : Fin 8) (g : Sequencer → Sequencer) (f : ResidualParams → ResidualParams)
    (l : LpcParams → LpcParams) (b w : Subframe → Subframe) (xs : List Int) :
    (u.mapSub c w).afterBody c g f l b xs = u.afterBody c g f l (b ∘ w) xs := by
  simp only [State.afterBody, ← mapSub_mapSub]
  rfl

/-- The channel overwritten after a body. -/
theorem afterBody_writeCh (u : State) (c : Fin 8) (g : Sequencer → Sequencer) (f : ResidualParams → ResidualParams)
    (l : LpcParams → LpcParams) (b : Subframe → Subframe) (xs ys : List Int) (h : xs.length = ys.length) :
    (u.afterBody c g f l b xs).writeCh c 0 ys = u.afterBody c g f l b ys := by
  simp only [State.afterBody, State.writeCh, write_over _ _ _ _ _ h]

/-- The names a body keeps. -/
def KeepsPlace (g : Sequencer → Sequencer) : Prop := ∀ q, (g q).base = q.base ∧ (g q).start = q.start

section
variable {u : State} {p : Nat} {r : Word64}

/-- `ReadSample(d)` (R227). -/
theorem readSample_at {d : Nat} {v : Int} (hu : u.curValid = true) (hd : DepthOk u.wide d) (hv : fitsBits d v = true)
    (hc : carries u.input p (signedBits d v) = true) (h : u.admissible (p + d)) :
    readSample d (u.readTo p r) = .ok v (u.readTo (p + d) (BitVec.ofInt 64 v)) := by
  simp only [readSample, view_bind]
  rcases Bool.eq_false_or_eq_true u.wide with hw | hw
  · rw [if_pos (by exact hw)]; exact readSigned64_at hu hv hc h
  · rw [if_neg (by rw [readTo_wide, hw]; exact Bool.false_ne_true)]; exact readSigned_at hu (hd.2 hw) hv hc h

theorem repeatSample_at {d : Nat} {vs : List Int} (hu : u.curValid = true) (hd : DepthOk u.wide d)
    (hv : ∀ v ∈ vs, fitsBits d v = true)
    (hc : carries u.input p (vs.flatMap (signedBits d)) = true)
    (h : u.admissible (p + (vs.flatMap (signedBits d)).length)) :
    ∃ r', repeatOp vs.length (readSample d) (u.readTo p r) =
      .ok vs (u.readTo (p + (vs.flatMap (signedBits d)).length) r') :=
  repeatOp_at vs
    (fun v hm p r hc h => ⟨_, by simpa using readSample_at (r := r) hu hd (hv v hm) hc (by simpa using h)⟩) hc h

/-- An order within the block passes (R223). -/
theorem checkOrder_ok {k : Nat} {s : State} (h : k ≤ s.hdr.blocksize.toNat) : checkOrder k s = .ok () s := by
  simp only [checkOrder, view_bind]
  rw [if_neg (by omega)]
  rfl

/-- The warm-up samples. -/
theorem warmUp_at {c : Fin 8} {d : Nat} {xs : List Int} (hu : u.curValid = true) (hd : DepthOk u.wide d)
    (hsub : u.sub[c].depth = d) (hv : ∀ v ∈ xs, fitsBits d v = true)
    (hc : carries u.input p (xs.flatMap (signedBits d)) = true)
    (h : u.admissible (p + (xs.flatMap (signedBits d)).length)) :
    ∃ r', warmUp c xs.length (u.readTo p r) =
      .ok () ((u.writeCh c 0 xs).readTo (p + (xs.flatMap (signedBits d)).length) r') := by
  obtain ⟨r', hr⟩ := repeatSample_at (r := r) hu hd hv hc h
  refine ⟨r', ?_⟩
  simp only [warmUp, view_bind, readTo_sub, hsub]
  rw [bind_ok hr]
  rfl

theorem take_drop_flatMap (xs : List Int) (k : Nat) (bits : Int → List Bool) :
    xs.flatMap bits = (xs.take k).flatMap bits ++ (xs.drop k).flatMap bits := by
  rw [← List.flatMap_append, List.take_append_drop]

/-- Warm-up samples, residuals and restored samples in CH are the samples. -/
theorem writeCh_restored (s : State) (c : Fin 8) (k : Nat) (xs rs : List Int) (hk : k ≤ xs.length)
    (hl : rs.length = (xs.drop k).length) :
    ((s.writeCh c 0 (xs.take k)).writeCh c k rs).writeCh c k (xs.drop k) = s.writeCh c 0 xs := by
  have ht : (xs.take k).length = k := by simp [hk]
  have h1 := write_write s.ch c 0 (xs.take k) (xs.drop k)
  rw [Nat.zero_add, ht, List.take_append_drop] at h1
  simp only [State.writeCh, write_over _ _ _ _ _ hl, h1]

/-- The channel after the residual section, as the restore reads it. -/
theorem warm_residuals_hold (f : ChannelFile) (c : Fin 8) (warm rs : List Int) :
    ((f.write c 0 warm).write c warm.length rs).Holds c (warm ++ rs) := by
  have := write_write f c 0 warm rs
  rw [Nat.zero_add] at this
  rw [this]
  exact write_holds f c _

/-- The operation of a body (R223). -/
def Body.op (c : Fin 8) : Body → Op Unit
  | .constant _ => constantBody c
  | .verbatim _ => verbatimBody c
  | .fixed k _ _ => fixedBody c k.val
  | .lpc o _ _ _ _ _ => lpcBody c (o.val + 1)

theorem constantBody_at {c : Fin 8} {d n : Nat} {v : Int} (hu : u.curValid = true) (hn : u.hdr.blocksize.toNat = n)
    (hd : DepthOk u.wide d) (hsub : u.sub[c].depth = d) (hv : fitsBits d v = true)
    (hc : carries u.input p (signedBits d v) = true) (h : u.admissible (p + d)) :
    constantBody c (u.readTo p r) = .ok () ((u.afterBody c id id id (fun x => { x with type := .constant, order := 0 })
      (List.replicate n v)).readTo (p + d) (BitVec.ofInt 64 v)) := by
  simp only [constantBody, setType, updateSub, update_bind, view_bind, readTo_mapSub, readTo_hdr, mapSub_hdr, hn,
    readTo_sub, mapSub_get, hsub]
  rw [bind_ok (readSample_at (u := u.mapSub c fun x => { x with type := .constant, order := 0 }) hu hd hv hc h)]
  rfl

theorem verbatimBody_at {c : Fin 8} {d : Nat} {xs : List Int} (hu : u.curValid = true)
    (hn : u.hdr.blocksize.toNat = xs.length)
    (hd : DepthOk u.wide d) (hsub : u.sub[c].depth = d) (hv : ∀ v ∈ xs, fitsBits d v = true)
    (hc : carries u.input p (xs.flatMap (signedBits d)) = true)
    (h : u.admissible (p + (xs.flatMap (signedBits d)).length)) :
    ∃ r', verbatimBody c (u.readTo p r) =
      .ok () ((u.afterBody c id id id (fun x => { x with type := .verbatim, order := 0 }) xs).readTo
        (p + (xs.flatMap (signedBits d)).length) r') := by
  obtain ⟨r', hr⟩ := repeatSample_at (r := r) (u := u.mapSub c fun x => { x with type := .verbatim, order := 0 })
    hu hd hv hc h
  refine ⟨r', ?_⟩
  simp only [verbatimBody, setType, updateSub, update_bind, view_bind, readTo_mapSub, readTo_hdr, mapSub_hdr, hn,
    readTo_sub, mapSub_get, hsub]
  rw [bind_ok hr]
  rfl

theorem fixedBody_at {c : Fin 8} {d : Nat} {k : Fin 5} {xs : List Int} {sec : ResidualSection}
    (hu : u.curValid = true) (hd : DepthOk u.wide d) (hsub : u.sub[c].depth = d)
    (hl : (Body.fixed k xs sec).legal u.params.narrowOverflow u.hdr.blocksize.toNat d = true)
    (hc : carries u.input p ((Body.fixed k xs sec).bits d) = true)
    (h : u.admissible (p + ((Body.fixed k xs sec).bits d).length)) :
    ∃ g f r', KeepsPlace g ∧ fixedBody c k.val (u.readTo p r) =
      .ok () ((u.afterBody c g f id (fun x => { x with type := .fixed, order := k.val }) xs).readTo
        (p + ((Body.fixed k xs sec).bits d).length) r') := by
  simp only [Body.legal, Bool.and_eq_true, decide_eq_true_eq, beq_iff_eq, List.all_eq_true] at hl
  obtain ⟨⟨⟨⟨hlen, hkn⟩, hfits⟩, hsec⟩, hres⟩ := hl
  simp only [Body.bits, carries_append, Bool.and_eq_true, List.length_append] at hc h
  have hk4 : ¬ 4 < k.val := by omega
  have htl : (xs.take k.val).length = k.val := by simp; omega
  simp only [fixedBody, setType, updateSub, update_bind, readTo_mapSub, if_neg hk4]
  let u1 := u.mapSub c fun x => { x with type := .fixed, order := k.val }
  rw [bind_ok (checkOrder_ok (s := u1.readTo p r) hkn)]
  obtain ⟨r1, h1⟩ := warmUp_at (u := u1) (r := r) (c := c) (xs := xs.take k.val) hu hd
    (by simp only [u1, mapSub_get, hsub]) (fun v hv => hfits v (List.mem_of_mem_take hv)) hc.1
    (admissible_mono h (by omega))
  rw [htl] at h1
  rw [bind_ok h1]
  obtain ⟨f, g, r2, hg, h2⟩ := decodeResidual_at (u := u1.writeCh c 0 (xs.take k.val)) (r := r1) (c := c) (sec := sec)
    hu hsec hc.2 (by rw [Nat.add_assoc]; exact h)
  rw [bind_ok h2]
  refine ⟨g, f, r2, fun q => ⟨(hg q).2.1, (hg q).2.2⟩, ?_⟩
  have hrl := residualsOf_length hres
  simp only [Body.bits, List.length_append, ← Nat.add_assoc]
  generalize p + (List.flatMap (signedBits d) (List.take k.val xs)).length + sec.bits.length = q
  by_cases h0 : k.val = 0
  · obtain rfl : k = 0 := Fin.ext h0
    have hx : ∀ (hh ys rs : List Int), residualsOf (fun h => some (predictFixed 0 h)) hh ys = some rs → rs = ys := by
      intro hh ys
      induction ys generalizing hh with
      | nil => intro rs hr; simpa [residualsOf] using hr.symm
      | cons y ys ih =>
        intro rs hr
        simp only [residualsOf, Option.map_eq_some_iff] at hr
        obtain ⟨rs', hr', rfl⟩ := hr
        rw [ih _ _ hr']
        simp [predictFixed]
    rw [show sec.values = xs from hx _ _ _ hres]
    simp only [restoreFixed, Fin.val_zero, if_true, pure_apply, List.take_zero, State.writeCh, write_nil]
    rfl
  · have hwalk := restoreWalk_residuals
      (f := fixedSample u.params.narrowOverflow u.wide (fixedPath d k.val) k.val)
      (fun x hx h q hq => fixedSample_residual hd (hfits x (List.mem_of_mem_drop hx)) hq) hres
    rw [restoreFixed_ok (s := (((u1.writeCh c 0 (xs.take k.val)).mapSeq g).mapRp f |>.writeCh c k.val sec.values).readTo q r2)
      (c := c) (k := k.val) (d := d) (warm := xs.take k.val) (rs := sec.values) h0
      (by simp only [readTo_sub, writeCh_sub, mapRp_sub, mapSeq_sub, u1, mapSub_get, hsub]) htl
      (by simp only [readTo_hdr, writeCh_hdr, mapRp_hdr, mapSeq_hdr, u1, mapSub_hdr, hrl, List.length_drop]; omega)
      (by
        have := warm_residuals_hold u.ch c (xs.take k.val) sec.values
        rw [htl] at this
        simpa only [readTo_ch, writeCh_ch, mapRp_ch, mapSeq_ch, u1, mapSub_ch] using this)
      (by simpa only [readTo_params, writeCh_params, mapRp_params, mapSeq_params, u1, mapSub_params, readTo_wide,
        writeCh_wide, mapRp_wide, mapSeq_wide, mapSub_wide] using hwalk)]
    have := writeCh_restored (((u.mapSeq g).mapRp f).mapSub c fun x => { x with type := .fixed, order := k.val }) c
      k.val xs sec.values (by omega) hrl
    rw [readTo_writeCh]
    exact congrArg (fun t : State => EStateM.Result.ok () (t.readTo q r2)) this

/-- The parameters of an LPC subframe (R228). -/
theorem lpcParameters_at {precision shift : Nat} {coeff : List Int} (hu : u.curValid = true)
    (hp1 : 1 ≤ precision) (hp15 : precision ≤ 15) (hs : shift < 16) (hv : ∀ v ∈ coeff, fitsBits precision v = true)
    (hc : carries u.input p (fieldBits 4 (precision - 1) ++ fieldBits 5 shift
      ++ coeff.flatMap (signedBits precision)) = true)
    (h : u.admissible (p + (4 + 5 + (coeff.flatMap (signedBits precision)).length))) :
    ∃ r', lpcParameters coeff.length (u.readTo p r) =
      .ok () ((u.mapLpcp fun l => { l with precision := precision, shift := shift }.withCoeff coeff).readTo
        (p + (4 + 5 + (coeff.flatMap (signedBits precision)).length)) r') := by
  simp only [carries_append, Bool.and_eq_true, fieldBits_length, List.length_append] at hc
  obtain ⟨⟨hc1, hc2⟩, hc3⟩ := hc
  have ha4 : u.admissible (p + 4) := admissible_mono h (by omega)
  have ha9 : u.admissible (p + 4 + 5) := admissible_mono h (by omega)
  simp only [lpcParameters, updateLpcp]
  rw [bind_ok (readBits_at (v := precision - 1) hu (by omega) (by omega) hc1 ha4), if_neg (by omega)]
  simp only [update_bind, readTo_mapLpcp, show precision - 1 + 1 = precision by omega]
  let u1 := u.mapLpcp fun l => { l with precision := precision }
  have hsh : signedBits 5 (shift : Int) = fieldBits 5 shift := by
    simp only [signedBits]
    congr 1
    omega
  have hfs : fitsBits 5 (shift : Int) = true := by
    simp only [fitsBits, Bool.and_eq_true, decide_eq_true_eq]; omega
  rw [bind_ok (readSigned_at (u := u1) (v := (shift : Int)) hu (by omega) hfs (by rw [hsh]; exact hc2) ha9),
    if_neg (by omega)]
  simp only [update_bind, readTo_mapLpcp, Int.toNat_natCast]
  let u2 := u1.mapLpcp fun l => { l with shift := shift }
  obtain ⟨r', hr⟩ := repeatSigned_at (u := u2) (p := p + 4 + 5) (r := BitVec.ofInt 64 (shift : Int)) hu
    (by omega) hv hc3 (admissible_mono h (by omega))
  refine ⟨r', ?_⟩
  rw [bind_ok hr, show p + 4 + 5 + (coeff.flatMap (signedBits precision)).length
    = p + (4 + 5 + (coeff.flatMap (signedBits precision)).length) by omega]
  rfl

theorem lpcBody_at {c : Fin 8} {d : Nat} {o : Fin 32} {precision shift : Nat} {coeff xs : List Int}
    {sec : ResidualSection}
    (hu : u.curValid = true) (hd : DepthOk u.wide d) (hsub : u.sub[c].depth = d)
    (hl : (Body.lpc o precision shift coeff xs sec).legal u.params.narrowOverflow u.hdr.blocksize.toNat d = true)
    (hc : carries u.input p ((Body.lpc o precision shift coeff xs sec).bits d) = true)
    (h : u.admissible (p + ((Body.lpc o precision shift coeff xs sec).bits d).length)) :
    ∃ g f r', KeepsPlace g ∧ lpcBody c (o.val + 1) (u.readTo p r) =
      .ok () ((u.afterBody c g f (fun l => { l with precision := precision, shift := shift }.withCoeff coeff)
        (fun x => { x with type := .lpc, order := o.val + 1 }) xs).readTo
        (p + ((Body.lpc o precision shift coeff xs sec).bits d).length) r') := by
  generalize hk : o.val + 1 = k at *
  simp only [Body.legal, Bool.and_eq_true, decide_eq_true_eq, beq_iff_eq, List.all_eq_true, hk] at hl
  obtain ⟨⟨⟨⟨⟨⟨⟨⟨⟨hlen, hkn⟩, hfits⟩, hsec⟩, hp1⟩, hp15⟩, hsh⟩, hcl⟩, hcf⟩, hres⟩ := hl
  simp only [Body.bits, hk] at hc h ⊢
  rw [List.append_assoc, List.append_assoc, List.append_assoc, ← List.append_assoc (fieldBits 4 _),
    ← List.append_assoc (fieldBits 4 _ ++ _)] at hc
  simp only [List.length_append, fieldBits_length] at h
  rw [carries_append, Bool.and_eq_true] at hc
  obtain ⟨hc1, hc2⟩ := hc
  rw [carries_append, Bool.and_eq_true] at hc2
  obtain ⟨hc2, hc3⟩ := hc2
  have htl : (xs.take k).length = k := by simp; omega
  simp only [lpcBody, setType, updateSub, update_bind, readTo_mapSub]
  let u1 := u.mapSub c fun x => { x with type := .lpc, order := k }
  rw [bind_ok (checkOrder_ok (s := u1.readTo p r) hkn)]
  obtain ⟨r1, h1⟩ := warmUp_at (u := u1) (r := r) (c := c) (xs := xs.take k) hu hd
    (by simp only [u1, mapSub_get, hsub]) (fun v hv => hfits v (List.mem_of_mem_take hv)) hc1
    (admissible_mono h (by omega))
  rw [htl] at h1
  rw [bind_ok h1]
  let u2 := u1.writeCh c 0 (xs.take k)
  obtain ⟨r2, h2⟩ := lpcParameters_at (u := u2) (r := r1) hu hp1 hp15 hsh hcf hc2 (admissible_mono h (by omega))
  rw [hcl] at h2
  rw [bind_ok h2]
  let u3 := u2.mapLpcp fun l => { l with precision := precision, shift := shift }.withCoeff coeff
  simp only [List.length_append, fieldBits_length] at hc3
  obtain ⟨f, g, r3, hg, h3⟩ := decodeResidual_at (u := u3) (r := r2) (c := c) (sec := sec)
    (p := p + (List.flatMap (signedBits d) (List.take k xs)).length
      + (4 + 5 + (List.flatMap (signedBits precision) coeff).length))
    hu hsec hc3 (admissible_mono h (by omega))
  refine ⟨g, f, r3, fun q => ⟨(hg q).2.1, (hg q).2.2⟩, ?_⟩
  have hrl := residualsOf_length hres
  have hwalk := restoreWalk_residuals
    (f := lpcSample u.params.narrowOverflow u.wide (lpcPath d) coeff shift)
    (fun x hx h q hq => lpcSample_residual hd (hfits x (List.mem_of_mem_drop hx)) hq) hres
  have htk : ∀ l : LpcParams, (l.withCoeff coeff).coeff.toList.take k = coeff := fun l => by
    rw [← hcl]; exact l.withCoeff_take coeff (by omega)
  have h4 := restoreLpc_ok (s := (((u3.mapSeq g).mapRp f).writeCh c k sec.values).readTo (p + (List.flatMap (signedBits d) (List.take k xs)).length
      + (4 + 5 + (List.flatMap (signedBits precision) coeff).length) + sec.bits.length) r3) (c := c) (k := k) (d := d)
    (warm := xs.take k) (rs := sec.values)
    (by simp only [readTo_sub, writeCh_sub, mapRp_sub, mapSeq_sub, u3, u2, mapLpcp_sub, u1, mapSub_get, hsub]) htl
    (by
      simp only [readTo_hdr, writeCh_hdr, mapRp_hdr, mapSeq_hdr, u3, u2, u1, mapLpcp_hdr, mapSub_hdr, hrl,
        List.length_drop]
      omega)
    (by
      have := warm_residuals_hold u.ch c (xs.take k) sec.values
      rw [htl] at this
      simpa only [readTo_ch, writeCh_ch, mapRp_ch, mapSeq_ch, u3, u2, u1, mapLpcp_ch, mapSub_ch] using this)
    (by
      simpa only [readTo_params, writeCh_params, mapRp_params, mapSeq_params, u3, u2, u1, mapLpcp_params,
        mapSub_params, readTo_wide, writeCh_wide, mapRp_wide, mapSeq_wide, mapLpcp_wide, mapSub_wide, readTo_lpcp,
        writeCh_lpcp, mapRp_lpcp, mapSeq_lpcp, mapLpcp_lpcp, htk,
        LpcParams.withCoeff_shift] using hwalk)
  refine (bind_ok h3).trans (h4.trans ?_)
  have := writeCh_restored ((((u.mapSeq g).mapRp f).mapLpcp fun l =>
    { l with precision := precision, shift := shift }.withCoeff coeff).mapSub c fun x => { x with type := .lpc, order := k }) c
    k xs sec.values (by omega) hrl
  rw [readTo_writeCh]
  simp only [List.length_append, fieldBits_length]
  have hq : p + (List.flatMap (signedBits d) (List.take k xs)).length
      + (4 + 5 + (List.flatMap (signedBits precision) coeff).length) + sec.bits.length
      = p + ((List.flatMap (signedBits d) (List.take k xs)).length + 4 + 5
      + (List.flatMap (signedBits precision) coeff).length + sec.bits.length) := by omega
  rw [hq]
  generalize p + ((List.flatMap (signedBits d) (List.take k xs)).length + 4 + 5
      + (List.flatMap (signedBits precision) coeff).length + sec.bits.length) = q
  exact congrArg (fun t : State => EStateM.Result.ok () (t.readTo q r3)) this

/-- A body the stream carries (R223 to R228). -/
theorem body_at {c : Fin 8} {d : Nat} {b : Body} (hu : u.curValid = true) (hd : DepthOk u.wide d)
    (hsub : u.sub[c].depth = d) (hl : b.legal u.params.narrowOverflow u.hdr.blocksize.toNat d = true)
    (hc : carries u.input p (b.bits d) = true) (h : u.admissible (p + (b.bits d).length)) :
    ∃ g f r', KeepsPlace g ∧ b.op c (u.readTo p r) =
      .ok () ((u.afterBody c g f b.lpcp (fun x => { x with type := b.type, order := b.order })
        (b.samples u.hdr.blocksize.toNat)).readTo (p + (b.bits d).length) r') := by
  cases b with
  | constant v =>
    simp only [Body.bits, signedBits, fieldBits_length] at h
    have := constantBody_at (r := r) (c := c) hu rfl hd hsub hl hc h
    refine ⟨id, id, BitVec.ofInt 64 v, fun q => ⟨rfl, rfl⟩, ?_⟩
    simp only [Body.bits, signedBits, fieldBits_length]
    exact this
  | verbatim xs =>
    simp only [Body.legal, Bool.and_eq_true, beq_iff_eq, List.all_eq_true] at hl
    obtain ⟨r', hr⟩ := verbatimBody_at (r := r) (c := c) hu hl.1.symm hd hsub hl.2 hc h
    exact ⟨id, id, r', fun q => ⟨rfl, rfl⟩, hr⟩
  | fixed k xs sec => exact fixedBody_at hu hd hsub hl hc h
  | lpc o precision shift coeff xs sec => exact lpcBody_at hu hd hsub hl hc h

/-! ### The tag's operations -/

/-- Wasted bits and depth (R221, R222). -/
theorem depth_at {c : Fin 8} {base : Nat} {lay : SubframeLayout} (hu : u.curValid = true) (hb : u.seq.base = base)
    (hw : lay.wasted < base)
    (hc : carries u.input p (if lay.flag then unaryBits (lay.wasted - 1) else []) = true)
    (h : u.admissible (p + (if lay.flag then unaryBits (lay.wasted - 1) else []).length)) :
    ∃ r', (wastedBits c lay.flag >>= fun _ => effectiveDepth c) (u.readTo p r) =
      .ok () ((u.mapSub c fun x => { x with wasted := lay.wasted, depth := base - lay.wasted }).readTo
        (p + (if lay.flag then unaryBits (lay.wasted - 1) else []).length) r') := by
  rcases Bool.eq_false_or_eq_true lay.flag with hf | hf
  · have hpos : lay.wasted - 1 + 1 = lay.wasted := by
      simp only [SubframeLayout.flag, bne_iff_ne] at hf; omega
    rw [hf] at hc h ⊢
    simp only [if_true] at hc h ⊢
    simp only [unaryBits_length] at h ⊢
    have h1 := readUnary_at (r := r) hu hc h
    refine ⟨BitVec.ofNat 64 (lay.wasted - 1), ?_⟩
    have h2 : wastedBits c true (u.readTo p r) =
        .ok () ((u.mapSub c fun x => { x with wasted := lay.wasted }).readTo (p + (lay.wasted - 1 + 1))
          (BitVec.ofNat 64 (lay.wasted - 1))) := by
      simp only [wastedBits, if_true]
      rw [bind_ok h1, hpos]
      rfl
    rw [bind_ok h2]
    simp only [effectiveDepth, view_bind, readTo_seq, mapSub_seq, hb, readTo_sub, mapSub_get]
    rw [if_neg (by omega)]
    simp only [updateSub, update_apply, readTo_mapSub, mapSub_mapSub]
    rfl
  · have hz : lay.wasted = 0 := by simpa [SubframeLayout.flag] using hf
    rw [hf]
    refine ⟨r, ?_⟩
    have h2 : wastedBits c false (u.readTo p r) =
        .ok () ((u.mapSub c fun x => { x with wasted := lay.wasted }).readTo p r) := by
      rw [hz]; rfl
    rw [bind_ok h2]
    simp only [effectiveDepth, view_bind, readTo_seq, mapSub_seq, hb, readTo_sub, mapSub_get]
    rw [if_neg (by omega)]
    simp only [updateSub, update_apply, readTo_mapSub, mapSub_mapSub]
    rfl

/-- A subframe of order `k` from its wasted-bits code to its warm-up samples (R221, R222, R226, R228). -/
theorem warmed_at {c : Fin 8} {base wasted k : Nat} {ty : SubframeType} {warm : List Int} {pre : List Bool}
    (hu : u.curValid = true) (hbase : u.seq.base = base) (hd : DepthOk u.wide base) (hw : wasted < base)
    (hk : k ≤ u.hdr.blocksize.toNat) (hlen : warm.length = k) (hv : ∀ v ∈ warm, fitsBits (base - wasted) v = true)
    (hpre : pre = if wasted = 0 then [] else unaryBits (wasted - 1))
    (hc : carries u.input p (pre ++ warm.flatMap (signedBits (base - wasted))) = true)
    (ha : u.admissible (p + (pre ++ warm.flatMap (signedBits (base - wasted))).length)) :
    ∃ r', (do wastedBits c (wasted != 0); effectiveDepth c; setType c ty k; checkOrder k; warmUp c k : Op Unit)
        (u.readTo p r) =
      .ok () (((u.mapSub c fun _ => { type := ty, order := k, wasted := wasted, depth := base - wasted }).writeCh c 0
        warm).readTo (p + (pre ++ warm.flatMap (signedBits (base - wasted))).length) r') := by
  simp only [carries_append, Bool.and_eq_true, List.length_append] at hc ha ⊢
  let lay : SubframeLayout := { wasted := wasted, body := .constant 0 }
  have hwb : (if lay.flag then unaryBits (lay.wasted - 1) else []) = pre := by
    simp only [hpre, SubframeLayout.flag, bne_iff_ne, ite_not]; rfl
  obtain ⟨r1, h1⟩ := depth_at (u := u) (r := r) (c := c) (lay := lay) hu hbase hw (by rw [hwb]; exact hc.1)
    (by rw [hwb]; exact admissible_mono ha (by omega))
  rw [hwb] at h1
  have hassoc : (do wastedBits c (wasted != 0); effectiveDepth c; setType c ty k; checkOrder k; warmUp c k : Op Unit) =
      ((wastedBits c lay.flag >>= fun _ => effectiveDepth c) >>= fun _ =>
        setType c ty k >>= fun _ => checkOrder k >>= fun _ => warmUp c k) := by
    simp only [bind_assoc]; rfl
  rw [hassoc, bind_ok h1]
  simp only [setType, updateSub, update_bind, readTo_mapSub]
  obtain ⟨v, hv'⟩ : ∃ v, v = u.mapSub c fun _ =>
    { type := ty, order := k, wasted := wasted, depth := base - wasted } := ⟨_, rfl⟩
  have he : (u.mapSub c fun x => { x with wasted := lay.wasted, depth := base - lay.wasted }).mapSub c
      (fun x => { x with type := ty, order := k }) = v := by
    rw [hv', mapSub_mapSub]; rfl
  have k1 : v.curValid = true ∧ v.hdr = u.hdr ∧ v.input = u.input ∧ v.params = u.params ∧ v.wide = u.wide := by
    simp [hv', hu]
  rw [he, bind_ok (checkOrder_ok (by rw [readTo_hdr, k1.2.1]; exact hk)), ← hv']
  obtain ⟨r2, h2⟩ := warmUp_at (u := v) (r := r1) (c := c) (d := base - wasted) (xs := warm) (p := p + pre.length) k1.1
    (by rw [k1.2.2.2.2]; exact ⟨by have := hd.1; omega, fun e => by have := hd.2 e; omega⟩)
    (by simp only [hv', mapSub_get]) hv (by rw [k1.2.2.1]; exact hc.2)
    (by simp only [State.admissible, k1.2.2.2.1] at ha ⊢; rw [Nat.add_assoc]; exact ha)
  rw [hlen, Nat.add_assoc] at h2
  exact ⟨r2, h2⟩

theorem shl_fits {d w : Nat} {v : Int} (h : fitsBits d v = true) : fitsBits (d + w) (shl v w) = true := by
  simp only [fitsBits, Bool.and_eq_true, decide_eq_true_eq, shl] at *
  have he : (2 : Int) ^ (d + w - 1) = 2 ^ (d - 1) * 2 ^ w := by rw [← pow_add]; congr 1; omega
  have hp : (0 : Int) < 2 ^ w := by positivity
  rw [he]
  obtain ⟨⟨h1, h2⟩, h3⟩ := h
  have h1' : -(2 ^ (d - 1) * 2 ^ w) ≤ v * 2 ^ w := by nlinarith
  have h2' : v * 2 ^ w < 2 ^ (d - 1) * 2 ^ w := by nlinarith
  exact ⟨⟨decide_eq_true h1', decide_eq_true h2'⟩, by omega⟩

theorem mapOption_all {f : Int → Option Int} {g : Int → Int} {xs : List Int} (h : ∀ x ∈ xs, f x = some (g x)) :
    mapOption f xs = some (xs.map g) := by
  induction xs with
  | nil => rfl
  | cons x xs ih =>
    rw [mapOption, h x (List.mem_cons_self ..), ih fun y hy => h y (List.mem_cons_of_mem _ hy)]
    rfl

theorem shl_zero_map (xs : List Int) : xs.map (shl · 0) = xs := by simp [shl]

/-- The wasted-bits restore (R229). -/
theorem restoreWasted_ok {s : State} {c : Fin 8} {w : Nat} {xs : List Int} (hw : s.sub[c].wasted = w)
    (hn : s.hdr.blocksize.toNat = xs.length) (hh : s.ch.Holds c xs)
    (hst : ∀ x ∈ xs, store s.params.narrowOverflow s.wide (shl x w) = some (shl x w)) :
    restoreWasted c s = .ok () (if w = 0 then s else s.writeCh c 0 (xs.map (shl · w))) := by
  simp only [restoreWasted, view_bind, hw]
  by_cases h0 : w = 0
  · rw [if_pos h0, if_pos h0]; rfl
  · rw [if_neg h0, if_neg h0]
    simp only [view_bind, hn]
    rw [bind_ok (readSamples_ok hh), mapOption_all hst]
    rfl

theorem Body.legal_fits {b : Body} {mode : NarrowOverflow} {n d : Nat} (h : b.legal mode n d = true) :
    (b.samples n).length = n ∧ ∀ x ∈ b.samples n, fitsBits d x = true := by
  cases b with
  | constant v =>
    refine ⟨by simp [Body.samples], fun x hx => ?_⟩
    obtain rfl : x = v := (List.mem_replicate.mp hx).2
    exact h
  | verbatim xs =>
    simp only [Body.legal, Bool.and_eq_true, beq_iff_eq, List.all_eq_true] at h
    exact h
  | fixed k xs sec =>
    simp only [Body.legal, Bool.and_eq_true, beq_iff_eq, List.all_eq_true] at h
    exact ⟨h.1.1.1.1, h.1.1.2⟩
  | lpc o precision shift coeff xs sec =>
    simp only [Body.legal, Bool.and_eq_true, beq_iff_eq, List.all_eq_true] at h
    exact ⟨h.1.1.1.1.1.1.1.1.1, h.1.1.1.1.1.1.1.2⟩

/-- Everything after the tag of a subframe the stream carries (R220 to R229). -/
theorem subframeAfterTag_at {c : Fin 8} {base : Nat} {lay : SubframeLayout} (hu : u.curValid = true)
    (hch : u.seq.chan = c) (hb : u.seq.base = base) (hd : DepthOk u.wide base)
    (hl : lay.legal u.params.narrowOverflow u.hdr.blocksize.toNat base = true)
    (hc : carries u.input p (lay.bitsAfterTag base) = true) (h : u.admissible (p + (lay.bitsAfterTag base).length)) :
    ∃ g f r', KeepsPlace g ∧ subframeAfterTag lay.flag (fun c => lay.body.op c) (u.readTo p r) =
      .ok () ((u.afterBody c g f lay.body.lpcp (fun _ => lay.record base) (lay.samples u.hdr.blocksize.toNat)).readTo
        (p + (lay.bitsAfterTag base).length) r') := by
  simp only [SubframeLayout.legal, Bool.and_eq_true, decide_eq_true_eq] at hl
  obtain ⟨hw, hbody⟩ := hl
  simp only [SubframeLayout.bitsAfterTag, carries_append, Bool.and_eq_true, List.length_append] at hc h
  obtain ⟨r1, h1⟩ := depth_at (r := r) (c := c) hu hb hw hc.1 (admissible_mono h (by omega))
  let u1 := u.mapSub c fun x => { x with wasted := lay.wasted, depth := base - lay.wasted }
  have hdd : DepthOk u1.wide (base - lay.wasted) :=
    ⟨by have := hd.1; omega, fun e => by have := hd.2 e; omega⟩
  have hs1 : u1.sub[c].depth = base - lay.wasted := by simp only [u1, mapSub_get]
  obtain ⟨g, f, r2, hg, h2⟩ := body_at (u := u1) (r := r1) (c := c) (b := lay.body) hu hdd hs1 hbody hc.2
    (by rw [Nat.add_assoc]; exact h)
  refine ⟨g, f, r2, hg, ?_⟩
  obtain ⟨hlen, hfits⟩ := Body.legal_fits hbody
  have hs2 := restoreWasted_ok (c := c) (w := lay.wasted) (xs := lay.body.samples u.hdr.blocksize.toNat)
    (s := (u1.afterBody c g f lay.body.lpcp (fun x => { x with type := lay.body.type, order := lay.body.order })
      (lay.body.samples u1.hdr.blocksize.toNat)).readTo (p + (if lay.flag then unaryBits (lay.wasted - 1) else []).length
        + (lay.body.bits (base - lay.wasted)).length) r2)
    (by simp only [readTo_sub, State.afterBody, writeCh_sub, mapSub_get, mapLpcp_sub, mapRp_sub, mapSeq_sub, u1])
    (by simp only [readTo_hdr, State.afterBody, writeCh_hdr, mapSub_hdr, mapLpcp_hdr, mapRp_hdr, mapSeq_hdr, u1, hlen])
    (by simpa only [readTo_ch, State.afterBody, writeCh_ch, u1, mapSub_hdr] using write_holds _ c _)
    (fun x hx => by
      have hx' := shl_fits (w := lay.wasted) (hfits x hx)
      rw [show base - lay.wasted + lay.wasted = base by omega] at hx'
      simp only [readTo_params, readTo_wide, State.afterBody, writeCh_params, writeCh_wide, mapSub_params, mapSub_wide,
        mapLpcp_params, mapLpcp_wide, mapRp_params, mapRp_wide, mapSeq_params, mapSeq_wide, u1]
      exact store_of_bits hd hx')
  simp only [subframeAfterTag, view_bind, readTo_seq, hch]
  have h1' : (wastedBits c lay.flag >>= fun _ => effectiveDepth c >>= fun _ => lay.body.op c >>= fun _ => restoreWasted c)
      (u.readTo p r) = ((wastedBits c lay.flag >>= fun _ => effectiveDepth c) >>= fun _ => lay.body.op c >>= fun _ =>
        restoreWasted c) (u.readTo p r) := by
    simp only [bind_assoc]
  refine h1'.trans ((bind_ok h1).trans ((bind_ok h2).trans (hs2.trans ?_)))
  simp only [SubframeLayout.bitsAfterTag, List.length_append, Nat.add_assoc]
  have hbs : (fun _ => lay.record base) = (fun x : Subframe => { x with type := lay.body.type, order := lay.body.order })
      ∘ (fun x : Subframe => { x with wasted := lay.wasted, depth := base - lay.wasted }) := rfl
  rw [hbs, ← afterBody_mapSub]
  by_cases h0 : lay.wasted = 0
  · rw [if_pos h0]
    simp only [SubframeLayout.samples, h0, shl_zero_map]
    simp only [u1, mapSub_hdr, h0]
  · rw [if_neg h0, readTo_writeCh, afterBody_writeCh _ _ _ _ _ _ _ _ (by simp [u1])]
    rfl

/-! ### The tag -/

theorem Body.typeCode_lt (b : Body) : b.typeCode < 64 := by
  cases b with
  | constant v => simp [Body.typeCode]
  | verbatim xs => simp [Body.typeCode]
  | fixed k xs sec => simp only [Body.typeCode]; omega
  | lpc o precision shift coeff xs sec => simp only [Body.typeCode]; omega

/-- The tests of R223 select a body's operation from its type code. -/
theorem classify_typeCode (b : Body) (c : Fin 8) : classify (BitVec.ofNat 6 b.typeCode) c = b.op c := by
  cases b with
  | constant v => rfl
  | verbatim xs => rfl
  | fixed k xs sec =>
    have hk : ∀ k : Fin 5, BitVec.ofNat 6 (8 + k.val) ≠ 0 ∧ BitVec.ofNat 6 (8 + k.val) ≠ 1
        ∧ (BitVec.ofNat 6 (8 + k.val)).getLsbD 5 = false
        ∧ ((BitVec.ofNat 6 (8 + k.val)).getLsbD 3 && !(BitVec.ofNat 6 (8 + k.val)).getLsbD 4) = true
        ∧ ((BitVec.ofNat 6 (8 + k.val)).extractLsb' 0 3).toNat = k.val := by decide
    obtain ⟨h0, h1, h5, h3, ho⟩ := hk k
    simp only [classify, Body.typeCode, if_neg h0, if_neg h1, h5, h3, ho, Bool.false_eq_true, if_false, if_true]
    rfl
  | lpc o precision shift coeff xs sec =>
    have hk : ∀ o : Fin 32, BitVec.ofNat 6 (32 + o.val) ≠ 0 ∧ BitVec.ofNat 6 (32 + o.val) ≠ 1
        ∧ (BitVec.ofNat 6 (32 + o.val)).getLsbD 5 = true
        ∧ ((BitVec.ofNat 6 (32 + o.val)).extractLsb' 0 5).toNat = o.val := by decide
    obtain ⟨h0, h1, h5, ho⟩ := hk o
    simp only [classify, Body.typeCode, if_neg h0, if_neg h1, h5, ho, if_true]
    rfl

/-- The tag byte of a subframe (R102). -/
theorem subframeTag_layout (lay : SubframeLayout) :
    subframeTag (BitVec.ofNat 8 (2 * lay.body.typeCode + lay.flag.toNat)) =
      subframeAfterTag lay.flag fun c => lay.body.op c := by
  have h7 : ∀ t : Fin 64, ∀ w : Bool, (BitVec.ofNat 8 (2 * t.val + w.toNat)).getLsbD 7 = false
      ∧ (BitVec.ofNat 8 (2 * t.val + w.toNat)).getLsbD 0 = w
      ∧ (BitVec.ofNat 8 (2 * t.val + w.toNat)).extractLsb' 1 6 = BitVec.ofNat 6 t.val := by decide
  obtain ⟨h1, h2, h3⟩ := h7 ⟨lay.body.typeCode, lay.body.typeCode_lt⟩ lay.flag
  simp only at h1 h2 h3
  rw [subframeTag, h1, h2, h3]
  simp only [Bool.false_eq_true, if_false]
  congr 1
  funext c
  exact classify_typeCode lay.body c

theorem tag_bits (t : Fin 64) (w : Bool) : false :: fieldBits 6 t.val ++ [w] = fieldBits 8 (2 * t.val + w.toNat) := by
  revert t w; decide

theorem SubframeLayout.bits_eq (base : Nat) (lay : SubframeLayout) :
    lay.bits base = fieldBits 8 (2 * lay.body.typeCode + lay.flag.toNat) ++ lay.bitsAfterTag base := by
  rw [← tag_bits ⟨lay.body.typeCode, lay.body.typeCode_lt⟩]
  simp [SubframeLayout.bits]

/-- A subframe the stream carries (R220). -/
theorem decodeSubframe_at {c : Fin 8} {base : Nat} {lay : SubframeLayout} (hu : u.curValid = true)
    (hd : DepthOk u.wide base)
    (hl : lay.legal u.params.narrowOverflow u.hdr.blocksize.toNat base = true)
    (hc : carries u.input p (lay.bits base) = true) (h : u.admissible (p + (lay.bits base).length)) :
    ∃ g f r', (∀ q, (g q).start = q.start) ∧ decodeSubframe c base (u.readTo p r) =
      .ok () ((u.afterBody c g f lay.body.lpcp (fun _ => lay.record base) (lay.samples u.hdr.blocksize.toNat)).readTo
        (p + (lay.bits base).length) r') := by
  rw [SubframeLayout.bits_eq] at hc h ⊢
  simp only [carries_append, Bool.and_eq_true, fieldBits_length, List.length_append] at hc h ⊢
  simp only [decodeSubframe, updateSeq, update_bind, readTo_mapSeq]
  let u1 := u.mapSeq fun q => { q with chan := c, base := base }
  have htag : 2 * lay.body.typeCode + lay.flag.toNat < 2 ^ 8 := by
    have := lay.body.typeCode_lt
    have := Bool.toNat_lt lay.flag
    omega
  obtain ⟨g, f, r', hg, hr⟩ := subframeAfterTag_at (u := u1) (r := BitVec.ofNat 64 (2 * lay.body.typeCode + lay.flag.toNat))
    (c := c) (base := base) (lay := lay) hu rfl rfl hd hl hc.2 (by rw [Nat.add_assoc]; exact h)
  refine ⟨fun q => g { q with chan := c, base := base }, f, r', fun q => (hg _).2, ?_⟩
  rw [bind_ok (readBits_at (u := u1) hu (by omega) htag hc.1 (admissible_mono h (by omega))), subframeTag_layout, hr,
    Nat.add_assoc]
  rfl

/-- The row of a body's tag runs the body's operation. -/
theorem exec_row (b : Body) (w : Bool) (s : State) :
    exec (b.row w) s = needCursor s (runField .frame (subframeAfterTag w fun c => b.op c) s) := by
  cases b with
  | constant v => rfl
  | verbatim xs => rfl
  | fixed k xs sec => fin_cases k <;> rfl
  | lpc o precision shift coeff xs sec =>
    have : (BitVec.ofNat 5 o.val).toNat = o.val := by simp
    simp only [Body.row, exec, execSubframeLpc, this]
    rfl

end

end Sys2Proof.Machine
end

