-- ==== Sys2Proof/Laws/FrameDecoder.lean ====
section
/-! SUPPORT. A frame the stream carries is decoded to its samples (48_frame_decoder.md); the stereo transform
(46_decorrelator.md). -/

namespace Sys2Proof.Machine

/-! ### Channels -/

theorem write_comm (f : ChannelFile) {c d : Fin 8} (h : c ≠ d) (i j : Nat) (vs ws : List Int) :
    (f.write c i vs).write d j ws = (f.write d j ws).write c i vs := by
  have hv : c.val ≠ d.val := fun e => h (Fin.ext e)
  simp only [ChannelFile.write]
  congr 1
  apply Vector.ext
  intro k hk
  have e1 : (f.cells.set c.val (writeAt f.cells[c] i vs))[d] = f.cells[d] := by
    simp [hv]
  have e2 : (f.cells.set d.val (writeAt f.cells[d] j ws))[c] = f.cells[c] := by
    simp [hv.symm]
  rw [e1, e2]
  simp only [Vector.getElem_set]
  by_cases h1 : c.val = k <;> by_cases h2 : d.val = k <;> simp_all

theorem write_other_holds {f : ChannelFile} {c d : Fin 8} {xs : List Int} (h : c ≠ d) (vs : List Int)
    (hf : f.Holds d xs) : (f.write c 0 vs).Holds d xs := by
  have hv : c.val ≠ d.val := fun e => h (Fin.ext e)
  intro j hj
  have e1 : (f.write c 0 vs).cells[d] = f.cells[d] := by simp [ChannelFile.write, hv]
  rw [e1]
  exact hf j hj

/-! ### The stereo transform -/

theorem zipOption_length {α : Type} {f : Int → Int → Option α} {xs ys : List Int} {zs : List α}
    (h : zipOption f xs ys = some zs) (hl : xs.length = ys.length) : zs.length = xs.length := by
  induction xs generalizing ys zs with
  | nil => cases ys <;> simp_all [zipOption]
  | cons x xs ih =>
    cases ys with
    | nil => simp at hl
    | cons y ys =>
      simp only [zipOption] at h
      split at h
      · cases h
      · split at h
        · cases h
        · next zs' hz =>
          obtain rfl := Option.some.inj h
          simp [ih hz (by simpa using hl)]

/-- Two channels side by side. -/
theorem holding_two (x y : List Int) :
    ChannelFile.holding [x, y] = (ChannelFile.unwritten.write 0 0 x).write 1 0 y := rfl

/-- `decorrelate` on a stereo frame whose two channels are held (R322 to R324). -/
theorem decorrelateOp_ok {s : State} {chans outs : List (List Int)}
    (hch : s.ch = ChannelFile.holding chans) (hn : ∀ x ∈ chans, x.length = s.hdr.blocksize.toNat)
    (h2 : s.hdr.assignment ≠ .independent → chans.length = 2)
    (hout : decorrelated s.params.narrowOverflow s.wide s.hdr.assignment chans = some outs) :
    decorrelateOp s = .ok () (s.withBuffers s.wide (ChannelFile.holding outs)) := by
  simp only [decorrelateOp, view_bind]
  by_cases ha : s.hdr.assignment = .independent
  · rw [ha] at hout ⊢
    have : chans = outs := by simpa [decorrelated] using hout
    rw [← this, ← hch]
    simp only [State.withBuffers, pure_apply]
  · obtain ⟨x, y, rfl⟩ : ∃ x y, chans = [x, y] := by
      have := h2 ha
      match chans, this with
      | [x, y], _ => exact ⟨x, y, rfl⟩
    have hx := hn x (by simp)
    have hy := hn y (by simp)
    have hx0 : s.ch.Holds 0 x := by
      rw [hch, holding_two]
      exact write_other_holds (by decide) _ (write_holds _ _ _)
    have hy0 : s.ch.Holds 1 y := by
      rw [hch, holding_two]
      exact write_holds _ _ _
    have rx : readSamples 0 s.hdr.blocksize.toNat s = .ok x s := by rw [← hx]; exact readSamples_ok hx0
    have ry : readSamples 1 s.hdr.blocksize.toNat s = .ok y s := by rw [← hy]; exact readSamples_ok hy0
    cases hs : s.hdr.assignment with
    | independent => exact absurd hs ha
    | leftSide =>
      rw [hs] at hout
      simp only [decorrelated, Option.map_eq_some_iff] at hout
      obtain ⟨z, hz, rfl⟩ := hout
      have hzl := zipOption_length hz (hx.trans hy.symm)
      simp only
      rw [bind_ok rx, bind_ok ry, hz, orRaise_some, bind_ok (pure_apply _ _)]
      simp only [writeSamples, update_apply, State.writeCh, State.withBuffers, hch, holding_two]
      rw [write_over _ _ _ _ _ (by rw [hzl, hx, hy])]
    | rightSide =>
      rw [hs] at hout
      simp only [decorrelated, Option.map_eq_some_iff] at hout
      obtain ⟨z, hz, rfl⟩ := hout
      have hzl := zipOption_length hz (hx.trans hy.symm)
      simp only
      rw [bind_ok rx, bind_ok ry, hz, orRaise_some, bind_ok (pure_apply _ _)]
      simp only [writeSamples, update_apply, State.writeCh, State.withBuffers, hch, holding_two]
      rw [write_comm _ (by decide : (1 : Fin 8) ≠ 0), write_over _ _ _ _ _ hzl.symm]
    | midSide =>
      rw [hs] at hout
      simp only [decorrelated, Option.map_eq_some_iff] at hout
      obtain ⟨z, hz, rfl⟩ := hout
      have hzl := zipOption_length hz (hx.trans hy.symm)
      simp only
      rw [bind_ok rx, bind_ok ry, hz, orRaise_some, bind_ok (pure_apply _ _)]
      simp only [writeSamples, update_bind, update_apply, State.writeCh, State.withBuffers, hch, holding_two]
      rw [write_comm _ (by decide : (1 : Fin 8) ≠ 0), write_over _ _ _ _ _ (by rw [List.length_map, hzl, hx, hy]),
        write_over _ _ _ _ _ (by rw [List.length_map, hzl])]

/-- `decorrelate` on a stereo frame one of whose values cannot be stored (R303). -/
theorem decorrelateOp_none {s : State} {chans : List (List Int)}
    (hch : s.ch = ChannelFile.holding chans) (hn : ∀ x ∈ chans, x.length = s.hdr.blocksize.toNat)
    (h2 : s.hdr.assignment ≠ .independent → chans.length = 2)
    (hout : decorrelated s.params.narrowOverflow s.wide s.hdr.assignment chans = none) :
    decorrelateOp s = .error (.raise .arithmeticOverflow) s := by
  have ha : s.hdr.assignment ≠ .independent := fun e => by rw [e] at hout; cases hout
  obtain ⟨x, y, rfl⟩ : ∃ x y, chans = [x, y] := by
    match chans, h2 ha with
    | [x, y], _ => exact ⟨x, y, rfl⟩
  have hx := hn x (by simp)
  have hy := hn y (by simp)
  have rx : readSamples 0 s.hdr.blocksize.toNat s = .ok x s := by
    rw [← hx]
    exact readSamples_ok (by rw [hch, holding_two]; exact write_other_holds (by decide) _ (write_holds _ _ _))
  have ry : readSamples 1 s.hdr.blocksize.toNat s = .ok y s := by
    rw [← hy]
    exact readSamples_ok (by rw [hch, holding_two]; exact write_holds _ _ _)
  simp only [decorrelateOp, view_bind]
  cases hs : s.hdr.assignment with
  | independent => exact absurd hs ha
  | leftSide | rightSide | midSide =>
    rw [hs] at hout
    simp only [decorrelated, Option.map_eq_none_iff] at hout
    simp only
    rw [bind_ok rx, bind_ok ry, hout, orRaise_none]
    exact bind_error rfl

/-! ### The subframes of a frame -/

/-- What a list of decoded subframes leaves in LPCP, SUB and CH. -/
def State.afterSubframes (h : Header) (s : State) (cfs : List (Fin 8 × SubframeLayout)) : State :=
  { s with
    lpcp := cfs.foldl (fun l cf => cf.2.body.lpcp l) s.lpcp
    sub := cfs.foldl (fun v cf => v.set cf.1 (cf.2.record (baseDepth h cf.1))) s.sub
    ch := cfs.foldl (fun f cf => f.write cf.1 0 (cf.2.samples h.blocksize.toNat)) s.ch }

theorem afterBody_afterSubframes (h : Header) (u : State) (c : Fin 8) (lay : SubframeLayout)
    (cfs : List (Fin 8 × SubframeLayout)) (g1 g2 : Sequencer → Sequencer) (f1 f2 : ResidualParams → ResidualParams) :
    (((u.afterBody c g1 f1 lay.body.lpcp (fun _ => lay.record (baseDepth h c)) (lay.samples h.blocksize.toNat)).mapSeq
      g2).mapRp f2).afterSubframes h cfs = ((u.mapSeq (g2 ∘ g1)).mapRp (f2 ∘ f1)).afterSubframes h ((c, lay) :: cfs) := by
  simp only [State.afterSubframes, State.afterBody, State.mapSeq, State.mapRp, State.mapLpcp, State.mapSub,
    State.writeCh, List.foldl_cons, Function.comp]

/-- The depths of a frame of at most 32 bits per sample fit its buffers (R363, R364). -/
theorem baseDepth_ok {h : Header} (hb : h.bps.toNat ≤ 32) (c : Fin 8) : DepthOk (wideOf h) (baseDepth h c) := by
  have hs : isSide h.assignment c = true → h.assignment ≠ .independent := by
    intro e ea
    simp [ea, isSide] at e
  simp only [DepthOk, wideOf, baseDepth, decide_eq_false_iff_not]
  split
  · next e =>
    have : sideBit h.assignment = 1 := if_neg (hs e)
    omega
  · refine ⟨by omega, fun _ => hb⟩

/-- The subframes of a frame, in channel order (R365). -/
theorem frameSubframes_at {cfs : List (Fin 8 × SubframeLayout)} {u : State} {p : Nat} {r : Word64} {h : Header}
    (hu : u.curValid = true) (hh : u.hdr = h) (hw : u.wide = wideOf h) (hb : h.bps.toNat ≤ 32)
    (hl : ∀ cf ∈ cfs, cf.2.legal u.params.narrowOverflow h.blocksize.toNat (baseDepth h cf.1) = true)
    (hc : carries u.input p (cfs.flatMap fun cf => cf.2.bits (baseDepth h cf.1)) = true)
    (hadm : u.admissible (p + (cfs.flatMap fun cf => cf.2.bits (baseDepth h cf.1)).length)) :
    ∃ g f r', (∀ q, (g q).start = q.start) ∧ forEach (cfs.map Prod.fst) frameSubframe (u.readTo p r) =
      .ok () ((((u.mapSeq g).mapRp f).afterSubframes h cfs).readTo
        (p + (cfs.flatMap fun cf => cf.2.bits (baseDepth h cf.1)).length) r') := by
  induction cfs generalizing u p r with
  | nil => exact ⟨id, id, r, fun q => rfl, rfl⟩
  | cons cf cfs ih =>
    obtain ⟨c, lay⟩ := cf
    simp only [List.flatMap_cons, carries_append, Bool.and_eq_true, List.length_append] at hc hadm ⊢
    have e1 : frameSubframe c (u.readTo p r) = decodeSubframe c (baseDepth h c) (u.readTo p r) := by
      simp only [frameSubframe, view_bind, readTo_hdr, hh]
    obtain ⟨g1, f1, r1, hg1, h1⟩ := decodeSubframe_at (u := u) (p := p) (r := r) (c := c) (base := baseDepth h c)
      (lay := lay) hu (by rw [hw]; exact baseDepth_ok hb c) (by rw [hh]; exact hl (c, lay) (List.mem_cons_self ..)) hc.1
      (admissible_mono hadm (by omega))
    rw [hh] at h1
    obtain ⟨u1, hu1⟩ : ∃ x, x = u.afterBody c g1 f1 lay.body.lpcp (fun _ => lay.record (baseDepth h c))
      (lay.samples h.blocksize.toNat) := ⟨_, rfl⟩
    have k1 : u1.curValid = true ∧ u1.input = u.input ∧ u1.params = u.params ∧ u1.hdr = u.hdr ∧ u1.wide = u.wide := by
      simp [hu1, State.afterBody, hu]
    obtain ⟨g2, f2, r2, hg2, h2⟩ := ih (u := u1) (p := p + (lay.bits (baseDepth h c)).length) (r := r1) k1.1
      (k1.2.2.2.1.trans hh) (k1.2.2.2.2.trans hw)
      (fun cf hcf => by rw [k1.2.2.1]; exact hl cf (List.mem_cons_of_mem _ hcf)) (by rw [k1.2.1]; exact hc.2)
      (by simp only [State.admissible, k1.2.2.1] at hadm ⊢; rw [Nat.add_assoc]; exact hadm)
    refine ⟨g2 ∘ g1, f2 ∘ f1, r2, fun q => (hg2 _).trans (hg1 q), ?_⟩
    rw [List.map_cons, forEach, bind_ok (e1.trans h1), ← hu1, h2, hu1, afterBody_afterSubframes, Nat.add_assoc]

theorem zip_map_fst {α β : Type} (xs : List α) (ys : List β) : (xs.zip ys).map Prod.fst = xs.take ys.length := by
  induction xs generalizing ys with
  | nil => simp
  | cons x xs ih => cases ys <;> simp [ih]

/-- CH after the subframes of a frame. -/
theorem foldl_write_samples (n : Nat) (cs : List (Fin 8)) (subframes : List SubframeLayout) (f : ChannelFile) :
    (cs.zip subframes).foldl (fun f cf => f.write cf.1 0 (cf.2.samples n)) f =
      (cs.zip (subframes.map (·.samples n))).foldl (fun f cx => f.write cx.1 0 cx.2) f := by
  induction cs generalizing subframes f with
  | nil => rfl
  | cons c cs ih => cases subframes <;> simp [ih]

/-! ### The frame -/

theorem SubframeLayout.samples_length {mode : NarrowOverflow} {n base : Nat} {lay : SubframeLayout}
    (h : lay.legal mode n base = true) : (lay.samples n).length = n := by
  simp only [SubframeLayout.legal, Bool.and_eq_true] at h
  simp [SubframeLayout.samples, (Body.legal_fits h.2).1]

theorem cursorNew_ok {s : State} {off : Nat} (h : s.admissible off) :
    cursorNew off s = .ok () ((startAttempt s).readTo off s.res) := by
  simp only [cursorNew, update_bind]
  exact setPos_ok _ h

theorem frameStart_ok {s : State} {a : Nat} (h : s.admissible (8 * a)) :
    frameStart a s = .ok () ((startAttempt (s.withBuffers false s.ch)).readTo (8 * a) s.res) :=
  cursorNew_ok (s := s.withBuffers false s.ch) h

/-- What a legal frame's bits and bytes are. -/
theorem FrameLayout.lengths {p : Params} {si : StreamInfo} {f : FrameLayout} (h : f.legal p si = true) :
    8 * f.length si = (f.dataBits si).length + f.padding.length + 16 := by
  simp only [FrameLayout.legal, Bool.and_eq_true, beq_iff_eq, List.length_append] at h
  simp only [FrameLayout.length, FrameLayout.bits, List.length_append, fieldBits_length]
  omega

theorem channelsOf_le {chn : BitVec 4} {n : Nat} {x : Assignment} (h : channelsOf chn = some (n, x)) :
    1 ≤ n ∧ n ≤ 8 ∧ (x ≠ .independent → n = 2) := by
  revert n x
  revert chn
  rintro ⟨chn⟩ n x h
  fin_cases chn <;> simp [channelsOf] at h <;> obtain ⟨rfl, rfl⟩ := h <;> simp

/-- The state of a frame whose header is parsed and whose buffers are chosen (R362, R363), but for the cursor. -/
def FrameLayout.begun (f : FrameLayout) (g : Sequencer → Sequencer) (s : State) : State :=
  (((((startAttempt s).mapHdr fun _ => f.record s.streamInfo).mapSeq g).withOk true).withFState .headerParsed).withBuffers
    (wideOf (f.record s.streamInfo)) ChannelFile.unwritten

theorem begun_facts (f : FrameLayout) (g : Sequencer → Sequencer) (s : State) :
    (f.begun g s).curValid = true ∧ (f.begun g s).input = s.input ∧ (f.begun g s).params = s.params
      ∧ (f.begun g s).hdr = f.record s.streamInfo ∧ (f.begun g s).wide = wideOf (f.record s.streamInfo)
      ∧ (f.begun g s).seq = g s.seq :=
  ⟨rfl, rfl, rfl, rfl, rfl, rfl⟩

/-- Steps 1 to 3 of `decode_frame` where the stream carries a legal header at byte `a` (R361 to R363). -/
theorem frameBegin_at {s : State} {f : FrameLayout} {a : Nat} (hl : f.header.legal s.streamInfo = true)
    (hc : carries s.input (8 * a) (f.header.bits ++ fieldBits 8 f.crc8.toNat) = true)
    (hadm : s.admissible (8 * a + 8 * f.header.length))
    (h8 : s.params.checkCrc8 = true → crc8Of (bytesAt s.input a (f.header.length - 1)) = f.crc8) :
    ∃ g, (∀ q, (g q).start = a) ∧ ∀ k : Op Unit,
      (do frameStart a; parseHeader; selectWide; k : Op Unit) s =
        k ((f.begun g s).readTo (8 * a + 8 * f.header.length) (f.crc8.setWidth 64)) := by
  obtain ⟨g, hg, e1⟩ := parseHeader_at (u := startAttempt (s.withBuffers false s.ch)) (p := 8 * a) (r := s.res)
    (lay := f.header) (crc := f.crc8) (a := a) rfl rfl hl hc hadm h8
  refine ⟨g, hg, fun k => ?_⟩
  rw [bind_ok (frameStart_ok (admissible_mono hadm (by omega))), bind_ok e1]
  rfl

/-- What the steps up to the footer leave of a frame whose names were written by `g` and RP by `h`, but for the cursor. -/
def FrameLayout.read (f : FrameLayout) (g : Sequencer → Sequencer) (h : ResidualParams → ResidualParams) (s : State) :
    State :=
  ((((f.begun g s).mapRp h).afterSubframes (f.record s.streamInfo) f.channels).withFState .subframesDecoded)

theorem read_facts (f : FrameLayout) (g : Sequencer → Sequencer) (h : ResidualParams → ResidualParams) (s : State) :
    (f.read g h s).curValid = true ∧ (f.read g h s).input = s.input ∧ (f.read g h s).params = s.params
      ∧ (f.read g h s).hdr = f.record s.streamInfo ∧ (f.read g h s).wide = wideOf (f.record s.streamInfo)
      ∧ (f.read g h s).seq = g s.seq
      ∧ (f.read g h s).ch = ChannelFile.holding (f.subframes.map (·.samples (f.record s.streamInfo).blocksize.toNat)) := by
  obtain ⟨b1, b2, b3, b4, b5, b6⟩ := begun_facts f g s
  refine ⟨b1, b2, b3, b4, b5, b6, ?_⟩
  simp only [FrameLayout.read, withFState_ch, State.afterSubframes, mapRp_ch, FrameLayout.begun, withBuffers_ch,
    FrameLayout.channels, foldl_write_samples, ChannelFile.holding]

/-- Steps 1 to 7 of `decode_frame` on a frame the stream carries at byte `a` (R361 to R367). -/
theorem frameRead_at {s : State} {f : FrameLayout} {a : Nat}
    (hl : f.legal s.params s.streamInfo = true)
    (hc : carries s.input (8 * a) (f.bits s.streamInfo) = true)
    (hadm : s.admissible (8 * a + 8 * f.length s.streamInfo))
    (h8 : s.params.checkCrc8 = true → crc8Of (bytesAt s.input a (f.header.length - 1)) = f.crc8) :
    ∃ g h, (∀ q, (g q).start = a) ∧ ∀ k : Op Unit,
      (do frameStart a; parseHeader; selectWide; frameSubframes; flush; discard (readBits 16); k : Op Unit) s =
        k ((f.read g h s).readTo (8 * a + 8 * f.length s.streamInfo) (BitVec.ofNat 64 f.crc16.toNat)) := by
  have hlen := f.lengths hl
  simp only [FrameLayout.legal, Bool.and_eq_true, beq_iff_eq, decide_eq_true_eq, List.all_eq_true] at hl
  obtain ⟨⟨⟨⟨⟨⟨hhdr, hb1⟩, hb32⟩, hnum⟩, hsubs⟩, hpad⟩, halign⟩ := hl
  simp only [List.length_append] at halign
  have hhl := hhdr
  simp only [HeaderLayout.legal, Bool.and_eq_true, decide_eq_true_eq] at hhl
  have hcont : f.header.cont ≤ 6 := by have := hhl.1.1.1.2; split at this <;> omega
  have hlen8 := f.header.length_eq hcont
  have hadm' : ∀ {v : State} {n}, v.params = s.params → n ≤ 8 * a + 8 * f.length s.streamInfo → v.admissible n :=
    fun {v n} hv hn => by simp only [State.admissible, hv] at hadm ⊢; omega
  have hlb : (f.dataBits s.streamInfo).length = 8 * f.header.length + (f.channels.flatMap fun cf =>
      cf.2.bits (baseDepth (f.record s.streamInfo) cf.1)).length := by
    simp only [FrameLayout.dataBits, List.length_append, fieldBits_length]; omega
  simp only [FrameLayout.bits, FrameLayout.dataBits, carries_append, Bool.and_eq_true, List.length_append,
    fieldBits_length] at hc
  obtain ⟨⟨⟨⟨hc1, hc2⟩, hc3⟩, _⟩, hc5⟩ := hc
  -- the header and the buffers
  obtain ⟨g1, hg1, e1⟩ := frameBegin_at (s := s) (f := f) (a := a) hhdr
    (by rw [carries_append, Bool.and_eq_true]; exact ⟨hc1, hc2⟩) (hadm' rfl (by omega)) h8
  obtain ⟨u1, hu1⟩ : ∃ x, x = f.begun g1 s := ⟨_, rfl⟩
  rw [← hu1] at e1
  have k1 : u1.curValid = true ∧ u1.input = s.input ∧ u1.params = s.params ∧ u1.hdr = f.record s.streamInfo
      ∧ u1.wide = wideOf (f.record s.streamInfo) ∧ u1.seq.start = a := by
    obtain ⟨b1, b2, b3, b4, b5, b6⟩ := begun_facts f g1 s
    rw [hu1]
    exact ⟨b1, b2, b3, b4, b5, (congrArg Sequencer.start b6).trans (hg1 _)⟩
  -- the subframes
  have hsum : 8 * a + (f.header.bits.length + 8) = 8 * a + 8 * f.header.length := by omega
  rw [hsum] at hc3
  obtain ⟨g2, f2, r2, hg2, e3⟩ := frameSubframes_at (cfs := f.channels) (u := u1) (p := 8 * a + 8 * f.header.length)
    (r := f.crc8.setWidth 64) (h := f.record s.streamInfo) k1.1 k1.2.2.2.1 k1.2.2.2.2.1 hb32
    (fun cf hcf => by rw [k1.2.2.1]; exact hsubs cf hcf) (by rw [k1.2.1]; exact hc3) (hadm' k1.2.2.1 (by omega))
  have hfst : f.channels.map Prod.fst = frameChannels (f.record s.streamInfo) := by
    rw [FrameLayout.channels, zip_map_fst, hnum, frameChannels]
  obtain ⟨u2, hu2⟩ : ∃ x, x = (((u1.mapSeq g2).mapRp f2).afterSubframes (f.record s.streamInfo) f.channels).withFState
    .subframesDecoded := ⟨_, rfl⟩
  obtain ⟨q, hq⟩ : ∃ q, q = 8 * a + 8 * f.header.length + (f.channels.flatMap fun cf =>
      cf.2.bits (baseDepth (f.record s.streamInfo) cf.1)).length := ⟨_, rfl⟩
  rw [← hq] at e3
  have e4 : frameSubframes (u1.readTo (8 * a + 8 * f.header.length) (f.crc8.setWidth 64)) = .ok () (u2.readTo q r2) := by
    simp only [frameSubframes, view_bind, readTo_hdr, k1.2.2.2.1]
    rw [← hfst, bind_ok e3, hu2]
    rfl
  have k2 : u2.curValid = true ∧ u2.input = s.input ∧ u2.params = s.params ∧ u2.hdr = f.record s.streamInfo
      ∧ u2.wide = wideOf (f.record s.streamInfo) ∧ u2.seq.start = a := by
    simp [hu2, State.afterSubframes, k1, hg2]
  -- padding and footer
  have hflush := flush_ok (s := u2.readTo q r2) (ready_at k2.1 (hadm' k2.2.2.1 (by omega)))
    (hadm' (by rw [readTo_params]; exact k2.2.2.1) (by rw [readTo_position]; omega))
  have hq2 : (q + 7) / 8 * 8 = 8 * a + (8 * f.length s.streamInfo - 16) := by omega
  rw [readTo_position, readTo_moveTo, hq2] at hflush
  have e5 := readBits_at (u := u2) (p := 8 * a + (8 * f.length s.streamInfo - 16)) (r := r2) (n := 16)
    (v := f.crc16.toNat) k2.1 (by omega) f.crc16.isLt
    (by
      rw [k2.2.1]
      have : 8 * a + (8 * f.length s.streamInfo - 16) = 8 * a + (f.header.bits.length + 8 + (f.channels.flatMap
        fun cf => cf.2.bits (baseDepth (f.record s.streamInfo) cf.1)).length + f.padding.length) := by omega
      rw [this]; exact hc5)
    (hadm' k2.2.2.1 (by omega))
  have hend : 8 * a + (8 * f.length s.streamInfo - 16) + 16 = 8 * a + 8 * f.length s.streamInfo := by omega
  rw [hend] at e5
  refine ⟨g2 ∘ g1, f2, fun q => (hg2 _).trans (hg1 q), fun k => ?_⟩
  rw [e1, bind_ok e4, bind_ok hflush, bind_ok (discard_ok e5), hu2, hu1]
  rfl

/-- The channels of a legal frame: one for each subframe, at most 8, two under a stereo assignment, each of the block's
length. -/
theorem FrameLayout.legal_channels {p : Params} {si : StreamInfo} {f : FrameLayout} (h : f.legal p si = true) :
    f.subframes.length = (f.record si).channels.toNat ∧ (f.record si).channels.toNat ≤ 8
      ∧ ((f.record si).assignment ≠ .independent → f.subframes.length = 2)
      ∧ ∀ x ∈ f.subframes.map (·.samples (f.record si).blocksize.toNat), x.length = (f.record si).blocksize.toNat := by
  simp only [FrameLayout.legal, Bool.and_eq_true, beq_iff_eq, decide_eq_true_eq, List.all_eq_true] at h
  obtain ⟨⟨⟨⟨⟨⟨hhdr, -⟩, -⟩, hnum⟩, hsubs⟩, -⟩, -⟩ := h
  simp only [HeaderLayout.legal, Bool.and_eq_true, decide_eq_true_eq] at hhdr
  obtain ⟨⟨nch, asg⟩, hchn⟩ := Option.isSome_iff_exists.mp hhdr.1.1.1.1.1.2
  obtain ⟨hn1, hn8, hn2⟩ := channelsOf_le hchn
  have hrch : (f.record si).channels.toNat = nch ∧ (f.record si).assignment = asg := by
    simp [FrameLayout.record, HeaderLayout.record, hchn]; omega
  refine ⟨hnum, by omega, fun ha => by rw [hnum, hrch.1]; exact hn2 (hrch.2 ▸ ha), fun x hx => ?_⟩
  obtain ⟨lay, hlay, rfl⟩ := List.mem_map.mp hx
  obtain ⟨i, hi, rfl⟩ := List.mem_iff_getElem.mp hlay
  have hi8 : i < 8 := by omega
  have hmem : (⟨i, hi8⟩, f.subframes[i]) ∈ f.channels := by
    refine List.mem_iff_getElem.mpr ⟨i, by simp [FrameLayout.channels]; omega, ?_⟩
    simp [FrameLayout.channels]
  exact SubframeLayout.samples_length (hsubs _ hmem)

/-- Step 8 where the checksum of the frame's bytes is 0 (R368). -/
theorem frameChecksum_at {u : State} {a n : Nat} {r : Word64} (hs : u.seq.start = a) (hc : a + n ≤ u.params.cap)
    (h16 : crc16Of (bytesAt u.input a n) = 0) :
    frameChecksum (u.readTo (8 * a + 8 * n) r) = .ok () ((u.withFState .verified).readTo (8 * a + 8 * n) 0) := by
  have hdiv : (8 * a + 8 * n) / 8 = a + n := by omega
  simp only [frameChecksum, view_bind, readTo_seq, hs, readTo_byte, hdiv, Nat.add_sub_cancel_left]
  rw [bind_ok (crc16Op_ok (by rw [readTo_params]; exact hc)), readTo_input, h16, if_neg (by simp)]
  rfl

/-- Step 8 where it is not. -/
theorem frameChecksum_wrong {u : State} {a n : Nat} {r : Word64} (hs : u.seq.start = a) (hc : a + n ≤ u.params.cap)
    (h16 : crc16Of (bytesAt u.input a n) ≠ 0) :
    frameChecksum (u.readTo (8 * a + 8 * n) r) = .error (.raise .frameChecksumMismatch)
      (u.readTo (8 * a + 8 * n) ((crc16Of (bytesAt u.input a n)).setWidth 64)) := by
  have hdiv : (8 * a + 8 * n) / 8 = a + n := by omega
  simp only [frameChecksum, view_bind, readTo_seq, hs, readTo_byte, hdiv, Nat.add_sub_cancel_left]
  rw [bind_ok (crc16Op_ok (by rw [readTo_params]; exact hc)), readTo_input, if_pos h16]
  rfl

/-- The steps of `decode_frame` on a frame the stream carries at byte `a` (R361 to R370). -/
theorem frameSteps_at {s : State} {f : FrameLayout} {a : Nat} {outs : List (List Int)}
    (hl : f.legal s.params s.streamInfo = true)
    (hc : carries s.input (8 * a) (f.bits s.streamInfo) = true)
    (hadm : s.admissible (8 * a + 8 * f.length s.streamInfo))
    (h8 : s.params.checkCrc8 = true → crc8Of (bytesAt s.input a (f.header.length - 1)) = f.crc8)
    (h16 : crc16Of (bytesAt s.input a (f.length s.streamInfo)) = 0)
    (hout : f.samples s.params s.streamInfo = some outs) :
    ∃ rp t, frameSteps a s = .ok () t ∧ dropCursor t = f.after outs rp s := by
  obtain ⟨g, h, hg, e1⟩ := frameRead_at hl hc hadm h8
  obtain ⟨hnum, -, h2, hall⟩ := FrameLayout.legal_channels hl
  obtain ⟨-, k2, k3, k4, k5, k6, k7⟩ := read_facts f g h s
  have e6 := frameChecksum_at (u := f.read g h s) (a := a) (n := f.length s.streamInfo)
    (r := BitVec.ofNat 64 f.crc16.toNat) ((congrArg Sequencer.start k6).trans (hg _))
    (by rw [k3]; simp only [State.admissible] at hadm; omega) (by rw [k2]; exact h16)
  have e7 := decorrelateOp_ok (s := ((f.read g h s).withFState .verified).readTo (8 * a + 8 * f.length s.streamInfo) 0)
    (outs := outs) (by rw [readTo_ch, withFState_ch]; exact k7)
    (by rw [readTo_hdr, withFState_hdr, k4]; exact hall)
    (by rw [readTo_hdr, withFState_hdr, k4, List.length_map]; exact h2)
    (by rw [readTo_hdr, withFState_hdr, readTo_params, withFState_params, readTo_wide, withFState_wide, k4, k3, k5]
        exact hout)
  have hdiv : (8 * a + 8 * f.length s.streamInfo) / 8 = a + f.length s.streamInfo := by omega
  refine ⟨h s.rp, ((((f.read g h s).withFState .verified).readTo (8 * a + 8 * f.length s.streamInfo) 0).withBuffers
    (wideOf (f.record s.streamInfo)) (ChannelFile.holding outs)).withRes (BitVec.ofNat 64 (f.length s.streamInfo)), ?_, ?_⟩
  · simp only [frameSteps]
    rw [e1, bind_ok e6, bind_ok e7, readTo_wide, withFState_wide, k5]
    simp only [frameLength, view_bind, setRes, update_apply, withBuffers_byte, withBuffers_seq, readTo_byte, readTo_seq,
      withFState_seq, k6, hg, hdiv, Nat.add_sub_cancel_left]
  · simp only [FrameLayout.after, dropCursor, State.withRes, State.withBuffers, State.readTo, State.moveTo,
      State.withFState, FrameLayout.read, FrameLayout.begun, State.afterSubframes, State.mapSeq, State.mapRp, State.mapHdr,
      State.withOk, startAttempt, FrameLayout.descriptors, FrameLayout.lpcp]

end Sys2Proof.Machine
end

