-- ==== Sys2Proof/Laws/Cut.lean ====
section
/-! SUPPORT. A stream cut short (40_bitcursor.md rule R133): an operation whose fields begin as the stream says, and end past
the last admissible position, raises BufferOverrun. One lemma for each operation that has an `_at` lemma, under the same
hypotheses with `begins` for `carries`. -/

namespace Sys2Proof.Machine

section
variable {α β : Type}

/-- The step raises BufferOverrun. -/
def Op.Overruns (x : Op α) (s : State) : Prop := ∃ t, x s = .error (.raise .bufferOverrun) t

theorem Op.Overruns.bind {x : Op α} {f : α → Op β} {s : State} (h : x.Overruns s) : (x >>= f).Overruns s :=
  let ⟨t, ht⟩ := h
  ⟨t, bind_error ht⟩

/-- A step that answers hands on the overrun of what follows. -/
theorem overruns_after {x : Op α} {f : α → Op β} {s t : State} {a : α} (h : x s = .ok a t) (hf : (f a).Overruns t) :
    (x >>= f).Overruns s := by
  obtain ⟨u, hu⟩ := hf
  exact ⟨u, (bind_ok h).trans hu⟩

theorem Op.Overruns.discard {x : Op α} {s : State} (h : x.Overruns s) : (discard x : Op PUnit).Overruns s :=
  let ⟨t, ht⟩ := h
  ⟨t, discard_error ht⟩

/-! ### Bits that begin -/

theorem begins_append (m : Memory) (cap p : Nat) (as bs : List Bool) :
    begins m cap p (as ++ bs) = (begins m cap p as && begins m cap (p + as.length) bs) := by
  induction as generalizing p with
  | nil => simp [begins]
  | cons a as ih =>
    simp only [List.cons_append, begins, ih, List.length_cons, Bool.and_assoc]
    rw [Nat.add_assoc, Nat.add_comm 1]

/-- Bits that begin and end at an admissible position are carried. -/
theorem carries_of_begins {s : State} {p : Nat} {bs : List Bool} (hb : begins s.input s.params.cap p bs = true)
    (h : s.admissible (p + bs.length)) : carries s.input p bs = true := by
  induction bs generalizing p with
  | nil => rfl
  | cons b bs ih =>
    rw [List.length_cons] at h
    have ha : s.admissible (p + 1) := admissible_mono h (by omega)
    simp only [begins, ha, decide_true, Bool.not_true, Bool.false_or, Bool.and_eq_true] at hb
    simp only [carries, Bool.and_eq_true]
    exact ⟨hb.1, ih hb.2 (by rw [Nat.add_assoc, Nat.add_comm 1]; exact h)⟩

/-- Carried bits begin. -/
theorem begins_of_carries {s : State} {p : Nat} {bs : List Bool} (h : carries s.input p bs = true) :
    begins s.input s.params.cap p bs = true := by
  induction bs generalizing p with
  | nil => rfl
  | cons b bs ih =>
    simp only [carries, Bool.and_eq_true] at h
    simp only [begins, h.1, Bool.or_true, Bool.true_and]
    exact ih h.2

end

section
variable {α : Type} {u : State} {p : Nat} {r : Word64}

/-! ### Fields -/

theorem readBits_cut {n : Nat} (hu : u.curValid = true) (hn : n ≤ 32) (hp : u.admissible p) (h : ¬u.admissible (p + n)) :
    (readBits n).Overruns (u.readTo p r) := by
  obtain ⟨b, o, c, e⟩ := readBits_error (s := u.readTo p r) (ready_at hu hp) hn (by rw [readTo_position]; exact h)
  exact ⟨_, e⟩

theorem readChunks_cut {rounds rem v : Nat} (hu : u.curValid = true) (hr : rem ≤ rounds) (hp : u.admissible p)
    (h : ¬u.admissible (p + rem)) : (readChunks rounds rem v).Overruns (u.readTo p r) := by
  induction rounds generalizing p r rem v with
  | zero =>
    obtain rfl : rem = 0 := by omega
    exact absurd hp h
  | succ rounds ih =>
    simp only [readChunks]
    have h0 : rem ≠ 0 := by rintro rfl; exact h hp
    have hk : 1 ≤ min 24 rem ∧ min 24 rem ≤ rem ∧ min 24 rem ≤ 24 := by omega
    rw [if_neg h0]
    generalize min 24 rem = k at hk
    by_cases ha : u.admissible (p + k)
    · have e := readBits_ok (s := u.readTo p r) (n := k) (ready_at hu hp) (by omega) (by rw [readTo_position]; exact ha)
      simp only [readTo_position, readTo_readTo] at e
      exact overruns_after e (ih (by omega) ha (by rwa [show p + k + (rem - k) = p + rem by omega]))
    · exact (readBits_cut hu (by omega) hp ha).bind

theorem readBits64_cut {n : Nat} (hu : u.curValid = true) (hp : u.admissible p) (h : ¬u.admissible (p + n)) :
    (readBits64 n).Overruns (u.readTo p r) :=
  (readChunks_cut hu (Nat.le_refl n) hp h).bind

theorem readSigned_cut {n : Nat} (hu : u.curValid = true) (hn : n ≤ 32) (hp : u.admissible p)
    (h : ¬u.admissible (p + n)) : (readSigned n).Overruns (u.readTo p r) :=
  (readBits_cut hu hn hp h).bind

theorem readSigned64_cut {n : Nat} (hu : u.curValid = true) (hp : u.admissible p) (h : ¬u.admissible (p + n)) :
    (readSigned64 n).Overruns (u.readTo p r) :=
  (readBits64_cut hu hp h).bind

/-- Zeros to the last admissible position, in as many rounds as one likes. -/
theorem unaryLoop_cut {rounds q z : Nat} (hu : u.curValid = true) (hp : u.admissible p)
    (hz : ∀ j, u.admissible (p + j + 1) → j < z → streamBit u.input (p + j) = false) (h : ¬u.admissible (p + z + 1)) :
    (unaryLoop rounds q).Overruns (u.readTo p r) := by
  induction rounds generalizing p r q z with
  | zero => exact ⟨_, rfl⟩
  | succ rounds ih =>
    simp only [unaryLoop]
    by_cases ha : u.admissible (p + 1)
    · have e := readBits_ok (s := u.readTo p r) (n := 1) (ready_at hu hp) (by omega) (by rw [readTo_position]; exact ha)
      have hz0 : z ≠ 0 := by rintro rfl; exact h ha
      simp only [readTo_position, readTo_readTo, readTo_input, window_one] at e
      have h0 := hz 0 ha (by omega)
      rw [Nat.add_zero] at h0
      rw [h0] at e
      refine overruns_after e ?_
      rw [Bool.toNat_false, if_pos rfl]
      exact ih (z := z - 1) ha (fun j hj hlt => by
          rw [show p + 1 + j = p + (j + 1) by omega]
          exact hz (j + 1) (by rwa [show p + (j + 1) + 1 = p + 1 + j + 1 by omega]) (by omega))
        (by rwa [show p + 1 + (z - 1) + 1 = p + z + 1 by omega])
    · exact (readBits_cut hu (by omega) hp ha).bind

theorem begins_zeros {q j : Nat} (hb : begins u.input u.params.cap p (unaryBits q) = true) (ha : u.admissible (p + j + 1)) (hj : j < q) :
    streamBit u.input (p + j) = false := by
  induction q generalizing p j with
  | zero => omega
  | succ q ih =>
    have hu : unaryBits (q + 1) = false :: unaryBits q := by simp [unaryBits, List.replicate_succ]
    rw [hu] at hb
    simp only [begins, Bool.and_eq_true, Bool.or_eq_true, Bool.not_eq_true', decide_eq_false_iff_not,
      beq_iff_eq] at hb
    cases j with
    | zero => exact hb.1.resolve_left fun h => h ha
    | succ j =>
      rw [show p + (j + 1) = p + 1 + j by omega]
      exact ih hb.2 (by rwa [show p + 1 + j + 1 = p + (j + 1) + 1 by omega]) (by omega)

theorem readUnary_cut {q : Nat} (hu : u.curValid = true) (hp : u.admissible p) (hb : begins u.input u.params.cap p (unaryBits q) = true)
    (h : ¬u.admissible (p + (q + 1))) : readUnary.Overruns (u.readTo p r) := by
  simp only [readUnary]
  rw [Op.Overruns, view_bind]
  exact unaryLoop_cut hu hp (fun j ha hj => begins_zeros hb ha hj) h

/-- Codes one after another: the first that leaves the stream raises. -/
theorem repeatOp_cut {read : Op α} {bits : α → List Bool} (vs : List α)
    (hread : ∀ v ∈ vs, ∀ p r, carries u.input p (bits v) = true → u.admissible (p + (bits v).length) →
      ∃ r', read (u.readTo p r) = .ok v (u.readTo (p + (bits v).length) r'))
    (hcut : ∀ v ∈ vs, ∀ p r, u.admissible p → begins u.input u.params.cap p (bits v) = true → ¬u.admissible (p + (bits v).length) →
      read.Overruns (u.readTo p r))
    (hp : u.admissible p) (hb : begins u.input u.params.cap p (vs.flatMap bits) = true) (h : ¬u.admissible (p + (vs.flatMap bits).length)) :
    (repeatOp vs.length read).Overruns (u.readTo p r) := by
  induction vs generalizing p r with
  | nil => exact absurd hp h
  | cons v vs ih =>
    simp only [List.flatMap_cons, begins_append, Bool.and_eq_true, List.length_append] at hb h
    rw [List.length_cons, repeatOp]
    by_cases ha : u.admissible (p + (bits v).length)
    · obtain ⟨r', e⟩ := hread v (List.mem_cons_self ..) p r (carries_of_begins hb.1 ha) ha
      exact overruns_after e (ih (fun w hw => hread w (List.mem_cons_of_mem _ hw))
        (fun w hw => hcut w (List.mem_cons_of_mem _ hw)) ha hb.2 (by rwa [Nat.add_assoc])).bind
    · exact (hcut v (List.mem_cons_self ..) p r hp hb.1 ha).bind

theorem repeatSigned_cut {w : Nat} {vs : List Int} (hu : u.curValid = true) (hw : w ≤ 32)
    (hv : ∀ v ∈ vs, fitsBits w v = true) (hp : u.admissible p) (hb : begins u.input u.params.cap p (vs.flatMap (signedBits w)) = true)
    (h : ¬u.admissible (p + (vs.flatMap (signedBits w)).length)) :
    (repeatOp vs.length (readSigned w)).Overruns (u.readTo p r) :=
  repeatOp_cut vs
    (fun v hm p r hc h => ⟨_, by simpa using readSigned_at (r := r) hu hw (hv v hm) hc (by simpa using h)⟩)
    (fun v hm p r hp hb h => readSigned_cut hu hw hp (by simpa using h)) hp hb h

theorem flush_cut {s : State} (h : ¬s.admissible ((s.position + 7) / 8 * 8)) (hp : s.admissible s.position) :
    flush.Overruns s := by
  simp only [flush, Op.Overruns, view_bind]
  have h0 : s.bit.val ≠ 0 := fun h0 => h (by
    rwa [show (s.position + 7) / 8 * 8 = s.position by simp only [State.position]; omega])
  rw [if_neg h0]
  exact ⟨_, advance_error (by
    rwa [show s.position + (8 - s.bit.val) = (s.position + 7) / 8 * 8 by simp only [State.position]; omega])⟩

/-! ### Residuals -/

/-- A Rice code cut short, whatever its value (R255). -/
theorem riceResidual_cut {kk q x : Nat} (hu : u.curValid = true) (hk : kk ≤ 32) (hp : u.admissible p)
    (hb : begins u.input u.params.cap p (unaryBits q ++ fieldBits kk x) = true) (h : ¬u.admissible (p + (q + 1 + kk))) :
    (riceResidual kk).Overruns (u.readTo p r) := by
  simp only [begins_append, Bool.and_eq_true, unaryBits_length] at hb
  simp only [riceResidual]
  by_cases ha : u.admissible (p + (q + 1))
  · refine overruns_after (readUnary_at hu (carries_of_begins (s := u) hb.1 (by simpa using ha)) ha) ?_
    have h0 : kk ≠ 0 := by rintro rfl; exact h (by simpa using ha)
    rw [if_neg h0]
    exact (readBits_cut hu hk ha (by rwa [Nat.add_assoc])).bind
  · exact (readUnary_cut hu hp hb.1 ha).bind

/-- Rice codes of good values, and then any Rice code: they leave the stream. -/
theorem repeatRice_cut {kk q x n : Nat} {vs : List Int} (hu : u.curValid = true) (hk : kk ≤ 32)
    (hv : ∀ v ∈ vs, fits32 v = true) (hn : vs.length < n) (hp : u.admissible p)
    (hb : begins u.input u.params.cap p (vs.flatMap (riceBits kk) ++ unaryBits q ++ fieldBits kk x) = true)
    (h : ¬u.admissible (p + (vs.flatMap (riceBits kk) ++ unaryBits q ++ fieldBits kk x).length)) :
    (repeatOp n (riceResidual kk)).Overruns (u.readTo p r) := by
  rw [List.append_assoc] at hb h
  obtain ⟨n, rfl⟩ : ∃ m, n = m + 1 := ⟨n - 1, by omega⟩
  induction vs generalizing p r n with
  | nil =>
    rw [repeatOp]
    exact (riceResidual_cut hu hk hp hb (by simpa using h)).bind
  | cons v vs ih =>
    simp only [List.flatMap_cons, List.append_assoc] at hb h
    rw [begins_append, Bool.and_eq_true] at hb
    rw [List.length_append] at h
    have hv0 := hv v (List.mem_cons_self ..)
    rw [repeatOp]
    by_cases ha : u.admissible (p + (riceBits kk v).length)
    · obtain ⟨r', e⟩ := riceResidual_at (r := r) hu hk hv0 (carries_of_begins hb.1 ha) ha
      rw [List.length_cons] at hn
      obtain ⟨n, rfl⟩ : ∃ m, n = m + 1 := ⟨n - 1, by omega⟩
      exact overruns_after e (ih (fun w hw => hv w (List.mem_cons_of_mem _ hw)) ha hb.2
        (by rwa [Nat.add_assoc]) n (by omega)).bind
    · exact (riceResidual_cut hu hk hp hb.1 (by rwa [riceBits_length] at ha)).bind

theorem ricePartition_cut {kk q x : Nat} {vs : List Int} (hu : u.curValid = true) (hk : kk ≤ 32)
    (hv : ∀ v ∈ vs, fits32 v = true) (hn : vs.length < u.partitionSize) (hp : u.admissible p)
    (hb : begins u.input u.params.cap p (vs.flatMap (riceBits kk) ++ unaryBits q ++ fieldBits kk x) = true)
    (h : ¬u.admissible (p + (vs.flatMap (riceBits kk) ++ unaryBits q ++ fieldBits kk x).length)) :
    (ricePartition kk).Overruns (u.readTo p r) := by
  simp only [ricePartition, updateRp, Op.Overruns, update_bind, view_bind, readTo_mapRp]
  exact (repeatRice_cut (u := u.mapRp fun p => { p with param := kk }) hu hk hv hn hp
    hb h).bind

theorem escapePartition_cut {w esc : Nat} {vs : List Int} (hu : u.curValid = true) (hw : w < 32)
    (hv : ∀ v ∈ vs, if w = 0 then v = 0 else fitsBits w v = true) (hn : vs.length = u.partitionSize) (hp : u.admissible p)
    (hb : begins u.input u.params.cap p (fieldBits 5 w ++ vs.flatMap (signedBits w)) = true)
    (h : ¬u.admissible (p + (fieldBits 5 w ++ vs.flatMap (signedBits w)).length)) :
    (escapePartition esc).Overruns (u.readTo p r) := by
  simp only [begins_append, Bool.and_eq_true, List.length_append, fieldBits_length] at hb h
  simp only [escapePartition, updateRp, Op.Overruns, update_bind, readTo_mapRp]
  let u1 := u.mapRp fun p => { p with param := esc }
  by_cases ha : u.admissible (p + 5)
  · have e := readBits_at (u := u1) (r := r) (v := w) hu (by omega) (by omega)
      (carries_of_begins (s := u) hb.1 (by simpa using ha)) ha
    refine overruns_after e ?_
    simp only [update_bind, view_bind, readTo_mapRp, Op.Overruns]
    let u2 := u1.mapRp fun p => { p with escapeWidth := w }
    have hsz : State.partitionSize (u2.readTo (p + 5) (BitVec.ofNat 64 w)) = vs.length := hn.symm
    rw [hsz]
    have h0 : w ≠ 0 := by
      rintro rfl
      refine h ?_
      have : (vs.flatMap (signedBits 0)).length = 0 := by simp [signedBits, fieldBits]
      rwa [this]
    rw [if_neg h0]
    exact (repeatSigned_cut (u := u2) hu (by omega) (fun v hm => by have := hv v hm; rwa [if_neg h0] at this) ha
      hb.2 (by rwa [Nat.add_assoc])).bind
  · exact (readBits_cut (u := u1) hu (by omega) hp ha).bind

/-- A partition cut short (R253). -/
theorem decodePartition_cut {j pb : Nat} {q : Partition} (hu : u.curValid = true)
    (hpbe : u.rp.paramBits = pb) (hpb : pb = 4 ∨ pb = 5) (hq : q.codable pb = true)
    (hn : q.values.length = partitionSize u.hdr.blocksize.toNat u.rp.partitionOrder u.seq.order j)
    (hp : u.admissible p) (hb : begins u.input u.params.cap p (q.bits pb) = true) (h : ¬u.admissible (p + (q.bits pb).length)) :
    (decodePartition j).Overruns (u.readTo p r) := by
  obtain ⟨coding, vs⟩ := q
  simp only [decodePartition, updateSeq, Op.Overruns, update_bind, view_bind, readTo_mapSeq, readTo_rp, mapSeq_rp, hpbe]
  have hpb32 : pb ≤ 32 := by omega
  let u1 := u.mapSeq fun q => { q with part := j }
  by_cases ha : u.admissible (p + pb)
  · cases coding with
    | rice k =>
      simp only [Partition.codable, Bool.and_eq_true, decide_eq_true_eq, List.all_eq_true] at hq
      simp only [Partition.bits, begins_append, Bool.and_eq_true, fieldBits_length, List.length_append] at hb h
      have e := readBits_at (u := u1) (r := r) (v := k) hu hpb32 (by omega)
        (carries_of_begins (s := u) hb.1 (by simpa using ha)) ha
      refine overruns_after e ?_
      rw [if_neg (by omega)]
      simp only [ricePartition, updateRp, Op.Overruns, update_bind, view_bind, readTo_mapRp]
      let u2 := u1.mapRp fun x => { x with param := k }
      have hsz : State.partitionSize (u2.readTo (p + pb) (BitVec.ofNat 64 k)) = vs.length := hn.symm
      rw [hsz]
      have hk32 : k ≤ 32 := by rcases hpb with rfl | rfl <;> omega
      exact (repeatOp_cut (u := u2) (bits := riceBits k) vs
        (fun v hv p r hcv hav => riceResidual_at hu hk32 (hq.2 v hv) hcv hav)
        (fun v hv p r hpv hbv hav => riceResidual_cut hu hk32 hpv hbv (by rwa [riceBits_length] at hav)) ha
        hb.2 (by rwa [Nat.add_assoc])).bind
    | escape w =>
      simp only [Partition.codable, Bool.and_eq_true, decide_eq_true_eq, List.all_eq_true] at hq
      simp only [Partition.bits, List.append_assoc] at hb h
      rw [begins_append, Bool.and_eq_true, fieldBits_length] at hb
      rw [List.length_append, fieldBits_length] at h
      have hesc : 2 ^ pb - 1 < 2 ^ pb := by have := Nat.two_pow_pos pb; omega
      have e := readBits_at (u := u1) (r := r) (v := 2 ^ pb - 1) hu hpb32 hesc
        (carries_of_begins (s := u) hb.1 (by simpa using ha)) ha
      refine overruns_after e ?_
      rw [if_pos rfl]
      exact escapePartition_cut (u := u1) (w := w) hu hq.1 (fun v hv => by have := hq.2 v hv; split at this <;> simp_all) hn ha
        hb.2 (by rwa [Nat.add_assoc])
  · exact (readBits_cut (u := u1) hu hpb32 hp ha).bind

/-- The partitions from index `j` on, cut short. -/
theorem partitions_cut {parts : List Partition} {j n po k pb : Nat} (hu : u.curValid = true)
    (hn : u.hdr.blocksize.toNat = n) (hpo : u.rp.partitionOrder = po) (hk : u.seq.order = k) (hpbe : u.rp.paramBits = pb)
    (hpb : pb = 4 ∨ pb = 5) (hq : ∀ q ∈ parts, q.codable pb = true)
    (hsz : ∀ i (h : i < parts.length), parts[i].values.length = partitionSize n po k (j + i))
    (hp : u.admissible p) (hb : begins u.input u.params.cap p (parts.flatMap (Partition.bits pb)) = true)
    (h : ¬u.admissible (p + (parts.flatMap (Partition.bits pb)).length)) :
    (forEach (List.range' j parts.length) decodePartition).Overruns (u.readTo p r) := by
  induction parts generalizing u j p r with
  | nil => exact absurd hp h
  | cons q parts ih =>
    simp only [List.flatMap_cons, begins_append, Bool.and_eq_true, List.length_append] at hb h
    have h0 : q.values.length = partitionSize n po k j := hsz 0 (by simp)
    have h0' : q.values.length = partitionSize u.hdr.blocksize.toNat u.rp.partitionOrder u.seq.order j := by
      rw [hn, hpo, hk]; exact h0
    rw [List.length_cons, List.range'_succ, forEach]
    by_cases ha : u.admissible (p + (q.bits pb).length)
    · obtain ⟨f1, r1, hf1, h1⟩ := decodePartition_at (j := j) (r := r) hu hpbe hpb (hq q (List.mem_cons_self ..))
        h0' (carries_of_begins hb.1 ha) ha
      exact overruns_after h1 (ih (u := u.afterPartition j f1 q.values) (j := j + 1) hu hn
        ((hf1 _).2.2.trans hpo) hk ((hf1 _).2.1.trans hpbe) (fun q' hq' => hq q' (List.mem_cons_of_mem _ hq'))
        (fun i hi => by
          have := hsz (i + 1) (by simpa using hi)
          rw [show j + 1 + i = j + (i + 1) by omega]; exact this)
        ha hb.2 (by rw [Nat.add_assoc]; exact h))
    · exact (decodePartition_cut hu hpbe hpb (hq q (List.mem_cons_self ..)) h0' hp hb.1 ha).bind

/-- A residual section cut short (R250 to R257). -/
theorem decodeResidual_cut {c : Fin 8} {k : Nat} {sec : ResidualSection} (hu : u.curValid = true)
    (hl : sec.legal u.hdr.blocksize.toNat k = true) (hp : u.admissible p) (hb : begins u.input u.params.cap p sec.bits = true)
    (h : ¬u.admissible (p + sec.bits.length)) : (decodeResidual c k).Overruns (u.readTo p r) := by
  obtain ⟨method, order, parts⟩ := sec
  simp only [ResidualSection.legal, Bool.and_eq_true, decide_eq_true_eq, beq_iff_eq, List.all_eq_true] at hl
  obtain ⟨⟨⟨⟨hm, ho⟩, hfit⟩, hsizes⟩, hcod⟩ := hl
  simp only [ResidualSection.bits, begins_append, Bool.and_eq_true, fieldBits_length, List.length_append] at hb h
  obtain ⟨⟨hb1, hb2⟩, hb3⟩ := hb
  simp only [decodeResidual, updateSeq, Op.Overruns, update_bind, readTo_mapSeq]
  let u1 := u.mapSeq fun q => { q with chan := c, order := k }
  by_cases ha2 : u.admissible (p + 2)
  · refine overruns_after (readBits_at (u := u1) (r := r) (v := method) hu (by omega) (by omega)
      (carries_of_begins (s := u) hb1 (by simpa using ha2)) ha2) ?_
    rw [if_neg (by omega)]
    simp only [setMethod, updateRp, Op.Overruns, update_bind, readTo_mapRp]
    let u2 := u1.mapRp fun x => { x with method := method, paramBits := 4 + method }
    by_cases ha6 : u.admissible (p + 2 + 4)
    · refine overruns_after (readBits_at (u := u2) (v := order) hu (by omega) (by omega)
        (carries_of_begins (s := u) hb2 (by simpa using ha6)) ha6) ?_
      simp only [Op.Overruns, update_bind, view_bind, readTo_mapRp]
      let u3 := u2.mapRp fun x => { x with partitionOrder := order }
      rw [if_pos (by exact hfit)]
      have hlen : parts.length = 2 ^ order := by simpa using congrArg List.length hsizes
      rw [List.range_eq_range', ← hlen]
      exact partitions_cut (u := u3) (j := 0) (pb := 4 + method) hu rfl rfl rfl rfl (by omega) hcod
        (fun i hi => by
          have := congrArg (fun l => l[i]?) hsizes
          simp only [List.getElem?_map, List.getElem?_eq_getElem hi, Option.map_some] at this
          rw [List.getElem?_range (by omega)] at this
          simp only [Option.map_some, Option.some.injEq] at this
          rw [Nat.zero_add]; exact this)
        ha6 (by rw [Nat.add_assoc]; exact hb3)
        (by rw [Nat.add_assoc p, Nat.add_assoc p]; exact h)
    · exact (readBits_cut (u := u2) hu (by omega) ha2 ha6).bind
  · exact (readBits_cut (u := u1) hu (by omega) hp ha2).bind

/-! ### Subframes -/

theorem readSample_cut {d : Nat} (hu : u.curValid = true) (hd : DepthOk u.wide d) (hp : u.admissible p)
    (h : ¬u.admissible (p + d)) : (readSample d).Overruns (u.readTo p r) := by
  simp only [readSample, Op.Overruns, view_bind]
  rcases Bool.eq_false_or_eq_true u.wide with hw | hw
  · rw [if_pos (by exact hw)]; exact readSigned64_cut hu hp h
  · rw [if_neg (by rw [readTo_wide, hw]; exact Bool.false_ne_true)]; exact readSigned_cut hu (hd.2 hw) hp h

theorem repeatSample_cut {d : Nat} {vs : List Int} (hu : u.curValid = true) (hd : DepthOk u.wide d)
    (hv : ∀ v ∈ vs, fitsBits d v = true) (hp : u.admissible p)
    (hb : begins u.input u.params.cap p (vs.flatMap (signedBits d)) = true)
    (h : ¬u.admissible (p + (vs.flatMap (signedBits d)).length)) :
    (repeatOp vs.length (readSample d)).Overruns (u.readTo p r) :=
  repeatOp_cut vs
    (fun v hm p r hc h => ⟨_, by simpa using readSample_at (r := r) hu hd (hv v hm) hc (by simpa using h)⟩)
    (fun v hm p r hp hb h => readSample_cut hu hd hp (by simpa using h)) hp hb h

theorem warmUp_cut {c : Fin 8} {d : Nat} {xs : List Int} (hu : u.curValid = true) (hd : DepthOk u.wide d)
    (hsub : u.sub[c].depth = d) (hv : ∀ v ∈ xs, fitsBits d v = true) (hp : u.admissible p)
    (hb : begins u.input u.params.cap p (xs.flatMap (signedBits d)) = true)
    (h : ¬u.admissible (p + (xs.flatMap (signedBits d)).length)) : (warmUp c xs.length).Overruns (u.readTo p r) := by
  simp only [warmUp, Op.Overruns, view_bind, readTo_sub, hsub]
  exact (repeatSample_cut hu hd hv hp hb h).bind

/-- The parameters of an LPC subframe, cut short (R228). -/
theorem lpcParameters_cut {precision shift : Nat} {coeff : List Int} (hu : u.curValid = true)
    (hp1 : 1 ≤ precision) (hp15 : precision ≤ 15) (hs : shift < 16) (hv : ∀ v ∈ coeff, fitsBits precision v = true)
    (hp : u.admissible p)
    (hb : begins u.input u.params.cap p (fieldBits 4 (precision - 1) ++ fieldBits 5 shift
      ++ coeff.flatMap (signedBits precision)) = true)
    (h : ¬u.admissible (p + (4 + 5 + (coeff.flatMap (signedBits precision)).length))) :
    (lpcParameters coeff.length).Overruns (u.readTo p r) := by
  simp only [begins_append, Bool.and_eq_true, fieldBits_length, List.length_append] at hb
  obtain ⟨⟨hb1, hb2⟩, hb3⟩ := hb
  simp only [lpcParameters, updateLpcp]
  by_cases ha4 : u.admissible (p + 4)
  · refine overruns_after (readBits_at (v := precision - 1) hu (by omega) (by omega)
      (carries_of_begins (s := u) hb1 (by simpa using ha4)) ha4) ?_
    rw [if_neg (by omega)]
    simp only [Op.Overruns, update_bind, readTo_mapLpcp, show precision - 1 + 1 = precision by omega]
    let u1 := u.mapLpcp fun l => { l with precision := precision }
    have hsh : signedBits 5 (shift : Int) = fieldBits 5 shift := by
      simp only [signedBits]
      congr 1
      omega
    have hfs : fitsBits 5 (shift : Int) = true := by
      simp only [fitsBits, Bool.and_eq_true, decide_eq_true_eq]; omega
    by_cases ha9 : u.admissible (p + 4 + 5)
    · refine overruns_after (readSigned_at (u := u1) (v := (shift : Int)) hu (by omega) hfs
        (by rw [hsh]; exact carries_of_begins (s := u) hb2 (by simpa using ha9)) ha9) ?_
      rw [if_neg (by omega)]
      simp only [Op.Overruns, update_bind, readTo_mapLpcp, Int.toNat_natCast]
      let u2 := u1.mapLpcp fun l => { l with shift := shift }
      exact (repeatSigned_cut (u := u2) hu (by omega) hv ha9 hb3
        (by rw [Nat.add_assoc p, Nat.add_assoc p]; exact h)).bind
    · exact (readSigned_cut (u := u1) hu (by omega) ha4 ha9).bind
  · exact (readBits_cut hu (by omega) hp ha4).bind

/-- The parameters of an LPC subframe, cut in the shift, whatever its sign. -/
theorem lpcParameters_cutShift {precision k : Nat} (hu : u.curValid = true) (hp1 : 1 ≤ precision) (hp15 : precision ≤ 15)
    (hc : carries u.input p (fieldBits 4 (precision - 1)) = true) (ha : u.admissible (p + 4))
    (h : ¬u.admissible (p + 4 + 5)) : (lpcParameters k).Overruns (u.readTo p r) := by
  simp only [lpcParameters, updateLpcp]
  refine overruns_after (readBits_at hu (by omega) (by omega) hc ha) ?_
  rw [if_neg (by omega)]
  simp only [Op.Overruns, update_bind, readTo_mapLpcp]
  exact (readSigned_cut (u := u.mapLpcp _) hu (by omega) ha h).bind

/-- A legal body can be read. -/
theorem Body.readable_of_legal {b : Body} {mode : NarrowOverflow} {n d : Nat} (h : b.legal mode n d = true) :
    b.readable n d = true := by
  cases b with
  | constant v => exact h
  | verbatim xs => exact h
  | fixed k xs sec =>
    simp only [Body.legal, Bool.and_eq_true, decide_eq_true_eq, beq_iff_eq, List.all_eq_true] at h
    simp only [Body.readable, Bool.and_eq_true, decide_eq_true_eq, List.all_eq_true]
    exact ⟨⟨⟨h.1.1.1.2, by omega⟩, fun v hv => h.1.1.2 v (List.mem_of_mem_take hv)⟩, h.1.2⟩
  | lpc o precision shift coeff xs sec =>
    simp only [Body.legal, Bool.and_eq_true, decide_eq_true_eq, beq_iff_eq, List.all_eq_true] at h
    obtain ⟨⟨⟨⟨⟨⟨⟨⟨⟨hlen, hkn⟩, hfits⟩, hsec⟩, hp1⟩, hp15⟩, hsh⟩, hcl⟩, hcf⟩, -⟩ := h
    simp only [Body.readable, Bool.and_eq_true, decide_eq_true_eq, beq_iff_eq, List.all_eq_true]
    exact ⟨⟨⟨⟨⟨⟨⟨⟨hkn, by omega⟩, fun v hv => hfits v (List.mem_of_mem_take hv)⟩, hp1⟩, hp15⟩, hsh⟩, hcl⟩, hcf⟩, hsec⟩

theorem SubframeLayout.readable_of_legal {lay : SubframeLayout} {mode : NarrowOverflow} {n base : Nat}
    (h : lay.legal mode n base = true) : lay.readable n base = true := by
  simp only [SubframeLayout.legal, SubframeLayout.readable, Bool.and_eq_true] at h ⊢
  exact ⟨h.1, Body.readable_of_legal h.2⟩

theorem fixedBody_cut {c : Fin 8} {d : Nat} {k : Fin 5} {xs : List Int} {sec : ResidualSection} (hu : u.curValid = true)
    (hd : DepthOk u.wide d) (hsub : u.sub[c].depth = d)
    (hl : (Body.fixed k xs sec).readable u.hdr.blocksize.toNat d = true) (hp : u.admissible p)
    (hb : begins u.input u.params.cap p ((Body.fixed k xs sec).bits d) = true)
    (h : ¬u.admissible (p + ((Body.fixed k xs sec).bits d).length)) : (fixedBody c k.val).Overruns (u.readTo p r) := by
  simp only [Body.readable, Bool.and_eq_true, decide_eq_true_eq, List.all_eq_true] at hl
  obtain ⟨⟨⟨hkn, hkx⟩, hfits⟩, hsec⟩ := hl
  simp only [Body.bits, begins_append, Bool.and_eq_true, List.length_append] at hb h
  have htl : (xs.take k.val).length = k.val := by simp; omega
  simp only [fixedBody, setType, updateSub, Op.Overruns, update_bind, readTo_mapSub, if_neg (show ¬4 < k.val by omega)]
  let u1 := u.mapSub c fun x => { x with type := .fixed, order := k.val }
  have hs1 : u1.sub[c].depth = d := by simp only [u1, mapSub_get, hsub]
  refine overruns_after (checkOrder_ok (s := u1.readTo p r) hkn) ?_
  by_cases ha : u.admissible (p + ((xs.take k.val).flatMap (signedBits d)).length)
  · obtain ⟨r1, h1⟩ := warmUp_at (u := u1) (r := r) (c := c) hu hd hs1 hfits (carries_of_begins (s := u) hb.1 ha) ha
    rw [htl] at h1
    exact overruns_after h1 (decodeResidual_cut (u := u1.writeCh c 0 (xs.take k.val)) hu hsec ha hb.2
      (by rw [Nat.add_assoc]; exact h)).bind
  · have := warmUp_cut (u := u1) (r := r) (c := c) hu hd hs1 hfits hp hb.1 ha
    rw [htl] at this
    exact this.bind

theorem lpcBody_cut {c : Fin 8} {d : Nat} {o : Fin 32} {precision shift : Nat} {coeff xs : List Int}
    {sec : ResidualSection} (hu : u.curValid = true) (hd : DepthOk u.wide d) (hsub : u.sub[c].depth = d)
    (hl : (Body.lpc o precision shift coeff xs sec).readable u.hdr.blocksize.toNat d = true) (hp : u.admissible p)
    (hb : begins u.input u.params.cap p ((Body.lpc o precision shift coeff xs sec).bits d) = true)
    (h : ¬u.admissible (p + ((Body.lpc o precision shift coeff xs sec).bits d).length)) :
    (lpcBody c (o.val + 1)).Overruns (u.readTo p r) := by
  simp only [Body.readable, Body.bits] at hl hb h
  generalize o.val + 1 = k at *
  simp only [Bool.and_eq_true, decide_eq_true_eq, beq_iff_eq, List.all_eq_true] at hl
  obtain ⟨⟨⟨⟨⟨⟨⟨⟨hkn, hkx⟩, hfits⟩, hp1⟩, hp15⟩, hsh⟩, hcl⟩, hcf⟩, hsec⟩ := hl
  rw [List.append_assoc, List.append_assoc, List.append_assoc, ← List.append_assoc (fieldBits 4 _),
    ← List.append_assoc (fieldBits 4 _ ++ _), begins_append, begins_append, Bool.and_eq_true, Bool.and_eq_true] at hb
  obtain ⟨hb1, hb2, hb3⟩ := hb
  have htl : (xs.take k).length = k := by simp; omega
  have hlen : (fieldBits 4 (precision - 1) ++ fieldBits 5 shift ++ coeff.flatMap (signedBits precision)).length
      = 4 + 5 + (coeff.flatMap (signedBits precision)).length := by
    rw [List.length_append, List.length_append, fieldBits_length, fieldBits_length]
  rw [hlen] at hb3
  have hq : ¬u.admissible (p + ((xs.take k).flatMap (signedBits d)).length
      + (4 + 5 + (coeff.flatMap (signedBits precision)).length) + sec.bits.length) := fun e => h (by
    simp only [List.length_append, fieldBits_length]
    exact admissible_mono e (by omega))
  clear h
  simp only [lpcBody, setType, updateSub, Op.Overruns, update_bind, readTo_mapSub]
  let u1 := u.mapSub c fun x => { x with type := .lpc, order := k }
  have hs1 : u1.sub[c].depth = d := by simp only [u1, mapSub_get, hsub]
  refine overruns_after (checkOrder_ok (s := u1.readTo p r) hkn) ?_
  by_cases ha : u.admissible (p + ((xs.take k).flatMap (signedBits d)).length)
  · obtain ⟨r1, h1⟩ := warmUp_at (u := u1) (r := r) (c := c) hu hd hs1 hfits (carries_of_begins (s := u) hb1 ha) ha
    rw [htl] at h1
    refine overruns_after h1 ?_
    generalize p + ((xs.take k).flatMap (signedBits d)).length = p1 at *
    by_cases hc : u.admissible (p1 + (4 + 5 + (coeff.flatMap (signedBits precision)).length))
    · obtain ⟨r2, h2⟩ := lpcParameters_at (u := u1.writeCh c 0 (xs.take k)) (r := r1) hu hp1 hp15 hsh hcf
        (carries_of_begins (s := u) hb2 (by rw [hlen]; exact hc)) hc
      rw [hcl] at h2
      refine overruns_after h2 (Op.Overruns.bind ?_)
      generalize p1 + (4 + 5 + (coeff.flatMap (signedBits precision)).length) = p2 at *
      obtain ⟨u3, hu3⟩ : ∃ x, x = (u1.writeCh c 0 (xs.take k)).mapLpcp fun l =>
        { l with precision := precision, shift := shift }.withCoeff coeff := ⟨_, rfl⟩
      have k3 : u3.curValid = true ∧ u3.input = u.input ∧ u3.params = u.params ∧ u3.hdr = u.hdr := by
        simp [hu3, u1, hu]
      rw [← hu3]
      exact decodeResidual_cut k3.1 (by rw [k3.2.2.2]; exact hsec) (by simpa only [State.admissible, k3.2.2.1] using hc)
        (by rw [k3.2.1, k3.2.2.1]; exact hb3) (by simpa only [State.admissible, k3.2.2.1] using hq)
    · have := lpcParameters_cut (u := u1.writeCh c 0 (xs.take k)) (r := r1) hu hp1 hp15 hsh hcf ha hb2 hc
      rw [hcl] at this
      exact this.bind
  · have := warmUp_cut (u := u1) (r := r) (c := c) hu hd hs1 hfits hp hb1 ha
    rw [htl] at this
    exact this.bind

/-- A body cut short (R223 to R228). -/
theorem body_cut {c : Fin 8} {d : Nat} {b : Body} (hu : u.curValid = true) (hd : DepthOk u.wide d)
    (hsub : u.sub[c].depth = d) (hl : b.readable u.hdr.blocksize.toNat d = true) (hp : u.admissible p)
    (hb : begins u.input u.params.cap p (b.bits d) = true) (h : ¬u.admissible (p + (b.bits d).length)) :
    (b.op c).Overruns (u.readTo p r) := by
  cases b with
  | constant v =>
    simp only [Body.bits, signedBits, fieldBits_length] at h
    simp only [Body.op, constantBody, setType, updateSub, Op.Overruns, update_bind, view_bind, readTo_mapSub, readTo_hdr,
      readTo_sub, mapSub_get, hsub]
    exact (readSample_cut (u := u.mapSub c fun x => { x with type := .constant, order := 0 }) hu hd hp h).bind
  | verbatim xs =>
    simp only [Body.readable, Bool.and_eq_true, beq_iff_eq, List.all_eq_true] at hl
    simp only [Body.op, verbatimBody, setType, updateSub, Op.Overruns, update_bind, view_bind, readTo_mapSub, readTo_hdr,
      mapSub_hdr, ← hl.1, readTo_sub, mapSub_get, hsub]
    exact (repeatSample_cut (u := u.mapSub c fun x => { x with type := .verbatim, order := 0 }) hu hd hl.2 hp hb h).bind
  | fixed k xs sec => exact fixedBody_cut hu hd hsub hl hp hb h
  | lpc o precision shift coeff xs sec => exact lpcBody_cut hu hd hsub hl hp hb h

/-- The wasted-bits code cut short: zeros to the end (R221). -/
theorem subframeAfterTag_zeros {q : Nat} {body : Fin 8 → Op Unit} (hu : u.curValid = true) (hp : u.admissible p)
    (hb : begins u.input u.params.cap p (unaryBits q) = true) (h : ¬u.admissible (p + (q + 1))) :
    (subframeAfterTag true body).Overruns (u.readTo p r) := by
  simp only [subframeAfterTag, Op.Overruns, view_bind, readTo_seq, wastedBits, if_true]
  exact ((readUnary_cut hu hp hb h).bind).bind

/-- Everything after the tag of a subframe, cut short (R220 to R229). -/
theorem subframeAfterTag_cut {c : Fin 8} {base : Nat} {lay : SubframeLayout} (hu : u.curValid = true)
    (hch : u.seq.chan = c) (hbase : u.seq.base = base) (hd : DepthOk u.wide base)
    (hl : lay.readable u.hdr.blocksize.toNat base = true) (hp : u.admissible p)
    (hb : begins u.input u.params.cap p (lay.bitsAfterTag base) = true)
    (h : ¬u.admissible (p + (lay.bitsAfterTag base).length)) :
    (subframeAfterTag lay.flag fun c => lay.body.op c).Overruns (u.readTo p r) := by
  simp only [SubframeLayout.readable, Bool.and_eq_true, decide_eq_true_eq] at hl
  obtain ⟨hw, hbody⟩ := hl
  simp only [SubframeLayout.bitsAfterTag, begins_append, Bool.and_eq_true, List.length_append] at hb h
  by_cases ha : u.admissible (p + (if lay.flag then unaryBits (lay.wasted - 1) else []).length)
  · obtain ⟨r1, h1⟩ := depth_at (r := r) (c := c) hu hbase hw (carries_of_begins hb.1 ha) ha
    let u1 := u.mapSub c fun x => { x with wasted := lay.wasted, depth := base - lay.wasted }
    have hdd : DepthOk u1.wide (base - lay.wasted) :=
      ⟨by have := hd.1; omega, fun e => by have := hd.2 e; omega⟩
    have hs1 : u1.sub[c].depth = base - lay.wasted := by simp only [u1, mapSub_get]
    have h2 := body_cut (u := u1) (r := r1) (c := c) (b := lay.body) hu hdd hs1 hbody ha hb.2
      (by rw [Nat.add_assoc]; exact h)
    simp only [subframeAfterTag, Op.Overruns, view_bind, readTo_seq, hch]
    have h1' : (wastedBits c lay.flag >>= fun _ => effectiveDepth c >>= fun _ => lay.body.op c >>= fun _ => restoreWasted c)
        (u.readTo p r) = ((wastedBits c lay.flag >>= fun _ => effectiveDepth c) >>= fun _ => lay.body.op c >>= fun _ =>
          restoreWasted c) (u.readTo p r) := by
      simp only [bind_assoc]
    rw [h1']
    exact overruns_after h1 h2.bind
  · cases hf : lay.flag with
    | false => rw [hf] at ha; exact absurd hp ha
    | true =>
      rw [hf] at ha hb
      exact subframeAfterTag_zeros hu hp hb.1 (by simpa using ha)

/-- A subframe cut short (R220). -/
theorem decodeSubframe_cut {c : Fin 8} {base : Nat} {lay : SubframeLayout} (hu : u.curValid = true)
    (hd : DepthOk u.wide base) (hl : lay.readable u.hdr.blocksize.toNat base = true) (hp : u.admissible p)
    (hb : begins u.input u.params.cap p (lay.bits base) = true) (h : ¬u.admissible (p + (lay.bits base).length)) :
    (decodeSubframe c base).Overruns (u.readTo p r) := by
  rw [SubframeLayout.bits_eq] at hb h
  simp only [begins_append, Bool.and_eq_true, fieldBits_length, List.length_append] at hb h
  simp only [decodeSubframe, updateSeq, Op.Overruns, update_bind, readTo_mapSeq]
  let u1 := u.mapSeq fun q => { q with chan := c, base := base }
  by_cases ha : u.admissible (p + 8)
  · have htag : 2 * lay.body.typeCode + lay.flag.toNat < 2 ^ 8 := by
      have := lay.body.typeCode_lt
      have := Bool.toNat_lt lay.flag
      omega
    refine overruns_after (readBits_at (u := u1) (r := r) hu (by omega) htag
      (carries_of_begins (s := u) hb.1 (by simpa using ha)) ha) ?_
    rw [subframeTag_layout]
    exact subframeAfterTag_cut (u := u1) hu rfl rfl hd hl ha hb.2 (by rw [Nat.add_assoc]; exact h)
  · exact (readBits_cut (u := u1) hu (by omega) hp ha).bind

/-! ### The header -/

theorem vluContinue_cut {c v : Nat} (hu : u.curValid = true) (hp : u.admissible p)
    (hb : begins u.input u.params.cap p (vluTail c v) = true) (h : ¬u.admissible (p + 8 * c)) :
    (vluContinue c).Overruns (u.readTo p r) := by
  induction c generalizing u p r with
  | zero => exact absurd hp h
  | succ c ih =>
    have hx : ∀ x, x < 64 → true :: false :: fieldBits 6 x = fieldBits 8 (128 + x) := by decide
    have hlt : (v >>> (6 * c)) % 64 < 64 := Nat.mod_lt _ (by omega)
    have ht : vluTail (c + 1) v = fieldBits 8 (128 + (v >>> (6 * c)) % 64) ++ vluTail c v := by
      rw [← hx _ hlt, show v >>> (6 * c) % 64 = v >>> (6 * c) % 2 ^ 6 from rfl, fieldBits_mod]; rfl
    rw [ht, begins_append, Bool.and_eq_true, fieldBits_length] at hb
    simp only [vluContinue]
    by_cases ha : u.admissible (p + 8)
    · refine overruns_after (readBits_at hu (by omega) (by omega) (carries_of_begins hb.1 (by simpa using ha)) ha) ?_
      rw [if_pos (by omega)]
      simp only [vluAppend, updateSeq, Op.Overruns, update_bind, readTo_mapSeq]
      exact ih hu ha hb.2 (by rwa [show p + 8 + 8 * c = p + 8 * (c + 1) by omega])
    · exact (readBits_cut hu (by omega) hp ha).bind

/-- `ReadVLU` of an integer cut short (R142). -/
theorem readVlu_cut {c v : Nat} {wide : Bool} (hu : u.curValid = true) (hc : c ≤ if wide then 6 else 5)
    (hv : v < 2 ^ vluValueBits c) (hp : u.admissible p) (hb : begins u.input u.params.cap p (vluBits c v) = true)
    (h : ¬u.admissible (p + 8 * (c + 1))) : (readVlu wide).Overruns (u.readTo p r) := by
  have hc6 : c ≤ 6 := by split at hc <;> omega
  obtain ⟨hf, hlt⟩ := vluHead_field hc6 hv
  simp only [vluBits, begins_append, Bool.and_eq_true, vluHead_length hc6] at hb
  rw [hf] at hb
  simp only [readVlu, updateSeq, Op.Overruns, update_bind, readTo_mapSeq]
  let u1 := u.mapSeq fun q => { q with vluWide := wide }
  by_cases ha : u.admissible (p + 8)
  · refine overruns_after (readBits_at (u := u1) (r := r) hu (by omega) hlt
      (carries_of_begins (s := u) hb.1 (by simpa using ha)) ha) ?_
    rw [vluLeadClass_lead hc hv]
    simp only [vluAfterLead, updateSeq, Op.Overruns, update_bind, readTo_mapSeq]
    exact (vluContinue_cut (u := u1.mapSeq fun q => { q with vlu := v >>> (6 * c) }) hu ha hb.2
      (by rwa [show p + 8 + 8 * c = p + 8 * (c + 1) by omega])).bind
  · exact (readBits_cut (u := u1) hu (by omega) hp ha).bind

theorem headerNumber_cut {c v : Nat} (hu : u.curValid = true)
    (hc : c ≤ if variableBlocksize u.streamInfo u.seq.blk then 6 else 5) (hv : v < 2 ^ vluValueBits c)
    (hp : u.admissible p) (hb : begins u.input u.params.cap p (vluBits c v) = true) (h : ¬u.admissible (p + 8 * (c + 1))) :
    headerNumber.Overruns (u.readTo p r) := by
  simp only [headerNumber, Op.Overruns, view_bind, readTo_streamInfo, readTo_seq]
  exact (readVlu_cut hu hc hv hp hb h).bind

theorem headerBlocksizeHint_cut {lay : HeaderLayout} (hu : u.curValid = true) (hb : u.seq.bsc = lay.bsc)
    (hp : u.admissible p) (h : ¬u.admissible (p + lay.blocksizeWidth)) : headerBlocksizeHint.Overruns (u.readTo p r) := by
  simp only [headerBlocksizeHint, Op.Overruns, view_bind, readTo_seq, hb]
  simp only [HeaderLayout.blocksizeWidth] at h
  by_cases h6 : lay.bsc = 6
  · rw [if_pos h6] at h ⊢
    exact (readBits_cut hu (by omega) hp h).bind
  · rw [if_neg h6] at h ⊢
    by_cases h7 : lay.bsc = 7
    · rw [if_pos h7] at h ⊢
      exact (readBits_cut hu (by omega) hp h).bind
    · rw [if_neg h7] at h
      exact absurd hp h

theorem headerRateHint_cut {lay : HeaderLayout} (hu : u.curValid = true) (hb : u.seq.src = lay.src)
    (hp : u.admissible p) (h : ¬u.admissible (p + lay.rateWidth)) : headerRateHint.Overruns (u.readTo p r) := by
  simp only [headerRateHint, Op.Overruns, view_bind, readTo_seq, hb]
  simp only [HeaderLayout.rateWidth] at h
  by_cases h12 : lay.src = 12
  · rw [if_pos h12] at h ⊢
    exact (readBits_cut hu (by omega) hp h).bind
  · rw [if_neg h12] at h ⊢
    by_cases h13 : lay.src = 13
    · rw [if_pos (.inl h13)] at h
      rw [if_pos h13]
      exact (readBits_cut hu (by omega) hp h).bind
    · rw [if_neg h13]
      by_cases h14 : lay.src = 14
      · rw [if_pos (.inr h14)] at h
        rw [if_pos h14]
        exact (readBits_cut hu (by omega) hp h).bind
      · rw [if_neg (by tauto)] at h
        exact absurd hp h

/-- A header cut short (R190 to R205), its checksum byte included: whatever that byte is. -/
theorem parseHeader_cut {lay : HeaderLayout} (hu : u.curValid = true) (hl : lay.legal u.streamInfo = true)
    (hp : u.admissible p) (hb : begins u.input u.params.cap p lay.bits = true)
    (h : ¬u.admissible (p + 8 * lay.length)) : parseHeader.Overruns (u.readTo p r) := by
  simp only [HeaderLayout.legal, Bool.and_eq_true, decide_eq_true_eq, bne_iff_ne] at hl
  obtain ⟨⟨⟨⟨⟨⟨⟨hl1, hl2⟩, hl3⟩, hl4⟩, hl5⟩, hl6⟩, hl7⟩, hl8⟩ := hl
  have hc6 : lay.cont ≤ 6 := by split at hl5 <;> omega
  have hlen := lay.length_eq hc6
  have hbl := lay.bits_length hc6
  simp only [HeaderLayout.bits, begins_append, Bool.and_eq_true, fieldBits_length, List.length_append,
    vluBits_length hc6] at hb
  obtain ⟨⟨⟨hw, hv⟩, hbf⟩, hrf⟩ := hb
  have hw32 : encode (.frameHeaderWord lay.blk lay.bsc lay.src lay.chn lay.bpc) < 2 ^ 32 := by
    simp only [encode]; exact BitVec.isLt _
  have hrej : ∀ {x : Op Unit} {t : State}, x.Overruns t → (rejecting x).Overruns t :=
    fun ⟨t, ht⟩ => ⟨_, rejecting_error ht⟩
  refine hrej ?_
  have e0 : headerBegin (u.readTo p r) = .ok () (((u.mapHdr fun x => { x with valid := false }).mapSeq fun q =>
      { q with start := p / 8 }).readTo p r) := by
    simp only [headerBegin, setHdrValid, updateHdr, updateSeq, update_bind, view_bind, readTo_mapHdr, readTo_byte,
      update_apply, readTo_mapSeq]
  obtain ⟨u0, hu0⟩ : ∃ x, x = (u.mapHdr fun x => { x with valid := false }).mapSeq fun q => { q with start := p / 8 } :=
    ⟨_, rfl⟩
  have k0 : u0.curValid = true ∧ u0.input = u.input ∧ u0.params = u.params ∧ u0.streamInfo = u.streamInfo := by
    simp [hu0, hu]
  have adm : ∀ {v : State} (_ : v.params = u.params) (n : Nat), v.admissible n ↔ u.admissible n := fun {v} hv n => by
    simp only [State.admissible, hv]
  refine overruns_after e0 ?_
  rw [← hu0]
  by_cases a1 : u.admissible (p + 32)
  swap
  · exact (readBits_cut k0.1 (by omega) ((adm k0.2.2.1 _).2 hp) (mt (adm k0.2.2.1 _).1 a1)).bind
  refine overruns_after (readBits_at (u := u0) (p := p) (r := r) k0.1 (by omega) hw32
    (by rw [k0.2.1]; exact carries_of_begins hw (by simpa using a1)) ((adm k0.2.2.1 _).2 a1)) ?_
  have e2 := headerWord_ok (blk := lay.blk) (chn := lay.chn) (bpc := lay.bpc)
    (s := u0.readTo (p + 32) (BitVec.ofNat 64 (encode (.frameHeaderWord lay.blk lay.bsc lay.src lay.chn lay.bpc))))
    hl1 (by rw [readTo_streamInfo, k0.2.2.2]; exact hl2) hl3 (by rw [readTo_streamInfo, k0.2.2.2]; exact hl4)
  simp only [readTo_mapSeq, readTo_mapHdr, readTo_streamInfo, k0.2.2.2] at e2
  refine overruns_after e2 ?_
  obtain ⟨u1, hu1⟩ : ∃ x, x = (u0.mapSeq fun q => { q with blk := lay.blk, bsc := lay.bsc, src := lay.src }).mapHdr
    (headerWordRecord u.streamInfo lay.bsc lay.src lay.chn lay.bpc) := ⟨_, rfl⟩
  rw [← hu1]
  have k1 : u1.curValid = true ∧ u1.input = u.input ∧ u1.params = u.params ∧ u1.streamInfo = u.streamInfo := by
    simp [hu1, k0]
  have q1 : u1.seq.blk = lay.blk ∧ u1.seq.bsc = lay.bsc ∧ u1.seq.src = lay.src := by simp [hu1]
  have hl5' : lay.cont ≤ if variableBlocksize u1.streamInfo u1.seq.blk then 6 else 5 := by
    rw [k1.2.2.2, q1.1]; exact hl5
  by_cases a2 : u.admissible (p + 32 + 8 * (lay.cont + 1))
  swap
  · exact (headerNumber_cut k1.1 hl5' hl6 ((adm k1.2.2.1 _).2 a1) (by rw [k1.2.1, k1.2.2.1]; exact hv)
      (mt (adm k1.2.2.1 _).1 a2)).bind
  obtain ⟨g, hg, e3⟩ := headerNumber_at (u := u1) (p := p + 32)
    (r := BitVec.ofNat 64 (encode (.frameHeaderWord lay.blk lay.bsc lay.src lay.chn lay.bpc)))
    (c := lay.cont) (v := lay.number) k1.1 hl5' hl6
    (by rw [k1.2.1]; exact carries_of_begins hv (by rw [vluBits_length hc6]; exact a2)) ((adm k1.2.2.1 _).2 a2)
  refine overruns_after e3 ?_
  generalize hu2 : ((u1.mapSeq g).withOk true).mapHdr _ = u2
  have k2 : u2.curValid = true ∧ u2.input = u.input ∧ u2.params = u.params ∧ u2.seq.bsc = lay.bsc
      ∧ u2.seq.src = lay.src := by
    simp [← hu2, k1, q1, hg u1.seq]
  have hbf' : begins u.input u.params.cap (p + 32 + 8 * (lay.cont + 1)) (fieldBits lay.blocksizeWidth lay.blocksizeField)
      = true := by rw [Nat.add_assoc]; exact hbf
  by_cases a3 : u.admissible (p + 32 + 8 * (lay.cont + 1) + lay.blocksizeWidth)
  swap
  · exact (headerBlocksizeHint_cut k2.1 k2.2.2.2.1 ((adm k2.2.2.1 _).2 a2) (mt (adm k2.2.2.1 _).1 a3)).bind
  obtain ⟨r4, e4⟩ := headerBlocksizeHint_at (u := u2) (p := p + 32 + 8 * (lay.cont + 1)) (r := BitVec.ofNat 64 lay.number)
    (lay := lay) k2.1 k2.2.2.2.1 hl7 (by rw [k2.2.1]; exact carries_of_begins hbf' (by simpa using a3))
    ((adm k2.2.2.1 _).2 a3)
  refine overruns_after e4 ?_
  generalize hu3 : u2.mapHdr _ = u3
  have k3 : u3.curValid = true ∧ u3.input = u.input ∧ u3.params = u.params ∧ u3.seq.src = lay.src := by
    simp [← hu3, k2]
  have hrf' : begins u.input u.params.cap (p + 32 + 8 * (lay.cont + 1) + lay.blocksizeWidth)
      (fieldBits lay.rateWidth lay.rateField) = true := by rw [Nat.add_assoc p, Nat.add_assoc p]; exact hrf
  by_cases a4 : u.admissible (p + 32 + 8 * (lay.cont + 1) + lay.blocksizeWidth + lay.rateWidth)
  swap
  · exact (headerRateHint_cut k3.1 k3.2.2.2 ((adm k3.2.2.1 _).2 a3) (mt (adm k3.2.2.1 _).1 a4)).bind
  obtain ⟨r5, e5⟩ := headerRateHint_at (u := u3) (p := p + 32 + 8 * (lay.cont + 1) + lay.blocksizeWidth) (r := r4)
    (lay := lay) k3.1 k3.2.2.2 hl8 (by rw [k3.2.1]; exact carries_of_begins hrf' (by simpa using a4))
    ((adm k3.2.2.1 _).2 a4)
  refine overruns_after e5 ?_
  generalize hu4 : u3.mapHdr _ = u4
  have k4 : u4.curValid = true ∧ u4.params = u.params := by simp [← hu4, k3]
  refine (readBits_cut k4.1 (by omega) ((adm k4.2 _).2 a4) (mt (adm k4.2 _).1 fun e => h ?_)).bind
  rwa [show p + 8 * lay.length = p + 32 + 8 * (lay.cont + 1) + lay.blocksizeWidth + lay.rateWidth + 8 by omega]

/-! ### The frame -/

/-- The subframes of a frame, cut short (R365). -/
theorem frameSubframes_cut {cfs : List (Fin 8 × SubframeLayout)} {h : Header}
    (hu : u.curValid = true) (hh : u.hdr = h) (hw : u.wide = wideOf h) (hb : h.bps.toNat ≤ 32)
    (hl : ∀ cf ∈ cfs, cf.2.legal u.params.narrowOverflow h.blocksize.toNat (baseDepth h cf.1) = true) (hp : u.admissible p)
    (hc : begins u.input u.params.cap p (cfs.flatMap fun cf => cf.2.bits (baseDepth h cf.1)) = true)
    (hadm : ¬u.admissible (p + (cfs.flatMap fun cf => cf.2.bits (baseDepth h cf.1)).length)) :
    (forEach (cfs.map Prod.fst) frameSubframe).Overruns (u.readTo p r) := by
  induction cfs generalizing u p r with
  | nil => exact absurd hp hadm
  | cons cf cfs ih =>
    obtain ⟨c, lay⟩ := cf
    simp only [List.flatMap_cons, begins_append, Bool.and_eq_true, List.length_append] at hc hadm
    have e1 : frameSubframe c (u.readTo p r) = decodeSubframe c (baseDepth h c) (u.readTo p r) := by
      simp only [frameSubframe, view_bind, readTo_hdr, hh]
    have hd : DepthOk u.wide (baseDepth h c) := by rw [hw]; exact baseDepth_ok hb c
    have hlc : lay.legal u.params.narrowOverflow u.hdr.blocksize.toNat (baseDepth h c) = true := by
      rw [hh]; exact hl (c, lay) (List.mem_cons_self ..)
    rw [List.map_cons, forEach]
    by_cases ha : u.admissible (p + (lay.bits (baseDepth h c)).length)
    · obtain ⟨g1, f1, r1, hg1, h1⟩ := decodeSubframe_at (r := r) (c := c) hu hd hlc (carries_of_begins hc.1 ha) ha
      refine overruns_after (e1.trans h1) ?_
      obtain ⟨u1, hu1⟩ : ∃ x, x = u.afterBody c g1 f1 lay.body.lpcp (fun _ => lay.record (baseDepth h c))
        (lay.samples u.hdr.blocksize.toNat) := ⟨_, rfl⟩
      have k1 : u1.curValid = true ∧ u1.input = u.input ∧ u1.params = u.params ∧ u1.hdr = u.hdr ∧ u1.wide = u.wide := by
        simp [hu1, State.afterBody, hu]
      rw [← hu1]
      refine ih k1.1 (k1.2.2.2.1.trans hh) (k1.2.2.2.2.trans hw)
        (fun cf hcf => by rw [k1.2.2.1]; exact hl cf (List.mem_cons_of_mem _ hcf)) ?_ ?_ ?_
      · simpa only [State.admissible, k1.2.2.1] using ha
      · rw [k1.2.1, k1.2.2.1]; exact hc.2
      · simp only [State.admissible, k1.2.2.1] at hadm ⊢; rw [Nat.add_assoc]; exact hadm
    · have : (frameSubframe c).Overruns (u.readTo p r) := by
        rw [Op.Overruns, e1]
        exact decodeSubframe_cut hu hd (SubframeLayout.readable_of_legal hlc) hp hc.1 ha
      exact this.bind

/-- `decode_frame` of a frame whose header is cut short (R362, R430). -/
theorem frameSteps_cutHeader {s : State} {lay : HeaderLayout} {a : Nat} (hl : lay.legal s.streamInfo = true)
    (hp : s.admissible (8 * a)) (hb : begins s.input s.params.cap (8 * a) lay.bits = true)
    (h : ¬s.admissible (8 * a + 8 * lay.length)) :
    ∃ t, frameSteps a s = .error (.raise .bufferOverrun) t ∧ Same State.shown (s.withBuffers false s.ch) t
      ∧ t.hdr = freeHeader s.freeCount := by
  obtain ⟨t, ht⟩ := parseHeader_cut (u := startAttempt (s.withBuffers false s.ch)) (r := s.res) rfl hl hp hb h
  have hw : Same State.shown (s.withBuffers false s.ch) t :=
    (within_parseHeader header_sameShown fun _ _ => rfl).error
      (s := (startAttempt (s.withBuffers false s.ch)).readTo (8 * a) s.res) ht
  refine ⟨t, (bind_ok (frameStart_ok hp)).trans (bind_error ht), hw, ?_⟩
  obtain ⟨v, hv, rfl⟩ := of_rejecting_error ht
  exact congrArg freeHeader (congrArg (fun x => x.2.2.2.2.2) hw)

/-- The padding and the footer, cut short (R366, R367). -/
theorem footer_cut {q : Nat} (hu : u.curValid = true) (hq : u.admissible q) (h : ¬u.admissible ((q + 7) / 8 * 8 + 16)) :
    (do flush; discard (readBits 16) : Op Unit).Overruns (u.readTo q r) := by
  by_cases hf : u.admissible ((q + 7) / 8 * 8)
  · have := flush_ok (ready_at (r := r) hu hq) (by rw [readTo_position]; exact hf)
    rw [readTo_position, readTo_moveTo] at this
    exact overruns_after this (readBits_cut (u := u) (n := 16) hu (by omega) hf h).discard
  · exact (flush_cut (by rw [readTo_position]; exact hf) (by rw [readTo_position]; exact hq)).bind

/-- Everything of a frame after its header, cut short (R365 to R367). -/
theorem framePayload_cut {cfs : List (Fin 8 × SubframeLayout)} {h : Header}
    (hu : u.curValid = true) (hh : u.hdr = h) (hw : u.wide = wideOf h) (hb : h.bps.toNat ≤ 32)
    (hfst : cfs.map Prod.fst = frameChannels h)
    (hl : ∀ cf ∈ cfs, cf.2.legal u.params.narrowOverflow h.blocksize.toNat (baseDepth h cf.1) = true) (hp : u.admissible p)
    (hc : begins u.input u.params.cap p (cfs.flatMap fun cf => cf.2.bits (baseDepth h cf.1)) = true)
    (hadm : ¬u.admissible ((p + (cfs.flatMap fun cf => cf.2.bits (baseDepth h cf.1)).length + 7) / 8 * 8 + 16)) :
    (do frameSubframes; flush; discard (readBits 16) : Op Unit).Overruns (u.readTo p r) := by
  by_cases hq : u.admissible (p + (cfs.flatMap fun cf => cf.2.bits (baseDepth h cf.1)).length)
  · obtain ⟨g, f, r', -, e⟩ := frameSubframes_at (r := r) hu hh hw hb hl (carries_of_begins hc hq) hq
    rw [hfst] at e
    generalize p + (cfs.flatMap fun cf => cf.2.bits (baseDepth h cf.1)).length = q at *
    have k : (((u.mapSeq g).mapRp f).afterSubframes h cfs).params = u.params
        ∧ (((u.mapSeq g).mapRp f).afterSubframes h cfs).curValid = true := ⟨rfl, hu⟩
    generalize ((u.mapSeq g).mapRp f).afterSubframes h cfs = u2 at *
    have e4 : frameSubframes (u.readTo p r) = .ok () ((u2.withFState .subframesDecoded).readTo q r') := by
      simp only [frameSubframes, view_bind, readTo_hdr, hh]
      rw [bind_ok e]
      rfl
    have adm : ∀ n, (u2.withFState .subframesDecoded).admissible n ↔ u.admissible n := fun n => by
      simp only [State.admissible, withFState_params, k.1]
    exact overruns_after e4 (footer_cut (u := u2.withFState .subframesDecoded) k.2 ((adm _).2 hq) (mt (adm _).1 hadm))
  · have := frameSubframes_cut (r := r) hu hh hw hb hl hp hc hq
    rw [hfst] at this
    refine Op.Overruns.bind ?_
    simp only [frameSubframes, Op.Overruns, view_bind, readTo_hdr, hh]
    exact this.bind

/-- The subframes, the padding and the footer of a frame whose header is parsed, cut short (R365 to R367, R430). -/
theorem frameSteps_cut {s : State} {f : FrameLayout} {a : Nat} (hl : f.legal s.params s.streamInfo = true)
    (hb : begins s.input s.params.cap (8 * a) (f.bits s.streamInfo) = true)
    (hp : s.admissible (8 * a + 8 * f.header.length))
    (h8 : s.params.checkCrc8 = true → crc8Of (bytesAt s.input a (f.header.length - 1)) = f.crc8)
    (h : ¬s.admissible (8 * a + 8 * f.length s.streamInfo)) :
    ∃ t, frameSteps a s = .error (.raise .bufferOverrun) t
      ∧ Same (fun s => (s.shown, s.hdr)) { s with hdr := f.record s.streamInfo, wide := wideOf (f.record s.streamInfo) } t := by
  have hlen := f.lengths hl
  simp only [FrameLayout.legal, Bool.and_eq_true, beq_iff_eq, decide_eq_true_eq, List.all_eq_true] at hl
  obtain ⟨⟨⟨⟨⟨⟨hhdr, hb1⟩, hb32⟩, hnum⟩, hsubs⟩, hpad⟩, halign⟩ := hl
  have hhl := hhdr
  simp only [HeaderLayout.legal, Bool.and_eq_true, decide_eq_true_eq] at hhl
  have hcont : f.header.cont ≤ 6 := by have := hhl.1.1.1.2; split at this <;> omega
  have hlen8 := f.header.length_eq hcont
  have hlb : (f.dataBits s.streamInfo).length = 8 * f.header.length + (f.channels.flatMap fun cf =>
      cf.2.bits (baseDepth (f.record s.streamInfo) cf.1)).length := by
    simp only [FrameLayout.dataBits, List.length_append, fieldBits_length]; omega
  rw [FrameLayout.bits, FrameLayout.dataBits, begins_append, begins_append, begins_append, Bool.and_eq_true,
    Bool.and_eq_true, Bool.and_eq_true] at hb
  obtain ⟨⟨⟨hbh, hbs⟩, -⟩, -⟩ := hb
  have hhb : (f.header.bits ++ fieldBits 8 f.crc8.toNat).length = 8 * f.header.length := by
    rw [List.length_append, fieldBits_length]; omega
  rw [hhb] at hbs
  obtain ⟨g, hg, e⟩ := frameBegin_at (a := a) hhdr (carries_of_begins hbh (by rw [hhb]; exact hp)) hp h8
  have hfst : f.channels.map Prod.fst = frameChannels (f.record s.streamInfo) := by
    rw [FrameLayout.channels, zip_map_fst, hnum, frameChannels]
  obtain ⟨b1, b2, b3, b4, b5, b6⟩ := begun_facts f g s
  have adm : ∀ n, (f.begun g s).admissible n ↔ s.admissible n := fun n => by simp only [State.admissible, b3]
  obtain ⟨q, hq0⟩ : ∃ q, q = 8 * a + 8 * f.header.length + (f.channels.flatMap fun cf =>
    cf.2.bits (baseDepth (f.record s.streamInfo) cf.1)).length := ⟨_, rfl⟩
  have hround : 8 * a + 8 * f.length s.streamInfo = (q + 7) / 8 * 8 + 16 := by
    rw [List.length_append] at halign
    omega
  have hov := framePayload_cut (r := f.crc8.setWidth 64) b1 b4 b5 hb32 hfst
    (fun cf hcf => by rw [b3]; exact hsubs cf hcf) ((adm _).2 hp) (by rw [b2, b3]; exact hbs)
    (mt (adm _).1 (by rw [← hq0, ← hround]; exact h))
  obtain ⟨t, ht⟩ := hov
  have hw : Op.Within (Same fun s => (s.shown, s.hdr)) (Anyhow (Same fun s => (s.shown, s.hdr)))
      (do frameSubframes; flush; discard (readBits 16) : Op Unit) :=
    have hS := subframe_sameShown
    within_bind hS.toComposable (within_frameSubframes hS (fun _ _ => rfl) fun _ => rfl) fun _ =>
    within_bind hS.toComposable (within_flush hS.toCursorWrites) fun _ =>
    within_discard (within_readBits hS.toCursorWrites 16)
  have hsh := hw.error ht
  simp only [Anyhow, Same, State.shown, readTo_input, readTo_params, readTo_streamInfo, readTo_wide, readTo_pending,
    readTo_freeCount, readTo_hdr, b2, b3, b4, b5] at hsh
  refine ⟨t, ?_, hsh⟩
  have hassoc : frameSteps a = (do frameStart a; parseHeader; selectWide; (do
      (do frameSubframes; flush; discard (readBits 16) : Op Unit); frameChecksum; decorrelateOp; frameLength) : Op Unit) := by
    simp only [frameSteps, bind_assoc]
  rw [hassoc, e]
  exact bind_error ht

end

end Sys2Proof.Machine
end

