-- ==== Sys2Proof/Laws/Exec.lean ====
section
/-! SUPPORT. What an instruction can do to the state, for every instruction: a relation that holds of every write an
internal step makes, and of every way a command ends, holds between the states before and after `exec`. -/

namespace Sys2Proof.Machine

variable {R : State → State → Prop} {E : Stop → State → State → Prop} {Q : State → State → Prop}

/-- Relations that every instruction's internal steps are within, but for what only a new attempt or a whole frame does. -/
structure AnyWrites (R : State → State → Prop) (E : Stop → State → State → Prop) : Prop extends
    HeaderWrites R E, SubframeWrites R E where
  halts : MayHalt E
  validity : MayValidate R
  phase : ∀ (s : State) f, R s (s.withFState f)
  output : ∀ (s : State) b, R s (s.withOut b)

/-- What the ends of commands make of those relations. -/
structure AnyEnd (R : State → State → Prop) (E : Stop → State → State → Prop) (Q : State → State → Prop) : Prop where
  stay : ∀ s t, R s t → Q s t
  rest : ∀ s t, R s t → Q s t.atRest
  drop : ∀ s t, R s t → Q s (dropCursor t)
  raised : ∀ c k s t, E (.raise k) s t → Q s (takeRaise c k t)
  refused : ∀ k s, k.isRefusal = true → Q s (refuse k s)
  trans : ∀ s t u, Q s t → Q t u → Q s u

theorem runField_related (hQ : AnyEnd R E Q) {c : CommandClass} {op : Op Unit} (h : Op.Within R E op) {s t : State}
    (hn : runField c op s = .next t) : Q s t := by
  rcases finish_cases c id (op s) with ⟨u, hu, hf⟩ | ⟨k, u, hu, hf⟩ | ⟨f, u, hu, hf⟩
  · rw [runField, hf] at hn
    obtain rfl : u = t := Host.Outcome.next.inj hn
    exact hQ.stay _ _ (h.ok hu)
  · rw [runField, hf] at hn
    obtain rfl := Host.Outcome.next.inj hn
    exact hQ.raised _ _ _ _ (h.error hu)
  · rw [runField, hf] at hn
    cases hn

theorem runCommand_related (hQ : AnyEnd R E Q) {c : CommandClass} {op : Op Unit} (h : Op.Within R E op) {s t : State}
    (hn : runCommand c op s = .next t) : Q s t := by
  rcases finish_cases c (fun t => { t with seq := Sequencer.idle }) (op s) with
    ⟨u, hu, hf⟩ | ⟨k, u, hu, hf⟩ | ⟨f, u, hu, hf⟩
  · rw [runCommand, hf] at hn
    obtain rfl := Host.Outcome.next.inj hn
    exact hQ.rest _ _ (h.ok hu)
  · rw [runCommand, hf] at hn
    obtain rfl := Host.Outcome.next.inj hn
    exact hQ.raised _ _ _ _ (h.error hu)
  · rw [runCommand, hf] at hn
    cases hn

theorem needCursor_related (hQ : AnyEnd R E Q) {r : Result} {s t : State} (hr : r = .next t → Q s t)
    (hn : needCursor s r = .next t) : Q s t := by
  rw [needCursor] at hn
  split at hn
  · exact hr hn
  · obtain rfl := Host.Outcome.next.inj hn
    exact hQ.refused _ _ rfl

theorem needRange_related (hQ : AnyEnd R E Q) {b : Bool} {r : Result} {s t : State} (hr : r = .next t → Q s t)
    (hn : needRange b s r = .next t) : Q s t := by
  rw [needRange] at hn
  split at hn
  · exact hr hn
  · obtain rfl := Host.Outcome.next.inj hn
    exact hQ.refused _ _ rfl

theorem execDecodeFrame_related (hR : AnyWrites R E) (hQ : AnyEnd R E Q) (hstart : ∀ s, R s (startAttempt s))
    (hbuf : ∀ (s : State) w f, R s (s.withBuffers w f)) {a : BitVec 32} {s t : State}
    (hn : execDecodeFrame a s = .next t) : Q s t := by
  refine needRange_related hQ (fun hf => ?_) hn
  have hw := within_frameSteps hR.toHeaderWrites hR.validity hR.toSubframeWrites hR.halts hstart hbuf hR.phase a.toNat
  rcases finish_cases .frame dropCursor (frameSteps a.toNat s) with ⟨u, hu, hf'⟩ | ⟨k, u, hu, hf'⟩ | ⟨f, u, hu, hf'⟩
  · rw [hf'] at hf
    obtain rfl := Host.Outcome.next.inj hf
    exact hQ.drop _ _ (hw.ok hu)
  · rw [hf'] at hf
    obtain rfl := Host.Outcome.next.inj hf
    exact hQ.raised _ _ _ _ (hw.error hu)
  · rw [hf'] at hf
    cases hf

theorem execPack_related (hR : AnyWrites R E) (hQ : AnyEnd R E Q) {s t : State} (hn : execPack s = .next t) : Q s t := by
  rw [execPack] at hn
  split at hn
  · exact runCommand_related hQ (within_packOp hR.toHeaderWrites.toComposable hR.halts hR.output fun s => hR.phase s _) hn
  · obtain rfl := Host.Outcome.next.inj hn
    exact hQ.refused _ _ rfl

/-- Every instruction. -/
theorem exec_related (hR : AnyWrites R E) (hQ : AnyEnd R E Q) {i : Instr} {s t : State}
    (hstart : startsAttempt i = true → ∀ s, R s (startAttempt s))
    (hbuf : decodesFrame i = true → ∀ (s : State) w f, R s (s.withBuffers w f)) (hn : exec i s = .next t) :
    Q s t := by
  have hc := hR.toHeaderWrites.toCursorWrites
  have hC := hc.toComposable
  have hv := hR.toHeaderWrites.toVluWrites
  have hh := hR.toHeaderWrites
  have hs := hR.toSubframeWrites
  have hr := hs.toResidualWrites
  have prim : ∀ {op : Op Unit} {cl : CommandClass}, Op.Within R E op →
      needCursor s (runCommand cl op s) = .next t → Q s t :=
    fun h hn => needCursor_related hQ (runCommand_related hQ h) hn
  have ranged : ∀ {op : Op Unit} {cl : CommandClass} {b : Bool}, Op.Within R E op →
      needCursor s (needRange b s (runCommand cl op s)) = .next t → Q s t :=
    fun h hn => needCursor_related hQ (fun e => needRange_related hQ (runCommand_related hQ h) e) hn
  have field : ∀ {op : Op Unit} {cl : CommandClass}, Op.Within R E op →
      needCursor s (runField cl op s) = .next t → Q s t :=
    fun h hn => needCursor_related hQ (runField_related hQ h) hn
  have after : ∀ {w : Bool} {body : Fin 8 → Op Unit}, (∀ c, Op.Within R E (body c)) →
      needCursor s (runField .frame (subframeAfterTag w body) s) = .next t → Q s t :=
    fun hb hn => field (within_subframeAfterTag hs hR.halts _ hb) hn
  have channels : ∀ n a, Op.Within R E (setChannels n a) := fun n a => within_update fun s => hh.header s _ fun _ => rfl
  cases i with
  | cursorNew off => exact runCommand_related hQ (within_cursorNew hc (hstart rfl) _) hn
  | readBits n => exact ranged (within_discard (within_readBits hc _)) hn
  | readBits64 n => exact ranged (within_discard (within_readBits64 hc _)) hn
  | readSigned n => exact ranged (within_discard (within_readSigned hc _)) hn
  | readSigned64 n => exact ranged (within_discard (within_readSigned64 hc _)) hn
  | readUnary => exact prim (within_discard (within_readUnary hc)) hn
  | readVariableLengthUint32 => exact prim (within_discard (within_readVlu hv _)) hn
  | readVariableLengthUint64 => exact prim (within_discard (within_readVlu hv _)) hn
  | seekBits n => exact ranged (within_advance hc _) hn
  | seekBytes n => exact ranged (within_advance hc _) hn
  | flushToByteBoundary => exact prim (within_flush hc) hn
  | positionBits => exact prim (within_positionBits hc) hn
  | crc8 a b => exact runCommand_related hQ (within_discard (within_crc8Op hc _ _)) hn
  | crc16 a b => exact runCommand_related hQ (within_discard (within_crc16Op hc _ _)) hn
  | parseFrameHeader => exact ranged (within_parseHeader hh hR.validity) hn
  | decodeFrame a => exact execDecodeFrame_related hR hQ (hstart rfl) (hbuf rfl) hn
  | pack => exact execPack_related hR hQ hn
  | frameHeaderWord blk bsc src chn bpc => exact field (within_rejecting hh.rejected (within_applyHeaderWord hh _ _ _ _ _)) hn
  | chnIndependent n => exact field (channels _ _) hn
  | chnLeftSide => exact field (channels _ _) hn
  | chnRightSide => exact field (channels _ _) hn
  | chnMidSide => exact field (channels _ _) hn
  | chnReserved11 => exact field (within_rejecting hh.rejected (within_raise hC _)) hn
  | chnReserved12to15 x => exact field (within_rejecting hh.rejected (within_raise hC _)) hn
  | subframeConstant w => exact after (within_constantBody hs) hn
  | subframeVerbatim w => exact after (within_verbatimBody hs) hn
  | subframeFixed0 w => exact after (fun c => within_fixedBody hs hR.halts c 0) hn
  | subframeFixed1 w => exact after (fun c => within_fixedBody hs hR.halts c 1) hn
  | subframeFixed2 w => exact after (fun c => within_fixedBody hs hR.halts c 2) hn
  | subframeFixed3 w => exact after (fun c => within_fixedBody hs hR.halts c 3) hn
  | subframeFixed4 w => exact after (fun c => within_fixedBody hs hR.halts c 4) hn
  | subframeLpc o w => exact after (fun c => within_lpcBody hs hR.halts c _) hn
  | subframeReservedT2to3 x w => exact after (fun _ => within_raise hC _) hn
  | subframeReservedT4to7 x w => exact after (fun _ => within_raise hC _) hn
  | subframeFixedOrder5 w => exact after (fun c => within_fixedBody hs hR.halts c 5) hn
  | subframeFixedOrder6to7 x w => exact after (fun c => within_fixedBody hs hR.halts c _) hn
  | subframeReservedT16to31 x w => exact after (fun _ => within_raise hC _) hn
  | subframeTagBit7 x => exact field (within_raise hC _) hn
  | residualMethodRice4 => exact field (within_update fun s => hr.params s _) hn
  | residualMethodRice5 => exact field (within_update fun s => hr.params s _) hn
  | residualMethodReserved x => exact field (within_rejectMethod hr _) hn
  | partitionEscape4 => exact field (within_escapePartition hr _) hn
  | partitionEscape5 => exact field (within_escapePartition hr _) hn
  | partitionRice4 k => exact field (within_ricePartition hr _) hn
  | partitionRice5 k => exact field (within_ricePartition hr _) hn
  | vluLead1byte x => exact field (within_discard (within_vluAfterLead hv _ _)) hn
  | vluLead2byte x => exact field (within_discard (within_vluAfterLead hv _ _)) hn
  | vluLead3byte x => exact field (within_discard (within_vluAfterLead hv _ _)) hn
  | vluLead4byte x => exact field (within_discard (within_vluAfterLead hv _ _)) hn
  | vluLead5byte x => exact field (within_discard (within_vluAfterLead hv _ _)) hn
  | vluLead6byte x => exact field (within_discard (within_vluAfterLead hv _ _)) hn
  | vluLead7byte => exact field (within_discard (within_ite (within_vluAfterLead hv _ _) (within_vluFail hv))) hn
  | vluLeadContinuation x => exact field (within_discard (within_vluFail hv)) hn
  | vluLeadFf => exact field (within_discard (within_vluFail hv)) hn
  | vluContinuation x => exact field (within_vluAppend hv _) hn
  | frameFooter c => exact field (within_frameChecksum hc fun s => hR.phase s _) hn
  | headerCrc8 c => exact field (within_rejecting hh.rejected (within_headerChecksum hh hR.validity _)) hn
  | decodeSubframe c base => exact field (within_decodeSubframe hs hR.halts _ _) hn
  | decodeResidual c k => exact field (within_decodeResidual hr _ _) hn
  | restoreFixed c k => exact runField_related hQ (within_restoreFixed hC hR.halts hR.samples _ _) hn
  | restoreLpc c k => exact runField_related hQ (within_restoreLpc hC hR.halts hR.samples _ _) hn
  | decorrelate => exact runField_related hQ (within_decorrelateOp hC hR.halts hR.samples) hn
  | decodeNextFrame a =>
    refine needRange_related hQ (fun hf => ?_) hn
    cases hd : execDecodeFrame a s with
    | next u =>
      rw [hd, packAfter] at hf
      have h1 := execDecodeFrame_related hR hQ (hstart rfl) (hbuf rfl) hd
      split at hf
      · exact hQ.trans _ _ _ h1 (execPack_related hR hQ hf)
      · obtain rfl := Host.Outcome.next.inj hf
        exact h1
    | fault f => rw [hd] at hf; cases hf
    | refused x => rw [hd] at hf; cases hf

end Sys2Proof.Machine
end

