-- ==== Sys2Proof/Laws/Safe.lean ====
section
/-! SUPPORT. Steps that never fault: `Op.Meets P x Q` says that from a state with P the step answers with Q or raises,
and never stops in a fault of the model. The samples a frame reads are there because the frame wrote them. -/

namespace Sys2Proof.Machine

/-- A stop that is an error of the machine, not a fault of the model. -/
def Stop.isRaise : Stop → Bool
  | .raise _ => true
  | .halt _ => false

section
variable {α β : Type} {P P' : State → Prop} {Q Q' : α → State → Prop} {S : β → State → Prop}

/-- From P the step answers with Q or raises. -/
def Op.Meets (P : State → Prop) (x : Op α) (Q : α → State → Prop) : Prop :=
  ∀ s, P s → match x s with
    | .ok a t => Q a t
    | .error e _ => e.isRaise = true

theorem meets_pure {a : α} (h : ∀ s, P s → Q a s) : Op.Meets P (pure a) Q := fun s hs => h s hs
theorem meets_raise {k : ErrKind} : Op.Meets P (raise k) Q := fun _ _ => rfl
theorem meets_update {f : State → State} {Q : Unit → State → Prop} (h : ∀ s, P s → Q () (f s)) :
    Op.Meets P (update f) Q := fun s hs => h s hs

theorem meets_bind {x : Op α} {f : α → Op β} (hx : Op.Meets P x Q) (hf : ∀ a, Op.Meets (Q a) (f a) S) :
    Op.Meets P (x >>= f) S := by
  intro s hs
  have h1 := hx s hs
  rw [bind_apply]
  cases hxs : x s with
  | error e t => rw [hxs] at h1; exact h1
  | ok a t => rw [hxs] at h1; exact hf a t h1

/-- A view names what it reads. -/
theorem meets_view {f : State → α} {g : α → Op β} (h : ∀ a, Op.Meets (fun s => P s ∧ f s = a) (g a) S) :
    Op.Meets P (view f >>= g) S := fun s hs => h (f s) s ⟨hs, rfl⟩

theorem meets_ite {c : Prop} [Decidable c] {x y : Op α} (hx : c → Op.Meets P x Q) (hy : ¬ c → Op.Meets P y Q) :
    Op.Meets P (if c then x else y) Q := by
  split
  · next h => exact hx h
  · next h => exact hy h

theorem meets_rejecting {x : Op α} (h : Op.Meets P x Q) : Op.Meets P (rejecting x) Q := by
  intro s hs
  have := h s hs
  cases hx : x s with
  | ok a t => rw [rejecting_ok hx]; rw [hx] at this; exact this
  | error e t => rw [rejecting_error hx]; rw [hx] at this; exact this

theorem Op.Meets.mono {x : Op α} (h : Op.Meets P x Q) (hP : ∀ s, P' s → P s) (hQ : ∀ a s, Q a s → Q' a s) :
    Op.Meets P' x Q' := by
  intro s hs
  have := h s (hP s hs)
  cases hx : x s with
  | ok a t => rw [hx] at this; exact hQ _ _ this
  | error e t => rw [hx] at this; exact this

/-- A fact that is not about the state. -/
theorem meets_fact {x : Op α} {c : Prop} (h : Op.Meets P x Q) : Op.Meets (fun s => P s ∧ c) x fun a s => Q a s ∧ c := by
  intro s hs
  have e1 := h s hs.1
  cases hx : x s with
  | ok a t => rw [hx] at e1; exact ⟨e1, hs.2⟩
  | error e t => rw [hx] at e1; exact e1

theorem meets_and {x : Op α} (h1 : Op.Meets P x Q) (h2 : Op.Meets P' x Q') :
    Op.Meets (fun s => P s ∧ P' s) x (fun a s => Q a s ∧ Q' a s) := by
  intro s hs
  have e1 := h1 s hs.1
  have e2 := h2 s hs.2
  cases hx : x s with
  | ok a t => rw [hx] at e1 e2; exact ⟨e1, e2⟩
  | error e t => rw [hx] at e1; exact e1

/-- A step within a relation, that stops only by raising. -/
theorem meets_of_within {R : State → State → Prop} {x : Op α} (h : Op.Within R (fun e _ _ => e.isRaise = true) x) :
    Op.Meets P x fun _ t => ∃ s, P s ∧ R s t := by
  intro s hs
  have := h s
  cases hx : x s with
  | ok a t => rw [hx] at this; exact ⟨s, hs, this⟩
  | error e t => rw [hx] at this; exact this

/-- Every value a repeated step collects is one it answers. -/
theorem meets_repeatOp {x : Op α} {n : Nat} {V : α → Prop} (hx : Op.Meets P x fun a s => P s ∧ V a) :
    Op.Meets P (repeatOp n x) fun vs s => P s ∧ vs.length = n ∧ ∀ v ∈ vs, V v := by
  induction n with
  | zero => exact meets_pure fun s hs => ⟨hs, rfl, by simp⟩
  | succ n ih =>
    refine meets_bind hx fun a => ?_
    refine meets_bind (meets_fact ih) fun vs => meets_pure ?_
    rintro s ⟨⟨hs, hl, hv⟩, hV⟩
    exact ⟨hs, by simp [hl], by simpa using ⟨hV, hv⟩⟩

end

/-! ### Cursor operations -/

/-- What a cursor operation changes. -/
def Moves (s t : State) : Prop :=
  ∃ b o w r, t = { s with byte := b, bit := o, cache := w, res := r }

/-- Stops by raising only. -/
def Raises : Stop → State → State → Prop := fun e _ _ => e.isRaise = true

theorem moves_composable : Composable Moves Raises where
  refl s := ⟨s.byte, s.bit, s.cache, s.res, rfl⟩
  trans := by
    rintro s t u ⟨b, o, w, r, rfl⟩ ⟨b', o', w', r', rfl⟩
    exact ⟨b', o', w', r', rfl⟩
  raises _ _ _ := rfl
  stop _ _ _ _ _ h := h

theorem moves_cursor : CursorWrites Moves Raises where
  toComposable := moves_composable
  move b o :=
    within_bind moves_composable (within_update fun s => ⟨b, o, s.cache, s.res, rfl⟩) fun _ =>
    within_bind moves_composable (within_view moves_composable _) fun _ =>
    within_bind moves_composable (within_readIn moves_composable _) fun _ =>
    within_bind moves_composable (within_readIn moves_composable _) fun _ =>
    within_bind moves_composable (within_readIn moves_composable _) fun _ =>
    within_bind moves_composable (within_readIn moves_composable _) fun _ =>
    within_update fun s => ⟨s.byte, s.bit, _, s.res, rfl⟩
  result s v := ⟨s.byte, s.bit, s.cache, v, rfl⟩

/-- A predicate that reads neither POS, CACHE nor RES. -/
def OffCursor (P : State → Prop) : Prop := ∀ s t, Moves s t → P s → P t

theorem meets_moves {α : Type} {P : State → Prop} (hP : OffCursor P) {x : Op α} (h : Op.Within Moves Raises x) :
    Op.Meets P x fun _ => P :=
  (meets_of_within h).mono (fun _ h => h) fun _ _ ⟨s, hs, hm⟩ => hP s _ hm hs

/-! ### Samples -/

/-- The first `n` entries of channel c hold a value. -/
def State.Filled (s : State) (c : Fin 8) (n : Nat) : Prop := ∀ i, i < n → (s.ch.read s.wide c i).isSome = true

/-- A write fills on. -/
theorem filled_writeCh {s : State} {c : Fin 8} {i : Nat} (h : s.Filled c i) (vs : List Int) :
    (s.writeCh c i vs).Filled c (i + vs.length) := by
  intro j hj
  rw [writeCh_ch, writeCh_wide, write_read]
  split
  · rfl
  · next hn => exact h j (by omega)

/-- A write leaves what is filled filled. -/
theorem filled_writeCh_other {s : State} {d : Fin 8} {n : Nat} (h : s.Filled d n) (c : Fin 8) (i : Nat) (vs : List Int) :
    (s.writeCh c i vs).Filled d n := by
  intro j hj
  rw [writeCh_ch, writeCh_wide, write_read]
  split
  · rfl
  · exact h j hj

theorem readSamples_filled {s : State} {c : Fin 8} {n : Nat} (h : s.Filled c n) :
    ∃ xs, readSamples c n s = .ok xs s ∧ xs.length = n := by
  obtain ⟨xs, hx, hl⟩ := readFrom_present (back := s.ch.backgroundAt s.wide c) (cells := s.ch.cells[c]) (i := 0) (n := n)
    (fun j hj => by
      have := h j hj
      rw [Nat.zero_add]
      exact this)
  exact ⟨xs, by simp only [readSamples, hx], hl⟩

theorem meets_readSamples {P : State → Prop} {c : Fin 8} {n : Nat} (h : ∀ s, P s → s.Filled c n) :
    Op.Meets P (readSamples c n) fun xs s => P s ∧ xs.length = n := by
  intro s hs
  obtain ⟨xs, hx, hl⟩ := readSamples_filled (h s hs)
  rw [hx]
  exact ⟨hs, hl⟩

theorem meets_orRaise {α : Type} {P : State → Prop} {k : ErrKind} {o : Option α} :
    Op.Meets P (orRaise k o) fun a s => P s ∧ o = some a := by
  cases o with
  | none => exact meets_raise
  | some a => exact meets_pure fun s hs => ⟨hs, rfl⟩

/-! ### A residual section -/

/-- Inside a residual section of channel c, order k, in a block of n samples with 2^po partitions. -/
def InSection (c : Fin 8) (n k po : Nat) (s : State) : Prop :=
  s.hdr.blocksize.toNat = n ∧ s.seq.chan = c ∧ s.seq.order = k ∧ s.rp.partitionOrder = po

theorem partitionStart_next {n po k : Nat} (hk : k ≤ n >>> po) (j : Nat) :
    partitionStart n po k j + partitionSize n po k j = partitionStart n po k (j + 1) := by
  simp only [partitionStart, partitionSize, Nat.add_eq_zero_iff, Nat.one_ne_zero, and_false, if_false]
  split
  · next h => subst h; omega
  · rw [Nat.succ_mul]

theorem storePartition_meets {c : Fin 8} {n k po j : Nat} {vs : List Int} (hk : k ≤ n >>> po)
    (hl : vs.length = partitionSize n po k j) :
    Op.Meets (fun s => InSection c n k po s ∧ s.seq.part = j ∧ s.Filled c (partitionStart n po k j)) (storePartition vs)
      fun _ s => InSection c n k po s ∧ s.Filled c (partitionStart n po k (j + 1)) := by
  intro s hs
  obtain ⟨⟨hn, hc, ho, hp⟩, hj, hf⟩ := hs
  have e : storePartition vs s = .ok () (s.writeCh c (partitionStart n po k j) vs) := by
    simp only [storePartition, view_bind, State.partitionStart, hn, hc, ho, hp, hj]
    rfl
  rw [e]
  refine ⟨⟨hn, hc, ho, hp⟩, ?_⟩
  rw [← partitionStart_next hk, ← hl]
  exact filled_writeCh hf vs

theorem within_riceResidual_moves (k : Nat) : Op.Within Moves Raises (riceResidual k) := within_riceResidual moves_cursor k

theorem decodePartition_meets {c : Fin 8} {n k po j : Nat} (hk : k ≤ n >>> po) :
    Op.Meets (fun s => InSection c n k po s ∧ s.Filled c (partitionStart n po k j)) (decodePartition j)
      fun _ s => InSection c n k po s ∧ s.Filled c (partitionStart n po k (j + 1)) := by
  let I : State → Prop := fun s => InSection c n k po s ∧ s.seq.part = j ∧ s.Filled c (partitionStart n po k j)
  have hI : OffCursor I := by
    rintro s t ⟨b, o, w, r, rfl⟩ h
    exact h
  have hIrp : ∀ (f : ResidualParams → ResidualParams), (∀ x, (f x).partitionOrder = x.partitionOrder) →
      ∀ s, I s → I (s.mapRp f) := by
    rintro f hf s ⟨⟨hn, hc, ho, hp⟩, hj, hfl⟩
    exact ⟨⟨hn, hc, ho, (hf _).trans hp⟩, hj, hfl⟩
  have hsz : ∀ s, I s → s.partitionSize = partitionSize n po k j := by
    rintro s ⟨⟨hn, hc, ho, hp⟩, hj, -⟩
    simp only [State.partitionSize, hn, ho, hp, hj]
  refine meets_bind (Q := fun _ => I) (meets_update ?_) fun _ => ?_
  · rintro s ⟨⟨hn, hc, ho, hp⟩, hfl⟩
    exact ⟨⟨hn, hc, ho, hp⟩, rfl, hfl⟩
  refine meets_view fun bits => ?_
  refine meets_bind (Q := fun _ => I) ((meets_moves hI (within_readBits moves_cursor bits)).mono (fun s h => h.1)
    fun _ _ h => h) fun param => ?_
  refine meets_ite (fun _ => ?_) (fun _ => ?_)
  · refine meets_bind (Q := fun _ => I) (meets_update (hIrp _ fun _ => rfl)) fun _ => ?_
    refine meets_bind (meets_moves hI (within_readBits moves_cursor 5)) fun w => ?_
    refine meets_bind (Q := fun _ => I) (meets_update (hIrp _ fun _ => rfl)) fun _ => ?_
    refine meets_view fun cnt => ?_
    refine meets_ite (fun _ => ?_) (fun _ => ?_)
    · refine meets_bind (Q := fun vs s => I s ∧ vs.length = partitionSize n po k j) (meets_pure ?_) fun vs => ?_
      · rintro s ⟨hs, rfl⟩
        exact ⟨hs, by simp [hsz s hs]⟩
      · exact fun s hs => storePartition_meets hk hs.2 s hs.1
    · refine meets_bind (Q := fun vs s => I s ∧ vs.length = partitionSize n po k j) ?_ fun vs => ?_
      · intro s hs
        obtain ⟨hs, rfl⟩ := hs
        have h1 := meets_repeatOp (n := s.partitionSize) (V := fun _ => True) (P := I) (x := readSigned w)
          ((meets_moves hI (within_readSigned moves_cursor w)).mono (fun _ h => h) fun _ _ h => ⟨h, trivial⟩) s hs
        cases hx : repeatOp s.partitionSize (readSigned w) s with
        | ok vs t => rw [hx] at h1; exact ⟨h1.1, h1.2.1.trans (hsz s hs)⟩
        | error e t => rw [hx] at h1; exact h1
      · exact fun s hs => storePartition_meets hk hs.2 s hs.1
  · refine meets_bind (Q := fun _ => I) (meets_update (hIrp _ fun _ => rfl)) fun _ => ?_
    refine meets_view fun cnt => ?_
    refine meets_bind (Q := fun vs s => I s ∧ vs.length = partitionSize n po k j) ?_ fun vs => ?_
    · intro s hs
      obtain ⟨hs, rfl⟩ := hs
      have h1 := meets_repeatOp (n := s.partitionSize) (V := fun _ => True) (P := I) (x := riceResidual param)
        ((meets_moves hI (within_riceResidual_moves param)).mono (fun _ h => h) fun _ _ h => ⟨h, trivial⟩) s hs
      cases hx : repeatOp s.partitionSize (riceResidual param) s with
      | ok vs t => rw [hx] at h1; exact ⟨h1.1, h1.2.1.trans (hsz s hs)⟩
      | error e t => rw [hx] at h1; exact h1
    · exact fun s hs => storePartition_meets hk hs.2 s hs.1

theorem partitions_meets {c : Fin 8} {n k po : Nat} (hk : k ≤ n >>> po) (m j : Nat) :
    Op.Meets (fun s => InSection c n k po s ∧ s.Filled c (partitionStart n po k j)) (forEach (List.range' j m) decodePartition)
      fun _ s => InSection c n k po s ∧ s.Filled c (partitionStart n po k (j + m)) := by
  induction m generalizing j with
  | zero => exact meets_pure fun s hs => hs
  | succ m ih =>
    rw [List.range'_succ, forEach]
    refine meets_bind (decodePartition_meets hk) fun _ => ?_
    have := ih (j + 1)
    rw [show j + 1 + m = j + (m + 1) by omega] at this
    exact this

/-- A residual section fills the channel to the end of the block. -/
theorem decodeResidual_meets {c : Fin 8} {n k : Nat} :
    Op.Meets (fun s => s.hdr.blocksize.toNat = n ∧ s.Filled c k) (decodeResidual c k)
      fun _ s => s.hdr.blocksize.toNat = n ∧ s.Filled c n := by
  let I : State → Prop := fun s => s.hdr.blocksize.toNat = n ∧ s.seq.chan = c ∧ s.seq.order = k ∧ s.Filled c k
  have hI : OffCursor I := by
    rintro s t ⟨b, o, w, r, rfl⟩ h
    exact h
  have hrest : Op.Meets I (do
      let p ← readBits 4
      updateRp fun r => { r with partitionOrder := p }
      let n ← view (·.hdr.blocksize.toNat)
      if partitionsFit n p k then forEach (List.range (2 ^ p)) decodePartition
      else raise .structuralError) fun _ s => s.hdr.blocksize.toNat = n ∧ s.Filled c n := by
    refine meets_bind (meets_moves hI (within_readBits moves_cursor 4)) fun p => ?_
    refine meets_bind (Q := fun _ s => InSection c n k p s ∧ s.Filled c k) (meets_update ?_) fun _ => ?_
    · rintro s ⟨hn, hc, ho, hf⟩
      exact ⟨⟨hn, hc, ho, rfl⟩, hf⟩
    refine meets_view fun m => ?_
    refine meets_ite (fun hfit => ?_) (fun _ => meets_raise)
    intro s hs
    obtain ⟨⟨⟨hn, hc, ho, hp⟩, hf⟩, rfl⟩ := hs
    simp only [hn, partitionsFit, Bool.and_eq_true, beq_iff_eq, decide_eq_true_eq] at hfit
    have h1 := partitions_meets (c := c) hfit.2 (2 ^ p) 0 s ⟨⟨hn, hc, ho, hp⟩, by simpa [partitionStart] using hf⟩
    rw [List.range_eq_range']
    have hend : partitionStart n p k (0 + 2 ^ p) = n := by
      have : 2 ^ p ≠ 0 := (Nat.two_pow_pos p).ne'
      simp only [partitionStart, Nat.zero_add, if_neg this, Nat.shiftRight_eq_div_pow]
      exact Nat.mul_div_cancel' (Nat.dvd_of_mod_eq_zero hfit.1)
    rw [hend] at h1
    cases hx : forEach (List.range' 0 (2 ^ p)) decodePartition s with
    | ok a t => rw [hx] at h1; exact ⟨h1.1.1, h1.2⟩
    | error e t => rw [hx] at h1; exact h1
  refine meets_bind (Q := fun _ => I) (meets_update ?_) fun _ => ?_
  · rintro s ⟨hn, hf⟩
    exact ⟨hn, rfl, rfl, hf⟩
  refine meets_bind (meets_moves hI (within_readBits moves_cursor 2)) fun m => ?_
  refine meets_ite (fun _ => ?_) (fun _ => ?_)
  · refine meets_bind (Q := fun _ => I) ?_ fun _ => hrest
    exact meets_bind (Q := fun _ => I) (meets_update fun s hs => hs) fun _ => meets_raise
  · exact meets_bind (Q := fun _ => I) (meets_update fun s hs => hs) fun _ => hrest

/-! ### Subframes -/

/-- What every step of a subframe leaves: HDR, WIDE, and every filled entry filled. -/
def Grows (s t : State) : Prop := t.hdr = s.hdr ∧ t.wide = s.wide ∧ ∀ d n, s.Filled d n → t.Filled d n

/-- No claim about where a step stops. -/
def Whatever : Stop → State → State → Prop := fun _ _ _ => True

theorem whatever_mayHalt : MayHalt Whatever := fun _ _ => trivial

theorem grows_composable {E : Stop → State → State → Prop} (hr : ∀ k s, k.isFault = true → E (.raise k) s s)
    (hs : ∀ e s t u, Grows s t → E e t u → E e s u) : Composable Grows E where
  refl _ := ⟨rfl, rfl, fun _ _ h => h⟩
  trans _ _ _ h1 h2 := ⟨h2.1.trans h1.1, h2.2.1.trans h1.2.1, fun d n h => h2.2.2 d n (h1.2.2 d n h)⟩
  raises := hr
  stop := hs

theorem grows_of_moves {s t : State} (h : Moves s t) : Grows s t := by
  obtain ⟨b, o, w, r, rfl⟩ := h
  exact ⟨rfl, rfl, fun _ _ h => h⟩

theorem grows_subframe {E : Stop → State → State → Prop} (hC : Composable Grows E)
    (hE : ∀ e s t, e.isRaise = true → E e s t) : SubframeWrites Grows E where
  toComposable := hC
  move b o := by
    intro s
    have := moves_cursor.move b o s
    cases hx : setPos b o s with
    | ok a t => rw [hx] at this; exact grows_of_moves this
    | error e t => rw [hx] at this; exact hE _ _ _ this
  result _ _ := ⟨rfl, rfl, fun _ _ h => h⟩
  names _ _ := ⟨rfl, rfl, fun _ _ h => h⟩
  params _ _ := ⟨rfl, rfl, fun _ _ h => h⟩
  samples _ c i vs := ⟨rfl, rfl, fun _ _ h => filled_writeCh_other h c i vs⟩
  descriptor _ _ _ := ⟨rfl, rfl, fun _ _ h => h⟩
  lpc _ _ := ⟨rfl, rfl, fun _ _ h => h⟩

theorem grows_whatever : SubframeWrites Grows Whatever :=
  grows_subframe (grows_composable (fun _ _ _ => trivial) fun _ _ _ _ _ _ => trivial) fun _ _ _ _ => trivial

theorem grows_raises : SubframeWrites Grows Raises :=
  grows_subframe (grows_composable (fun _ _ _ => rfl) fun _ _ _ _ _ h => h) fun _ _ _ h => h

/-- A step of a subframe keeps the size of the block. -/
theorem meets_size {α : Type} {n : Nat} {x : Op α} (h : Op.Within Grows Raises x) :
    Op.Meets (fun s => s.hdr.blocksize.toNat = n) x fun _ s => s.hdr.blocksize.toNat = n :=
  (meets_of_within h).mono (fun _ h => h) fun _ _ ⟨s, hs, hm⟩ => by rw [hm.1]; exact hs

theorem restoreWith_meets {c : Fin 8} {n k : Nat} {f : List Int → Int → Option Int} :
    Op.Meets (fun s => s.hdr.blocksize.toNat = n ∧ s.Filled c n) (restoreWith c k f)
      fun _ s => s.hdr.blocksize.toNat = n ∧ s.Filled c n := by
  refine meets_view fun m => meets_ite (fun _ => meets_pure fun s hs => hs.1) fun _ => ?_
  refine meets_bind (meets_readSamples (n := m) fun s hs => by rw [← hs.2, hs.1.1]; exact hs.1.2) fun xs => ?_
  refine meets_bind meets_orRaise fun vs => meets_update fun s hs => ?_
  exact ⟨hs.1.1.1.1, filled_writeCh_other hs.1.1.1.2 c k vs⟩

theorem repeatSamples_meets {n m d : Nat} :
    Op.Meets (fun s => s.hdr.blocksize.toNat = n) (repeatOp m (readSample d))
      fun vs s => s.hdr.blocksize.toNat = n ∧ vs.length = m :=
  (meets_repeatOp (V := fun _ => True) ((meets_size (within_readSample grows_raises.toCursorWrites d)).mono
    (fun _ h => h) fun _ _ h => ⟨h, trivial⟩)).mono (fun _ h => h) fun _ _ h => ⟨h.1, h.2.1⟩

theorem write_all {s : State} {c : Fin 8} {vs : List Int} : (s.writeCh c 0 vs).Filled c vs.length := by
  have := filled_writeCh (s := s) (c := c) (i := 0) (fun i hi => absurd hi (by omega)) vs
  rwa [Nat.zero_add] at this

theorem warmUp_meets {c : Fin 8} {n k : Nat} :
    Op.Meets (fun s => s.hdr.blocksize.toNat = n) (warmUp c k) fun _ s => s.hdr.blocksize.toNat = n ∧ s.Filled c k := by
  refine meets_view fun d => ?_
  refine meets_bind (repeatSamples_meets.mono (fun s h => h.1) fun _ _ h => h) fun vs => meets_update ?_
  rintro s ⟨hn, rfl⟩
  exact ⟨hn, write_all⟩

/-- A body fills its channel. -/
def Fills (n : Nat) (body : Fin 8 → Op Unit) : Prop :=
  ∀ c, Op.Meets (fun s => s.hdr.blocksize.toNat = n) (body c) fun _ s => s.hdr.blocksize.toNat = n ∧ s.Filled c n

theorem constantBody_fills (n : Nat) : Fills n constantBody := by
  intro c
  refine meets_bind (meets_size (within_setType grows_raises c _ _)) fun _ => ?_
  refine meets_view fun m => meets_view fun d => ?_
  refine meets_bind ((meets_fact (c := m = n) (meets_size (within_readSample grows_raises.toCursorWrites d))).mono
    (fun s h => ⟨h.1.1, h.1.2.symm.trans h.1.1⟩) fun _ _ h => h) fun v => meets_update ?_
  rintro s ⟨hn, rfl⟩
  have := write_all (s := s) (c := c) (vs := List.replicate m v)
  rw [List.length_replicate] at this
  exact ⟨hn, this⟩

theorem verbatimBody_fills (n : Nat) : Fills n verbatimBody := by
  intro c
  refine meets_bind (meets_size (within_setType grows_raises c _ _)) fun _ => ?_
  refine meets_view fun m => meets_view fun d => ?_
  refine meets_bind ((meets_fact (c := m = n) repeatSamples_meets).mono
    (fun s h => ⟨h.1.1, h.1.2.symm.trans h.1.1⟩) fun _ _ h => h) fun vs => meets_update ?_
  rintro s ⟨⟨hn, hl⟩, rfl⟩
  refine ⟨hn, ?_⟩
  rw [← hl]
  exact write_all

theorem checkOrder_meets {P : State → Prop} {k : Nat} : Op.Meets P (checkOrder k) fun _ => P :=
  meets_view fun _ => meets_ite (fun _ => meets_raise) fun _ => meets_pure fun _ h => h.1

theorem fixedBody_fills (n k : Nat) : Fills n fun c => fixedBody c k := by
  intro c
  refine meets_bind (meets_size (within_setType grows_raises c _ _)) fun _ => ?_
  refine meets_ite (fun _ => meets_raise) fun _ => ?_
  refine meets_bind checkOrder_meets fun _ => meets_bind warmUp_meets fun _ => meets_bind decodeResidual_meets fun _ => ?_
  refine meets_ite (fun _ => meets_pure fun s hs => hs) fun _ => ?_
  exact meets_view fun _ => meets_view fun _ => meets_view fun _ =>
    restoreWith_meets.mono (fun s h => h.1.1.1) fun _ _ h => h

theorem lpcBody_fills (n k : Nat) : Fills n fun c => lpcBody c k := by
  intro c
  refine meets_bind (meets_size (within_setType grows_raises c _ _)) fun _ => ?_
  refine meets_bind checkOrder_meets fun _ => meets_bind warmUp_meets fun _ => ?_
  have hl : Op.Meets (fun s => s.hdr.blocksize.toNat = n ∧ s.Filled c k) (lpcParameters k) fun _ s =>
      s.hdr.blocksize.toNat = n ∧ s.Filled c k :=
    (meets_of_within (within_lpcParameters grows_raises k)).mono (fun _ h => h) fun _ t ⟨s, hs, hm⟩ =>
      ⟨by rw [hm.1]; exact hs.1, hm.2.2 _ _ hs.2⟩
  refine meets_bind hl fun _ => meets_bind decodeResidual_meets fun _ => ?_
  exact meets_view fun _ => meets_view fun _ => meets_view fun _ => meets_view fun _ =>
    restoreWith_meets.mono (fun s h => h.1.1.1.1) fun _ _ h => h

theorem raise_fills (n : Nat) (k : ErrKind) : Fills n fun _ => raise k := fun _ => meets_raise

theorem restoreWasted_meets {c : Fin 8} {n : Nat} :
    Op.Meets (fun s => s.hdr.blocksize.toNat = n ∧ s.Filled c n) (restoreWasted c)
      fun _ s => s.hdr.blocksize.toNat = n ∧ s.Filled c n := by
  refine meets_view fun w => meets_ite (fun _ => meets_pure fun s hs => hs.1) fun _ => ?_
  refine meets_view fun m => meets_view fun _ => meets_view fun _ => ?_
  refine meets_bind (meets_readSamples (n := m) fun s hs => by
    rw [← hs.1.1.2, hs.1.1.1.1.1]; exact hs.1.1.1.1.2) fun xs => ?_
  refine meets_bind meets_orRaise fun vs => meets_update fun s hs => ?_
  exact ⟨hs.1.1.1.1.1.1.1, filled_writeCh_other hs.1.1.1.1.1.1.2 c 0 vs⟩

theorem subframeAfterTag_meets {n : Nat} {c : Fin 8} {w : Bool} {body : Fin 8 → Op Unit} (hb : Fills n body) :
    Op.Meets (fun s => s.hdr.blocksize.toNat = n ∧ s.seq.chan = c) (subframeAfterTag w body)
      fun _ s => s.hdr.blocksize.toNat = n ∧ s.Filled c n := by
  refine meets_view fun c' => ?_
  refine meets_bind (Q := fun _ s => s.hdr.blocksize.toNat = n ∧ c' = c) ((meets_fact (meets_size
    (within_wastedBits grows_raises c' w))).mono (fun s h => ⟨h.1.1, h.2.symm.trans h.1.2⟩) fun _ _ h => h) fun _ => ?_
  refine meets_bind (meets_fact (meets_size (within_effectiveDepth grows_raises c'))) fun _ => ?_
  refine meets_bind (meets_fact (hb c')) fun _ => ?_
  exact (meets_fact restoreWasted_meets).mono (fun _ h => h) fun _ s h => by obtain ⟨h, rfl⟩ := h; exact h

theorem classify_fills (n : Nat) (t : BitVec 6) : Fills n (classify t) := fun c =>
  meets_ite (fun _ => constantBody_fills n c) fun _ =>
  meets_ite (fun _ => verbatimBody_fills n c) fun _ =>
  meets_ite (fun _ => lpcBody_fills n _ c) fun _ =>
  meets_ite (fun _ => fixedBody_fills n _ c) fun _ => meets_raise

/-- A decoded subframe fills its channel (R220 to R229). -/
theorem decodeSubframe_meets {n : Nat} {c : Fin 8} {base : Nat} :
    Op.Meets (fun s => s.hdr.blocksize.toNat = n) (decodeSubframe c base)
      fun _ s => s.hdr.blocksize.toNat = n ∧ s.Filled c n := by
  let I : State → Prop := fun s => s.hdr.blocksize.toNat = n ∧ s.seq.chan = c
  have hI : OffCursor I := by
    rintro s t ⟨b, o, w, r, rfl⟩ h
    exact h
  refine meets_bind (Q := fun _ => I) (meets_update fun s hs => ⟨hs, rfl⟩) fun _ => ?_
  refine meets_bind (meets_moves hI (within_readBits moves_cursor 8)) fun tag => ?_
  exact meets_ite (fun _ => meets_raise) fun _ => subframeAfterTag_meets (classify_fills n _)

/-- A step that also keeps what its relation keeps. -/
theorem meets_keeps {α : Type} {P F : State → Prop} {Q : α → State → Prop} {R : State → State → Prop} {x : Op α}
    (h : Op.Meets P x Q) (hw : Op.Within R Whatever x) (hF : ∀ s t, R s t → F s → F t) :
    Op.Meets (fun s => P s ∧ F s) x fun a s => Q a s ∧ F s := by
  intro s hs
  have e1 := h s hs.1
  have e2 := hw s
  cases hx : x s with
  | ok a t => rw [hx] at e1 e2; exact ⟨e1, hF _ _ e2 hs.2⟩
  | error e t => rw [hx] at e1; exact e1

theorem subframes_meets {h : Header} (cs : List (Fin 8)) (done : List (Fin 8)) :
    Op.Meets (fun s => s.hdr = h ∧ ∀ d ∈ done, s.Filled d h.blocksize.toNat) (forEach cs frameSubframe)
      fun _ s => s.hdr = h ∧ ∀ d ∈ done ++ cs, s.Filled d h.blocksize.toNat := by
  induction cs generalizing done with
  | nil => exact meets_pure fun s hs => by simpa using hs
  | cons c cs ih =>
    refine meets_bind (Q := fun _ s => s.hdr = h ∧ ∀ d ∈ done ++ [c], s.Filled d h.blocksize.toNat) ?_ fun _ => ?_
    · refine meets_view fun h' => ?_
      have hw : Op.Within Grows Whatever (decodeSubframe c (baseDepth h' c)) :=
        within_decodeSubframe grows_whatever whatever_mayHalt c _
      refine (meets_keeps (F := fun s => s.hdr = h ∧ ∀ d ∈ done, s.Filled d h.blocksize.toNat)
        (decodeSubframe_meets (n := h.blocksize.toNat)) hw fun s t hg hs => ⟨by rw [hg.1]; exact hs.1, fun d hd => hg.2.2 _ _ (hs.2 d hd)⟩).mono
        (fun s hs => ⟨by rw [hs.1.1], hs.1⟩) fun _ s hs => ⟨hs.2.1, fun d hd => ?_⟩
      rcases List.mem_append.mp hd with hd | hd
      · exact hs.2.2 d hd
      · rw [List.mem_singleton.mp hd]; exact hs.1.2
    · have := ih (done ++ [c])
      simpa [List.append_assoc] using this

end Sys2Proof.Machine
end

