-- ==== Sys2Proof/Laws/Relate.lean ====
section
/-! SUPPORT. Two runs side by side: `Op.Agree P x Q` says that from states related by P the step answers the same value
with states related by Q, or stops the same way with states that are alike. With it `decode_frame` is shown to depend on
nothing an earlier frame left (70_reset_and_hazards.md rule R423). -/

namespace Sys2Proof.Machine

variable {α β : Type}

/-- Two states agree on the launch state, the cursor, and what a raise shows of the attempt. -/
structure Alike (s t : State) : Prop where
  input : s.input = t.input
  params : s.params = t.params
  streamInfo : s.streamInfo = t.streamInfo
  freeCount : s.freeCount = t.freeCount
  byte : s.byte = t.byte
  bit : s.bit = t.bit
  cache : s.cache = t.cache
  curValid : s.curValid = t.curValid
  ok : s.ok = t.ok
  err : s.err = t.err
  fstate : s.fstate = t.fstate
  valid : s.hdr.valid = t.hdr.valid
  wide : s.wide = t.wide
  header : s.hdr.valid = true → s.hdr = t.hdr

/-- States that are alike and related by J. -/
def With (J : State → State → Prop) (s t : State) : Prop := Alike s t ∧ J s t

/-- J says nothing of POS, CACHE and RES. -/
def OffCursor₂ (J : State → State → Prop) : Prop :=
  ∀ s t s' t', Moves s s' → Moves t t' → J s t → J s' t'

/-- The two runs of one step. -/
def Op.Agree (P : State → State → Prop) (x : Op α) (Q : α → State → State → Prop) : Prop :=
  ∀ s t, P s t →
    (∃ a s' t', x s = .ok a s' ∧ x t = .ok a t' ∧ Q a s' t')
    ∨ ∃ e s' t', x s = .error e s' ∧ x t = .error e t' ∧ Alike s' t'

variable {P : State → State → Prop} {J K : State → State → Prop}

theorem agree_bind {Q : α → State → State → Prop} {S : β → State → State → Prop} {x : Op α} {f : α → Op β}
    (hx : Op.Agree P x Q) (hf : ∀ a, Op.Agree (Q a) (f a) S) : Op.Agree P (x >>= f) S := by
  intro s t h
  rcases hx s t h with ⟨a, s', t', h1, h2, h3⟩ | ⟨e, s', t', h1, h2, h3⟩
  · rw [bind_ok h1, bind_ok h2]
    exact hf a s' t' h3
  · exact .inr ⟨e, s', t', bind_error h1, bind_error h2, h3⟩

theorem agree_mono {Q R : α → State → State → Prop} {P' : State → State → Prop} {x : Op α} (hx : Op.Agree P x Q)
    (hP : ∀ s t, P' s t → P s t) (hQ : ∀ a s t, Q a s t → R a s t) : Op.Agree P' x R := fun s t h =>
  (hx s t (hP s t h)).imp (fun ⟨a, s', t', h1, h2, h3⟩ => ⟨a, s', t', h1, h2, hQ _ _ _ h3⟩) id

theorem agree_pure {Q : α → State → State → Prop} (a : α) (h : ∀ s t, P s t → Q a s t) :
    Op.Agree P (pure a : Op α) Q := fun s t hs => .inl ⟨a, s, t, rfl, rfl, h s t hs⟩

theorem agree_view {Q : β → State → State → Prop} {f : State → α} {g : α → Op β} (hf : ∀ s t, P s t → f s = f t)
    (hg : ∀ a, Op.Agree (fun s t => P s t ∧ f s = a) (g a) Q) : Op.Agree P (view f >>= g) Q := fun s t h => by
  rw [view_bind, view_bind, ← hf s t h]
  exact hg (f s) s t ⟨h, rfl⟩

theorem agree_update {Q : Unit → State → State → Prop} {f : State → State} (h : ∀ s t, P s t → Q () (f s) (f t)) :
    Op.Agree P (update f) Q := fun s t hs => .inl ⟨(), f s, f t, rfl, rfl, h s t hs⟩

theorem agree_raise {Q : α → State → State → Prop} (k : ErrKind) (h : ∀ s t, P s t → Alike s t) :
    Op.Agree P (raise k : Op α) Q := fun s t hs => .inr ⟨_, s, t, rfl, rfl, h s t hs⟩

theorem agree_orRaise (k : ErrKind) (o : Option α) (h : ∀ s t, P s t → Alike s t) :
    Op.Agree P (orRaise k o) fun _ => P := by
  cases o with
  | none => exact agree_raise k h
  | some a => exact agree_pure a fun _ _ h => h

theorem agree_ite {Q : α → State → State → Prop} {c : Prop} [Decidable c] {x y : Op α} (hx : c → Op.Agree P x Q)
    (hy : ¬c → Op.Agree P y Q) : Op.Agree P (if c then x else y) Q := by
  split
  · exact hx ‹_›
  · exact hy ‹_›

/-- A header step that stops leaves the same rejected header in both. -/
theorem agree_rejecting {Q : α → State → State → Prop} {x : Op α} (h : Op.Agree P x Q) :
    Op.Agree P (rejecting x) Q := fun s t hs => by
  rcases h s t hs with ⟨a, s', t', h1, h2, h3⟩ | ⟨e, s', t', h1, h2, h3⟩
  · exact .inl ⟨a, s', t', rejecting_ok h1, rejecting_ok h2, h3⟩
  · exact .inr ⟨e, _, _, rejecting_error h1, rejecting_error h2, { h3 with
      valid := rfl
      header := fun e => nomatch (show false = true from e) }⟩

theorem agree_discard {Q : State → State → Prop} {x : Op α} (h : Op.Agree P x fun _ => Q) :
    Op.Agree P (discard x : Op PUnit) fun _ => Q := fun s t hs => by
  rcases h s t hs with ⟨a, s', t', h1, h2, h3⟩ | ⟨e, s', t', h1, h2, h3⟩
  · exact .inl ⟨(), s', t', discard_ok h1, discard_ok h2, h3⟩
  · exact .inr ⟨e, s', t', discard_error h1, discard_error h2, h3⟩

theorem agree_repeat {op : Op α} (h : Op.Agree P op fun _ => P) (n : Nat) : Op.Agree P (repeatOp n op) fun _ => P := by
  induction n with
  | zero => exact agree_pure [] fun _ _ h => h
  | succ n ih => exact agree_bind h fun _ => agree_bind ih fun _ => agree_pure _ fun _ _ h => h

/-- The values read are as many as the reads. -/
theorem agree_repeat_length {op : Op α} (h : Op.Agree P op fun _ => P) (n : Nat) :
    Op.Agree P (repeatOp n op) fun vs s t => P s t ∧ vs.length = n := by
  induction n with
  | zero => exact agree_pure [] fun _ _ h => ⟨h, rfl⟩
  | succ n ih => exact agree_bind h fun _ => agree_bind ih fun _ => agree_pure _ fun _ _ h => ⟨h.1, congrArg (· + 1) h.2⟩

theorem agree_forEach {op : α → Op Unit} (h : ∀ a, Op.Agree P (op a) fun _ => P) (as : List α) :
    Op.Agree P (forEach as op) fun _ => P := by
  induction as with
  | nil => exact agree_pure () fun _ _ h => h
  | cons a as ih => exact agree_bind (h a) fun _ => ih

/-! ### The cursor -/

theorem agree_readIn (a : Nat) : Op.Agree (With J) (readIn a) fun _ => With J := fun s t h => by
  by_cases ha : a < s.params.cap
  · exact .inl ⟨s.input.read a, s, t, if_pos ha, by rw [h.1.input]; exact if_pos (h.1.params ▸ ha), h⟩
  · exact .inr ⟨_, s, t, if_neg ha, if_neg (h.1.params ▸ ha), h.1⟩

theorem agree_setPos (hJ : OffCursor₂ J) (b : Nat) (o : Fin 8) : Op.Agree (With J) (setPos b o) fun _ => With J := by
  refine agree_bind (Q := fun _ => With J) (agree_update fun s t ⟨h, hj⟩ =>
    ⟨{ h with byte := rfl, bit := rfl }, hJ s t _ _ ⟨b, o, s.cache, s.res, rfl⟩ ⟨b, o, t.cache, t.res, rfl⟩ hj⟩) fun _ => ?_
  refine agree_view (fun _ _ h => h.1.byte) fun x => ?_
  refine agree_mono (P := With J) (Q := fun _ => With J) ?_ (fun _ _ h => h.1) (fun _ _ _ h => h)
  refine agree_bind (agree_readIn _) fun b0 => agree_bind (agree_readIn _) fun b1 => agree_bind (agree_readIn _) fun b2 =>
    agree_bind (agree_readIn _) fun b3 => agree_update fun s t ⟨h, hj⟩ =>
    ⟨{ h with cache := by simp only [h.bit] }, hJ s t _ _ ⟨s.byte, s.bit, _, s.res, rfl⟩ ⟨t.byte, t.bit, _, t.res, rfl⟩ hj⟩

theorem agree_viewJ {Q : β → State → State → Prop} {f : State → α} {g : α → Op β}
    (hf : ∀ s t, With J s t → f s = f t) (hg : ∀ a, Op.Agree (With J) (g a) Q) :
    Op.Agree (With J) (view f >>= g) Q :=
  agree_view hf fun a => agree_mono (hg a) (fun _ _ h => h.1) fun _ _ _ h => h

theorem agree_advance (hJ : OffCursor₂ J) (n : Nat) : Op.Agree (With J) (advance n) fun _ => With J :=
  agree_viewJ (fun _ _ h => h.1.byte) fun _ => agree_viewJ (fun _ _ h => by simp only [h.1.bit]) fun _ => agree_setPos hJ _ _

theorem agree_setRes (hJ : OffCursor₂ J) (v : Word64) : Op.Agree (With J) (setRes v) fun _ => With J :=
  agree_update fun s t ⟨h, hj⟩ =>
    ⟨{ h with }, hJ s t _ _ ⟨s.byte, s.bit, s.cache, v, rfl⟩ ⟨t.byte, t.bit, t.cache, v, rfl⟩ hj⟩

theorem agree_small (hJ : OffCursor₂ J) (m : Nat) : Op.Agree (With J) (small m) fun _ => With J :=
  agree_viewJ (fun _ _ h => h.1.cache) fun _ => agree_bind (agree_advance hJ m) fun _ => agree_pure _ fun _ _ h => h

theorem agree_readBits (hJ : OffCursor₂ J) (n : Nat) : Op.Agree (With J) (readBits n) fun _ => With J := by
  have hend : ∀ v, Op.Agree (With J) (do setRes (BitVec.ofNat 64 v); pure v) fun _ => With J := fun v =>
    agree_bind (agree_setRes hJ _) fun _ => agree_pure v fun _ _ h => h
  exact agree_ite (fun _ => agree_bind (agree_small hJ n) hend) fun _ =>
    agree_bind (agree_small hJ 24) fun _ => agree_bind (agree_small hJ _) fun _ =>
      agree_bind (Q := fun _ => With J) (agree_pure _ fun _ _ h => h) hend

theorem agree_readChunks (hJ : OffCursor₂ J) (rounds rem v : Nat) :
    Op.Agree (With J) (readChunks rounds rem v) fun _ => With J := by
  induction rounds generalizing rem v with
  | zero => exact agree_pure v fun _ _ h => h
  | succ rounds ih =>
    exact agree_ite (fun _ => agree_pure v fun _ _ h => h) fun _ => agree_bind (agree_readBits hJ _) fun _ => ih _ _

theorem agree_readBits64 (hJ : OffCursor₂ J) (n : Nat) : Op.Agree (With J) (readBits64 n) fun _ => With J :=
  agree_bind (agree_readChunks hJ _ _ _) fun v => agree_bind (agree_setRes hJ _) fun _ => agree_pure v fun _ _ h => h

theorem agree_readSigned (hJ : OffCursor₂ J) (n : Nat) : Op.Agree (With J) (readSigned n) fun _ => With J :=
  agree_bind (agree_readBits hJ n) fun _ => agree_bind (agree_setRes hJ _) fun _ => agree_pure _ fun _ _ h => h

theorem agree_readSigned64 (hJ : OffCursor₂ J) (n : Nat) : Op.Agree (With J) (readSigned64 n) fun _ => With J :=
  agree_bind (agree_readBits64 hJ n) fun _ => agree_bind (agree_setRes hJ _) fun _ => agree_pure _ fun _ _ h => h

theorem agree_readUnary (hJ : OffCursor₂ J) : Op.Agree (With J) readUnary fun _ => With J := by
  have loop : ∀ rounds q, Op.Agree (With J) (unaryLoop rounds q) fun _ => With J := by
    intro rounds
    induction rounds with
    | zero => exact fun _ => agree_raise _ fun _ _ h => h.1
    | succ rounds ih =>
      exact fun q => agree_bind (agree_readBits hJ 1) fun _ => agree_ite (fun _ => ih _) fun _ =>
        agree_bind (agree_setRes hJ _) fun _ => agree_pure q fun _ _ h => h
  exact agree_viewJ (fun _ _ h => by rw [h.1.params]) fun _ => loop _ _

theorem agree_flush (hJ : OffCursor₂ J) : Op.Agree (With J) flush fun _ => With J :=
  agree_viewJ (fun _ _ h => h.1.bit) fun _ => agree_ite (fun _ => agree_pure () fun _ _ h => h) fun _ => agree_advance hJ _

theorem agree_readSpan (a n : Nat) : Op.Agree (With J) (readSpan a n) fun _ => With J := by
  induction n generalizing a with
  | zero => exact agree_pure [] fun _ _ h => h
  | succ n ih => exact agree_bind (agree_readIn a) fun _ => agree_bind (ih _) fun _ => agree_pure _ fun _ _ h => h

theorem agree_crc8Op (hJ : OffCursor₂ J) (a n : Nat) : Op.Agree (With J) (crc8Op a n) fun _ => With J :=
  agree_bind (agree_readSpan a n) fun _ => agree_bind (agree_setRes hJ _) fun _ => agree_pure _ fun _ _ h => h

theorem agree_crc16Op (hJ : OffCursor₂ J) (a n : Nat) : Op.Agree (With J) (crc16Op a n) fun _ => With J :=
  agree_bind (agree_readSpan a n) fun _ => agree_bind (agree_setRes hJ _) fun _ => agree_pure _ fun _ _ h => h

/-! ### The header -/

/-- Before the header is valid: its fields and the sequencer's names are related by G. -/
def Unparsed (G : Header → Header → Sequencer → Sequencer → Prop) (s t : State) : Prop :=
  s.hdr.valid = false ∧ G s.hdr t.hdr s.seq t.seq

variable {G G' : Header → Header → Sequencer → Sequencer → Prop}

theorem unparsed_offCursor : OffCursor₂ (Unparsed G) := by
  rintro s t _ _ ⟨_, _, _, _, rfl⟩ ⟨_, _, _, _, rfl⟩ h
  exact h

theorem agree_updateHdr {f : Header → Header} (hf : ∀ h, (f h).valid = h.valid)
    (hG : ∀ h h' q q', G h h' q q' → G' (f h) (f h') q q') :
    Op.Agree (With (Unparsed G)) (updateHdr f) fun _ => With (Unparsed G') :=
  agree_update fun s t ⟨h, hv, hg⟩ =>
    ⟨{ h with
        valid := (hf _).trans (h.valid.trans (hf _).symm)
        header := fun e => absurd ((hf _).symm.trans e) (by simp [hv]) }, (hf _).trans hv, hG _ _ _ _ hg⟩

theorem agree_updateSeq {f : Sequencer → Sequencer} (hG : ∀ h h' q q', G h h' q q' → G' h h' (f q) (f q')) :
    Op.Agree (With (Unparsed G)) (updateSeq f) fun _ => With (Unparsed G') :=
  agree_update fun _ _ ⟨h, hv, hg⟩ => ⟨{ h with }, hv, hG _ _ _ _ hg⟩

theorem agree_setOk (b : Bool) : Op.Agree (With (Unparsed G)) (setOk b) fun _ => With (Unparsed G) :=
  agree_update fun _ _ ⟨h, hj⟩ => ⟨{ h with ok := rfl }, hj⟩

theorem agree_weaken {Q : α → State → State → Prop} {x : Op α} (h : Op.Agree (With (Unparsed G)) x Q)
    (hG : ∀ h h' q q', G' h h' q q' → G h h' q q') : Op.Agree (With (Unparsed G')) x Q :=
  agree_mono h (fun _ _ h => ⟨h.1, h.2.1, hG _ _ _ _ h.2.2⟩) fun _ _ _ h => h

/-- The names of a variable-length read in progress agree as well. -/
def AndVlu (G : Header → Header → Sequencer → Sequencer → Prop) (h h' : Header) (q q' : Sequencer) : Prop :=
  G h h' q q' ∧ q.vlu = q'.vlu ∧ q.vluWide = q'.vluWide

/-- G says nothing of the names of a variable-length read. -/
def OffVlu (G : Header → Header → Sequencer → Sequencer → Prop) : Prop :=
  ∀ h h' q q' v v' w w', G h h' q q' → G h h' { q with vlu := v, vluWide := w } { q' with vlu := v', vluWide := w' }

theorem agree_readVlu (hG : OffVlu G) (wide : Bool) :
    Op.Agree (With (Unparsed G)) (readVlu wide) fun _ => With (Unparsed G) := by
  have fail : Op.Agree (With (Unparsed (AndVlu G))) vluFail fun _ => With (Unparsed (AndVlu G)) :=
    agree_viewJ (fun _ _ h => h.2.2.2.2) fun _ => agree_bind (agree_setOk false) fun _ =>
      agree_bind (agree_setRes unparsed_offCursor _) fun _ => agree_pure _ fun _ _ h => h
  have succeed : Op.Agree (With (Unparsed (AndVlu G))) vluSucceed fun _ => With (Unparsed (AndVlu G)) :=
    agree_viewJ (fun _ _ h => h.2.2.2.1) fun _ => agree_bind (agree_setOk true) fun _ =>
      agree_bind (agree_setRes unparsed_offCursor _) fun _ => agree_pure _ fun _ _ h => h
  have more : ∀ c, Op.Agree (With (Unparsed (AndVlu G))) (vluContinue c) fun _ => With (Unparsed (AndVlu G)) := by
    intro c
    induction c with
    | zero => exact agree_pure true fun _ _ h => h
    | succ c ih =>
      exact agree_bind (agree_readBits unparsed_offCursor 8) fun x => agree_ite (fun _ =>
        agree_bind (agree_updateSeq (G' := AndVlu G) fun h h' q q' hg =>
          ⟨hG h h' q q' (q.vlu <<< 6 ||| x % 2 ^ 6) (q'.vlu <<< 6 ||| x % 2 ^ 6) q.vluWide q'.vluWide hg.1,
            by simp only [hg.2.1], hg.2.2⟩) fun _ => ih)
        fun _ => agree_pure false fun _ _ h => h
  -- the two values in progress need not agree before the lead byte is read
  have after : ∀ payload c, Op.Agree (With (Unparsed fun h h' q q' => G h h' q q' ∧ q.vluWide = q'.vluWide))
      (vluAfterLead payload c) fun _ => With (Unparsed (AndVlu G)) := fun payload c =>
    agree_bind (agree_updateSeq (G' := AndVlu G) fun h h' q q' hg =>
      ⟨hG h h' q q' payload payload q.vluWide q'.vluWide hg.1, rfl, hg.2⟩) fun _ =>
    agree_bind (more c) fun good => agree_ite (fun _ => succeed) fun _ => fail
  have malformed : Op.Agree (With (Unparsed fun h h' q q' => G h h' q q' ∧ q.vluWide = q'.vluWide)) vluFail
      fun _ => With (Unparsed fun h h' q q' => G h h' q q' ∧ q.vluWide = q'.vluWide) :=
    agree_viewJ (fun _ _ h => h.2.2.2) fun _ => agree_bind (agree_setOk false) fun _ =>
      agree_bind (agree_setRes unparsed_offCursor _) fun _ => agree_pure _ fun _ _ h => h
  refine agree_bind (agree_updateSeq (G' := fun h h' q q' => G h h' q q' ∧ q.vluWide = q'.vluWide)
    fun h h' q q' hg => ⟨hG h h' q q' q.vlu q'.vlu wide wide hg, rfl⟩) fun _ =>
    agree_bind (agree_readBits unparsed_offCursor 8) fun b => ?_
  split
  · exact agree_mono malformed (fun _ _ h => h) fun _ _ _ h => ⟨h.1, h.2.1, h.2.2.1⟩
  · exact agree_mono (after _ _) (fun _ _ h => h) fun _ _ _ h => ⟨h.1, h.2.1, h.2.2.1⟩

/-- What two header records agree on after `n` of steps 2, 3, 4, 5, 7, 8, 9 (R193 to R201). -/
structure Words (n : Nat) (bsc src : BitVec 4) (h h' : Header) (q q' : Sequencer) : Prop where
  start : q.start = q'.start
  blk : q.blk = q'.blk
  bscIs : q.bsc = bsc ∧ q'.bsc = bsc
  srcIs : q.src = src ∧ q'.src = src
  sizeCode : 1 ≤ n → bsc ≠ 6 → bsc ≠ 7 → h.blocksize = h'.blocksize
  rateCode : 2 ≤ n → src ≠ 12 → src ≠ 13 → src ≠ 14 → h.sampleRate = h'.sampleRate
  channels : 3 ≤ n → h.channels = h'.channels ∧ h.assignment = h'.assignment
  bps : 4 ≤ n → h.bps = h'.bps
  number : 5 ≤ n → h.numberKind = h'.numberKind ∧ h.number = h'.number
  size : 6 ≤ n → h.blocksize = h'.blocksize
  rate : 7 ≤ n → h.sampleRate = h'.sampleRate

theorem blocksize_hint {bsc : BitVec 4} (h : blocksizeOf bsc = .hint) : bsc = 6 ∨ bsc = 7 := by
  revert bsc; decide

theorem sampleRate_hint {si : StreamInfo} {src : BitVec 4} (h : sampleRateOf si src = .hint) :
    src = 12 ∨ src = 13 ∨ src = 14 := by
  obtain ⟨⟨n, hn⟩⟩ := src
  interval_cases n <;>
    first
    | exact .inl rfl
    | exact .inr (.inl rfl)
    | exact .inr (.inr rfl)
    | (simp only [sampleRateOf] at h; cases h)

theorem agree_headerBegin : Op.Agree Alike headerBegin fun _ => With (Unparsed fun _ _ q q' => q.start = q'.start) := by
  refine agree_bind (Q := fun _ => With (Unparsed fun _ _ _ _ => True)) (agree_update fun s t h =>
    ⟨{ h with valid := rfl, header := fun e => by cases e }, rfl, trivial⟩) fun _ => ?_
  refine agree_view (fun _ _ h => h.1.byte) fun b => ?_
  exact agree_mono (P := With (Unparsed fun _ _ _ _ => True)) (agree_updateSeq fun _ _ _ _ _ => rfl) (fun _ _ h => h.1)
    fun _ _ _ h => h

theorem agree_applyHeaderWord (blk : Bool) (bsc src chn : BitVec 4) (bpc : BitVec 3) :
    Op.Agree (With (Unparsed fun _ _ q q' => q.start = q'.start)) (applyHeaderWord blk bsc src chn bpc)
      fun _ => With (Unparsed (Words 4 bsc src)) := by
  refine agree_bind (agree_updateSeq (G' := Words 0 bsc src) fun h h' q q' hg => ?_) fun _ =>
    agree_bind (Q := fun _ => With (Unparsed (Words 1 bsc src))) ?_ fun _ =>
    agree_bind (Q := fun _ => With (Unparsed (Words 2 bsc src))) ?_ fun _ =>
    agree_bind (Q := fun _ => With (Unparsed (Words 3 bsc src))) ?_ fun _ => ?_
  · exact ⟨hg, rfl, ⟨rfl, rfl⟩, ⟨rfl, rfl⟩, by omega, by omega, by omega, by omega, by omega, by omega, by omega⟩
  · simp only [applyBlocksize]
    split
    · exact agree_raise _ fun _ _ h => h.1
    · rename_i hh
      have := blocksize_hint hh
      exact agree_pure () fun _ _ h => ⟨h.1, h.2.1, { h.2.2 with
        sizeCode := fun _ h6 h7 => (this.elim h6 h7).elim
        rateCode := by omega, channels := by omega, bps := by omega, number := by omega, size := by omega
        rate := by omega }⟩
    · exact agree_updateHdr (fun _ => rfl) fun _ _ _ _ hg => { hg with
        sizeCode := fun _ _ _ => rfl
        rateCode := by omega, channels := by omega, bps := by omega, number := by omega, size := by omega
        rate := by omega }
  · refine agree_viewJ (fun _ _ h => h.1.streamInfo) fun si => ?_
    split
    · exact agree_raise _ fun _ _ h => h.1
    · rename_i hh
      have := sampleRate_hint hh
      exact agree_pure () fun _ _ h => ⟨h.1, h.2.1, { h.2.2 with
        sizeCode := fun _ => h.2.2.sizeCode (by omega)
        rateCode := fun _ h1 h2 h3 => (this.elim h1 (Or.rec h2 h3)).elim
        channels := by omega, bps := by omega, number := by omega, size := by omega, rate := by omega }⟩
    · exact agree_updateHdr (fun _ => rfl) fun _ _ _ _ hg => { hg with
        sizeCode := fun _ => hg.sizeCode (by omega)
        rateCode := fun _ _ _ _ => rfl
        channels := by omega, bps := by omega, number := by omega, size := by omega, rate := by omega }
  · simp only [applyChannels]
    split
    · exact agree_raise _ fun _ _ h => h.1
    · exact agree_updateHdr (fun _ => rfl) fun _ _ _ _ hg => { hg with
        sizeCode := fun _ => hg.sizeCode (by omega)
        rateCode := fun _ => hg.rateCode (by omega)
        channels := fun _ => ⟨rfl, rfl⟩
        bps := by omega, number := by omega, size := by omega, rate := by omega }
  · refine agree_viewJ (fun _ _ h => h.1.streamInfo) fun si => ?_
    split
    · exact agree_updateHdr (fun _ => rfl) fun _ _ _ _ hg => { hg with
        sizeCode := fun _ => hg.sizeCode (by omega)
        rateCode := fun _ => hg.rateCode (by omega)
        channels := fun _ => hg.channels (by omega)
        bps := fun _ => rfl
        number := by omega, size := by omega, rate := by omega }
    · exact agree_raise _ fun _ _ h => h.1
    · exact agree_raise _ fun _ _ h => h.1

theorem agree_headerWord (w : BitVec 32) :
    Op.Agree (With (Unparsed fun _ _ q q' => q.start = q'.start)) (headerWord w)
      fun _ => With (Unparsed (Words 4 (w.extractLsb' 12 4) (w.extractLsb' 8 4))) :=
  agree_ite (fun _ => agree_raise _ fun _ _ h => h.1) fun _ =>
    agree_bind (agree_applyHeaderWord _ _ _ _ _) fun _ =>
      agree_ite (fun _ => agree_raise _ fun _ _ h => h.1) fun _ => agree_pure () fun _ _ h => h

variable {bsc src : BitVec 4}

theorem words_offVlu (n : Nat) : OffVlu (Words n bsc src) := fun _ _ _ _ _ _ _ _ hg => { hg with }

theorem agree_headerNumber : Op.Agree (With (Unparsed (Words 4 bsc src))) headerNumber
    fun _ => With (Unparsed (Words 5 bsc src)) := by
  refine agree_viewJ (fun s t h => by simp only [h.1.streamInfo, h.2.2.blk]) fun wide =>
    agree_bind (agree_readVlu (words_offVlu 4) wide) fun r => ?_
  cases r with
  | none => exact agree_raise _ fun _ _ h => h.1
  | some v =>
    exact agree_updateHdr (fun _ => rfl) fun _ _ _ _ hg => { hg with
      sizeCode := fun _ => hg.sizeCode (by omega)
      rateCode := fun _ => hg.rateCode (by omega)
      channels := fun _ => hg.channels (by omega)
      bps := fun _ => hg.bps (by omega)
      number := fun _ => ⟨rfl, rfl⟩
      size := by omega, rate := by omega }

theorem agree_headerBlocksizeHint : Op.Agree (With (Unparsed (Words 5 bsc src))) headerBlocksizeHint
    fun _ => With (Unparsed (Words 6 bsc src)) := by
  have grow : ∀ {h h' q q'}, Words 5 bsc src h h' q q' → h.blocksize = h'.blocksize → Words 6 bsc src h h' q q' :=
    fun hg he => { hg with
      sizeCode := fun _ => hg.sizeCode (by omega)
      rateCode := fun _ => hg.rateCode (by omega)
      channels := fun _ => hg.channels (by omega)
      bps := fun _ => hg.bps (by omega)
      number := fun _ => hg.number (by omega)
      size := fun _ => he
      rate := by omega }
  have put : ∀ n, Op.Agree (With (Unparsed (Words 5 bsc src)))
      (updateHdr fun h => { h with blocksize := n }) fun _ => With (Unparsed (Words 6 bsc src)) := fun n =>
    agree_updateHdr (fun _ => rfl) fun h h' q q' hg =>
      grow (h := { h with blocksize := n }) (h' := { h' with blocksize := n })
        { hg with sizeCode := fun _ _ _ => rfl, size := by omega } rfl
  refine agree_view (fun _ _ h => h.2.2.bscIs.1.trans h.2.2.bscIs.2.symm) fun b => ?_
  refine agree_ite (fun _ => ?_) fun h6 => agree_ite (fun _ => ?_) fun h7 => ?_
  · exact agree_mono (agree_bind (agree_readBits unparsed_offCursor 8) fun v => put (BitVec.ofNat 17 (v + 1))) (fun _ _ h => h.1)
      fun _ _ _ h => h
  · exact agree_mono (agree_bind (agree_readBits unparsed_offCursor 16) fun v => put (BitVec.ofNat 17 (v + 1))) (fun _ _ h => h.1)
      fun _ _ _ h => h
  · refine agree_pure () fun s t h => ⟨h.1.1, h.1.2.1, grow h.1.2.2 (h.1.2.2.sizeCode (by omega) ?_ ?_)⟩
    · rw [← h.1.2.2.bscIs.1]; exact fun e => h6 (h.2.symm.trans e)
    · rw [← h.1.2.2.bscIs.1]; exact fun e => h7 (h.2.symm.trans e)

theorem agree_headerRateHint : Op.Agree (With (Unparsed (Words 6 bsc src))) headerRateHint
    fun _ => With (Unparsed (Words 7 bsc src)) := by
  have grow : ∀ {h h' q q'}, Words 6 bsc src h h' q q' → h.sampleRate = h'.sampleRate → Words 7 bsc src h h' q q' :=
    fun hg he => { hg with
      sizeCode := fun _ => hg.sizeCode (by omega)
      rateCode := fun _ => hg.rateCode (by omega)
      channels := fun _ => hg.channels (by omega)
      bps := fun _ => hg.bps (by omega)
      number := fun _ => hg.number (by omega)
      size := fun _ => hg.size (by omega)
      rate := fun _ => he }
  have put : ∀ n, Op.Agree (With (Unparsed (Words 6 bsc src)))
      (updateHdr fun h => { h with sampleRate := n }) fun _ => With (Unparsed (Words 7 bsc src)) := fun n =>
    agree_updateHdr (fun _ => rfl) fun h h' q q' hg =>
      grow (h := { h with sampleRate := n }) (h' := { h' with sampleRate := n })
        { hg with rateCode := fun _ _ _ _ => rfl, rate := by omega } rfl
  refine agree_view (fun _ _ h => h.2.2.srcIs.1.trans h.2.2.srcIs.2.symm) fun b => ?_
  refine agree_ite (fun _ => ?_) fun h1 => agree_ite (fun _ => ?_) fun h2 => agree_ite (fun _ => ?_) fun h3 => ?_
  · exact agree_mono (agree_bind (agree_readBits unparsed_offCursor 8) fun v => put (BitVec.ofNat 20 (v * 1000))) (fun _ _ h => h.1)
      fun _ _ _ h => h
  · exact agree_mono (agree_bind (agree_readBits unparsed_offCursor 16) fun v => put (BitVec.ofNat 20 v)) (fun _ _ h => h.1)
      fun _ _ _ h => h
  · exact agree_mono (agree_bind (agree_readBits unparsed_offCursor 16) fun v => put (BitVec.ofNat 20 (v * 10))) (fun _ _ h => h.1)
      fun _ _ _ h => h
  · refine agree_pure () fun s t h => ⟨h.1.1, h.1.2.1, grow h.1.2.2 (h.1.2.2.rateCode (by omega) ?_ ?_ ?_)⟩ <;>
      rw [← h.1.2.2.srcIs.1]
    · exact fun e => h1 (h.2.symm.trans e)
    · exact fun e => h2 (h.2.symm.trans e)
    · exact fun e => h3 (h.2.symm.trans e)

/-- A parsed header: everything a later step of the frame uses agrees; WIDE is not chosen yet. -/
structure Parsed (s t : State) : Prop where
  input : s.input = t.input
  params : s.params = t.params
  streamInfo : s.streamInfo = t.streamInfo
  freeCount : s.freeCount = t.freeCount
  byte : s.byte = t.byte
  bit : s.bit = t.bit
  cache : s.cache = t.cache
  curValid : s.curValid = t.curValid
  ok : s.ok = t.ok
  err : s.err = t.err
  fstate : s.fstate = t.fstate
  hdr : s.hdr = t.hdr
  start : s.seq.start = t.seq.start

/-- All header fields agree but crc8 and length, which the checksum step is about to write. -/
def Filled (crc : BitVec 8) (h h' : Header) (q q' : Sequencer) : Prop :=
  Words 7 bsc src h h' q q' ∧ h.crc8 = crc ∧ h'.crc8 = crc ∧ h.length = h'.length

theorem header_eq {h h' : Header} (e1 : h.valid = h'.valid) (e2 : h.blocksize = h'.blocksize)
    (e3 : h.sampleRate = h'.sampleRate) (e4 : h.channels = h'.channels) (e5 : h.assignment = h'.assignment)
    (e6 : h.bps = h'.bps) (e7 : h.numberKind = h'.numberKind) (e8 : h.number = h'.number) (e9 : h.crc8 = h'.crc8)
    (e10 : h.length = h'.length) : h = h' := by
  cases h; cases h'; simp_all

theorem agree_headerChecksum (crc : BitVec 8) : Op.Agree (With (Unparsed (Words 7 bsc src))) (headerChecksum crc)
    fun _ => Parsed := by
  have last : Op.Agree (With (Unparsed (Filled (bsc := bsc) (src := src) crc)))
      (do setHdrValid true; setFState .headerParsed) fun _ => Parsed := by
    refine agree_bind (Q := fun _ => Parsed) (agree_update fun s t h => ?_) fun _ =>
      agree_update fun s t h => { h with fstate := rfl }
    have w := h.2.2.1
    have hh : s.hdr = t.hdr := by
      have w4 := w.channels (by omega)
      have w6 := w.number (by omega)
      exact header_eq h.1.valid (w.size (by omega)) (w.rate (by omega)) w4.1 w4.2 (w.bps (by omega)) w6.1 w6.2
        (h.2.2.2.1.trans h.2.2.2.2.1.symm) h.2.2.2.2.2
    exact {
      input := h.1.input, params := h.1.params, streamInfo := h.1.streamInfo, freeCount := h.1.freeCount
      byte := h.1.byte, bit := h.1.bit, cache := h.1.cache, curValid := h.1.curValid, ok := h.1.ok
      err := h.1.err, fstate := h.1.fstate, start := w.start
      hdr := congrArg (fun x : Header => { x with valid := true }) hh }
  refine agree_viewJ (fun s t h => by simp only [h.1.byte, h.2.2.start]) fun n => agree_bind
    (agree_updateHdr (G' := Filled (bsc := bsc) (src := src) crc) (fun _ => rfl) fun h h' q q' hg =>
      ⟨{ hg with }, rfl, rfl, rfl⟩) fun _ =>
    agree_viewJ (fun s t h => by simp only [h.1.params]) fun check => agree_ite (fun _ =>
      agree_viewJ (fun s t h => h.2.2.1.start) fun start => agree_viewJ (fun s t h => by rw [h.2.2.2.2.2]) fun len =>
        agree_bind (agree_crc8Op unparsed_offCursor _ _) fun k => agree_ite (fun _ => agree_bind (agree_raise _ fun _ _ h => h.1) fun _ => last)
          fun _ => last) fun _ => last

theorem agree_parseHeader : Op.Agree Alike parseHeader fun _ => Parsed :=
  agree_rejecting <| agree_bind agree_headerBegin fun _ => agree_bind (agree_readBits unparsed_offCursor 32) fun _ =>
    agree_bind (agree_headerWord _) fun _ => agree_bind agree_headerNumber fun _ =>
    agree_bind agree_headerBlocksizeHint fun _ => agree_bind agree_headerRateHint fun _ =>
    agree_bind (agree_readBits unparsed_offCursor 8) fun _ => agree_headerChecksum _

/-! ### The frame after its header -/

/-- What agrees after the header: the header, WIDE, CH and the frame's start. -/
structure InFrame (s t : State) : Prop where
  hdr : s.hdr = t.hdr
  wide : s.wide = t.wide
  ch : s.ch = t.ch
  start : s.seq.start = t.seq.start

/-- Inside a subframe (R220): its channel and base depth agree as well, and the LPC parameters are related by L. -/
structure InSub (L : LpcParams → LpcParams → Prop) (s t : State) : Prop extends InFrame s t where
  chan : s.seq.chan = t.seq.chan
  base : s.seq.base = t.seq.base
  lpcp : L s.lpcp t.lpcp

/-- After R221: the wasted bits of channel c agree. -/
structure InWasted (L : LpcParams → LpcParams → Prop) (c : Fin 8) (s t : State) : Prop extends InSub L s t where
  wasted : s.sub[c].wasted = t.sub[c].wasted

/-- After R222: the depth of channel c agrees. -/
structure InDepth (L : LpcParams → LpcParams → Prop) (c : Fin 8) (s t : State) : Prop extends InWasted L c s t where
  depth : s.sub[c].depth = t.sub[c].depth

/-- Inside a residual section (R250): the order agrees. -/
structure InOrder (L : LpcParams → LpcParams → Prop) (c : Fin 8) (s t : State) : Prop extends InDepth L c s t where
  order : s.seq.order = t.seq.order

/-- After METHOD (R250). -/
structure InMethod (L : LpcParams → LpcParams → Prop) (c : Fin 8) (s t : State) : Prop extends InOrder L c s t where
  paramBits : s.rp.paramBits = t.rp.paramBits

/-- After the partition order (R251). -/
structure InParts (L : LpcParams → LpcParams → Prop) (c : Fin 8) (s t : State) : Prop extends InMethod L c s t where
  partitionOrder : s.rp.partitionOrder = t.rp.partitionOrder

/-- Inside a partition (R253). -/
structure InPart (L : LpcParams → LpcParams → Prop) (c : Fin 8) (s t : State) : Prop extends InParts L c s t where
  part : s.seq.part = t.seq.part

variable {L : LpcParams → LpcParams → Prop} {c : Fin 8}

theorem inFrame_offCursor : OffCursor₂ InFrame := by
  rintro s t _ _ ⟨_, _, _, _, rfl⟩ ⟨_, _, _, _, rfl⟩ h
  exact { h with }

theorem inSub_offCursor : OffCursor₂ (InSub L) := by
  rintro s t _ _ ⟨_, _, _, _, rfl⟩ ⟨_, _, _, _, rfl⟩ h
  exact { h with }

theorem inWasted_offCursor : OffCursor₂ (InWasted L c) := by
  rintro s t _ _ ⟨_, _, _, _, rfl⟩ ⟨_, _, _, _, rfl⟩ h
  exact { h with }

theorem inDepth_offCursor : OffCursor₂ (InDepth L c) := by
  rintro s t _ _ ⟨_, _, _, _, rfl⟩ ⟨_, _, _, _, rfl⟩ h
  exact { h with }

theorem inOrder_offCursor : OffCursor₂ (InOrder L c) := by
  rintro s t _ _ ⟨_, _, _, _, rfl⟩ ⟨_, _, _, _, rfl⟩ h
  exact { h with }

theorem inMethod_offCursor : OffCursor₂ (InMethod L c) := by
  rintro s t _ _ ⟨_, _, _, _, rfl⟩ ⟨_, _, _, _, rfl⟩ h
  exact { h with }

theorem inPart_offCursor : OffCursor₂ (InPart L c) := by
  rintro s t _ _ ⟨_, _, _, _, rfl⟩ ⟨_, _, _, _, rfl⟩ h
  exact { h with }

theorem agree_readSamples (hJ : ∀ s t, J s t → s.wide = t.wide ∧ s.ch = t.ch) (c : Fin 8) (n : Nat) :
    Op.Agree (With J) (readSamples c n) fun _ => With J := by
  intro s t h
  obtain ⟨hw, hc⟩ := hJ s t h.2
  have hr : ∀ u : State, readSamples c n u = match readFrom (u.ch.backgroundAt u.wide c) u.ch.cells[c] 0 n with
    | .ok vs => .ok vs u
    | .error i => .error (.halt (.unwrittenSample c i)) u := fun _ => rfl
  rw [hr, hr, ← hw, ← hc]
  split
  · exact .inl ⟨_, s, t, rfl, rfl, h⟩
  · exact .inr ⟨_, s, t, rfl, rfl, h.1⟩

theorem agree_frameChecksum : Op.Agree (With InFrame) frameChecksum fun _ => With InFrame :=
  agree_viewJ (fun _ _ h => h.2.start) fun _ => agree_viewJ (fun _ _ h => h.1.byte) fun _ =>
    agree_bind (agree_crc16Op inFrame_offCursor _ _) fun _ => agree_ite (fun _ => agree_raise _ fun _ _ h => h.1) fun _ =>
      agree_update fun _ _ h => ⟨{ h.1 with fstate := rfl }, { h.2 with }⟩

/-! ### Residuals -/

theorem agree_writeSamples (hJ : ∀ s t i vs, J s t → J (s.writeCh c i vs) (t.writeCh c i vs)) (i : Nat) (vs : List Int) :
    Op.Agree (With J) (writeSamples c i vs) fun _ => With J :=
  agree_update fun s t h => ⟨{ h.1 with }, hJ s t i vs h.2⟩

theorem agree_storePartition (vs : List Int) :
    Op.Agree (With (InPart L c)) (storePartition vs) fun _ => With (InPart L c) := by
  refine agree_viewJ (fun _ _ h => h.2.chan) fun d => agree_viewJ (fun s t h => ?_) fun i =>
    agree_update fun s t h => ⟨{ h.1 with }, { h.2 with ch := ?_ }⟩
  · simp only [State.partitionStart, h.2.hdr, h.2.partitionOrder, h.2.order, h.2.part]
  · show s.ch.write d i vs = t.ch.write d i vs
    rw [h.2.ch]

theorem agree_riceResidual (hJ : OffCursor₂ J) (k : Nat) : Op.Agree (With J) (riceResidual k) fun _ => With J := by
  have last : ∀ q r : Nat, Op.Agree (With J)
      (if 2 ^ 32 ≤ (q <<< k) ||| r then raise .arithmeticOverflow else pure (zigZag ((q <<< k) ||| r))) fun _ => With J :=
    fun q r => agree_ite (fun _ => agree_raise _ fun _ _ h => h.1) fun _ => agree_pure _ fun _ _ h => h
  exact agree_bind (agree_readUnary hJ) fun q => agree_ite
    (fun _ => agree_bind (Q := fun _ => With J) (agree_pure 0 fun _ _ h => h) (last q)) fun _ =>
    agree_bind (agree_readBits hJ k) (last q)

theorem agree_updateRp {J K : State → State → Prop} {f : ResidualParams → ResidualParams}
    (h : ∀ s t, J s t → K (s.mapRp f) (t.mapRp f)) : Op.Agree (With J) (updateRp f) fun _ => With K :=
  agree_update fun s t hs => ⟨{ hs.1 with }, h s t hs.2⟩

theorem agree_partitionSize {s t : State} (h : InPart L c s t) : s.partitionSize = t.partitionSize := by
  simp only [State.partitionSize, h.hdr, h.partitionOrder, h.order, h.part]

theorem agree_ricePartition (k : Nat) :
    Op.Agree (With (InPart L c)) (ricePartition k) fun _ => With (InPart L c) :=
  agree_bind (agree_updateRp fun _ _ h => { h with }) fun _ =>
    agree_viewJ (fun _ _ h => agree_partitionSize h.2) fun n =>
    agree_bind (agree_repeat (agree_riceResidual inPart_offCursor k) n) agree_storePartition

theorem agree_escapePartition (esc : Nat) :
    Op.Agree (With (InPart L c)) (escapePartition esc) fun _ => With (InPart L c) :=
  agree_bind (agree_updateRp fun _ _ h => { h with }) fun _ =>
    agree_bind (agree_readBits inPart_offCursor 5) fun w => agree_bind (agree_updateRp fun _ _ h => { h with }) fun _ =>
    agree_viewJ (fun _ _ h => agree_partitionSize h.2) fun n => agree_ite
      (fun _ => agree_bind (Q := fun _ => With (InPart L c)) (agree_pure _ fun _ _ h => h) agree_storePartition) fun _ =>
      agree_bind (agree_repeat (agree_readSigned inPart_offCursor w) n) agree_storePartition

/-- Two states place and size the current partition alike. -/
structure Placed (s t : State) : Prop where
  chan : s.seq.chan = t.seq.chan
  start : s.partitionStart = t.partitionStart
  size : s.partitionSize = t.partitionSize

theorem placed_offCursor : OffCursor₂ Placed := by
  rintro s t _ _ ⟨_, _, _, _, rfl⟩ ⟨_, _, _, _, rfl⟩ h
  exact ⟨h.chan, h.start, h.size⟩

/-- A partition reads nothing of CH, so it ends alike whatever CH holds (R254, R255). -/
theorem agree_partition (bits x : Nat) : Op.Agree (With Placed)
    (if x = 2 ^ bits - 1 then escapePartition x else ricePartition x) fun _ => With Placed := by
  have put : ∀ vs, Op.Agree (With Placed) (storePartition vs) fun _ => With Placed := fun vs =>
    agree_viewJ (fun _ _ h => h.2.chan) fun _ => agree_viewJ (fun _ _ h => h.2.start) fun i =>
      agree_writeSamples (fun _ _ _ _ h => ⟨h.chan, h.start, h.size⟩) i vs
  have param : ∀ {f : ResidualParams → ResidualParams}, (∀ r, (f r).partitionOrder = r.partitionOrder) →
      Op.Agree (With Placed) (updateRp f) fun _ => With Placed := fun hf => agree_updateRp fun s t h =>
    ⟨h.chan, by simpa [State.partitionStart, hf] using h.start, by simpa [State.partitionSize, hf] using h.size⟩
  exact agree_ite
    (fun _ => agree_bind (param fun _ => rfl) fun _ => agree_bind (agree_readBits placed_offCursor 5) fun w =>
      agree_bind (param fun _ => rfl) fun _ => agree_viewJ (fun _ _ h => h.2.size) fun n => agree_ite
      (fun _ => agree_bind (Q := fun _ => With Placed) (agree_pure _ fun _ _ h => h) put) fun _ =>
      agree_bind (agree_repeat (agree_readSigned placed_offCursor w) n) put)
    (fun _ => agree_bind (param fun _ => rfl) fun _ => agree_viewJ (fun _ _ h => h.2.size) fun n =>
      agree_bind (agree_repeat (agree_riceResidual placed_offCursor x) n) put)

theorem agree_putSeq {J K : State → State → Prop} {f : Sequencer → Sequencer}
    (h : ∀ s t, J s t → K (s.mapSeq f) (t.mapSeq f)) : Op.Agree (With J) (updateSeq f) fun _ => With K :=
  agree_update fun s t hs => ⟨{ hs.1 with }, h s t hs.2⟩

theorem agree_decodePartition (j : Nat) :
    Op.Agree (With (InParts L c)) (decodePartition j) fun _ => With (InParts L c) := by
  refine agree_mono (Q := fun _ => With (InPart L c)) ?_ (fun _ _ h => h) fun _ _ _ h => ⟨h.1, h.2.toInParts⟩
  exact agree_bind (agree_putSeq (K := InPart L c) fun _ _ h => { h with part := rfl }) fun _ =>
    agree_viewJ (fun _ _ h => h.2.paramBits) fun bits => agree_bind (agree_readBits inPart_offCursor bits) fun x =>
      agree_ite (fun _ => agree_escapePartition x) fun _ => agree_ricePartition x

theorem agree_decodeResidual (k : Nat) :
    Op.Agree (With (InDepth L c)) (decodeResidual c k) fun _ => With (InDepth L c) := by
  have parts : Op.Agree (With (InMethod L c)) (do
      let p ← readBits 4
      updateRp fun r => { r with partitionOrder := p }
      let n ← view (·.hdr.blocksize.toNat)
      if partitionsFit n p k then forEach (List.range (2 ^ p)) decodePartition
      else raise .structuralError) fun _ => With (InDepth L c) := by
    refine agree_mono (Q := fun _ => With (InParts L c)) ?_ (fun _ _ h => h) fun _ _ _ h => ⟨h.1, h.2.toInDepth⟩
    exact agree_bind (agree_readBits inMethod_offCursor 4) fun p =>
      agree_bind (agree_updateRp (K := InParts L c) fun _ _ h => { h with partitionOrder := rfl }) fun _ =>
      agree_viewJ (fun _ _ h => by simp only [h.2.hdr]) fun n =>
        agree_ite (fun _ => agree_forEach agree_decodePartition _) fun _ => agree_raise _ fun _ _ h => h.1
  exact agree_bind (agree_putSeq (K := InOrder L c) fun _ _ h => { h with chan := rfl, order := rfl }) fun _ =>
    agree_bind (agree_readBits inOrder_offCursor 2) fun m => agree_ite
      (fun _ => agree_bind (Q := fun _ => With (InMethod L c)) (agree_bind (agree_updateRp (K := InOrder L c) fun _ _ h => { h with }) fun _ =>
        agree_raise _ fun _ _ h => h.1) fun _ => parts) fun _ =>
      agree_bind (agree_updateRp (K := InMethod L c) fun _ _ h => { h with paramBits := rfl }) fun _ => parts

/-! ### Subframes -/

/-- The LPC parameters a restore uses agree. -/
def SameLpcp (k : Nat) (l m : LpcParams) : Prop :=
  l.shift = m.shift ∧ l.coeff.toList.take k = m.coeff.toList.take k

/-- Nothing is known of the LPC parameters: an earlier frame may have left them. -/
def AnyLpcp (_ _ : LpcParams) : Prop := True

theorem inDepth_writeCh (d : Fin 8) (s t : State) (i : Nat) (vs : List Int) (h : InDepth L c s t) :
    InDepth L c (s.writeCh d i vs) (t.writeCh d i vs) :=
  { h with ch := congrArg (fun x : ChannelFile => x.write d i vs) h.ch }

theorem agree_write (i : Nat) (vs : List Int) :
    Op.Agree (With (InDepth L c)) (writeSamples c i vs) fun _ => With (InDepth L c) :=
  agree_writeSamples (fun s t i vs h => inDepth_writeCh c s t i vs h) i vs

theorem agree_restoreWith (k : Nat) (f : List Int → Int → Option Int) :
    Op.Agree (With (InDepth L c)) (restoreWith c k f) fun _ => With (InDepth L c) :=
  agree_viewJ (fun _ _ h => by simp only [h.2.hdr]) fun n => agree_ite (fun _ => agree_pure () fun _ _ h => h) fun _ =>
    agree_bind (agree_readSamples (fun _ _ h => ⟨h.wide, h.ch⟩) c n) fun _ =>
    agree_bind (agree_orRaise _ _ fun _ _ h => h.1) fun vs => agree_write k vs

theorem agree_restoreFixed (k : Nat) :
    Op.Agree (With (InDepth L c)) (restoreFixed c k) fun _ => With (InDepth L c) :=
  agree_ite (fun _ => agree_pure () fun _ _ h => h) fun _ =>
    agree_viewJ (fun _ _ h => by simp only [h.1.params]) fun _ => agree_viewJ (fun _ _ h => h.2.wide) fun _ =>
    agree_viewJ (fun _ _ h => h.2.depth) fun _ => agree_restoreWith k _

theorem agree_restoreLpc (k : Nat) :
    Op.Agree (With (InDepth (SameLpcp k) c)) (restoreLpc c k) fun _ => With (InDepth (SameLpcp k) c) := by
  intro s t h
  have hr : ∀ u : State, restoreLpc c k u = restoreWith c k (lpcSample u.params.narrowOverflow u.wide
      (lpcPath u.sub[c].depth) (u.lpcp.coeff.toList.take k) u.lpcp.shift) u := fun _ => rfl
  rw [hr, hr, h.1.params, h.2.wide, h.2.depth, h.2.lpcp.1, h.2.lpcp.2]
  exact agree_restoreWith k _ s t h

theorem agree_readSample (hJ : OffCursor₂ J) (hw : ∀ s t, J s t → s.wide = t.wide) (d : Nat) :
    Op.Agree (With J) (readSample d) fun _ => With J :=
  agree_viewJ (fun _ _ h => hw _ _ h.2) fun _ => agree_ite (fun _ => agree_readSigned64 hJ d) fun _ => agree_readSigned hJ d

theorem agree_sample (d : Nat) : Op.Agree (With (InDepth L c)) (readSample d) fun _ => With (InDepth L c) :=
  agree_readSample inDepth_offCursor (fun _ _ h => h.wide) d

theorem agree_updateSub {J K : State → State → Prop} {f : Subframe → Subframe}
    (h : ∀ s t, J s t → K (s.mapSub c f) (t.mapSub c f)) : Op.Agree (With J) (updateSub c f) fun _ => With K :=
  agree_update fun s t hs => ⟨{ hs.1 with }, h s t hs.2⟩

theorem agree_setType (ty : SubframeType) (k : Nat) :
    Op.Agree (With (InDepth L c)) (setType c ty k) fun _ => With (InDepth L c) :=
  agree_updateSub fun s t h => { h with
    wasted := by simpa using h.wasted
    depth := by simpa using h.depth }

theorem agree_checkOrder (k : Nat) : Op.Agree (With (InDepth L c)) (checkOrder k) fun _ => With (InDepth L c) :=
  agree_viewJ (fun _ _ h => by simp only [h.2.hdr]) fun _ => agree_ite (fun _ => agree_raise _ fun _ _ h => h.1) fun _ =>
    agree_pure () fun _ _ h => h

theorem agree_warmUp (k : Nat) : Op.Agree (With (InDepth L c)) (warmUp c k) fun _ => With (InDepth L c) :=
  agree_viewJ (fun _ _ h => h.2.depth) fun d => agree_bind (agree_repeat (agree_sample d) k) fun vs => agree_write 0 vs

theorem agree_updateLpcp {J K : State → State → Prop} {f : LpcParams → LpcParams}
    (h : ∀ s t, J s t → K (s.mapLpcp f) (t.mapLpcp f)) : Op.Agree (With J) (updateLpcp f) fun _ => With K :=
  agree_update fun s t hs => ⟨{ hs.1 with }, h s t hs.2⟩

theorem agree_lpcParameters (k : Nat) :
    Op.Agree (With (InDepth AnyLpcp c)) (lpcParameters k) fun _ => With (InDepth (SameLpcp k) c) :=
  agree_bind (agree_readBits inDepth_offCursor 4) fun _ => agree_ite (fun _ => agree_raise _ fun _ _ h => h.1) fun _ =>
    agree_bind (agree_updateLpcp (K := InDepth AnyLpcp c) fun _ _ h => { h with lpcp := trivial }) fun _ =>
    agree_bind (agree_readSigned inDepth_offCursor 5) fun _ => agree_ite (fun _ => agree_raise _ fun _ _ h => h.1) fun _ =>
    agree_bind (agree_updateLpcp (K := InDepth (fun l m => l.shift = m.shift) c) fun _ _ h => { h with lpcp := rfl }) fun _ =>
    agree_bind (agree_repeat_length (agree_readSigned inDepth_offCursor _) k) fun cs =>
    agree_update fun _ _ h => ⟨{ h.1.1 with }, { h.1.2 with lpcp := ⟨h.1.2.lpcp, by
      rw [← h.2]; exact LpcParams.withCoeff_take_congr _ _ cs⟩ }⟩

theorem agree_constantBody : Op.Agree (With (InDepth L c)) (constantBody c) fun _ => With (InDepth L c) :=
  agree_bind (agree_setType _ _) fun _ => agree_viewJ (fun _ _ h => by simp only [h.2.hdr]) fun _ =>
    agree_viewJ (fun _ _ h => h.2.depth) fun d => agree_bind (agree_sample d) fun _ => agree_write 0 _

theorem agree_verbatimBody : Op.Agree (With (InDepth L c)) (verbatimBody c) fun _ => With (InDepth L c) :=
  agree_bind (agree_setType _ _) fun _ => agree_viewJ (fun _ _ h => by simp only [h.2.hdr]) fun n =>
    agree_viewJ (fun _ _ h => h.2.depth) fun d => agree_bind (agree_repeat (agree_sample d) n) fun _ => agree_write 0 _

theorem agree_fixedBody (k : Nat) : Op.Agree (With (InDepth L c)) (fixedBody c k) fun _ => With (InDepth L c) :=
  agree_bind (agree_setType _ _) fun _ => agree_ite (fun _ => agree_raise _ fun _ _ h => h.1) fun _ =>
    agree_bind (agree_checkOrder k) fun _ => agree_bind (agree_warmUp k) fun _ =>
    agree_bind (agree_decodeResidual k) fun _ => agree_restoreFixed k

theorem agree_lpcBody (k : Nat) : Op.Agree (With (InDepth AnyLpcp c)) (lpcBody c k) fun _ => With (InDepth AnyLpcp c) :=
  agree_bind (agree_setType _ _) fun _ => agree_bind (agree_checkOrder k) fun _ => agree_bind (agree_warmUp k) fun _ =>
    agree_bind (agree_lpcParameters k) fun _ => agree_bind (agree_decodeResidual k) fun _ =>
    agree_mono (agree_restoreLpc k) (fun _ _ h => h) fun _ _ _ h => ⟨h.1, { h.2 with lpcp := trivial }⟩

theorem agree_classify (ty : BitVec 6) :
    Op.Agree (With (InDepth AnyLpcp c)) (classify ty c) fun _ => With (InDepth AnyLpcp c) :=
  agree_ite (fun _ => agree_constantBody) fun _ => agree_ite (fun _ => agree_verbatimBody) fun _ =>
    agree_ite (fun _ => agree_lpcBody _) fun _ => agree_ite (fun _ => agree_fixedBody _) fun _ =>
    agree_raise _ fun _ _ h => h.1

theorem agree_wastedBits (w : Bool) : Op.Agree (With (InSub L)) (wastedBits c w) fun _ => With (InWasted L c) := by
  have put : ∀ n, Op.Agree (With (InSub L)) (updateSub c fun f => { f with wasted := n }) fun _ => With (InWasted L c) :=
    fun n => agree_updateSub fun s t h => { h with wasted := by simp }
  exact agree_ite (fun _ => agree_bind (agree_readUnary inSub_offCursor) fun q => put (q + 1)) fun _ => put 0

theorem agree_effectiveDepth : Op.Agree (With (InWasted L c)) (effectiveDepth c) fun _ => With (InDepth L c) :=
  agree_viewJ (fun _ _ h => h.2.base) fun _ => agree_viewJ (fun _ _ h => h.2.wasted) fun _ =>
    agree_ite (fun _ => agree_raise _ fun _ _ h => h.1) fun _ => agree_updateSub fun s t h => { h with
      wasted := by simpa using h.wasted
      depth := by simp }

theorem agree_restoreWasted : Op.Agree (With (InDepth L c)) (restoreWasted c) fun _ => With (InDepth L c) :=
  agree_viewJ (fun _ _ h => h.2.wasted) fun _ => agree_ite (fun _ => agree_pure () fun _ _ h => h) fun _ =>
    agree_viewJ (fun _ _ h => by simp only [h.2.hdr]) fun n => agree_viewJ (fun _ _ h => by simp only [h.1.params]) fun _ =>
    agree_viewJ (fun _ _ h => h.2.wide) fun _ =>
    agree_bind (agree_readSamples (fun _ _ h => ⟨h.wide, h.ch⟩) c n) fun _ =>
    agree_bind (agree_orRaise _ _ fun _ _ h => h.1) fun vs => agree_write 0 vs

theorem agree_subframeAfterTag (w : Bool) (ty : BitVec 6) (c : Fin 8) :
    Op.Agree (fun s t => With (InSub AnyLpcp) s t ∧ s.seq.chan = c) (subframeAfterTag w (classify ty))
      fun _ => With InFrame := by
  intro s t h
  have hr : ∀ u : State, u.seq.chan = c → subframeAfterTag w (classify ty) u =
      (do wastedBits c w; effectiveDepth c; classify ty c; restoreWasted c : Op Unit) u := by
    rintro u rfl; rfl
  rw [hr s h.2, hr t (h.1.2.chan.symm.trans h.2)]
  refine agree_mono (Q := fun _ => With (InDepth AnyLpcp c)) (P := With (InSub AnyLpcp)) ?_ (fun _ _ h => h)
    (fun _ _ _ h => ⟨h.1, { h.2 with }⟩) s t h.1
  exact agree_bind (agree_wastedBits w) fun _ => agree_bind agree_effectiveDepth fun _ =>
    agree_bind (agree_classify ty) fun _ => agree_restoreWasted

theorem agree_subframeTag (tag : BitVec 8) (c : Fin 8) :
    Op.Agree (fun s t => With (InSub AnyLpcp) s t ∧ s.seq.chan = c) (subframeTag tag) fun _ => With InFrame :=
  agree_ite (fun _ => agree_raise _ fun _ _ h => h.1.1) fun _ => agree_subframeAfterTag _ _ c

theorem agree_decodeSubframe (c : Fin 8) (base : Nat) :
    Op.Agree (With InFrame) (decodeSubframe c base) fun _ => With InFrame := by
  have onChan : OffCursor₂ fun s t => InSub AnyLpcp s t ∧ s.seq.chan = c := by
    rintro s t _ _ hs ht h
    refine ⟨inSub_offCursor s t _ _ hs ht h.1, ?_⟩
    obtain ⟨_, _, _, _, rfl⟩ := hs
    exact h.2
  refine agree_bind (agree_putSeq (K := fun s t => InSub AnyLpcp s t ∧ s.seq.chan = c) fun _ _ h =>
    ⟨{ h with chan := rfl, base := rfl, lpcp := trivial }, rfl⟩) fun _ => agree_bind (agree_readBits onChan 8) fun tag => ?_
  exact agree_mono (agree_subframeTag _ c) (fun _ _ h => ⟨⟨h.1, h.2.1⟩, h.2.2⟩) fun _ _ _ h => h

/-! ### The frame -/

theorem agree_selectWide : Op.Agree Parsed selectWide fun _ => With InFrame :=
  agree_update fun s t h =>
    have hw : wideOf s.hdr = wideOf t.hdr := by rw [h.hdr]
    ⟨{ h with valid := congrArg Header.valid h.hdr, wide := hw, header := fun _ => h.hdr }, { h with wide := hw, ch := rfl }⟩

theorem agree_setFState (f : FState) (hJ : ∀ s t, J s t → J (s.withFState f) (t.withFState f)) :
    Op.Agree (With J) (setFState f) fun _ => With J :=
  agree_update fun s t h => ⟨{ h.1 with fstate := rfl }, hJ s t h.2⟩

theorem agree_frameSubframes : Op.Agree (With InFrame) frameSubframes fun _ => With InFrame :=
  agree_viewJ (fun _ _ h => h.2.hdr) fun _ => agree_bind (agree_forEach (fun c => agree_viewJ (fun _ _ h => h.2.hdr) fun _ =>
    agree_decodeSubframe c _) _) fun _ => agree_setFState _ fun _ _ h => { h with }

theorem agree_writeFrame (c : Fin 8) (i : Nat) (vs : List Int) :
    Op.Agree (With InFrame) (writeSamples c i vs) fun _ => With InFrame :=
  agree_writeSamples (fun _ _ i vs h => { h with ch := congrArg (fun x : ChannelFile => x.write c i vs) h.ch }) i vs

theorem agree_samples (c : Fin 8) (n : Nat) : Op.Agree (With InFrame) (readSamples c n) fun _ => With InFrame :=
  agree_readSamples (fun _ _ h => ⟨h.wide, h.ch⟩) c n

theorem agree_decorrelateOp : Op.Agree (With InFrame) decorrelateOp fun _ => With InFrame := by
  refine agree_viewJ (fun _ _ h => h.2.hdr) fun h => agree_viewJ (fun _ _ h => by simp only [h.1.params]) fun _ =>
    agree_viewJ (fun _ _ h => h.2.wide) fun _ => ?_
  cases h.assignment with
  | independent => exact agree_pure () fun _ _ h => h
  | leftSide =>
    exact agree_bind (agree_samples _ _) fun _ => agree_bind (agree_samples _ _) fun _ =>
      agree_bind (agree_orRaise _ _ fun _ _ h => h.1) fun _ => agree_writeFrame _ _ _
  | rightSide =>
    exact agree_bind (agree_samples _ _) fun _ => agree_bind (agree_samples _ _) fun _ =>
      agree_bind (agree_orRaise _ _ fun _ _ h => h.1) fun _ => agree_writeFrame _ _ _
  | midSide =>
    exact agree_bind (agree_samples _ _) fun _ => agree_bind (agree_samples _ _) fun _ =>
      agree_bind (agree_orRaise _ _ fun _ _ h => h.1) fun _ => agree_bind (agree_writeFrame _ _ _) fun _ =>
      agree_writeFrame _ _ _

theorem agree_frameLength :
    Op.Agree (With InFrame) frameLength fun _ s t => With InFrame s t ∧ s.res = t.res :=
  agree_viewJ (fun _ _ h => by simp only [h.1.byte, h.2.start]) fun _ => agree_update fun _ _ h =>
    ⟨⟨{ h.1 with }, { h.2 with }⟩, rfl⟩

/-- Two states a `decode_frame` starts from agree on the launch state and the count of free values. -/
structure SameLaunch (s t : State) : Prop where
  input : s.input = t.input
  params : s.params = t.params
  streamInfo : s.streamInfo = t.streamInfo
  freeCount : s.freeCount = t.freeCount

/-- What a raise shows of the attempt agrees. -/
structure SameStop (s t : State) : Prop where
  freeCount : s.freeCount = t.freeCount
  wide : s.wide = t.wide
  valid : s.hdr.valid = t.hdr.valid
  header : s.hdr.valid = true → s.hdr = t.hdr

/-- The steps of `decode_frame` after the header parse. -/
def frameRest : Op Unit := do
  selectWide
  frameSubframes
  flush
  discard (readBits 16)
  frameChecksum
  decorrelateOp
  frameLength

theorem agree_frameRest : Op.Agree Parsed frameRest fun _ s t => With InFrame s t ∧ s.res = t.res :=
  agree_bind agree_selectWide fun _ => agree_bind agree_frameSubframes fun _ =>
    agree_bind (agree_flush inFrame_offCursor) fun _ =>
    agree_bind (agree_discard (agree_readBits inFrame_offCursor 16)) fun _ => agree_bind agree_frameChecksum fun _ =>
    agree_bind agree_decorrelateOp fun _ => agree_frameLength

theorem subframe_sameHdr : SubframeWrites (Same State.hdr) (Anyhow (Same State.hdr)) where
  toComposable := composable_same _
  move := within_setPos_anyhow (composable_same _) (fun _ _ _ => rfl) fun _ _ => rfl
  result _ _ := rfl
  names _ _ := rfl
  params _ _ := rfl
  samples _ _ _ _ := rfl
  descriptor _ _ _ := rfl
  lpc _ _ := rfl

/-- They leave HDR as the parse left it, wherever they end. -/
theorem frameRest_sameHdr : Op.Within (Same State.hdr) (Anyhow (Same State.hdr)) frameRest := by
  have hS := subframe_sameHdr
  have hC := hS.toCursorWrites
  have hE : MayHalt (Anyhow (Same State.hdr)) := fun _ _ => rfl
  exact within_bind hS.toComposable (within_selectWide fun _ _ _ => rfl) fun _ =>
    within_bind hS.toComposable (within_frameSubframes hS hE fun _ => rfl) fun _ =>
    within_bind hS.toComposable (within_flush hC) fun _ =>
    within_bind hS.toComposable (within_discard (within_readBits hC 16)) fun _ =>
    within_bind hS.toComposable (within_frameChecksum hC fun _ => rfl) fun _ =>
    within_bind hS.toComposable (within_decorrelateOp hS.toComposable hE hS.samples) fun _ => within_frameLength hC

/-- The parse and what follows, from states that agree: where they stop, HDR agrees whole. -/
theorem frameBody_agree {s t : State} (h : Alike s t) :
    (∃ s' t', (parseHeader >>= fun _ => frameRest) s = .ok () s' ∧ (parseHeader >>= fun _ => frameRest) t = .ok () t'
      ∧ With InFrame s' t' ∧ s'.res = t'.res)
    ∨ ∃ e s' t', (parseHeader >>= fun _ => frameRest) s = .error e s'
      ∧ (parseHeader >>= fun _ => frameRest) t = .error e t' ∧ Alike s' t' ∧ s'.hdr = t'.hdr := by
  rcases agree_parseHeader s t h with ⟨_, s', t', h1, h2, h3⟩ | ⟨e, s', t', h1, h2, h3⟩
  · rw [bind_ok h1, bind_ok h2]
    rcases agree_frameRest s' t' h3 with ⟨_, s'', t'', k1, k2, k3⟩ | ⟨e, s'', t'', k1, k2, k3⟩
    · exact .inl ⟨s'', t'', k1, k2, k3⟩
    · exact .inr ⟨e, s'', t'', k1, k2, k3,
        (frameRest_sameHdr.error k1).trans (h3.hdr.trans (frameRest_sameHdr.error k2).symm)⟩
  · obtain ⟨u, -, rfl⟩ := of_rejecting_error h1
    obtain ⟨v, -, rfl⟩ := of_rejecting_error h2
    exact .inr ⟨e, _, _, bind_error h1, bind_error h2, h3, congrArg freeHeader h3.freeCount⟩

theorem cursorNew_placed {s : State} {b : Nat} (h : b / 8 + 4 ≤ s.params.cap) : cursorNew b s = .ok ()
    { startAttempt s with
      byte := b / 8, bit := Fin.ofNat 8 b, cache := cacheWord s.input (b / 8) (Fin.ofNat 8 b) } := by
  rw [cursorNew, update_bind]
  exact setPos_ok _ h

theorem cursorNew_overrun {s : State} {b : Nat} (h : ¬b / 8 + 4 ≤ s.params.cap) :
    cursorNew b s = .error (.raise .bufferOverrun) { startAttempt s with byte := b / 8, bit := Fin.ofNat 8 b } := by
  rw [cursorNew, update_bind]
  exact setPos_error _ h

theorem frameStart_placed {s : State} {a : Nat} (h : 8 * a / 8 + 4 ≤ s.params.cap) : frameStart a s = .ok ()
    { startAttempt (s.withBuffers false s.ch) with
      byte := 8 * a / 8, bit := Fin.ofNat 8 (8 * a), cache := cacheWord s.input (8 * a / 8) (Fin.ofNat 8 (8 * a)) } :=
  cursorNew_placed (s := s.withBuffers false s.ch) h

theorem frameStart_overrun {s : State} {a : Nat} (h : ¬8 * a / 8 + 4 ≤ s.params.cap) :
    frameStart a s = .error (.raise .bufferOverrun)
      { startAttempt (s.withBuffers false s.ch) with byte := 8 * a / 8, bit := Fin.ofNat 8 (8 * a) } :=
  cursorNew_overrun (s := s.withBuffers false s.ch) h

/-- The steps of `decode_frame` from two states that share the launch state and the count of free values. Where they stop,
what a raise shows agrees, HDR whole unless the cursor was not made. -/
theorem frameSteps_agree (a : Nat) {s t : State} (h : SameLaunch s t) :
    (∃ s' t', frameSteps a s = .ok () s' ∧ frameSteps a t = .ok () t' ∧ With InFrame s' t' ∧ s'.res = t'.res)
    ∨ ∃ e s' t', frameSteps a s = .error e s' ∧ frameSteps a t = .error e t' ∧ SameStop s' t'
      ∧ (a + 4 ≤ s.params.cap → s'.hdr = t'.hdr) := by
  by_cases hc : 8 * a / 8 + 4 ≤ s.params.cap
  · rw [frameSteps, bind_ok (frameStart_placed hc), bind_ok (frameStart_placed (h.params ▸ hc))]
    have begun : ∀ b o, Alike
        { startAttempt (s.withBuffers false s.ch) with byte := b, bit := o, cache := cacheWord s.input b o }
        { startAttempt (t.withBuffers false t.ch) with byte := b, bit := o, cache := cacheWord t.input b o } := fun b o => {
      input := h.input, params := h.params, streamInfo := h.streamInfo, freeCount := h.freeCount
      byte := rfl, bit := rfl, curValid := rfl, ok := rfl, err := rfl, fstate := rfl, wide := rfl, valid := rfl
      cache := congrArg (fun m => cacheWord m b o) h.input
      header := fun e => nomatch (show false = true from e) }
    rcases frameBody_agree (begun _ _) with ⟨s', t', h1, h2, h3⟩ | ⟨e, s', t', h1, h2, h3, h4⟩
    · exact .inl ⟨s', t', h1, h2, h3⟩
    · exact .inr ⟨e, s', t', h1, h2, ⟨h3.freeCount, h3.wide, h3.valid, h3.header⟩, fun _ => h4⟩
  · exact .inr ⟨_, _, _, bind_error (frameStart_overrun hc), bind_error (frameStart_overrun (h.params ▸ hc)),
      ⟨h.freeCount, rfl, (rfl : false = false), fun e => nomatch (show false = true from e)⟩, fun hn => absurd hn (by omega)⟩

end Sys2Proof.Machine
end

