-- ==== Sys2Proof/Laws/Fail.lean ====
section
/-! SUPPORT. How a part of a frame that raises ends, and how `decode_frame` ends where one of its steps raises
(48_frame_decoder.md rules R368, R369, R374). -/

namespace Sys2Proof.Machine

/-! ### A part that raises -/

/-- No part of a subframe drops the cursor on its own. -/
theorem subframe_sameCursor : SubframeWrites (Same State.curValid) (Anyhow (Same State.curValid)) where
  toComposable := composable_same _
  move := within_setPos_anyhow (composable_same _) (fun _ _ _ => rfl) fun _ _ => rfl
  result _ _ := rfl
  names _ _ := rfl
  params _ _ := rfl
  samples _ _ _ _ := rfl
  descriptor _ _ _ := rfl
  lpc _ _ := rfl

/-- Nor does the header parse. -/
theorem header_sameCursor : HeaderWrites (Same State.curValid) (Anyhow (Same State.curValid)) where
  toComposable := composable_same _
  move := within_setPos_anyhow (composable_same _) (fun _ _ _ => rfl) fun _ _ => rfl
  result _ _ := rfl
  okFlag _ _ := rfl
  names _ _ := rfl
  header _ _ _ := rfl
  parsed _ := rfl
  rejected _ _ _ h := h

/-- A row whose step raises ends as a raise in the state it began in. -/
theorem field_raised {op : Op Unit} {k : ErrKind} {s t : State} (hs : s.curValid = true)
    (hw : Op.Within (Same fun s => (s.shown, s.hdr)) (Anyhow (Same fun s => (s.shown, s.hdr))) op)
    (h : op s = .error (.raise k) t) : needCursor s (runField .frame op s) = .next (takeRaise .frame k s) := by
  rw [needCursor_valid _ hs, runField_raise h, raise_of_within hw h]

/-- A row that ends in a state without a cursor raised, and what it raised stands in ERR. -/
theorem of_field_raised {op : Op Unit} {s v : State} (hs : s.curValid = true)
    (hw : Op.Within (Same State.curValid) (Anyhow (Same State.curValid)) op)
    (h : needCursor s (runField .frame op s) = .next v) (hv : v.curValid = false) :
    ∃ t, op s = .error (.raise v.err) t := by
  rw [needCursor_valid _ hs] at h
  rcases finish_cases .frame id (op s) with ⟨t, hu, hf⟩ | ⟨k, t, hu, hf⟩ | ⟨f, t, hu, hf⟩
  · rw [runField, hf] at h
    obtain rfl : t = v := Host.Outcome.next.inj h
    have := hw.ok hu
    simp only [Same] at this
    rw [this, hs] at hv
    cases hv
  · rw [runField, hf] at h
    obtain rfl := Host.Outcome.next.inj h
    exact ⟨t, hu⟩
  · rw [runField, hf] at h
    cases h

/-! ### What a raise shows of a frame whose header is parsed -/

/-- The state a raise after the header parse of frame `f` shows: its header in HDR, and WIDE its own. -/
def FrameLayout.headed (f : FrameLayout) (s : State) : State :=
  { s with hdr := f.record s.streamInfo, wide := wideOf (f.record s.streamInfo) }

theorem begun_shown (f : FrameLayout) (g : Sequencer → Sequencer) (s : State) :
    Same (fun s => (s.shown, s.hdr)) (f.headed s) (f.begun g s) := by
  rw [FrameLayout.begun, FrameLayout.headed]
  generalize f.record s.streamInfo = h
  rfl

theorem read_shown (f : FrameLayout) (g : Sequencer → Sequencer) (h : ResidualParams → ResidualParams) (s : State) :
    Same (fun s => (s.shown, s.hdr)) (f.headed s) (f.read g h s) :=
  begun_shown f g s

theorem readTo_shown {s t : State} (h : Same (fun s => (s.shown, s.hdr)) s t) (p : Nat) (r : Word64) :
    Same (fun s => (s.shown, s.hdr)) s (t.readTo p r) := h

theorem withFState_shown {s t : State} (h : Same (fun s => (s.shown, s.hdr)) s t) (f : FState) :
    Same (fun s => (s.shown, s.hdr)) s (t.withFState f) := h

/-- Where a step of the frame raises, the raise shows that state. -/
theorem headed_raised {k : ErrKind} {f : FrameLayout} {s t : State}
    (h : Same (fun s => (s.shown, s.hdr)) (f.headed s) t) : takeRaise .frame k t = takeRaise .frame k (f.headed s) := by
  simp only [Same, Prod.mk.injEq] at h
  exact takeRaise_shown h.1 h.2

/-! ### The last steps of a frame -/

section
variable {s : State} {f : FrameLayout} {a : Nat}

/-- A frame good but for its checksum (R368). -/
theorem frameSteps_wrongChecksum (hl : f.legal s.params s.streamInfo = true)
    (hc : carries s.input (8 * a) (f.bits s.streamInfo) = true) (hadm : s.admissible (8 * a + 8 * f.length s.streamInfo))
    (h8 : s.params.checkCrc8 = true → crc8Of (bytesAt s.input a (f.header.length - 1)) = f.crc8)
    (h16 : crc16Of (bytesAt s.input a (f.length s.streamInfo)) ≠ 0) :
    ∃ t, frameSteps a s = .error (.raise .frameChecksumMismatch) t
      ∧ Same (fun s => (s.shown, s.hdr)) (f.headed s) t := by
  obtain ⟨g, h, hg, e⟩ := frameRead_at hl hc hadm h8
  obtain ⟨-, k2, k3, -, -, k6, -⟩ := read_facts f g h s
  have e2 := frameChecksum_wrong (u := f.read g h s) (a := a) (n := f.length s.streamInfo)
    (r := BitVec.ofNat 64 f.crc16.toNat) ((congrArg Sequencer.start k6).trans (hg _))
    (by rw [k3]; simp only [State.admissible] at hadm; omega) (by rw [k2]; exact h16)
  exact ⟨_, by rw [frameSteps, e]; exact bind_error e2, readTo_shown (read_shown f g h s) _ _⟩

/-- A frame whose checksums are good, but whose stereo transform cannot store a sample (R369). -/
theorem frameSteps_unstorable (hl : f.legal s.params s.streamInfo = true)
    (hc : carries s.input (8 * a) (f.bits s.streamInfo) = true) (hadm : s.admissible (8 * a + 8 * f.length s.streamInfo))
    (h8 : s.params.checkCrc8 = true → crc8Of (bytesAt s.input a (f.header.length - 1)) = f.crc8)
    (h16 : crc16Of (bytesAt s.input a (f.length s.streamInfo)) = 0) (hout : f.samples s.params s.streamInfo = none) :
    ∃ t, frameSteps a s = .error (.raise .arithmeticOverflow) t
      ∧ Same (fun s => (s.shown, s.hdr)) (f.headed s) t := by
  obtain ⟨g, h, hg, e⟩ := frameRead_at hl hc hadm h8
  obtain ⟨-, -, h2, hall⟩ := FrameLayout.legal_channels hl
  obtain ⟨-, k2, k3, k4, k5, k6, k7⟩ := read_facts f g h s
  have e2 := frameChecksum_at (u := f.read g h s) (a := a) (n := f.length s.streamInfo)
    (r := BitVec.ofNat 64 f.crc16.toNat) ((congrArg Sequencer.start k6).trans (hg _))
    (by rw [k3]; simp only [State.admissible] at hadm; omega) (by rw [k2]; exact h16)
  have e3 := decorrelateOp_none (s := ((f.read g h s).withFState .verified).readTo (8 * a + 8 * f.length s.streamInfo) 0)
    (by rw [readTo_ch, withFState_ch]; exact k7)
    (by rw [readTo_hdr, withFState_hdr, k4]; exact hall)
    (by rw [readTo_hdr, withFState_hdr, k4, List.length_map]; exact h2)
    (by rw [readTo_hdr, withFState_hdr, readTo_params, withFState_params, readTo_wide, withFState_wide, k4, k3, k5]
        exact hout)
  exact ⟨_, by rw [frameSteps, e, bind_ok e2]; exact bind_error e3,
    readTo_shown (withFState_shown (read_shown f g h s) _) _ _⟩

end

end Sys2Proof.Machine
end

