-- ==== Sys2Proof/Laws/Host.lean ====
section
/-! SUPPORT. The header record any parse that ends well leaves (10_state.md rule R26), and the samples it takes for
`decode_frame` and `pack` to run without a fault. -/

namespace Sys2Proof.Machine

/-! ### Bits read, from any state -/

theorem small_reads {m : Nat} {s t : State} {v : Nat} (hm : m ≤ 32) (h : small m s = .ok v t) :
    v < 2 ^ m ∧ t.position = s.position + m := by
  simp only [small, view_bind] at h
  obtain ⟨a, u, h1, h2⟩ := of_bind_ok h
  by_cases ha : s.admissible (s.position + m)
  · rw [advance_ok ha] at h1
    cases h1
    cases h2
    refine ⟨?_, moveTo_position s _⟩
    rw [Nat.shiftRight_eq_div_pow]
    apply Nat.div_lt_of_lt_mul
    rw [← pow_add, show 32 - m + m = 32 by omega]
    exact s.cache.isLt
  · rw [advance_error ha] at h1
    cases h1

theorem readBits_reads {n : Nat} {s t : State} {v : Nat} (hn : n ≤ 32) (h : readBits n s = .ok v t) :
    v < 2 ^ n ∧ t.position = s.position + n := by
  have hend : ∀ (v' : Nat) (u : State), (do setRes (BitVec.ofNat 64 v'); pure v' : Op Nat) u = .ok v t →
      v = v' ∧ t.position = u.position := by
    intro v' u h
    cases h
    exact ⟨rfl, rfl⟩
  by_cases h24 : n ≤ 24
  · have : readBits n s = (small n >>= fun v => (do setRes (BitVec.ofNat 64 v); pure v)) s := by
      simp only [readBits, if_pos h24]
    rw [this] at h
    obtain ⟨a, u, h1, h2⟩ := of_bind_ok h
    obtain ⟨rfl, hp⟩ := hend _ _ h2
    have := small_reads (by omega) h1
    exact ⟨this.1, hp.trans this.2⟩
  · have : readBits n s = (small 24 >>= fun hi => small (n - 24) >>= fun lo =>
        (do setRes (BitVec.ofNat 64 ((hi <<< (n - 24)) ||| lo)); pure ((hi <<< (n - 24)) ||| lo))) s := by
      simp only [readBits, if_neg h24, pure_bind]
    rw [this] at h
    obtain ⟨hi, u, h1, h2⟩ := of_bind_ok h
    obtain ⟨lo, u', h3, h4⟩ := of_bind_ok h2
    obtain ⟨rfl, hp⟩ := hend _ _ h4
    have e1 := small_reads (by omega) h1
    have e2 := small_reads (by omega) h3
    refine ⟨?_, by rw [hp, e2.2, e1.2]; omega⟩
    rw [Nat.shiftLeft_eq, Nat.mul_comm, ← Nat.two_pow_add_eq_or_of_lt e2.1]
    have : 2 ^ n = 2 ^ (n - 24) * 2 ^ 24 := by rw [← pow_add]; congr 1; omega
    have := e1.1
    have := e2.1
    nlinarith

/-- A fixed-width read: its value's width, and the position moved. -/
theorem readBits_meets {P : State → Prop} (hP : OffCursor P) {p n : Nat} (hn : n ≤ 32) :
    Op.Meets (fun s => P s ∧ s.position = p) (readBits n) fun v s => (P s ∧ s.position = p + n) ∧ v < 2 ^ n := by
  intro s hs
  have e1 := meets_moves hP (within_readBits moves_cursor n) s hs.1
  cases hx : readBits n s with
  | error e t => rw [hx] at e1; exact e1
  | ok v t =>
    rw [hx] at e1
    have e2 := readBits_reads hn hx
    exact ⟨⟨e1, by rw [e2.2, hs.2]⟩, e2.1⟩

/-! ### The header -/

/-- Inside a parse that began at byte `a`: facts about HDR, and a position. -/
def Parsing (a : Nat) (si : StreamInfo) (H : Header → Prop) (s : State) : Prop :=
  s.streamInfo = si ∧ s.seq.start = a ∧ H s.hdr

theorem parsing_offCursor (a : Nat) (si : StreamInfo) (H : Header → Prop) (G : Sequencer → Prop) :
    OffCursor fun s => Parsing a si H s ∧ G s.seq := by
  rintro s t ⟨b, o, w, r, rfl⟩ h
  exact h

/-- HDR after steps 2 to 5 (R193 to R197). -/
structure CodesOk (si : StreamInfo) (bsc src : BitVec 4) (h : Header) : Prop where
  blocksize : bsc ≠ 6 → bsc ≠ 7 → 1 ≤ h.blocksize.toNat ∧ h.blocksize.toNat ≤ 65536
  sampleRate : src ≠ 12 → src ≠ 13 → src ≠ 14 → h.sampleRate.toNat ≤ 655350 ∨ h.sampleRate = sampleRateBits si.sampleRate
  channels : 1 ≤ h.channels.toNat ∧ h.channels.toNat ≤ 8
  stereo : h.assignment ≠ .independent → h.channels.toNat = 2
  bps : h.bps ∈ [8, 12, 16, 20, 24, 32] ∨ h.bps = bpsBits si.bps

theorem blocksizeOf_value {bsc : BitVec 4} {n : Nat} (h : blocksizeOf bsc = .value n) :
    1 ≤ (BitVec.ofNat 17 n).toNat ∧ (BitVec.ofNat 17 n).toNat ≤ 65536 := by
  revert h
  rcases bsc with ⟨bsc⟩
  fin_cases bsc <;> simp [blocksizeOf] <;> rintro rfl <;> simp

theorem blocksizeOf_hinted {bsc : BitVec 4} (h : blocksizeOf bsc = .hint) : bsc = 6 ∨ bsc = 7 := by
  revert bsc; decide

theorem sampleRateOf_value {si : StreamInfo} {src : BitVec 4} {n : Nat} (h : sampleRateOf si src = .value n) :
    (sampleRateBits n).toNat ≤ 655350 ∨ sampleRateBits n = sampleRateBits si.sampleRate := by
  revert h
  rcases src with ⟨src⟩
  fin_cases src <;> simp [sampleRateOf] <;> rintro rfl <;> simp [sampleRateBits]

theorem sampleRateOf_hinted {si : StreamInfo} {src : BitVec 4} (h : sampleRateOf si src = .hint) :
    src = 12 ∨ src = 13 ∨ src = 14 := by
  revert h
  rcases src with ⟨src⟩
  fin_cases src <;> simp [sampleRateOf]

theorem channelsOf_value {chn : BitVec 4} {n : Nat} {x : Assignment} (h : channelsOf chn = some (n, x)) :
    (1 ≤ (BitVec.ofNat 4 n).toNat ∧ (BitVec.ofNat 4 n).toNat ≤ 8)
      ∧ (x ≠ .independent → (BitVec.ofNat 4 n).toNat = 2) := by
  revert h
  rcases chn with ⟨chn⟩
  fin_cases chn <;> simp [channelsOf] <;> rintro rfl rfl <;> simp

theorem bpsOf_value {si : StreamInfo} {bpc : BitVec 3} {n : Nat} (h : bpsOf si bpc = .value n) :
    bpsBits n ∈ [8, 12, 16, 20, 24, 32] ∨ bpsBits n = bpsBits si.bps := by
  revert h
  rcases bpc with ⟨bpc⟩
  fin_cases bpc <;> simp [bpsOf] <;> rintro rfl <;> simp [bpsBits]

/-- Steps 2 to 5. -/
theorem applyHeaderWord_meets {a : Nat} {si : StreamInfo} {blk : Bool} {bsc src chn : BitVec 4} {bpc : BitVec 3}
    {p : Nat} :
    Op.Meets (fun s => Parsing a si (fun _ => True) s ∧ s.position = p) (applyHeaderWord blk bsc src chn bpc)
      fun _ s => (Parsing a si (CodesOk si bsc src) s ∧ s.seq.blk = blk ∧ s.seq.bsc = bsc ∧ s.seq.src = src)
        ∧ s.position = p := by
  let J : (Header → Prop) → State → Prop := fun H s =>
    (Parsing a si H s ∧ s.seq.blk = blk ∧ s.seq.bsc = bsc ∧ s.seq.src = src) ∧ s.position = p
  have hup : ∀ {H H' : Header → Prop} {f : Header → Header}, (∀ h, H h → H' (f h)) →
      Op.Meets (J H) (updateHdr f) fun _ => J H' :=
    fun hf => meets_update fun s hs => ⟨⟨⟨hs.1.1.1, hs.1.1.2.1, hf _ hs.1.1.2.2⟩, hs.1.2⟩, hs.2⟩
  refine meets_bind (Q := fun _ => J fun _ => True) (meets_update fun s hs => ⟨⟨hs.1, rfl, rfl, rfl⟩, hs.2⟩) fun _ => ?_
  -- the block size
  refine meets_bind (Q := fun _ => J fun h => bsc ≠ 6 → bsc ≠ 7 → 1 ≤ h.blocksize.toNat ∧ h.blocksize.toNat ≤ 65536) ?_ fun _ => ?_
  · simp only [applyBlocksize]
    cases hb : blocksizeOf bsc with
    | reserved => exact meets_raise
    | hint =>
      refine meets_pure fun s hs => ⟨⟨⟨hs.1.1.1, hs.1.1.2.1, fun h6 h7 => ?_⟩, hs.1.2⟩, hs.2⟩
      rcases blocksizeOf_hinted hb with h | h
      · exact absurd h h6
      · exact absurd h h7
    | value n => exact hup fun h _ _ _ => blocksizeOf_value hb
  -- the sample rate
  refine meets_bind (Q := fun _ => J fun h => (bsc ≠ 6 → bsc ≠ 7 → 1 ≤ h.blocksize.toNat ∧ h.blocksize.toNat ≤ 65536)
    ∧ (src ≠ 12 → src ≠ 13 → src ≠ 14 → h.sampleRate.toNat ≤ 655350 ∨ h.sampleRate = sampleRateBits si.sampleRate)) ?_ fun _ => ?_
  · refine meets_view fun si' => ?_
    intro s hs
    obtain ⟨hs, rfl⟩ := hs
    obtain rfl : s.streamInfo = si := hs.1.1.1
    cases hb : sampleRateOf s.streamInfo src with
    | reserved => exact rfl
    | hint =>
      refine ⟨⟨⟨hs.1.1.1, hs.1.1.2.1, hs.1.1.2.2, fun h12 h13 h14 => ?_⟩, hs.1.2⟩, hs.2⟩
      rcases sampleRateOf_hinted hb with h | h | h
      · exact absurd h h12
      · exact absurd h h13
      · exact absurd h h14
    | value n =>
      exact ⟨⟨⟨hs.1.1.1, hs.1.1.2.1, hs.1.1.2.2, fun _ _ _ => sampleRateOf_value hb⟩, hs.1.2⟩, hs.2⟩
  -- the channels
  refine meets_bind (Q := fun _ => J fun h => ((bsc ≠ 6 → bsc ≠ 7 → 1 ≤ h.blocksize.toNat ∧ h.blocksize.toNat ≤ 65536)
    ∧ (src ≠ 12 → src ≠ 13 → src ≠ 14 → h.sampleRate.toNat ≤ 655350 ∨ h.sampleRate = sampleRateBits si.sampleRate))
    ∧ (1 ≤ h.channels.toNat ∧ h.channels.toNat ≤ 8) ∧ (h.assignment ≠ .independent → h.channels.toNat = 2)) ?_ fun _ => ?_
  · simp only [applyChannels]
    cases hb : channelsOf chn with
    | none => exact meets_raise
    | some x => exact hup fun h hh => ⟨hh, channelsOf_value hb⟩
  -- the bits per sample
  refine meets_view fun si' => ?_
  intro s hs
  obtain ⟨hs, rfl⟩ := hs
  obtain rfl : s.streamInfo = si := hs.1.1.1
  cases hb : bpsOf s.streamInfo bpc with
  | reserved => exact rfl
  | hint => exact rfl
  | value n =>
    obtain ⟨⟨⟨h1, h2, ⟨h3, h4⟩, h5, h6⟩, h7⟩, h8⟩ := hs
    exact ⟨⟨⟨h1, h2, ⟨h3, h4, h5, h6, bpsOf_value hb⟩⟩, h7⟩, h8⟩

/-- Steps 1 to 6. -/
theorem headerWord_meets {a : Nat} {si : StreamInfo} {w : BitVec 32} {p : Nat} :
    Op.Meets (fun s => Parsing a si (fun _ => True) s ∧ s.position = p) (headerWord w)
      fun _ s => (Parsing a si (CodesOk si s.seq.bsc s.seq.src) s) ∧ s.position = p := by
  refine meets_ite (fun _ => meets_raise) fun _ => ?_
  refine meets_bind (applyHeaderWord_meets (a := a) (si := si) (p := p)) fun _ => ?_
  refine meets_ite (fun _ => meets_raise) fun _ => meets_pure fun s hs => ?_
  obtain ⟨⟨h1, h2, h3, h4⟩, h5⟩ := hs
  rw [h3, h4]
  exact ⟨h1, h5⟩

/-! ### The number -/

theorem vluContinue_meets {P : State → Prop} (hP : OffCursor P) (hq : ∀ s f, (∀ q, (f q).start = q.start ∧
    (f q).bsc = q.bsc ∧ (f q).src = q.src) → P s → P (s.mapSeq f)) (c p m : Nat) :
    Op.Meets (fun s => (P s ∧ s.seq.vlu < 2 ^ m) ∧ s.position = p) (vluContinue c)
      fun good s => P s ∧ (good = true → s.seq.vlu < 2 ^ (m + 6 * c) ∧ s.position = p + 8 * c) := by
  induction c generalizing p m with
  | zero => exact meets_pure fun s hs => ⟨hs.1.1, fun _ => ⟨hs.1.2, hs.2⟩⟩
  | succ c ih =>
    have hP' : OffCursor fun s => P s ∧ s.seq.vlu < 2 ^ m := by
      rintro s t hm ⟨h1, h2⟩
      refine ⟨hP s t hm h1, ?_⟩
      obtain ⟨b, o, w, r, rfl⟩ := hm
      exact h2
    refine meets_bind (readBits_meets hP' (by omega)) fun x => ?_
    refine meets_ite (fun _ => ?_) fun _ => meets_pure fun s hs => ⟨hs.1.1.1, fun h => by cases h⟩
    refine meets_bind (Q := fun _ s => (P s ∧ s.seq.vlu < 2 ^ (m + 6)) ∧ s.position = p + 8) (meets_update ?_) fun _ => ?_
    · rintro s ⟨⟨⟨h1, h2⟩, h3⟩, h4⟩
      refine ⟨⟨hq s _ (fun _ => ⟨rfl, rfl, rfl⟩) h1, ?_⟩, h3⟩
      show (s.seq.vlu <<< 6) ||| x % 2 ^ 6 < _
      rw [Nat.shiftLeft_eq, Nat.mul_comm, ← Nat.two_pow_add_eq_or_of_lt (by omega), pow_add]
      omega
    · have := ih (p + 8) (m + 6)
      rw [show m + 6 + 6 * c = m + 6 * (c + 1) by omega, show p + 8 + 8 * c = p + 8 * (c + 1) by omega] at this
      exact this

/-- The bound of a value and the bytes it took, in the form with c continuation bytes. -/
def VluFits (wide : Bool) (p v q : Nat) : Prop :=
  v < 2 ^ 36 ∧ (wide = false → v < 2 ^ 31) ∧ p + 8 ≤ q ∧ q ≤ p + 56 ∧ (q - p) % 8 = 0

theorem vluLeadClass_bound {wide : Bool} {b payload c : Nat} (h : vluLeadClass wide b = some (payload, c)) :
    ∃ m, payload < 2 ^ m ∧ c ≤ 6 ∧ m + 6 * c ≤ 36 ∧ (wide = false → m + 6 * c ≤ 31) := by
  simp only [vluLeadClass] at h
  split at h
  · obtain ⟨rfl, rfl⟩ := Prod.mk.inj (Option.some.inj h)
    exact ⟨7, by omega, by omega, by omega, fun _ => by omega⟩
  · split at h
    · obtain ⟨rfl, rfl⟩ := Prod.mk.inj (Option.some.inj h)
      exact ⟨5, by omega, by omega, by omega, fun _ => by omega⟩
    · split at h
      · obtain ⟨rfl, rfl⟩ := Prod.mk.inj (Option.some.inj h)
        exact ⟨4, by omega, by omega, by omega, fun _ => by omega⟩
      · split at h
        · obtain ⟨rfl, rfl⟩ := Prod.mk.inj (Option.some.inj h)
          exact ⟨3, by omega, by omega, by omega, fun _ => by omega⟩
        · split at h
          · obtain ⟨rfl, rfl⟩ := Prod.mk.inj (Option.some.inj h)
            exact ⟨2, by omega, by omega, by omega, fun _ => by omega⟩
          · split at h
            · obtain ⟨rfl, rfl⟩ := Prod.mk.inj (Option.some.inj h)
              exact ⟨1, by omega, by omega, by omega, fun _ => by omega⟩
            · split at h
              · next hc =>
                obtain ⟨rfl, rfl⟩ := Prod.mk.inj (Option.some.inj h)
                refine ⟨0, by omega, by omega, by omega, fun hw => ?_⟩
                rw [hw] at hc
                exact absurd hc.2 (by simp)
              · cases h

theorem readVlu_meets {P : State → Prop} (hP : OffCursor P) (hok : ∀ s b, P s → P (s.withOk b))
    (hq : ∀ s f, (∀ q, (f q).start = q.start ∧ (f q).bsc = q.bsc ∧ (f q).src = q.src) → P s → P (s.mapSeq f))
    (wide : Bool) (p : Nat) :
    Op.Meets (fun s => P s ∧ s.position = p) (readVlu wide)
      fun r s => P s ∧ ∀ v, r = some v → VluFits wide p v s.position := by
  have hres : ∀ s v, P s → P (s.withRes v) := fun s v h => hP s _ ⟨s.byte, s.bit, s.cache, v, rfl⟩ h
  have hfail : ∀ (P' : State → Prop), (∀ s, P' s → P s) →
      Op.Meets P' vluFail fun r s => P s ∧ ∀ v, r = some v → VluFits wide p v s.position := by
    intro P' hP' s hs
    exact ⟨hres _ _ (hok _ _ (hP' s hs)), fun v h => by cases h⟩
  refine meets_bind (Q := fun _ s => P s ∧ s.position = p)
    (meets_update fun s hs => ⟨hq s _ (fun _ => ⟨rfl, rfl, rfl⟩) hs.1, hs.2⟩) fun _ => ?_
  refine meets_bind (readBits_meets hP (by omega)) fun b => ?_
  cases hl : vluLeadClass wide b with
  | none => exact hfail _ fun s h => h.1.1
  | some x =>
    obtain ⟨payload, c⟩ := x
    intro s0 hs0
    obtain ⟨⟨h1, h2⟩, h3⟩ := hs0
    obtain ⟨m, hm, hc6, hm36, hm31⟩ := vluLeadClass_bound hl
    have hgo : Op.Meets (fun s => P s ∧ s.position = p + 8) (vluAfterLead payload c)
        fun r s => P s ∧ ∀ v, r = some v → VluFits wide p v s.position := by
      refine meets_bind (Q := fun _ s => (P s ∧ s.seq.vlu < 2 ^ m) ∧ s.position = p + 8)
        (meets_update fun s hs => ⟨⟨hq s _ (fun _ => ⟨rfl, rfl, rfl⟩) hs.1, hm⟩, hs.2⟩) fun _ => ?_
      refine meets_bind (vluContinue_meets hP hq c (p + 8) m) fun good => ?_
      refine meets_ite (fun hg => ?_) fun _ => hfail _ fun s h => h.1
      intro s hs
      obtain ⟨hv, hp⟩ := hs.2 hg
      refine ⟨hres _ _ (hok _ _ hs.1), fun v h => ?_⟩
      obtain rfl : s.seq.vlu = v := Option.some.inj h
      have e1 : (2 : Nat) ^ (m + 6 * c) ≤ 2 ^ 36 := Nat.pow_le_pow_right (by omega) hm36
      refine ⟨by omega, fun hw => ?_, ?_⟩
      · have : (2 : Nat) ^ (m + 6 * c) ≤ 2 ^ 31 := Nat.pow_le_pow_right (by omega) (hm31 hw)
        omega
      · show p + 8 ≤ s.position ∧ s.position ≤ p + 56 ∧ (s.position - p) % 8 = 0
        omega
    exact hgo s0 ⟨h1, h2⟩

/-! ### The rest of the header -/

/-- HDR after step 7, with the position in bits from the start. -/
structure NumberOk (si : StreamInfo) (bsc src : BitVec 4) (h : Header) : Prop where
  codes : CodesOk si bsc src h
  frameNumber : h.numberKind = .frameNumber → h.number.toNat < 2 ^ 31

/-- HDR after step 8. -/
structure BlockOk (si : StreamInfo) (src : BitVec 4) (h : Header) : Prop where
  blocksize : 1 ≤ h.blocksize.toNat ∧ h.blocksize.toNat ≤ 65536
  sampleRate : src ≠ 12 → src ≠ 13 → src ≠ 14 → h.sampleRate.toNat ≤ 655350 ∨ h.sampleRate = sampleRateBits si.sampleRate
  channels : 1 ≤ h.channels.toNat ∧ h.channels.toNat ≤ 8
  stereo : h.assignment ≠ .independent → h.channels.toNat = 2
  bps : h.bps ∈ [8, 12, 16, 20, 24, 32] ∨ h.bps = bpsBits si.bps
  frameNumber : h.numberKind = .frameNumber → h.number.toNat < 2 ^ 31

/-- HDR after step 9. -/
structure RateOk (si : StreamInfo) (h : Header) : Prop where
  block : BlockOk si 12 h
  sampleRate : h.sampleRate.toNat ≤ 655350 ∨ h.sampleRate = sampleRateBits si.sampleRate

/-- A position `lo` to `hi` whole bytes past byte `a`. -/
def Past (a lo hi : Nat) (s : State) : Prop :=
  ∃ n, lo ≤ n ∧ n ≤ hi ∧ s.position = 8 * (a + n)

theorem headerNumber_meets {a : Nat} {si : StreamInfo} :
    Op.Meets (fun s => Parsing a si (CodesOk si s.seq.bsc s.seq.src) s ∧ s.position = 8 * (a + 4)) headerNumber
      fun _ s => Parsing a si (NumberOk si s.seq.bsc s.seq.src) s ∧ Past a 5 11 s := by
  refine meets_view fun wide => ?_
  let P : State → Prop := fun s => Parsing a si (CodesOk si s.seq.bsc s.seq.src) s
  have hP : OffCursor P := by
    rintro s t ⟨b, o, w, r, rfl⟩ h
    exact h
  refine meets_bind ((readVlu_meets hP (fun s b h => h) (fun s f hf h => ?_) wide (8 * (a + 4))).mono
    (fun s h => h.1) fun _ _ h => h) fun r => ?_
  · obtain ⟨h1, h2, h3⟩ := h
    refine ⟨h1, (hf _).1.trans h2, ?_⟩
    show CodesOk si (f s.seq).bsc (f s.seq).src s.hdr
    rw [(hf _).2.1, (hf _).2.2]
    exact h3
  cases r with
  | none => exact meets_raise
  | some v =>
    refine meets_update fun s hs => ?_
    obtain ⟨⟨h1, h2, h3⟩, hv⟩ := hs
    obtain ⟨h36, h31, hlo, hhi, hmod⟩ := hv v rfl
    refine ⟨⟨h1, h2, ⟨⟨h3.1, h3.2, h3.3, h3.4, h3.5⟩, fun hk => ?_⟩⟩, ?_⟩
    · cases wide with
      | false =>
        show (BitVec.ofNat 36 v).toNat < _
        rw [BitVec.toNat_ofNat, Nat.mod_eq_of_lt h36]
        exact h31 rfl
      | true => simp at hk
    · refine ⟨(s.position - 8 * a) / 8, ?_, ?_, ?_⟩
      · omega
      · omega
      · show s.position = _
        omega

theorem headerBlocksizeHint_meets {a lo hi : Nat} {si : StreamInfo} :
    Op.Meets (fun s => Parsing a si (NumberOk si s.seq.bsc s.seq.src) s ∧ Past a lo hi s) headerBlocksizeHint
      fun _ s => Parsing a si (BlockOk si s.seq.src) s ∧ Past a lo (hi + 2) s := by
  refine meets_view fun bsc => ?_
  intro s hs
  obtain ⟨⟨⟨h1, h2, ⟨h3, h4⟩⟩, n, hn1, hn2, hn3⟩, hb⟩ := hs
  let P : State → Prop := fun t => Parsing a si (NumberOk si t.seq.bsc t.seq.src) t
  have hP : OffCursor P := by
    rintro s t ⟨b, o, w, r, rfl⟩ h
    exact h
  have hgo : ∀ m d, m ≤ 32 → m = 8 * d → d ≤ 2 → 2 ^ m ≤ 65536 → Op.Meets (fun t => P t ∧ t.position = 8 * (a + n))
      (do let v ← readBits m; updateHdr fun h => { h with blocksize := BitVec.ofNat 17 (v + 1) })
      fun _ t => Parsing a si (BlockOk si t.seq.src) t ∧ Past a lo (hi + 2) t := by
    intro m d hm hd hd2 hp
    refine meets_bind (readBits_meets hP hm) fun v => meets_update fun t ht => ?_
    obtain ⟨⟨⟨k1, k2, k3, k4⟩, k6⟩, k7⟩ := ht
    refine ⟨⟨k1, k2, ⟨⟨?_, ?_⟩, k3.2, k3.3, k3.4, k3.5, k4⟩⟩, n + d, by omega, by omega, ?_⟩
    · show 1 ≤ (BitVec.ofNat 17 (v + 1)).toNat
      rw [BitVec.toNat_ofNat, Nat.mod_eq_of_lt (by omega)]; omega
    · show (BitVec.ofNat 17 (v + 1)).toNat ≤ 65536
      rw [BitVec.toNat_ofNat, Nat.mod_eq_of_lt (by omega)]; omega
    · show t.position = _; omega
  have hPs : P s ∧ s.position = 8 * (a + n) := ⟨⟨h1, h2, ⟨h3, h4⟩⟩, hn3⟩
  by_cases h6 : bsc = 6
  · rw [if_pos h6]
    exact hgo 8 1 (by omega) rfl (by omega) (by norm_num) s hPs
  · by_cases h7 : bsc = 7
    · rw [if_neg h6, if_pos h7]
      exact hgo 16 2 (by omega) rfl (by omega) (by norm_num) s hPs
    · rw [if_neg h6, if_neg h7]
      refine ⟨⟨h1, h2, ⟨h3.1 (by rw [hb]; exact h6) (by rw [hb]; exact h7), h3.2, h3.3, h3.4, h3.5, h4⟩⟩, n, hn1,
        by omega, hn3⟩

theorem headerRateHint_meets {a lo hi : Nat} {si : StreamInfo} :
    Op.Meets (fun s => Parsing a si (BlockOk si s.seq.src) s ∧ Past a lo hi s) headerRateHint
      fun _ s => Parsing a si (RateOk si) s ∧ Past a lo (hi + 2) s := by
  refine meets_view fun src => ?_
  intro s hs
  obtain ⟨⟨⟨h1, h2, h3⟩, n, hn1, hn2, hn3⟩, hb⟩ := hs
  let P : State → Prop := fun t => Parsing a si (BlockOk si t.seq.src) t
  have hP : OffCursor P := by
    rintro s t ⟨b, o, w, r, rfl⟩ h
    exact h
  have hgo : ∀ (m d : Nat) (g : Nat → Nat), m ≤ 32 → m = 8 * d → d ≤ 2 → (∀ v, v < 2 ^ m → g v ≤ 655350) →
      Op.Meets (fun t => P t ∧ t.position = 8 * (a + n))
      (do let v ← readBits m; updateHdr fun h => { h with sampleRate := BitVec.ofNat 20 (g v) })
      fun _ t => Parsing a si (RateOk si) t ∧ Past a lo (hi + 2) t := by
    intro m d g hm hd hd2 hp
    refine meets_bind (readBits_meets hP hm) fun v => meets_update fun t ht => ?_
    obtain ⟨⟨⟨k1, k2, k3⟩, k6⟩, k7⟩ := ht
    refine ⟨⟨k1, k2, ⟨⟨k3.1, fun e => absurd rfl e, k3.3, k3.4, k3.5, k3.6⟩, .inl ?_⟩⟩, n + d,
      by omega, by omega, ?_⟩
    · show (BitVec.ofNat 20 (g v)).toNat ≤ _
      have := hp v k7
      rw [BitVec.toNat_ofNat, Nat.mod_eq_of_lt (by omega)]; exact this
    · show t.position = _; omega
  have hPs : P s ∧ s.position = 8 * (a + n) := ⟨⟨h1, h2, h3⟩, hn3⟩
  by_cases h12 : src = 12
  · rw [if_pos h12]
    exact hgo 8 1 (· * 1000) (by omega) rfl (by omega) (fun v hv => by show v * 1000 ≤ _; omega) s hPs
  · by_cases h13 : src = 13
    · rw [if_neg h12, if_pos h13]
      exact hgo 16 2 id (by omega) rfl (by omega) (fun v hv => by show v ≤ _; omega) s hPs
    · by_cases h14 : src = 14
      · rw [if_neg h12, if_neg h13, if_pos h14]
        exact hgo 16 2 (· * 10) (by omega) rfl (by omega) (fun v hv => by show v * 10 ≤ _; omega) s hPs
      · rw [if_neg h12, if_neg h13, if_neg h14]
        refine ⟨⟨h1, h2, ⟨⟨h3.1, fun e => absurd rfl e, h3.3, h3.4, h3.5, h3.6⟩,
          h3.2 (by rw [hb]; exact h12) (by rw [hb]; exact h13) (by rw [hb]; exact h14)⟩⟩, n, hn1, by omega, hn3⟩

theorem headerChecksum_meets {a : Nat} {si : StreamInfo} {crc : BitVec 8} :
    Op.Meets (fun s => Parsing a si (RateOk si) s ∧ Past a 6 16 s) (headerChecksum crc)
      fun _ s => HeaderOk si s.hdr ∧ s.hdr.valid = true ∧ s.fstate = .headerParsed ∧ s.streamInfo = si
        ∧ s.seq.start = a := by
  intro s hs
  obtain ⟨⟨h1, h2, h3, h4⟩, n, hn1, hn2, hn3⟩ := hs
  have hlen : s.byte - s.seq.start = n := by
    rw [← position_div, hn3, h2]; omega
  have hlen5 : (BitVec.ofNat 5 n).toNat = n := by rw [BitVec.toNat_ofNat, Nat.mod_eq_of_lt (by omega)]
  obtain ⟨f, hf⟩ : ∃ f : Header → Header, f = fun h => { h with crc8 := crc, length := BitVec.ofNat 5 n } := ⟨_, rfl⟩
  have hfl : (f s.hdr).length.toNat = n := by rw [hf]; exact hlen5
  have hok : HeaderOk si { f s.hdr with valid := true } := by
    rw [hf]
    refine ⟨h3.1, h4, h3.3, fun ha => ?_, h3.5, h3.6, ?_⟩
    · exact BitVec.eq_of_toNat_eq (h3.4 ha)
    · show 6 ≤ (BitVec.ofNat 5 n).toNat ∧ (BitVec.ofNat 5 n).toNat ≤ 16
      omega
  have hend : ∀ r : Word64, (do setHdrValid true; setFState .headerParsed : Op Unit) ((s.mapHdr f).withRes r) =
      .ok () ((((s.mapHdr f).withRes r).mapHdr fun h => { h with valid := true }).withFState .headerParsed) := fun r => rfl
  simp only [headerChecksum, view_bind, hlen, updateHdr, update_bind, ← hf]
  by_cases hk : (s.mapHdr f).params.checkCrc8 = true
  · rw [if_pos hk]
    simp only [view_bind, mapHdr_seq, mapHdr_hdr, hfl]
    by_cases hcap : s.seq.start + (n - 1) ≤ s.params.cap
    · have h8 := crc8Op_ok (s := s.mapHdr f) (a := s.seq.start) (b := n - 1) hcap
      rw [bind_apply, h8]
      simp only
      by_cases hc : crc8Of (bytesAt (s.mapHdr f).input s.seq.start (n - 1)) ≠ crc
      · rw [if_pos hc]; rfl
      · rw [if_neg hc, hend]
        exact ⟨hok, rfl, rfl, h1, h2⟩
    · have h8 := crc8Op_error (s := s.mapHdr f) (a := s.seq.start) (b := n - 1) (by omega) hcap
      rw [bind_apply, h8]
      rfl
  · rw [if_neg hk]
    exact ⟨hok, rfl, rfl, h1, h2⟩

/-- A parse that begins at a byte boundary and ends well leaves a legal header (R26). -/
theorem parseHeader_meets {a : Nat} {si : StreamInfo} :
    Op.Meets (fun s => s.streamInfo = si ∧ s.position = 8 * a) parseHeader
      fun _ s => HeaderOk si s.hdr ∧ s.hdr.valid = true ∧ s.fstate = .headerParsed ∧ s.streamInfo = si
        ∧ s.seq.start = a := by
  let P : State → Prop := Parsing a si fun _ => True
  have hP : OffCursor P := by
    rintro s t ⟨b, o, w, r, rfl⟩ h
    exact h
  refine meets_rejecting (meets_bind (Q := fun _ s => P s ∧ s.position = 8 * a) ?_ fun _ => ?_)
  · intro s hs
    have : s.byte = a := by rw [← position_div, hs.2]; omega
    exact ⟨⟨hs.1, this, trivial⟩, hs.2⟩
  refine meets_bind (readBits_meets hP (by omega)) fun w => ?_
  refine meets_bind ((headerWord_meets (a := a) (si := si) (p := 8 * a + 32)).mono (fun s h => h.1) fun _ _ h => h) fun _ => ?_
  refine meets_bind ((headerNumber_meets (a := a) (si := si)).mono (fun s h => ⟨h.1, by rw [h.2]; omega⟩)
    fun _ _ h => h) fun _ => ?_
  refine meets_bind headerBlocksizeHint_meets fun _ => meets_bind headerRateHint_meets fun _ => ?_
  intro s hs
  obtain ⟨h1, n, hn1, hn2, hn3⟩ := hs
  have hP' : OffCursor (Parsing a si (RateOk si)) := by
    rintro s t ⟨b, o, w, r, rfl⟩ h
    exact h
  have h8 := readBits_meets (p := 8 * (a + n)) (n := 8) hP' (by omega) s ⟨h1, hn3⟩
  rw [bind_apply]
  cases hx : readBits 8 s with
  | error e t => rw [hx] at h8; exact h8
  | ok c t =>
    rw [hx] at h8
    exact headerChecksum_meets t ⟨h8.1.1, n + 1, by omega, by omega, by rw [h8.1.2]; omega⟩

/-! ### The frame -/

/-- A decoded frame's header and samples: what the steps after step 5 keep. -/
def Decoded (h : Header) (si : StreamInfo) (s : State) : Prop :=
  s.hdr = h ∧ s.streamInfo = si ∧ ∀ d : Fin 8, d.val < h.channels.toNat → s.Filled d h.blocksize.toNat

theorem decoded_offCursor (h : Header) (si : StreamInfo) : OffCursor (Decoded h si) := by
  rintro s t ⟨b, o, w, r, rfl⟩ hs
  exact hs

theorem decorrelateOp_meets {h : Header} {si : StreamInfo} {f : FState} (h2 : h.assignment ≠ .independent → h.channels.toNat = 2) :
    Op.Meets (fun s => Decoded h si s ∧ s.fstate = f) decorrelateOp fun _ s => Decoded h si s ∧ s.fstate = f := by
  let P : State → Prop := fun s => Decoded h si s ∧ s.fstate = f
  have hw : ∀ s c i vs, P s → P (s.writeCh c i vs) := fun s c i vs hs =>
    ⟨⟨hs.1.1, hs.1.2.1, fun d hd => filled_writeCh_other (hs.1.2.2 d hd) c i vs⟩, hs.2⟩
  have hr : ∀ c : Fin 8, c.val < h.channels.toNat → Op.Meets P (readSamples c h.blocksize.toNat) fun xs => P := fun c hc =>
    (meets_readSamples fun s hs => hs.1.2.2 c hc).mono (fun _ h => h) fun _ _ h => h.1
  intro s hs
  have hh : s.hdr = h := hs.1.1
  simp only [decorrelateOp, view_bind, hh]
  cases ha : h.assignment with
  | independent => exact hs
  | leftSide =>
    have hc := h2 (by rw [ha]; decide)
    exact meets_bind (hr 0 (by rw [hc]; decide)) (fun _ => meets_bind (hr 1 (by rw [hc]; decide)) fun _ =>
      meets_bind meets_orRaise fun _ => meets_update fun s hs => hw s _ _ _ hs.1) s hs
  | rightSide =>
    have hc := h2 (by rw [ha]; decide)
    exact meets_bind (hr 0 (by rw [hc]; decide)) (fun _ => meets_bind (hr 1 (by rw [hc]; decide)) fun _ =>
      meets_bind meets_orRaise fun _ => meets_update fun s hs => hw s _ _ _ hs.1) s hs
  | midSide =>
    have hc := h2 (by rw [ha]; decide)
    exact meets_bind (hr 0 (by rw [hc]; decide)) (fun _ => meets_bind (hr 1 (by rw [hc]; decide)) fun _ =>
      meets_bind meets_orRaise fun _ => meets_bind (Q := fun _ => P) (meets_update fun s hs => hw s _ _ _ hs.1) fun _ =>
        meets_update fun s hs => hw s _ _ _ hs) s hs

/-- `decode_frame` answers with a legal header, all its samples present, or raises. -/
theorem frameSteps_meets {a : Nat} {si : StreamInfo} :
    Op.Meets (fun s => s.streamInfo = si) (frameSteps a)
      fun _ s => HeaderOk si s.hdr ∧ s.hdr.valid = true ∧ s.streamInfo = si ∧ s.fstate = .verified ∧ s.SamplesPresent := by
  refine meets_bind (Q := fun _ s => s.streamInfo = si ∧ s.position = 8 * a) ?_ fun _ => ?_
  · intro s hs
    simp only [frameStart_eq, cursorNew, update_bind]
    by_cases hc : 8 * a / 8 + 4 ≤ (startAttempt (s.withBuffers false s.ch)).params.cap
    · rw [setPos_ok _ hc]
      refine ⟨hs, ?_⟩
      simp only [State.position, Fin.ofNat]
      omega
    · rw [setPos_error _ hc]
      rfl
  refine meets_bind (parseHeader_meets (a := a) (si := si)) fun _ => ?_
  intro s hs
  obtain ⟨hok, hv, -, hsi, -⟩ := hs
  obtain ⟨h, hh⟩ : ∃ h, h = s.hdr := ⟨_, rfl⟩
  rw [← hh] at hok hv
  have hrest : Op.Meets (fun t => t.hdr = h ∧ t.streamInfo = si) (do
      selectWide
      frameSubframes
      flush
      discard (readBits 16)
      frameChecksum
      decorrelateOp
      frameLength) fun _ s => Decoded h si s ∧ s.fstate = .verified := by
    refine meets_bind (Q := fun _ t => t.hdr = h ∧ t.streamInfo = si) (meets_update fun t ht => ht) fun _ => ?_
    refine meets_bind (Q := fun _ => Decoded h si) ?_ fun _ => ?_
    · refine meets_view fun h' => ?_
      have hwsi : Op.Within (fun s t => t.streamInfo = s.streamInfo) Whatever (forEach (frameChannels h') frameSubframe) := by
        have hC : Composable (fun s t : State => t.streamInfo = s.streamInfo) Whatever :=
          ⟨fun _ => rfl, fun _ _ _ h1 h2 => h2.trans h1, fun _ _ _ => trivial, fun _ _ _ _ _ _ => trivial⟩
        have hS : SubframeWrites (fun s t : State => t.streamInfo = s.streamInfo) Whatever :=
          { toComposable := hC
            move := fun b o => by
              intro s
              have := moves_cursor.move b o s
              cases hx : setPos b o s with
              | ok x t => rw [hx] at this; obtain ⟨_, _, _, _, rfl⟩ := this; exact rfl
              | error e t => exact trivial
            result := fun _ _ => rfl
            names := fun _ _ => rfl
            params := fun _ _ => rfl
            samples := fun _ _ _ _ => rfl
            descriptor := fun _ _ _ => rfl
            lpc := fun _ _ => rfl }
        exact within_forEach hC (fun c => within_bind hC (within_view hC _) fun _ =>
          within_decodeSubframe hS whatever_mayHalt c _) _
      have h1 := meets_keeps (F := fun s => s.streamInfo = si) (subframes_meets (h := h) (frameChannels h') []) hwsi
        (fun s t e hs => e.trans hs)
      refine meets_bind ((meets_fact (c := h' = h) h1).mono (fun t ht => ⟨⟨⟨ht.1.1, by simp⟩, ht.1.2⟩, ht.2.symm.trans ht.1.1⟩)
        fun _ _ h => h) fun _ => meets_update ?_
      rintro t ⟨⟨⟨e1, e2⟩, e3⟩, rfl⟩
      refine ⟨e1, e3, fun d hd => e2 d ?_⟩
      rw [List.nil_append, frameChannels, List.mem_take_iff_getElem]
      exact ⟨d.val, by simp; omega, by simp⟩
    have hD := decoded_offCursor h si
    refine meets_bind (meets_moves hD (within_flush moves_cursor)) fun _ => ?_
    refine meets_bind (meets_moves hD (within_discard (within_readBits moves_cursor 16))) fun _ => ?_
    refine meets_bind (Q := fun _ t => Decoded h si t ∧ t.fstate = .verified) ?_ fun _ => ?_
    · refine meets_view fun start => meets_view fun stop => ?_
      refine meets_bind ((meets_moves hD (within_crc16Op moves_cursor _ _)).mono (fun t ht => ht.1.1) fun _ _ h => h)
        fun k => ?_
      exact meets_ite (fun _ => meets_raise) fun _ => meets_update fun t ht => ⟨ht, rfl⟩
    refine meets_bind (decorrelateOp_meets fun ha => by rw [hok.stereo ha]; rfl) fun _ => ?_
    exact meets_view fun n => meets_update fun t ht => ht.1
  have hend := hrest s ⟨hh.symm, hsi⟩
  cases hx : (do
      selectWide
      frameSubframes
      flush
      discard (readBits 16)
      frameChecksum
      decorrelateOp
      frameLength : Op Unit) s with
  | ok x t =>
    rw [hx] at hend
    obtain ⟨⟨e1, e2, e3⟩, e4⟩ := hend
    exact ⟨by rw [e1]; exact hok, by rw [e1]; exact hv, e2, e4, fun c hc i hi => by
      rw [e1] at hc hi; exact e3 c hc i hi⟩
  | error e t => rw [hx] at hend; exact hend

/-! ### The packer -/

theorem readChannels_meets {s : State} {n : Nat} (cs : List Nat) (hcs : ∀ c ∈ cs, ∃ h : c < 8, s.Filled ⟨c, h⟩ n) :
    ∃ xs, readChannels n cs s = .ok xs s := by
  induction cs with
  | nil => exact ⟨[], rfl⟩
  | cons c cs ih =>
    obtain ⟨h8, hf⟩ := hcs c (List.mem_cons_self ..)
    obtain ⟨xs, hx, -⟩ := readSamples_filled hf
    obtain ⟨ys, hy⟩ := ih fun d hd => hcs d (List.mem_cons_of_mem _ hd)
    refine ⟨xs :: ys, ?_⟩
    simp only [readChannels, dif_pos h8]
    rw [bind_ok hx, bind_ok hy]
    rfl

/-- `pack` over samples that are present packs or raises. -/
theorem packOp_meets {s : State} (h8 : s.hdr.channels.toNat ≤ 8) (hp : s.SamplesPresent) :
    (∃ out, packOp s = .ok () ((s.withOut out).withFState .packed)) ∨ ∃ k, packOp s = .error (.raise k) s := by
  obtain ⟨xs, hx⟩ := readChannels_meets (s := s) (n := s.hdr.blocksize.toNat) (List.range s.hdr.channels.toNat) fun c hc => by
    have hc' := List.mem_range.mp hc
    exact ⟨by omega, fun i hi => hp ⟨c, by omega⟩ hc' i hi⟩
  simp only [packOp, view_bind]
  split
  · exact .inr ⟨_, rfl⟩
  · simp only [view_bind]
    rw [bind_ok hx]
    split
    · exact .inl ⟨_, rfl⟩
    · exact .inr ⟨_, rfl⟩

end Sys2Proof.Machine
end

