-- ==== Sys2Proof/Laws/Memory.lean ====
section
/-! SUPPORT. IN: a write is read back and leaves every other address alone; every operation keeps the canonical form;
equal readings are equal data. What a host write can do. -/

namespace Sys2Proof.Machine

theorem Memory.wfFrom_mono {lo lo' : Nat} {m : Memory} (h : lo' ≤ lo) (hm : m.wfFrom lo = true) :
    m.wfFrom lo' = true := by
  cases m with
  | nil => rfl
  | cons c rest =>
    obtain ⟨x, v⟩ := c
    simp only [Memory.wfFrom, Bool.and_eq_true, decide_eq_true_eq] at hm ⊢
    exact ⟨⟨by omega, hm.1.2⟩, hm.2⟩

/-- Below the first listed address nothing is listed. -/
theorem Memory.read_of_lt {lo a : Nat} {m : Memory} (hm : m.wfFrom lo = true) (h : a < lo) :
    m.read a = Config.unlistedByte := by
  induction m generalizing lo with
  | nil => rfl
  | cons c rest ih =>
    obtain ⟨x, v⟩ := c
    simp only [Memory.wfFrom, Bool.and_eq_true, decide_eq_true_eq] at hm
    simp only [Memory.read]
    rw [if_neg (by omega)]
    exact ih hm.2 (by omega)

theorem Memory.read_write_same {lo : Nat} {m : Memory} (hm : m.wfFrom lo = true) (a : Nat) (v : Byte) :
    (m.write a v).read a = v := by
  induction m generalizing lo with
  | nil =>
    simp only [Memory.write]
    split
    · next h => simp [Memory.read, h]
    · simp [Memory.read]
  | cons c rest ih =>
    obtain ⟨x, u⟩ := c
    have hm' := hm
    simp only [Memory.wfFrom, Bool.and_eq_true, decide_eq_true_eq] at hm
    simp only [Memory.write]
    split
    · next hlt =>
      split
      · next h =>
        rw [h]
        exact Memory.read_of_lt (lo := x)
          (by simp only [Memory.wfFrom, Bool.and_eq_true, decide_eq_true_eq]; exact ⟨⟨Nat.le_refl _, hm.1.2⟩, hm.2⟩)
          hlt
      · simp [Memory.read]
    · split
      · next heq =>
        split
        · next h => rw [h]; exact Memory.read_of_lt hm.2 (by omega)
        · simp [Memory.read]
      · next hne =>
        simp only [Memory.read]
        rw [if_neg (by omega)]
        exact ih hm.2

theorem Memory.read_write_other {m : Memory} {a b : Nat} (v : Byte) (h : b ≠ a) : (m.write a v).read b = m.read b := by
  have hab : ¬ a = b := fun e => h e.symm
  induction m with
  | nil =>
    simp only [Memory.write]
    split
    · rfl
    · simp [Memory.read, hab]
  | cons c rest ih =>
    obtain ⟨x, u⟩ := c
    simp only [Memory.write]
    split
    · split
      · rfl
      · rw [Memory.read, if_neg hab]
    · split
      · next heq =>
        have hxb : ¬ x = b := by omega
        split
        · rw [Memory.read, if_neg hxb]
        · rw [Memory.read, if_neg hab, Memory.read, if_neg hxb]
      · simp only [Memory.read, ih]

theorem Memory.wfFrom_write {lo : Nat} {m : Memory} (a : Nat) (v : Byte) (hm : m.wfFrom lo = true) (h : lo ≤ a) :
    (m.write a v).wfFrom lo = true := by
  induction m generalizing lo with
  | nil =>
    simp only [Memory.write]
    split
    · rfl
    · next hv => simp [Memory.wfFrom, h, hv]
  | cons c rest ih =>
    obtain ⟨x, u⟩ := c
    have hm' := hm
    simp only [Memory.wfFrom, Bool.and_eq_true, decide_eq_true_eq] at hm
    simp only [Memory.write]
    split
    · next hlt =>
      split
      · exact hm'
      · next hv =>
        simp only [Memory.wfFrom, Bool.and_eq_true, decide_eq_true_eq, bne_iff_ne, ne_eq]
        exact ⟨⟨h, hv⟩, ⟨by omega, by simpa using hm.1.2⟩, hm.2⟩
    · split
      · next heq =>
        split
        · exact Memory.wfFrom_mono (by omega) hm.2
        · next hv =>
          simp only [Memory.wfFrom, Bool.and_eq_true, decide_eq_true_eq, bne_iff_ne, ne_eq]
          exact ⟨⟨h, hv⟩, by rw [heq]; exact hm.2⟩
      · simp only [Memory.wfFrom, Bool.and_eq_true, decide_eq_true_eq]
        exact ⟨hm.1, ih hm.2 (by omega)⟩

/-- A write keeps the canonical form. -/
theorem Memory.wf_write {m : Memory} (a : Nat) (v : Byte) (hm : m.wf = true) : (m.write a v).wf = true :=
  Memory.wfFrom_write a v hm (Nat.zero_le a)

/-- Loading a byte string keeps the canonical form. -/
theorem Memory.wf_load {m : Memory} (a : Nat) (bytes : List Byte) (hm : m.wf = true) : (m.load a bytes).wf = true := by
  induction bytes generalizing m a with
  | nil => exact hm
  | cons v vs ih => exact ih (a + 1) (Memory.wf_write a v hm)

theorem Memory.wf_nil : Memory.wf [] = true := rfl

theorem Memory.wf_reset : State.reset.input.wf = true := rfl

theorem Memory.read_load_below {m : Memory} {a b : Nat} (bytes : List Byte) (h : b < a) :
    (m.load a bytes).read b = m.read b := by
  induction bytes generalizing m a with
  | nil => rfl
  | cons v vs ih => rw [Memory.load, ih (by omega), Memory.read_write_other v (by omega)]

/-- A loaded byte string is read back. -/
theorem Memory.read_load {m : Memory} (hm : m.wf = true) (a : Nat) (bytes : List Byte) (j : Nat) (h : j < bytes.length) :
    (m.load a bytes).read (a + j) = bytes[j] := by
  induction bytes generalizing m a j with
  | nil => simp at h
  | cons v vs ih =>
    cases j with
    | zero =>
      simp only [Memory.load, Nat.add_zero]
      rw [Memory.read_load_below vs (by omega), Memory.read_write_same hm]
      rfl
    | succ j =>
      have := ih (Memory.wf_write a v hm) (a + 1) j (by simpa using h)
      rw [Memory.load, ← Nat.add_assoc, Nat.add_right_comm, this]
      rfl

/-- Two canonical memories that read the same everywhere are the same list. -/
theorem Memory.ext_read {lo : Nat} {m m' : Memory} (hm : m.wfFrom lo = true) (hm' : m'.wfFrom lo = true)
    (h : ∀ a, m.read a = m'.read a) : m = m' := by
  induction m generalizing m' lo with
  | nil =>
    cases m' with
    | nil => rfl
    | cons c rest =>
      obtain ⟨x, v⟩ := c
      have := h x
      simp only [Memory.wfFrom, Bool.and_eq_true, bne_iff_ne, ne_eq] at hm'
      simp only [Memory.read, if_true] at this
      exact absurd this.symm hm'.1.2
  | cons c rest ih =>
    obtain ⟨x, v⟩ := c
    have hr := hm
    simp only [Memory.wfFrom, Bool.and_eq_true, bne_iff_ne, ne_eq, decide_eq_true_eq] at hm
    cases m' with
    | nil =>
      have := h x
      simp only [Memory.read, if_true] at this
      exact absurd this hm.1.2
    | cons c' rest' =>
      obtain ⟨y, u⟩ := c'
      have hr' := hm'
      simp only [Memory.wfFrom, Bool.and_eq_true, bne_iff_ne, ne_eq, decide_eq_true_eq] at hm'
      have hxy : x = y := by
        rcases Nat.lt_trichotomy x y with hlt | heq | hgt
        · have := h x
          rw [Memory.read, if_pos rfl, Memory.read, if_neg (by omega), Memory.read_of_lt hm'.2 (by omega)] at this
          exact absurd this hm.1.2
        · exact heq
        · have := h y
          rw [Memory.read, if_neg (by omega), Memory.read_of_lt hm.2 (by omega), Memory.read, if_pos rfl] at this
          exact absurd this.symm hm'.1.2
      subst hxy
      have hv : v = u := by simpa [Memory.read] using h x
      subst hv
      have : rest = rest' := by
        refine ih hm.2 hm'.2 fun a => ?_
        by_cases ha : x = a
        · subst ha
          rw [Memory.read_of_lt hm.2 (by omega), Memory.read_of_lt hm'.2 (by omega)]
        · have := h a
          simpa [Memory.read, ha] using this
      rw [this]

/-! ### The host's writes (R73, R395) -/

@[simp] theorem applyHostWrite_streamInfo (si : StreamInfo) (s : State) :
    applyHostWrite (.streamInfo si) s = { s with streamInfo := si } := rfl
@[simp] theorem applyHostWrite_params (check : Bool) (narrow : NarrowOverflow) (s : State) :
    applyHostWrite (.params check narrow) s =
      { s with params := { s.params with checkCrc8 := check, narrowOverflow := narrow } } := rfl
@[simp] theorem applyHostWrite_load (bytes slack : List Byte) (s : State) :
    applyHostWrite (.load bytes slack) s =
      { s with
        input := Memory.load [] 0 (bytes ++ slack)
        params := { s.params with cap := bytes.length + slack.length } } := rfl
@[simp] theorem applyHostWrite_curValid (w : HostWrite) (s : State) : (applyHostWrite w s).curValid = s.curValid := by
  cases w <;> rfl

/-- A host write during an attempt is refused. -/
theorem hostWrite_refused {s : State} (w : HostWrite) (h : s.curValid = true) :
    hostWrite w s = .refused .hostWriteDuringAttempt := if_pos h

/-- Between attempts it takes effect. -/
theorem hostWrite_next {s : State} (w : HostWrite) (h : s.curValid = false) :
    hostWrite w s = .next (applyHostWrite w s) := if_neg (by simp [h])

/-- What a host write can do. -/
theorem hostWrite_cases (w : HostWrite) (s : State) :
    (s.curValid = true ∧ hostWrite w s = .refused .hostWriteDuringAttempt)
      ∨ (s.curValid = false ∧ hostWrite w s = .next (applyHostWrite w s)) := by
  rcases Bool.eq_false_or_eq_true s.curValid with h | h
  · exact .inl ⟨h, hostWrite_refused w h⟩
  · exact .inr ⟨h, hostWrite_next w h⟩

/-- A host write keeps what every step keeps. -/
theorem hostWrite_inv {w : HostWrite} {s t : State} (hs : s.Inv) (h : hostWrite w s = .next t) : t.Inv := by
  rcases hostWrite_cases w s with ⟨-, hw⟩ | ⟨hv, hw⟩
  · rw [hw] at h; cases h
  · obtain rfl := Host.Outcome.next.inj (hw.symm.trans h)
    refine ⟨?_, fun e => ?_⟩
    · cases w with
      | load bytes slack => exact Memory.wf_load 0 (bytes ++ slack) Memory.wf_nil
      | streamInfo si => exact hs.memory
      | params check narrow => exact hs.memory
    · rw [applyHostWrite_curValid, hv] at e; cases e

end Sys2Proof.Machine
end

