-- ==== Sys2Proof/Laws/PerInstr.lean ====
section
/-! SUPPORT. Per instruction: its word fits the width of its format (30_encoding.md rules R91 to R108), so no field is laid
over a bit that the format does not have; a row with no format has no word. -/

namespace Sys2Proof.Laws.Encoding

/-- The word of `i` has its format's width; an INTERNAL row has none. -/
def Statement (i : Instr) : Prop :=
  match i.format with
  | some f => encode i < 2 ^ f.width
  | none => encode i = 0

theorem below {a b : Nat} (h : Nat.blt a b = true) : a < b := Nat.le_of_ble_eq_true h

theorem cursorNew (off : BitVec 32) : Statement (.cursorNew off) := BitVec.isLt _
theorem readBits (n : BitVec 32) : Statement (.readBits n) := BitVec.isLt _
theorem readBits64 (n : BitVec 32) : Statement (.readBits64 n) := BitVec.isLt _
theorem readSigned (n : BitVec 32) : Statement (.readSigned n) := BitVec.isLt _
theorem readSigned64 (n : BitVec 32) : Statement (.readSigned64 n) := BitVec.isLt _
theorem readUnary : Statement .readUnary := BitVec.isLt _
theorem readVariableLengthUint32 : Statement .readVariableLengthUint32 := BitVec.isLt _
theorem readVariableLengthUint64 : Statement .readVariableLengthUint64 := BitVec.isLt _
theorem seekBits (n : BitVec 32) : Statement (.seekBits n) := BitVec.isLt _
theorem seekBytes (n : BitVec 32) : Statement (.seekBytes n) := BitVec.isLt _
theorem flushToByteBoundary : Statement .flushToByteBoundary := BitVec.isLt _
theorem positionBits : Statement .positionBits := BitVec.isLt _
theorem crc8 (a b : BitVec 32) : Statement (.crc8 a b) := BitVec.isLt _
theorem crc16 (a b : BitVec 32) : Statement (.crc16 a b) := BitVec.isLt _
theorem parseFrameHeader : Statement .parseFrameHeader := BitVec.isLt _
theorem decodeFrame (a : BitVec 32) : Statement (.decodeFrame a) := BitVec.isLt _
theorem pack : Statement .pack := BitVec.isLt _
theorem frameHeaderWord (blk : Bool) (bsc src chn : BitVec 4) (bpc : BitVec 3) :
    Statement (.frameHeaderWord blk bsc src chn bpc) := BitVec.isLt _
theorem chnIndependent (n : BitVec 3) : Statement (.chnIndependent n) := BitVec.isLt _
theorem chnLeftSide : Statement .chnLeftSide := below rfl
theorem chnRightSide : Statement .chnRightSide := below rfl
theorem chnMidSide : Statement .chnMidSide := below rfl
theorem chnReserved11 : Statement .chnReserved11 := below rfl
theorem chnReserved12to15 (x : BitVec 2) : Statement (.chnReserved12to15 x) := BitVec.isLt _
theorem subframeConstant (w : Bool) : Statement (.subframeConstant w) := BitVec.isLt _
theorem subframeVerbatim (w : Bool) : Statement (.subframeVerbatim w) := BitVec.isLt _
theorem subframeFixed0 (w : Bool) : Statement (.subframeFixed0 w) := BitVec.isLt _
theorem subframeFixed1 (w : Bool) : Statement (.subframeFixed1 w) := BitVec.isLt _
theorem subframeFixed2 (w : Bool) : Statement (.subframeFixed2 w) := BitVec.isLt _
theorem subframeFixed3 (w : Bool) : Statement (.subframeFixed3 w) := BitVec.isLt _
theorem subframeFixed4 (w : Bool) : Statement (.subframeFixed4 w) := BitVec.isLt _
theorem subframeLpc (orderM1 : BitVec 5) (w : Bool) : Statement (.subframeLpc orderM1 w) := BitVec.isLt _
theorem subframeReservedT2to3 (x : BitVec 1) (w : Bool) : Statement (.subframeReservedT2to3 x w) := BitVec.isLt _
theorem subframeReservedT4to7 (x : BitVec 2) (w : Bool) : Statement (.subframeReservedT4to7 x w) := BitVec.isLt _
theorem subframeFixedOrder5 (w : Bool) : Statement (.subframeFixedOrder5 w) := BitVec.isLt _
theorem subframeFixedOrder6to7 (x : BitVec 1) (w : Bool) : Statement (.subframeFixedOrder6to7 x w) := BitVec.isLt _
theorem subframeReservedT16to31 (x : BitVec 4) (w : Bool) : Statement (.subframeReservedT16to31 x w) := BitVec.isLt _
theorem subframeTagBit7 (x : BitVec 7) : Statement (.subframeTagBit7 x) := BitVec.isLt _
theorem residualMethodRice4 : Statement .residualMethodRice4 := below rfl
theorem residualMethodRice5 : Statement .residualMethodRice5 := below rfl
theorem residualMethodReserved (x : BitVec 1) : Statement (.residualMethodReserved x) := BitVec.isLt _
theorem partitionEscape4 : Statement .partitionEscape4 := below rfl
theorem partitionEscape5 : Statement .partitionEscape5 := below rfl
theorem partitionRice4 (k : BitVec 4) : Statement (.partitionRice4 k) := BitVec.isLt _
theorem partitionRice5 (k : BitVec 5) : Statement (.partitionRice5 k) := BitVec.isLt _
theorem vluLead1byte (x : BitVec 7) : Statement (.vluLead1byte x) := BitVec.isLt _
theorem vluLead2byte (x : BitVec 5) : Statement (.vluLead2byte x) := BitVec.isLt _
theorem vluLead3byte (x : BitVec 4) : Statement (.vluLead3byte x) := BitVec.isLt _
theorem vluLead4byte (x : BitVec 3) : Statement (.vluLead4byte x) := BitVec.isLt _
theorem vluLead5byte (x : BitVec 2) : Statement (.vluLead5byte x) := BitVec.isLt _
theorem vluLead6byte (x : BitVec 1) : Statement (.vluLead6byte x) := BitVec.isLt _
theorem vluLead7byte : Statement .vluLead7byte := below rfl
theorem vluLeadContinuation (x : BitVec 6) : Statement (.vluLeadContinuation x) := BitVec.isLt _
theorem vluLeadFf : Statement .vluLeadFf := below rfl
theorem vluContinuation (payload : BitVec 6) : Statement (.vluContinuation payload) := BitVec.isLt _
theorem frameFooter (crc16f : BitVec 16) : Statement (.frameFooter crc16f) := BitVec.isLt _
theorem headerCrc8 (crc : BitVec 8) : Statement (.headerCrc8 crc) := BitVec.isLt _
theorem decodeSubframe (c : Fin 8) (base : Nat) : Statement (.decodeSubframe c base) := rfl
theorem decodeResidual (c : Fin 8) (k : Fin 33) : Statement (.decodeResidual c k) := rfl
theorem restoreFixed (c : Fin 8) (k : Fin 5) : Statement (.restoreFixed c k) := rfl
theorem restoreLpc (c : Fin 8) (k : Fin 33) : Statement (.restoreLpc c k) := rfl
theorem decorrelate : Statement .decorrelate := rfl
theorem decodeNextFrame (a : BitVec 32) : Statement (.decodeNextFrame a) := rfl

end Sys2Proof.Laws.Encoding
end

