-- ==== Sys2Proof/Tests/Slice0.lean ====
section
/-! SUPPORT. Tests. Expected values are the spec's: the vectors of 95_test_vectors.md by their numbers, the tables of
30_encoding.md, the constants of 41_checksums.md. The second half shows, for each statement of
Certificates/Slice0/Obligations.lean that has hypotheses, values that meet them. -/

namespace Sys2Proof.Machine

set_option Elab.async false

/-! ### Small states -/

/-- The reset state with the bytes loaded and four slack bytes (R63), zeros as in the conventions of 95_test_vectors.md. -/
def loaded (bytes : List Nat) : State := applyHostWrite (.load (bytes.map (BitVec.ofNat 8)) [0, 0, 0, 0]) State.reset

/-- The same with a cursor at stream bit `p`. -/
def cursorAt (bytes : List Nat) (p : Nat) : State := State.moveTo { loaded bytes with curValid := true } p

/-- A block of `n` samples with the base depth `base`, inside channel 0. -/
def inBlock (n base : Nat) (s : State) : State :=
  { s with hdr := { s.hdr with blocksize := BitVec.ofNat 17 n }, seq := { s.seq with base := base } }

/-- The samples of two channels stand in CH. -/
def holdingTwo (mode : NarrowOverflow) (wide : Bool) (a : Assignment) (xs ys : List Int) : State :=
  { State.reset with
    params := { cap := 4, checkCrc8 := true, narrowOverflow := mode }
    hdr := { Header.reset with valid := true, blocksize := BitVec.ofNat 17 xs.length, channels := 2, assignment := a, bps := 16 }
    wide := wide
    ch := (ChannelFile.unwritten.write 0 0 xs).write 1 0 ys }

/-- A verified frame of one channel. -/
def verified (bps : Nat) (wide : Bool) (xs : List Int) : State :=
  { State.reset with
    hdr := { Header.reset with valid := true, blocksize := BitVec.ofNat 17 xs.length, channels := 1, bps := BitVec.ofNat 6 bps }
    wide := wide
    fstate := .verified
    ch := ChannelFile.unwritten.write 0 0 xs }

/-- The outcome is a next state of which `p` holds. -/
def answers (r : Result) (p : State → Bool) : Bool :=
  match r with
  | .next t => p t
  | .fault _ => false
  | .refused _ => false

theorem next_of_answers {r : Result} {p : State → Bool} (h : answers r p = true) : ∃ t, r = .next t ∧ p t = true := by
  cases r with
  | next t => exact ⟨t, rfl, h⟩
  | fault _ => cases h
  | refused _ => cases h

/-- CH[c][0..n-1], where they hold values. -/
def samples (s : State) (c : Fin 8) (n : Nat) : List (Option Int) := (List.range n).map (s.ch.read s.wide c)

/-- EX1 of 95_test_vectors.md. -/
def ex1 : List Nat := [0xA5, 0x3C, 0xF0, 0x0F, 0x81, 0x7E, 0xC3, 0x5A]

/-- Frames A, B, C, D, E of 95_test_vectors.md V48. -/
def frameA : List Nat := [0xFF, 0xF8, 0x69, 0x02, 0x00, 0x03, 0x93, 0x00, 0x05, 0x08, 0xEC]
def frameB : List Nat := [0xFF, 0xF8, 0x69, 0x02, 0x01, 0x03, 0x86, 0x10, 0x00, 0xB7, 0x67, 0x46, 0x79]
def frameC : List Nat := [0xFF, 0xF8, 0x69, 0xA2, 0x02, 0x03, 0xF1, 0x02, 0x05, 0x09, 0xFC, 0x5F, 0x12, 0x01, 0x80, 0x2D,
  0x00, 0x40, 0x34, 0xEA]
def frameD : List Nat := [0xFF, 0xF8, 0x69, 0x08, 0x03, 0x07, 0x37, 0x43, 0x80, 0x64, 0x00, 0xDC, 0x62, 0x7D, 0x04, 0x02,
  0xF9, 0x60, 0xF0, 0x64, 0x8F, 0x07]
def frameE : List Nat := [0xFF, 0xF8, 0x69, 0x8E, 0x04, 0x03, 0x36, 0x02, 0x7F, 0xFF, 0xFF, 0xFF, 0x80, 0x00, 0x00, 0x00,
  0x00, 0x00, 0x00, 0x00, 0x00, 0x00, 0x00, 0x05, 0x02, 0x7F, 0xFF, 0xFF, 0xFF, 0xC0, 0x00, 0x00, 0x00, 0x7F, 0xFF, 0xFF,
  0xFF, 0x20, 0x00, 0x00, 0x00, 0xA0, 0xF4, 0x06]

/-- The fields of frame A's header. -/
def headerA : HeaderLayout :=
  { blk := false, bsc := 6, src := 9, chn := 0, bpc := 1, cont := 0, number := 0, blocksizeField := 3, rateField := 0 }

/-! ### Ill-formed terms -/

theorem test_illformed_rice4 : (Instr.partitionRice4 15).wellFormed = false := by decide +kernel
theorem test_illformed_rice5 : (Instr.partitionRice5 31).wellFormed = false := by decide +kernel
theorem test_illformed_lpc : (Instr.restoreLpc 2 0).wellFormed = false := by decide +kernel
theorem test_wellformed_rice5 : (Instr.partitionRice5 15).wellFormed = true := by decide +kernel

/-! ### Decoding: one written-out word for each constructor -/

theorem test_decode_cursor_commands :
    decode .cmd72 0x010000004800000000 = .ok (.cursorNew 72)
    ∧ decode .cmd72 0x020000000300000000 = .ok (.readBits 3)
    ∧ decode .cmd72 0x030000002100000000 = .ok (.readBits64 33)
    ∧ decode .cmd72 0x040000000500000000 = .ok (.readSigned 5)
    ∧ decode .cmd72 0x050000004000000000 = .ok (.readSigned64 64)
    ∧ decode .cmd72 0x060000000000000000 = .ok .readUnary
    ∧ decode .cmd72 0x070000000000000000 = .ok .readVariableLengthUint32
    ∧ decode .cmd72 0x080000000000000000 = .ok .readVariableLengthUint64
    ∧ decode .cmd72 0x098000000000000000 = .ok (.seekBits 0x80000000)
    ∧ decode .cmd72 0x0A0000000200000000 = .ok (.seekBytes 2)
    ∧ decode .cmd72 0x0B0000000000000000 = .ok .flushToByteBoundary
    ∧ decode .cmd72 0x0C0000000000000000 = .ok .positionBits :=
  ⟨rfl, rfl, rfl, rfl, rfl, rfl, rfl, rfl, rfl, rfl, rfl, rfl⟩

theorem test_decode_other_commands :
    decode .cmd72 0x100000000A00000003 = .ok (.crc8 10 3)
    ∧ decode .cmd72 0x110000000000000008 = .ok (.crc16 0 8)
    ∧ decode .cmd72 0x200000000000000000 = .ok .parseFrameHeader
    ∧ decode .cmd72 0x210000000200000000 = .ok (.decodeFrame 2)
    ∧ decode .cmd72 0x220000000000000000 = .ok .pack
    -- V60-25, V60-26, V60-27
    ∧ decode .cmd72 0x0D0000000000000000 = .error .unassignedOpcode
    ∧ decode .cmd72 0x010000000000000001 = .error .unusedOperand
    ∧ decode .cmd72 0x060000000100000000 = .error .unusedOperand :=
  ⟨rfl, rfl, rfl, rfl, rfl, rfl, rfl, rfl⟩

theorem test_decode_header_words :
    -- 11111111111110 0 1 0111 1101 0111 110 0: V42-3
    decode .hdrw32 0xFFF97D7C = .ok (.frameHeaderWord true 7 13 7 6)
    ∧ decode .hdrw32 0xFFF08902 = .error .syncCode
    ∧ decode .hdrw32 0xFFFA8902 = .error .reservedBit
    ∧ decode .hdrw32 0xFFF88903 = .error .reservedBit :=
  ⟨rfl, rfl, rfl, rfl⟩

theorem test_decode_nibbles :
    decode .chn4 0b0101 = .ok (.chnIndependent 5) ∧ decode .chn4 0b1000 = .ok .chnLeftSide
    ∧ decode .chn4 0b1001 = .ok .chnRightSide ∧ decode .chn4 0b1010 = .ok .chnMidSide
    ∧ decode .chn4 0b1011 = .ok .chnReserved11 ∧ decode .chn4 0b1110 = .ok (.chnReserved12to15 2) :=
  ⟨rfl, rfl, rfl, rfl, rfl, rfl⟩

theorem test_decode_tags :
    decode .tag8 0b00000001 = .ok (.subframeConstant true) ∧ decode .tag8 0b00000010 = .ok (.subframeVerbatim false)
    ∧ decode .tag8 0b00010000 = .ok (.subframeFixed0 false) ∧ decode .tag8 0b00010010 = .ok (.subframeFixed1 false)
    ∧ decode .tag8 0b00010100 = .ok (.subframeFixed2 false) ∧ decode .tag8 0b00010110 = .ok (.subframeFixed3 false)
    ∧ decode .tag8 0b00011001 = .ok (.subframeFixed4 true) ∧ decode .tag8 0b01111110 = .ok (.subframeLpc 31 false)
    ∧ decode .tag8 0b00000110 = .ok (.subframeReservedT2to3 1 false)
    ∧ decode .tag8 0b00001110 = .ok (.subframeReservedT4to7 3 false)
    ∧ decode .tag8 0b00011010 = .ok (.subframeFixedOrder5 false)
    ∧ decode .tag8 0b00011110 = .ok (.subframeFixedOrder6to7 1 false)
    ∧ decode .tag8 0b00111111 = .ok (.subframeReservedT16to31 15 true)
    ∧ decode .tag8 0b10000100 = .ok (.subframeTagBit7 4) :=
  ⟨rfl, rfl, rfl, rfl, rfl, rfl, rfl, rfl, rfl, rfl, rfl, rfl, rfl, rfl⟩

theorem test_decode_residual_fields :
    decode .method2 0b00 = .ok .residualMethodRice4 ∧ decode .method2 0b01 = .ok .residualMethodRice5
    ∧ decode .method2 0b11 = .ok (.residualMethodReserved 1) ∧ decode .param4 0b1111 = .ok .partitionEscape4
    ∧ decode .param4 0b1110 = .ok (.partitionRice4 14) ∧ decode .param5 0b11111 = .ok .partitionEscape5
    ∧ decode .param5 0b01111 = .ok (.partitionRice5 15) :=
  ⟨rfl, rfl, rfl, rfl, rfl, rfl, rfl⟩

theorem test_decode_integer_bytes :
    decode .vluLead8 0x7F = .ok (.vluLead1byte 0x7F) ∧ decode .vluLead8 0xC2 = .ok (.vluLead2byte 2)
    ∧ decode .vluLead8 0xEF = .ok (.vluLead3byte 15) ∧ decode .vluLead8 0xF7 = .ok (.vluLead4byte 7)
    ∧ decode .vluLead8 0xFB = .ok (.vluLead5byte 3) ∧ decode .vluLead8 0xFD = .ok (.vluLead6byte 1)
    ∧ decode .vluLead8 0xFE = .ok .vluLead7byte ∧ decode .vluLead8 0x80 = .ok (.vluLeadContinuation 0)
    ∧ decode .vluLead8 0xFF = .ok .vluLeadFf ∧ decode .vluCont8 0xBF = .ok (.vluContinuation 63)
    ∧ decode .vluCont8 0xC0 = .error .notContinuation :=
  ⟨rfl, rfl, rfl, rfl, rfl, rfl, rfl, rfl, rfl, rfl, rfl⟩

theorem test_decode_checksum_fields :
    decode .footer16 0x08EC = .ok (.frameFooter 0x08EC) ∧ decode .crc8f 0x93 = .ok (.headerCrc8 0x93) :=
  ⟨rfl, rfl⟩

theorem test_table_words :
    decodeTableWord 72 0x210000000200000000 = some (.decodeFrame 2)
    ∧ decodeTableWord 32 0xFFF86902 = some (.frameHeaderWord false 6 9 0 1)
    ∧ decodeTableWord 8 0x12 = some (.subframeFixed1 false) ∧ decodeTableWord 72 0 = none :=
  ⟨rfl, rfl, rfl, rfl⟩

/-- The next step after placing a word runs it: `crc8 0 0` (V70-3), and a tag whose body the loaded bytes hold. -/
theorem test_fetch_word :
    answers (step (State.reset.withFetchWord 72 0x100000000000000000)) (fun t => t.res == 0 && t.pending == []) = true
    ∧ answers (step (State.reset.withFetchWord 72 0x200000000000000000)) (fun t => t == { State.reset with err := .noCursor })
      = true := by decide +kernel

/-- A host write during an attempt is refused, and one between attempts takes effect also before a command that waits
(R73, log entry 16). -/
theorem test_host_write :
    hostWrite (.params false .fault) (cursorAt ex1 0)
      = .refused .hostWriteDuringAttempt
    ∧ hostWrite (.params false .fault) (loaded ex1)
      = .next { loaded ex1 with params := { (loaded ex1).params with checkCrc8 := false, narrowOverflow := .fault } }
    ∧ answers (hostWrite (.load [0xA5] [1, 2, 3, 4]) (hostIssue 0x0C0000000000000000 (loaded ex1)))
      (fun t => t.params.cap == 5 && t.input.read 0 == 0xA5 && t.input.read 4 == 4 && t.pending.length == 1) = true :=
  ⟨rfl, rfl, by decide +kernel⟩

/-- The codes of R26 (D3). -/
theorem test_header_codes :
    [Assignment.independent, .leftSide, .rightSide, .midSide].map Assignment.code = [0, 1, 2, 3]
    ∧ [NumberKind.frameNumber, .sampleNumber].map NumberKind.code = [0, 1] := ⟨rfl, rfl⟩

/-! ### Constants -/

/-- Rows of T8 and T16 (41_checksums.md). -/
theorem test_checksum_tables :
    t8 0 = 0x00 ∧ t8 1 = 0x07 ∧ t8 0x80 = 0x89 ∧ t8 0xFF = 0xF3
    ∧ t16 0 = 0x0000 ∧ t16 1 = 0x8005 ∧ t16 0x80 = 0x8303 ∧ t16 0xFF = 0x0202 := by decide +kernel

/-- V44-4. -/
theorem test_zigzag :
    [0, 1, 2, 3, 4, 5, 6].map zigZag = [0, -1, 1, -2, 2, -3, 3] ∧ zigZag 4294967294 = 2147483647
    ∧ zigZag 4294967295 = -2147483648 := by decide +kernel

/-! ### Cursor commands (V40) -/

theorem test_cursor_new : answers (exec (.cursorNew 3) (loaded ex1))
    (fun t => t.byte == 0 && t.bit == 3 && t.cache == 0x29E78078 && t.curValid) = true := by decide +kernel
theorem test_cursor_new_overrun : answers (exec (.cursorNew 72) (loaded ex1))
    (fun t => t.err == .bufferOverrun && !t.curValid) = true := by decide +kernel
theorem test_read_bits : answers (exec (.readBits 25) (cursorAt ex1 33))
    (fun t => t.res == 0x05FB0D && t.position == 58 && t.cache == 0x68000000) = true := by decide +kernel
theorem test_read_bits_range : exec (.readBits 33) (cursorAt ex1 0) =
    .next { cursorAt ex1 0 with err := .argumentRange } := rfl
theorem test_read_bits64 : answers (exec (.readBits64 33) (cursorAt ex1 16))
    (fun t => t.res == 0x1E01F02FD && t.position == 49) = true := by decide +kernel
theorem test_read_signed : answers (exec (.readSigned 4) (cursorAt ex1 0))
    (fun t => t.res == 0xFFFFFFFFFFFFFFFA && t.position == 4) = true := by decide +kernel
theorem test_read_signed64 : answers (exec (.readSigned64 33)
    (cursorAt [0x7F, 0xFF, 0xFF, 0xFF, 0xC0, 0, 0, 0, 0x40] 33))
    (fun t => t.res == 0xFFFFFFFF00000001 && t.position == 66) = true := by decide +kernel
theorem test_read_unary : answers (exec .readUnary (cursorAt ex1 20))
    (fun t => t.res == 8 && t.position == 29) = true := by decide +kernel
theorem test_read_unary_overrun : answers (exec .readUnary (cursorAt [0, 0, 0, 0] 0))
    (fun t => t.err == .bufferOverrun && !t.curValid) = true := by decide +kernel
theorem test_read_uint32 : answers (exec .readVariableLengthUint32 (cursorAt [0xF0, 0x92, 0x8D, 0x85] 0))
    (fun t => t.ok && t.res == 0x12345 && t.position == 32) = true := by decide +kernel
theorem test_read_uint32_malformed : answers (exec .readVariableLengthUint32 (cursorAt [0xE2, 0x82, 0x00] 0))
    (fun t => !t.ok && t.res == 0xFFFFFFFF && t.position == 24 && t.err == .none && t.curValid) = true := by decide +kernel
theorem test_read_uint64 : answers (exec .readVariableLengthUint64
    (cursorAt [0xFE, 0xBF, 0xBF, 0xBF, 0xBF, 0xBF, 0xBF] 0))
    (fun t => t.ok && t.res == 0xFFFFFFFFF && t.position == 56) = true := by decide +kernel
theorem test_seek_bits : answers (exec (.seekBits 71) (cursorAt ex1 0))
    (fun t => t.position == 71 && t.res == 0) = true := by decide +kernel
theorem test_seek_bytes : answers (exec (.seekBytes 2) (cursorAt ex1 16))
    (fun t => t.position == 32 && t.cache == 0x817EC35A) = true := by decide +kernel
theorem test_flush : answers (exec .flushToByteBoundary (cursorAt ex1 13)) (fun t => t.position == 16) = true := by decide +kernel
theorem test_position_bits : answers (exec .positionBits (cursorAt ex1 58)) (fun t => t.res == 58) = true := by decide +kernel
theorem test_crc8 : answers (exec (.crc8 0 9) (loaded [0x31, 0x32, 0x33, 0x34, 0x35, 0x36, 0x37, 0x38, 0x39]))
    (fun t => t.res == 0xF4) = true := by decide +kernel
theorem test_crc16 : answers (exec (.crc16 0 11) (loaded frameA)) (fun t => t.res == 0) = true := by decide +kernel

/-! ### Frame commands (V42, V48, V60) -/

theorem test_parse_header : answers (exec .parseFrameHeader
    (cursorAt [0xFF, 0xF9, 0x7D, 0x7C, 0xFE, 0xBF, 0xBF, 0xBF, 0xBF, 0xBF, 0xBF, 0xFF, 0xFF, 0xAC, 0x44, 0x5F] 0))
    (fun t => t.hdr == { valid := true, blocksize := 65536, sampleRate := 44100, channels := 8, assignment := .independent
                         bps := 24, numberKind := .sampleNumber, number := 68719476735, crc8 := 0x5F, length := 16 }
      && t.fstate == .headerParsed && t.position == 128) = true := by decide +kernel
theorem test_parse_header_checksum : answers (exec .parseFrameHeader
    (cursorAt [0xFF, 0xF8, 0x69, 0x02, 0x00, 0x02, 0x93] 0))
    (fun t => t.err == .headerChecksumMismatch && t.fstate == .failed && !t.hdr.valid && !t.curValid) = true := by decide +kernel
/-- R204: a rejected header row leaves a header marked invalid; R390: a frame whose start is not admissible rejects none. -/
theorem test_header_rejection :
    answers (exec .chnReserved11 { verified 16 false [1] with curValid := true })
      (fun t => t.err == .syncLoss && t.fstate == .failed && !t.hdr.valid) = true
    ∧ answers (exec (.decodeFrame 9) { loaded ex1 with hdr := { Header.reset with valid := true, bps := 16 } })
      (fun t => t.err == .bufferOverrun && t.fstate == .failed && !t.hdr.valid && t.hdr.bps == 16) = true := by decide +kernel
theorem test_decode_frame_C : answers (exec (.decodeFrame 0) (loaded frameC))
    (fun t => t.res == 20 && t.fstate == .verified && samples t 0 4 == [some 7, some 10, some (-3), some 100]
      && samples t 1 4 == [some 4, some 9, some (-5), some 90] && t.sub[1].order == 1 && t.sub[1].depth == 9) = true := by
  decide +kernel
theorem test_decode_frame_E : answers (exec (.decodeFrame 0) (loaded frameE))
    (fun t => t.res == 44 && t.wide && !t.curValid
      && samples t 1 4 == [some (-2147483648), some 2147483647, some 7, some (-5)]) = true := by decide +kernel
theorem test_decode_next_frame : answers (exec (.decodeNextFrame 0) (loaded frameD))
    (fun t => t.fstate == .packed && t.out == [0xC8, 0, 0xDC, 0, 0xEE, 0, 0xF8, 0, 0xDE, 0, 0xE8, 0, 0xEE, 0, 0xE4, 0])
    = true := by decide +kernel
theorem test_decode_frame_footer : answers (exec (.decodeNextFrame 0)
    (loaded [0xFF, 0xF8, 0x69, 0x02, 0x00, 0x03, 0x93, 0x00, 0x05, 0x08, 0xED]))
    (fun t => t.err == .frameChecksumMismatch && t.fstate == .failed && t.hdr.valid) = true := by decide +kernel
theorem test_pack_bias : answers (exec .pack (verified 4 false [7, -8])) (fun t => t.out == [0xF0, 0x00]) = true := by decide +kernel
theorem test_pack_overflow : answers (exec .pack (verified 32 true [4294967296]))
    (fun t => t.err == .arithmeticOverflow && t.fstate == .failed) = true := by decide +kernel

/-! ### Fields of the header (30_encoding.md R94 to R99) -/

theorem test_header_word : answers (exec (.frameHeaderWord false 1 14 0 5) (cursorAt frameA 32))
    (fun t => t.hdr.blocksize == 192 && t.hdr.channels == 1 && t.hdr.bps == 20 && t.seq.src == 14) = true := by decide +kernel
theorem test_chn_independent : answers (exec (.chnIndependent 7) (cursorAt frameA 28))
    (fun t => t.hdr.channels == 8 && t.hdr.assignment == .independent) = true := by decide +kernel
theorem test_chn_left_side : answers (exec .chnLeftSide (cursorAt frameA 28))
    (fun t => t.hdr.channels == 2 && t.hdr.assignment == .leftSide) = true := by decide +kernel
theorem test_chn_right_side : answers (exec .chnRightSide (cursorAt frameA 28))
    (fun t => t.hdr.channels == 2 && t.hdr.assignment == .rightSide) = true := by decide +kernel
theorem test_chn_mid_side : answers (exec .chnMidSide (cursorAt frameA 28))
    (fun t => t.hdr.channels == 2 && t.hdr.assignment == .midSide) = true := by decide +kernel
theorem test_chn_reserved : answers (exec .chnReserved11 (cursorAt frameA 28)) (fun t => t.err == .syncLoss) = true
    ∧ answers (exec (.chnReserved12to15 0) (cursorAt frameA 28)) (fun t => t.err == .syncLoss) = true := by decide +kernel
theorem test_header_crc8 : answers (exec (.headerCrc8 0x93) (cursorAt frameA 56))
    (fun t => t.hdr.valid && t.hdr.length == 7 && t.hdr.crc8 == 0x93 && t.fstate == .headerParsed) = true := by decide +kernel
theorem test_frame_footer : answers (exec (.frameFooter 0x08EC) (cursorAt frameA 88))
    (fun t => t.fstate == .verified && t.res == 0) = true := by decide +kernel

/-! ### Subframe tags (V43, V48) -/

theorem test_constant_wasted : answers (exec (.subframeConstant true) (inBlock 4 8 (cursorAt [0x85] 0)))
    (fun t => samples t 0 4 == [some 10, some 10, some 10, some 10] && t.sub[0].wasted == 1 && t.position == 8) = true := by
  decide +kernel
theorem test_verbatim : answers (exec (.subframeVerbatim false) (inBlock 4 8 (cursorAt [0x05, 0x09, 0xFC, 0x5F] 0)))
    (fun t => samples t 0 4 == [some 5, some 9, some (-4), some 95]) = true := by decide +kernel
theorem test_fixed0 : answers (exec (.subframeFixed0 false) (inBlock 4 8 (cursorAt frameB 64)))
    (fun t => samples t 0 4 == [some 1, some (-2), some 3, some (-4)] && t.position == 88) = true := by decide +kernel
theorem test_fixed1 : answers (exec (.subframeFixed1 false) (inBlock 4 9 (cursorAt frameC 104)))
    (fun t => samples t 0 4 == [some 3, some 1, some 2, some 10] && t.position == 139) = true := by decide +kernel
theorem test_fixed2 : answers (exec (.subframeFixed2 false)
    (inBlock 5 16 (cursorAt [0x00, 0x01, 0x00, 0x03, 0x00, 0xE3, 0xF0] 0)))
    (fun t => samples t 0 5 == [some 1, some 3, some 5, some 3, some 3]) = true := by decide +kernel
theorem test_fixed3 : answers (exec (.subframeFixed3 false)
    (inBlock 6 16 (cursorAt [0x00, 0x01, 0x00, 0x04, 0x00, 0x09, 0x00, 0x65, 0x80] 0)))
    (fun t => samples t 0 6 == [some 1, some 4, some 9, some 16, some 26, some 38]) = true := by decide +kernel
theorem test_fixed4 : answers (exec (.subframeFixed4 false)
    (inBlock 6 16 (cursorAt [0x00, 0x01, 0x00, 0x08, 0x00, 0x1B, 0x00, 0x40, 0x00, 0x30] 0)))
    (fun t => samples t 0 6 == [some 1, some 8, some 27, some 64, some 125, some 216]) = true := by decide +kernel
theorem test_lpc : answers (exec (.subframeLpc 1 true) (inBlock 8 16 (cursorAt frameD 64)))
    (fun t => samples t 0 8 == [some 200, some 220, some 238, some 248, some 222, some 232, some 238, some 228]
      && t.position == 158 && t.lpcp == { precision := 4, shift := 2, coeff := ((Vector.replicate 32 0).set 0 7).set 1 (-3) }) = true := by decide +kernel
theorem test_rejected_tags :
    answers (exec (.subframeTagBit7 4) (inBlock 4 8 (cursorAt ex1 0))) (fun t => t.err == .syncLoss) = true
    ∧ answers (exec (.subframeReservedT2to3 0 false) (inBlock 4 8 (cursorAt ex1 0))) (fun t => t.err == .structuralError) = true
    ∧ answers (exec (.subframeReservedT4to7 3 true) (inBlock 4 8 (cursorAt ex1 0))) (fun t => t.err == .structuralError) = true
    ∧ answers (exec (.subframeReservedT16to31 0 false) (inBlock 4 8 (cursorAt ex1 0))) (fun t => t.err == .structuralError) = true
    ∧ answers (exec (.subframeFixedOrder5 false) (inBlock 4 8 (cursorAt ex1 0))) (fun t => t.err == .structuralError) = true
    ∧ answers (exec (.subframeFixedOrder6to7 1 false) (inBlock 4 8 (cursorAt ex1 0))) (fun t => t.err == .structuralError) = true := by
  decide +kernel
/-- V43-4: eight wasted bits at base depth 8. -/
theorem test_no_depth : answers (exec (.subframeConstant true) (inBlock 4 8 (cursorAt [0x01] 0)))
    (fun t => t.err == .structuralError) = true := by decide +kernel
theorem test_decode_subframe : answers (exec (.decodeSubframe 3 9) (inBlock 4 0 (cursorAt frameC 96)))
    (fun t => samples t 3 4 == [some 3, some 1, some 2, some 10] && t.sub[3].type == .fixed) = true := by decide +kernel

/-! ### Residual fields (V44) -/

theorem test_methods :
    answers (exec .residualMethodRice4 (cursorAt ex1 0)) (fun t => t.rp.paramBits == 4) = true
    ∧ answers (exec .residualMethodRice5 (cursorAt ex1 0)) (fun t => t.rp.paramBits == 5) = true
    ∧ answers (exec (.residualMethodReserved 0) (cursorAt ex1 0)) (fun t => t.err == .structuralError) = true := by decide +kernel
theorem test_escape4 : answers (exec .partitionEscape4 (inBlock 4 8 (cursorAt [0x2C, 0x1E, 0x0C, 0x80] 0)))
    (fun t => samples t 0 4 == [some (-16), some 15, some 0, some (-7)] && t.position == 25) = true := by decide +kernel
theorem test_escape5_zero : answers (exec .partitionEscape5 (inBlock 2 8 (cursorAt [0x00] 0)))
    (fun t => samples t 0 2 == [some 0, some 0] && t.position == 5) = true := by decide +kernel
theorem test_rice4 : answers (exec (.partitionRice4 0) (inBlock 2 8 (cursorAt [0xA0] 0)))
    (fun t => samples t 0 2 == [some 0, some (-1)] && t.position == 3) = true := by decide +kernel
theorem test_rice5 : answers (exec (.partitionRice5 30) (inBlock 1 8 (cursorAt [0x1F, 0xFF, 0xFF, 0xFF, 0xC0] 0)))
    (fun t => samples t 0 1 == [some (-2147483648)] && t.position == 34) = true := by decide +kernel
theorem test_rice5_overflow : answers (exec (.partitionRice5 30) (inBlock 1 8 (cursorAt [0x08, 0, 0, 0, 0] 0)))
    (fun t => t.err == .arithmeticOverflow) = true := by decide +kernel
/-- V44-1, V44-9. -/
theorem test_decode_residual :
    answers (exec (.decodeResidual 2 0) (inBlock 4 8 (cursorAt [0x00, 0xB7, 0x67] 0)))
      (fun t => samples t 2 4 == [some 1, some (-2), some 3, some (-4)] && t.position == 24) = true
    ∧ answers (exec (.decodeResidual 2 2) (inBlock 4 8 (cursorAt [0x08, 0xB7, 0x67] 0)))
      (fun t => t.err == .structuralError) = true := by decide +kernel

/-! ### Integer bytes (V40-40 to V40-64) -/

theorem test_lead_bytes :
    answers (exec (.vluLead1byte 0x7F) (cursorAt [0] 0)) (fun t => t.ok && t.res == 0x7F && t.position == 0) = true
    ∧ answers (exec (.vluLead2byte 2) (cursorAt [0x80] 0)) (fun t => t.ok && t.res == 0x80 && t.position == 8) = true
    ∧ answers (exec (.vluLead3byte 0) (cursorAt [0xA0, 0x80] 0)) (fun t => t.ok && t.res == 0x800) = true
    ∧ answers (exec (.vluLead4byte 0) (cursorAt [0x92, 0x8D, 0x85] 0)) (fun t => t.ok && t.res == 0x12345) = true
    ∧ answers (exec (.vluLead5byte 3) (cursorAt [0xBF, 0xBF, 0xBF, 0xBF] 0)) (fun t => t.ok && t.res == 0x3FFFFFF) = true
    ∧ answers (exec (.vluLead6byte 1) (cursorAt [0xBF, 0xBF, 0xBF, 0xBF, 0xBF] 0)) (fun t => t.ok && t.res == 0x7FFFFFFF)
      = true := by decide +kernel
theorem test_lead_malformed :
    answers (exec .vluLead7byte (cursorAt ex1 0)) (fun t => !t.ok && t.res == 0xFFFFFFFF) = true
    ∧ answers (exec .vluLeadFf (cursorAt ex1 0)) (fun t => !t.ok && t.res == 0xFFFFFFFF) = true
    ∧ answers (exec (.vluLeadContinuation 0) (cursorAt ex1 0)) (fun t => !t.ok && t.res == 0xFFFFFFFF) = true := by decide +kernel
theorem test_continuation : answers (exec (.vluContinuation 5) { cursorAt ex1 0 with seq.vlu := 3 })
    (fun t => t.seq.vlu == 197) = true := by decide +kernel

/-! ### Procedures (V45, V46) -/

theorem test_restore_fixed : answers (exec (.restoreFixed 0 3) (verified 16 false [1, 4, 9, 0, 1, -1]))
    (fun t => samples t 0 6 == [some 1, some 4, some 9, some 16, some 26, some 38]) = true := by decide +kernel
theorem test_restore_lpc : answers (exec (.restoreLpc 0 1)
    { verified 16 false [3, 0] with lpcp := { precision := 2, shift := 1, coeff := (Vector.replicate 32 0).set 0 (-1) } })
    (fun t => samples t 0 2 == [some 3, some (-2)]) = true := by decide +kernel
/-- V45-11: the sum wraps before the shift. -/
theorem test_restore_lpc_wrap : answers (exec (.restoreLpc 0 8)
    { verified 16 false [32767, 32767, 32767, 32767, 32767, 32767, 32767, 32767, 0] with
      sub := Vector.replicate 8 { Subframe.reset with depth := 16 }
      lpcp := { precision := 15, shift := 14, coeff := Vector.replicate 32 16383 } })
    (fun t => (samples t 0 9).getLast? == some (some (-24))) = true := by decide +kernel
theorem test_mid_side : answers (exec .decorrelate (holdingTwo .wrap false .midSide [5, 9, -4, 95, -1] [3, 1, 2, 10, -3]))
    (fun t => samples t 0 5 == [some 7, some 10, some (-3), some 100, some (-2)]
      && samples t 1 5 == [some 4, some 9, some (-5), some 90, some 1]) = true := by decide +kernel
theorem test_left_side : answers (exec .decorrelate (holdingTwo .wrap false .leftSide [1073741823] [-2147483648]))
    (fun t => samples t 1 1 == [some (-1073741825)]) = true
    ∧ answers (exec .decorrelate (holdingTwo .fault false .leftSide [1073741823] [-2147483648]))
    (fun t => t.err == .arithmeticOverflow) = true := by decide +kernel

/-! ### Witnesses: encodings -/

theorem witness_DecodeOfEncode :
    (Instr.partitionRice4 14).wellFormed = true ∧ (Instr.partitionRice4 14).format = some .param4 := by decide

theorem witness_EncodeOfDecode : 0x80 < 2 ^ Format.vluCont8.width ∧ decode .vluCont8 0x80 = .ok (.vluContinuation 0) :=
  ⟨by decide, rfl⟩

/-- The tag byte of frame C's first subframe. -/
theorem witness_TagRowsAgree :
    (cursorAt frameC 56).Ready ∧ (cursorAt frameC 56).admissible ((cursorAt frameC 56).position + 8)
    ∧ decodeTag (BitVec.ofNat 8 (window (cursorAt frameC 56).input (cursorAt frameC 56).position 8)) = .subframeVerbatim false :=
  ⟨by refine ⟨rfl, ?_, rfl⟩; decide +kernel, by decide +kernel, by decide +kernel⟩

theorem witness_FieldRowsAgree :
    decodeHeaderWord 0xFFF86902 = .ok (.frameHeaderWord false 6 9 0 1) ∧ decodeHeaderWord 0xFFF08902 = .error .syncCode
    ∧ decodeHeaderWord 0xFFFA8902 = .error .reservedBit := ⟨rfl, rfl, rfl⟩

/-! ### Witnesses: steps, refusals, whole-machine rules -/

theorem ready_cursorAt {bytes : List Nat} {p : Nat} (h : p / 8 + 4 ≤ bytes.length + 4) : (cursorAt bytes p).Ready :=
  ⟨rfl, by simpa [cursorAt, loaded, applyHostWrite, State.moveTo, Config.slackBytes] using h, rfl⟩

theorem witness_StepRunsRequest :
    State.reset.pending = []
    ∧ (hostIssue 0x0C0000000000000000 (cursorAt ex1 0)).pending = .command 0x0C0000000000000000 :: []
    ∧ decodeCommand 0x0C0000000000000000 = .ok .positionBits
    ∧ Format.tag8 ≠ .cmd72 ∧ (cursorAt frameC 56).Ready
    ∧ (cursorAt frameC 56).admissible ((cursorAt frameC 56).position + Format.tag8.width)
    ∧ decode .tag8 (window (cursorAt frameC 56).input (cursorAt frameC 56).position 8) = .ok (.subframeVerbatim false)
    ∧ decode .hdrw32 (window (cursorAt ex1 0).input 0 32) = .error .syncCode :=
  ⟨rfl, rfl, rfl, by decide, ready_cursorAt (by decide), by decide +kernel, rfl, rfl⟩

theorem witness_NoCursorRefused :
    needsCursor .readUnary = true ∧ State.reset.curValid = false ∧ needsNoCursor .pack = true ∧ State.reset.err ≠ .noCursor := by
  decide

theorem witness_RefusalsChangeErrOnly :
    (cursorAt ex1 3).curValid = true
    ∧ ¬(1 ≤ (0 : BitVec 32).toNat ∧ (0 : BitVec 32).toNat ≤ 32) ∧ ¬(1 ≤ (33 : BitVec 32).toNat ∧ (33 : BitVec 32).toNat ≤ 32)
    ∧ ¬(1 ≤ (65 : BitVec 32).toNat ∧ (65 : BitVec 32).toNat ≤ 64)
    ∧ 2 ^ 31 ≤ (0x80000000 : BitVec 32).toNat ∧ 2 ^ 28 ≤ (0x10000000 : BitVec 32).toNat
    ∧ 2 ^ 29 ≤ (0x20000000 : BitVec 32).toNat ∧ (cursorAt ex1 3).bit ≠ 0 ∧ State.reset.fstate ≠ .verified := by
  decide

/-- V60-25 to V60-27. -/
theorem witness_RefusalsChangeErrOnly_words :
    (hostIssue 0x0D0000000000000000 State.reset).pending = .command 0x0D0000000000000000 :: []
    ∧ illegalWord 0x0D0000000000000000 ∧ illegalWord 0x010000000000000001 ∧ illegalWord 0x060000000100000000 :=
  ⟨rfl, .inl (by decide), .inr (.inr (by decide)), .inr (.inl (by decide))⟩

theorem inv_cursorAt : (cursorAt ex1 8).Inv := ⟨by decide +kernel, fun _ => ⟨by decide +kernel, rfl⟩⟩

theorem witness_StepKeepsInv : ∃ t, (hostIssue 0x0C0000000000000000 (cursorAt ex1 8)).Inv
    ∧ step (hostIssue 0x0C0000000000000000 (cursorAt ex1 8)) = .next t :=
  ⟨_, ⟨inv_cursorAt.memory, inv_cursorAt.cursor⟩, rfl⟩

theorem witness_HostRunsOn : (hostIssue 0x0C0000000000000000 (cursorAt ex1 8)).HostInv :=
  { inv := ⟨inv_cursorAt.memory, inv_cursorAt.cursor⟩
    commands := rfl
    header := by intro h; cases h
    parsed := fun h => absurd rfl h
    samples := by intro h; cases h }

theorem witness_LaunchStateFixed : (∃ t, step (hostIssue 0x0C0000000000000000 (cursorAt ex1 8)) = .next t)
    ∧ (cursorAt ex1 8).curValid = true ∧ (loaded ex1).curValid = false := ⟨⟨_, rfl⟩, rfl, rfl⟩

theorem witness_ErrHistory : ∃ t, exec .positionBits (cursorAt ex1 13) = .next t := ⟨_, rfl⟩

theorem witness_FStateTransitions :
    (∃ t, exec (.cursorNew 0) (loaded frameA) = .next t ∧ (t.fstate == .idle) = true)
    ∧ (∃ t, exec .parseFrameHeader (cursorAt frameA 0) = .next t ∧ (t.fstate == .headerParsed) = true)
    ∧ (∃ t, exec .parseFrameHeader (cursorAt ex1 0) = .next t ∧ (t.fstate == .failed) = true)
    ∧ (∃ t, exec (.decodeFrame 0) (loaded frameA) = .next t ∧ (t.fstate == .verified) = true)
    ∧ (∃ t, exec .pack (verified 8 false [5, 5]) = .next t ∧ (t.fstate == .packed) = true)
    ∧ (∃ t, exec (.decodeNextFrame 0) (loaded frameA) = .next t ∧ (t.fstate == .packed) = true)
    ∧ primitiveCommand .positionBits = true := by
  refine ⟨?_, ?_, ?_, ?_, ?_, ?_, rfl⟩ <;> exact next_of_answers (by decide +kernel)

theorem witness_WideWrittenPerFrame :
    decodesFrame .positionBits = false ∧ ∃ t, exec .positionBits (cursorAt ex1 13) = .next t := ⟨rfl, _, rfl⟩

theorem witness_PrimitiveFrame :
    primitiveCommand (.readBits 12) = true
    ∧ (∃ t, exec (.readBits 12) (cursorAt ex1 59) = .next t ∧ t.curValid = true)
    ∧ (∃ t, exec (.readBits 12) (cursorAt ex1 60) = .next t ∧ (t.err == .bufferOverrun) = true)
    ∧ (∃ t, exec (.readBits 0) (cursorAt ex1 60) = .next t ∧ (t.err == .argumentRange) = true) := by
  refine ⟨rfl, ?_, ?_, ?_⟩ <;> exact next_of_answers (by decide +kernel)

theorem witness_ParseAndPackFrame :
    (∃ t, exec .parseFrameHeader (cursorAt frameA 0) = .next t ∧ t.hdr.valid = true)
    ∧ (∃ t, exec .parseFrameHeader (cursorAt frameA 8) = .next t ∧ (t.err == .syncLoss) = true)
    ∧ (∃ t, exec .pack (verified 8 false [5, 5]) = .next t ∧ (t.fstate == .packed) = true)
    ∧ (∃ t, exec .pack (verified 33 false [5, 5]) = .next t ∧ (t.err == .formatError) = true) := by
  refine ⟨?_, ?_, ?_, ?_⟩ <;> exact next_of_answers (by decide +kernel)

/-- A form of each kind that writes, and what it leaves alone. -/
theorem witness_SubframePartsFrame :
    (∃ t, exec (.subframeVerbatim false) (inBlock 4 8 (cursorAt [0x05, 0x09, 0xFC, 0x5F] 0)) = .next t ∧ t.curValid = true)
    ∧ (∃ t, exec .partitionEscape4 (inBlock 4 8 (cursorAt [0x2C, 0x1E, 0x0C, 0x80] 0)) = .next t ∧ t.curValid = true)
    ∧ (∃ t, exec .residualMethodRice4 (cursorAt ex1 0) = .next t ∧ t.curValid = true)
    ∧ (∃ t, exec (.decodeSubframe 3 9) (inBlock 4 0 (cursorAt frameC 96)) = .next t ∧ t.curValid = true)
    ∧ (∃ t, exec (.decodeResidual 2 0) (inBlock 4 8 (cursorAt [0x00, 0xB7, 0x67] 0)) = .next t ∧ t.curValid = true)
    ∧ (∃ t, exec (.restoreFixed 0 3) (verified 16 false [1, 4, 9, 0, 1, -1]) = .next t ∧ (t.err == .none) = true)
    ∧ (∃ t, exec (.restoreLpc 0 1) (verified 16 false [3, 0]) = .next t ∧ (t.err == .none) = true)
    ∧ (∃ t, exec .decorrelate (holdingTwo .wrap false .midSide [5] [3]) = .next t ∧ (t.err == .none) = true) := by
  refine ⟨?_, ?_, ?_, ?_, ?_, ?_, ?_, ?_⟩ <;> exact next_of_answers (by decide +kernel)

/-- Entries, descriptors and registers that clauses of SubframePartsFrame protect. -/
theorem witness_SubframePartsFrame_kept :
    (¬ writesEntry (.subframeVerbatim false) (inBlock 4 8 (cursorAt ex1 0)) 1 0
      ∧ ¬ writesEntry (.subframeVerbatim false) (inBlock 4 8 (cursorAt ex1 0)) 0 4)
    ∧ (¬ writesEntry .partitionEscape4 (inBlock 4 8 (cursorAt ex1 0)) 0 4
      ∧ ¬ writesEntry .residualMethodRice4 (cursorAt ex1 0) 0 0)
    ∧ (¬ writesEntry (.decodeResidual 2 1) (inBlock 4 8 (cursorAt ex1 0)) 2 0
      ∧ ¬ writesEntry (.restoreFixed 0 3) (verified 16 false [1, 4, 9, 0]) 0 2
      ∧ ¬ writesEntry .decorrelate (holdingTwo .wrap false .midSide [5] [3]) 2 0)
    ∧ describes (.subframeVerbatim false) (inBlock 4 8 (cursorAt ex1 0)) ≠ some 1
    ∧ readsStream .decorrelate = false ∧ writesRp (.subframeConstant true) = false
    ∧ writesLpcp (.subframeFixed4 false) = false ∧ movesSequencer .partitionEscape4 = false := by
  refine ⟨?_, ?_, ?_, ?_, rfl, rfl, rfl, rfl⟩
  · simp [writesEntry, tagRow, partitionRow, inBlock, cursorAt, loaded, applyHostWrite, State.moveTo, State.reset,
      Sequencer.idle]
  · simp [writesEntry, tagRow, partitionRow, State.partitionStart, State.partitionSize, partitionStart, partitionSize,
      inBlock, cursorAt, loaded, applyHostWrite, State.moveTo, State.reset, Sequencer.idle]
  · simp [writesEntry, verified, holdingTwo]
  · decide

theorem witness_RaiseEffects : CommandClass.primitive = .primitive ∨ (verified 8 false []).hdr.valid = true := .inl rfl

/-- V40-31, V40-34, V41-14, and a flush and a parse at the end of IN. The checksum has no cursor. -/
theorem witness_BufferOverrunRaised :
    (loaded ex1).curValid = false
    ∧ (loaded ex1).params.cap < (9 : BitVec 32).toNat + 4 ∧ (8 : BitVec 32).toNat + 4 ≤ (loaded ex1).params.cap
    ∧ 0 < (3 : BitVec 32).toNat ∧ (loaded ex1).params.cap < (10 : BitVec 32).toNat + (3 : BitVec 32).toNat
    ∧ (cursorAt ex1 60).Ready ∧ ¬(cursorAt ex1 60).admissible ((cursorAt ex1 60).position + (12 : BitVec 32).toNat)
    ∧ ¬(cursorAt ex1 60).admissible ((cursorAt ex1 60).position + (64 : BitVec 32).toNat)
    ∧ (cursorAt ex1 71).Ready ∧ (cursorAt ex1 71).bit ≠ 0
    ∧ ¬(cursorAt ex1 71).admissible ((cursorAt ex1 71).position + (8 - (cursorAt ex1 71).bit.val))
    ∧ (cursorAt ex1 64).Ready ∧ ¬(cursorAt ex1 64).admissible ((cursorAt ex1 64).position + 8 * (0 + 2))
    ∧ ¬(cursorAt ex1 71).admissible ((cursorAt ex1 71).position + 8)
    ∧ (cursorAt ex1 40).Ready ∧ (cursorAt ex1 40).bit = 0
    ∧ ¬(cursorAt ex1 40).admissible ((cursorAt ex1 40).position + 32) :=
  ⟨rfl, by decide, by decide, by decide, by decide, ready_cursorAt (by decide), by decide +kernel, by decide +kernel,
    ready_cursorAt (by decide), by decide +kernel, by decide +kernel, ready_cursorAt (by decide), by decide +kernel, by decide +kernel,
    ready_cursorAt (by decide), by decide +kernel, by decide +kernel⟩

/-- An integer, a header and a header's number, each cut after its first bytes: V40-61's lead byte with one continuation
byte, frame A's header without its checksum, and a number of two bytes cut after the first. -/
theorem witness_BufferOverrunRaised_later :
    (cursorAt [0xFE, 0x80] 0).Ready ∧ 0 < 2 ^ vluValueBits 6
    ∧ carries (cursorAt [0xFE, 0x80] 0).input 0 (vluHead 6 0) = true
    ∧ (∀ i, i < 1 → window (cursorAt [0xFE, 0x80] 0).input (0 + 8 * (i + 1)) 8 / 64 = 2)
    ∧ ¬(cursorAt [0xFE, 0x80] 0).admissible (0 + 8 * (1 + 2))
    ∧ (cursorAt [0xFF, 0xF8, 0x69, 0x02, 0x00, 0x03] 0).Ready ∧ headerA.legal State.reset.streamInfo = true
    ∧ begins (cursorAt [0xFF, 0xF8, 0x69, 0x02, 0x00, 0x03] 0).input (cursorAt [0xFF, 0xF8, 0x69, 0x02, 0x00, 0x03] 0).params.cap 0 headerA.bits = true
    ∧ ¬(cursorAt [0xFF, 0xF8, 0x69, 0x02, 0x00, 0x03] 0).admissible (0 + 8 * headerA.length)
    ∧ (cursorAt [0xFF, 0xF8, 0x89, 0x02, 0xC2] 0).Ready ∧ (cursorAt [0xFF, 0xF8, 0x89, 0x02, 0xC2] 0).numberBegins 1 0x80
    ∧ ¬(cursorAt [0xFF, 0xF8, 0x89, 0x02, 0xC2] 0).admissible (0 + 32 + 8 * (0 + 2)) :=
  ⟨ready_cursorAt (by decide), by decide, by decide +kernel, by decide +kernel, by decide +kernel, ready_cursorAt (by decide),
    by decide +kernel, by decide +kernel, by decide +kernel, ready_cursorAt (by decide),
    ⟨by unfold rejectedWord; decide +kernel, by decide, by decide, .inl (by decide), by decide +kernel⟩, by decide +kernel⟩

/-! ### Witnesses: the cursor -/

/-- V40-27, V40-32: the last admissible position and the one after it. -/
theorem witness_CursorNew :
    (71 : BitVec 32).toNat / 8 + 4 ≤ (loaded ex1).params.cap ∧ (loaded ex1).params.cap < (72 : BitVec 32).toNat / 8 + 4 := by
  decide

theorem witness_ReadBits :
    (cursorAt ex1 39).Ready ∧ 1 ≤ (32 : BitVec 32).toNat ∧ (32 : BitVec 32).toNat ≤ 32
    ∧ (cursorAt ex1 39).admissible ((cursorAt ex1 39).position + (32 : BitVec 32).toNat)
    ∧ (cursorAt ex1 70).Ready ∧ (cursorAt ex1 70).admissible ((cursorAt ex1 70).position + (1 : BitVec 32).toNat) :=
  ⟨ready_cursorAt (by decide), by decide, by decide, by decide +kernel, ready_cursorAt (by decide), by decide +kernel⟩

theorem witness_ReadBits64 :
    (cursorAt ex1 7).Ready ∧ 1 ≤ (64 : BitVec 32).toNat ∧ (64 : BitVec 32).toNat ≤ 64
    ∧ (cursorAt ex1 7).admissible ((cursorAt ex1 7).position + (64 : BitVec 32).toNat) :=
  ⟨ready_cursorAt (by decide), by decide, by decide, by decide +kernel⟩

theorem witness_ReadSigned :
    (cursorAt ex1 7).Ready ∧ 1 ≤ (64 : BitVec 32).toNat
    ∧ (cursorAt ex1 7).admissible ((cursorAt ex1 7).position + (64 : BitVec 32).toNat)
    ∧ (cursorAt ex1 7).admissible ((cursorAt ex1 7).position + (1 : BitVec 32).toNat) ∧ (1 : BitVec 32).toNat ≤ 32 :=
  ⟨ready_cursorAt (by decide), by decide, by decide +kernel, by decide +kernel, by decide⟩

theorem witness_ReadsCompose :
    (cursorAt ex1 39).Ready ∧ 1 ≤ (1 : BitVec 32).toNat ∧ 1 ≤ (31 : BitVec 32).toNat
    ∧ (1 : BitVec 32).toNat + (31 : BitVec 32).toNat ≤ 32
    ∧ (cursorAt ex1 39).admissible ((cursorAt ex1 39).position + (1 : BitVec 32).toNat + (31 : BitVec 32).toNat) :=
  ⟨ready_cursorAt (by decide), by decide, by decide, by decide, by decide +kernel⟩

/-- V40-18, and V40-29: eight bytes 00. -/
theorem witness_ReadUnary :
    (cursorAt ex1 20).Ready ∧ (∀ j, j < 8 → streamBit (cursorAt ex1 20).input ((cursorAt ex1 20).position + j) = false)
    ∧ streamBit (cursorAt ex1 20).input ((cursorAt ex1 20).position + 8) = true
    ∧ (cursorAt ex1 20).admissible ((cursorAt ex1 20).position + 8 + 1)
    ∧ (cursorAt [0, 0, 0, 0] 0).Ready
    ∧ ∀ x, (cursorAt [0, 0, 0, 0] 0).position ≤ x → x + 2 ≤ 8 * ((cursorAt [0, 0, 0, 0] 0).params.cap - 3) →
      streamBit (cursorAt [0, 0, 0, 0] 0).input x = false :=
  ⟨ready_cursorAt (by decide), by decide +kernel, by decide +kernel, by decide +kernel, ready_cursorAt (by decide),
    fun x _ h => (by decide +kernel : ∀ y, y < 39 → streamBit (cursorAt [0, 0, 0, 0] 0).input y = false) x
      (by have h' : x + 2 ≤ 40 := h; omega)⟩

theorem witness_Seeks :
    (cursorAt ex1 0).Ready ∧ (72 : BitVec 32).toNat < 2 ^ 31
    ∧ (cursorAt ex1 0).admissible ((cursorAt ex1 0).position + (71 : BitVec 32).toNat)
    ∧ ¬(cursorAt ex1 0).admissible ((cursorAt ex1 0).position + (72 : BitVec 32).toNat)
    ∧ (9 : BitVec 32).toNat < 2 ^ 28 ∧ (cursorAt ex1 0).admissible ((cursorAt ex1 0).position + 8 * (8 : BitVec 32).toNat)
    ∧ ¬(cursorAt ex1 0).admissible ((cursorAt ex1 0).position + 8 * (9 : BitVec 32).toNat) :=
  ⟨ready_cursorAt (by decide), by decide, by decide +kernel, by decide +kernel, by decide, by decide +kernel,
    by decide +kernel⟩

theorem witness_FlushAndPosition :
    (cursorAt ex1 64).Ready ∧ (cursorAt ex1 64).bit = 0 ∧ (cursorAt ex1 63).Ready ∧ (cursorAt ex1 63).bit ≠ 0
    ∧ (cursorAt ex1 63).admissible (8 * ((cursorAt ex1 63).byte + 1)) :=
  ⟨ready_cursorAt (by decide), by decide +kernel, ready_cursorAt (by decide), by decide +kernel, by decide +kernel⟩

/-! ### Witnesses: variable-length integers and checksums -/

/-- V40-50 and V40-61: the largest value of each width. -/
theorem witness_VluRead :
    (cursorAt [0xFD, 0xBF, 0xBF, 0xBF, 0xBF, 0xBF] 0).Ready ∧ 0x7FFFFFFF < 2 ^ vluValueBits 5
    ∧ carries (cursorAt [0xFD, 0xBF, 0xBF, 0xBF, 0xBF, 0xBF] 0).input 0 (vluBits 5 0x7FFFFFFF) = true
    ∧ (cursorAt [0xFD, 0xBF, 0xBF, 0xBF, 0xBF, 0xBF] 0).admissible (0 + 8 * (5 + 1))
    ∧ (cursorAt [0xFE, 0xBF, 0xBF, 0xBF, 0xBF, 0xBF, 0xBF] 0).Ready ∧ 0xFFFFFFFFF < 2 ^ vluValueBits 6
    ∧ carries (cursorAt [0xFE, 0xBF, 0xBF, 0xBF, 0xBF, 0xBF, 0xBF] 0).input 0 (vluBits 6 0xFFFFFFFFF) = true
    ∧ (cursorAt [0xFE, 0xBF, 0xBF, 0xBF, 0xBF, 0xBF, 0xBF] 0).admissible (0 + 8 * (6 + 1)) :=
  ⟨ready_cursorAt (by decide), by decide, by decide +kernel, by decide +kernel, ready_cursorAt (by decide), by decide,
    by decide +kernel, by decide +kernel⟩

/-- V40-53 to V40-55, V40-63: the malformed lead bytes. -/
theorem witness_VluMalformed_lead :
    (cursorAt [0x80] 0).Ready ∧ (cursorAt [0x80] 0).admissible (0 + 8) ∧ window (cursorAt [0x80] 0).input 0 8 = 128
    ∧ window (cursorAt [0xBF] 0).input 0 8 = 191 ∧ window (cursorAt [0xFE] 0).input 0 8 = 254
    ∧ window (cursorAt [0xFF] 0).input 0 8 = 255 :=
  ⟨ready_cursorAt (by decide), by decide +kernel, by decide +kernel, by decide +kernel, by decide +kernel, by decide +kernel⟩

/-- V40-56 and V40-64: a malformed first and last continuation byte. -/
theorem witness_VluMalformed_continuation :
    (cursorAt [0xC2, 0xC0] 0).Ready ∧ 0x80 < 2 ^ vluValueBits 1
    ∧ carries (cursorAt [0xC2, 0xC0] 0).input 0 (vluHead 1 0x80) = true
    ∧ window (cursorAt [0xC2, 0xC0] 0).input (0 + 8 * (0 + 1)) 8 / 64 ≠ 2
    ∧ (cursorAt [0xC2, 0xC0] 0).admissible (0 + 8 * (0 + 2))
    ∧ (cursorAt [0xFE, 0x80, 0x80, 0x80, 0x80, 0x80, 0xC0] 0).Ready
    ∧ carries (cursorAt [0xFE, 0x80, 0x80, 0x80, 0x80, 0x80, 0xC0] 0).input 0 (vluHead 6 0) = true
    ∧ (∀ i, i < 5 → window (cursorAt [0xFE, 0x80, 0x80, 0x80, 0x80, 0x80, 0xC0] 0).input (0 + 8 * (i + 1)) 8 / 64 = 2)
    ∧ window (cursorAt [0xFE, 0x80, 0x80, 0x80, 0x80, 0x80, 0xC0] 0).input (0 + 8 * (5 + 1)) 8 / 64 ≠ 2
    ∧ (cursorAt [0xFE, 0x80, 0x80, 0x80, 0x80, 0x80, 0xC0] 0).admissible (0 + 8 * (5 + 2)) :=
  ⟨ready_cursorAt (by decide), by decide, by decide +kernel, by decide +kernel, by decide +kernel, ready_cursorAt (by decide),
    by decide +kernel, by decide +kernel, by decide +kernel, by decide +kernel⟩

theorem witness_VluRange :
    (∃ t, exec .readVariableLengthUint32 (cursorAt [0xC2, 0x80] 0) = .next t ∧ t.curValid = true)
    ∧ (∃ t, exec .readVariableLengthUint64 (cursorAt [0xFF] 0) = .next t ∧ t.curValid = true)
    ∧ (cursorAt [0xC2, 0x80] 0).curValid = true :=
  ⟨next_of_answers (by decide +kernel), next_of_answers (by decide +kernel), rfl⟩

/-- The lead rows, at the largest value of each form. -/
theorem witness_VluRows :
    (∀ c, c < 7 → { cursorAt [0xBF, 0xBF, 0xBF, 0xBF, 0xBF, 0xBF] 0 with seq.vluWide := true }.Ready
      ∧ 2 ^ vluValueBits c - 1 < 2 ^ vluValueBits c)
    ∧ (∀ c, c < 7 → carries (cursorAt [0xBF, 0xBF, 0xBF, 0xBF, 0xBF, 0xBF] 0).input 0
      (vluTail c (2 ^ vluValueBits c - 1)) = true)
    ∧ (∀ c, c < 7 → (cursorAt [0xBF, 0xBF, 0xBF, 0xBF, 0xBF, 0xBF] 0).admissible (0 + 8 * c))
    ∧ (cursorAt ex1 0).seq.vluWide = false :=
  ⟨fun c h => ⟨⟨rfl, by decide +kernel, rfl⟩,
      (by decide +kernel : ∀ c, c < 7 → 2 ^ vluValueBits c - 1 < 2 ^ vluValueBits c) c h⟩,
    by decide +kernel, by decide +kernel, rfl⟩

theorem witness_Checksums : (0 : BitVec 32).toNat + (12 : BitVec 32).toNat ≤ (loaded ex1).params.cap := by decide

/-! ### Witnesses: the header -/

/-- The fields of the longest header (V42-3). -/
def headerLong : HeaderLayout :=
  { blk := true, bsc := 7, src := 13, chn := 7, bpc := 6, cont := 6, number := 68719476735, blocksizeField := 0xFFFF
    rateField := 0xAC44 }
def headerLongBytes : List Nat :=
  [0xFF, 0xF9, 0x7D, 0x7C, 0xFE, 0xBF, 0xBF, 0xBF, 0xBF, 0xBF, 0xBF, 0xFF, 0xFF, 0xAC, 0x44, 0x5F]

theorem witness_ParseHeader :
    (cursorAt frameA 0).Ready ∧ (cursorAt frameA 0).bit = 0 ∧ headerA.legal State.reset.streamInfo = true
    ∧ carries (cursorAt frameA 0).input 0 (headerA.bits ++ fieldBits 8 (0x93 : BitVec 8).toNat) = true
    ∧ (cursorAt frameA 0).admissible (0 + 8 * headerA.length)
    ∧ crc8Of (bytesAt (cursorAt frameA 0).input 0 (headerA.length - 1)) = 0x93
    ∧ (cursorAt headerLongBytes 0).Ready ∧ headerLong.legal State.reset.streamInfo = true
    ∧ carries (cursorAt headerLongBytes 0).input 0 (headerLong.bits ++ fieldBits 8 (0x5F : BitVec 8).toNat) = true
    ∧ (cursorAt headerLongBytes 0).admissible (0 + 8 * headerLong.length)
    ∧ crc8Of (bytesAt (cursorAt headerLongBytes 0).input 0 (headerLong.length - 1)) = 0x5F :=
  ⟨ready_cursorAt (by decide), by decide +kernel, by decide +kernel, by decide +kernel, by decide +kernel, by decide +kernel,
    ready_cursorAt (by decide), by decide +kernel, by decide +kernel, by decide +kernel, by decide +kernel⟩

/-- V42-9 to V42-15: the words the first six steps reject. -/
theorem witness_HeaderRejected_word :
    rejectedWord 0xFFF08902 ∧ rejectedWord 0xFFFA8902 ∧ rejectedWord 0xFFF88903 ∧ rejectedWord 0xFFF80902
    ∧ rejectedWord 0xFFF88F02 ∧ rejectedWord 0xFFF889B2 ∧ rejectedWord 0xFFF88906
    ∧ (cursorAt [0xFF, 0xF0, 0x89, 0x02, 0x00, 0x21] 0).admissible (0 + 32)
    ∧ window (cursorAt [0xFF, 0xF0, 0x89, 0x02, 0x00, 0x21] 0).input 0 32 = 0xFFF08902 :=
  ⟨.inl (by decide), .inr (.inl rfl), .inr (.inr (.inl rfl)), .inr (.inr (.inr (.inl rfl))),
    .inr (.inr (.inr (.inr (.inl rfl)))), .inr (.inr (.inr (.inr (.inr (.inl (by decide)))))),
    .inr (.inr (.inr (.inr (.inr (.inr rfl))))), by decide +kernel, by decide +kernel⟩

/-- V42-8, V42-16, V42-17: a lead byte the number cannot have, and a wrong checksum. -/
theorem witness_HeaderRejected :
    (cursorAt [0xFF, 0xF8, 0x89, 0x02, 0x80, 0x18] 0).admissible (0 + 40)
    ∧ ¬ rejectedWord (BitVec.ofNat 32 (window (cursorAt [0xFF, 0xF8, 0x89, 0x02, 0x80, 0x18] 0).input 0 32))
    ∧ window (cursorAt [0xFF, 0xF8, 0x89, 0x02, 0x80, 0x18] 0).input 32 8 = 128
    ∧ window (cursorAt [0xFF, 0xF8, 0x89, 0x02, 0xFE, 0x80] 0).input 32 8 = 254
    ∧ streamBit (cursorAt [0xFF, 0xF8, 0x89, 0x02, 0xFE, 0x80] 0).input 15 = false
    ∧ State.reset.streamInfo.minBlocksize = State.reset.streamInfo.maxBlocksize
    ∧ { headerA with blocksizeField := 2 }.legal State.reset.streamInfo = true
    ∧ carries (cursorAt [0xFF, 0xF8, 0x69, 0x02, 0x00, 0x02, 0x93] 0).input 0
        ({ headerA with blocksizeField := 2 }.bits ++ fieldBits 8 (0x93 : BitVec 8).toNat) = true
    ∧ (cursorAt [0xFF, 0xF8, 0x69, 0x02, 0x00, 0x02, 0x93] 0).admissible
        (0 + 8 * { headerA with blocksizeField := 2 }.length)
    ∧ State.reset.params.checkCrc8 = true
    ∧ crc8Of (bytesAt (cursorAt [0xFF, 0xF8, 0x69, 0x02, 0x00, 0x02, 0x93] 0).input 0 6) ≠ 0x93 :=
  ⟨by decide +kernel, by unfold rejectedWord; decide +kernel, by decide +kernel, by decide +kernel, by decide +kernel, rfl,
    by decide +kernel, by decide +kernel, by decide +kernel, rfl, by decide +kernel⟩

/-- A malformed first continuation byte, and a malformed last one of a 36-bit sample number (BLK = 1). -/
theorem witness_HeaderRejected_continuation :
    (cursorAt [0xFF, 0xF8, 0x89, 0x02, 0xC2, 0xC0] 0).numberBegins 1 0x80
    ∧ window (cursorAt [0xFF, 0xF8, 0x89, 0x02, 0xC2, 0xC0] 0).input (0 + 32 + 8 * (0 + 1)) 8 / 64 ≠ 2
    ∧ (cursorAt [0xFF, 0xF8, 0x89, 0x02, 0xC2, 0xC0] 0).admissible (0 + 32 + 8 * (0 + 2))
    ∧ (cursorAt [0xFF, 0xF9, 0x89, 0x02, 0xFE, 0x80, 0x80, 0x80, 0x80, 0x80, 0xC0] 0).numberBegins 6 0
    ∧ (∀ i, i < 5 → window (cursorAt [0xFF, 0xF9, 0x89, 0x02, 0xFE, 0x80, 0x80, 0x80, 0x80, 0x80, 0xC0] 0).input
        (0 + 32 + 8 * (i + 1)) 8 / 64 = 2)
    ∧ window (cursorAt [0xFF, 0xF9, 0x89, 0x02, 0xFE, 0x80, 0x80, 0x80, 0x80, 0x80, 0xC0] 0).input
        (0 + 32 + 8 * (5 + 1)) 8 / 64 ≠ 2
    ∧ (cursorAt [0xFF, 0xF9, 0x89, 0x02, 0xFE, 0x80, 0x80, 0x80, 0x80, 0x80, 0xC0] 0).admissible (0 + 32 + 8 * (5 + 2)) :=
  ⟨⟨by unfold rejectedWord; decide +kernel, by decide, by decide, .inl (by decide), by decide +kernel⟩, by decide +kernel,
    by decide +kernel,
    ⟨by unfold rejectedWord; decide +kernel, by decide, by decide, .inr ⟨rfl, .inl (by decide +kernel)⟩, by decide +kernel⟩,
    by decide +kernel, by decide +kernel, by decide +kernel⟩

theorem witness_HeaderRows :
    (cursorAt frameA 32).curValid = true ∧ blocksizeOf 6 ≠ .reserved ∧ sampleRateOf State.reset.streamInfo 9 ≠ .reserved
    ∧ bpsOf State.reset.streamInfo 1 ≠ .reserved ∧ channelsOf 0 = some (1, .independent)
    ∧ bpsOf State.reset.streamInfo 1 = .value 8
    ∧ blocksizeOf 0 = .reserved ∧ sampleRateOf State.reset.streamInfo 15 = .reserved ∧ channelsOf 11 = none
    ∧ bpsOf State.reset.streamInfo 3 = .reserved := by decide +kernel

theorem witness_ChecksumRows :
    (cursorAt frameA 56).curValid = true ∧ (cursorAt frameA 56).seq.start ≤ (cursorAt frameA 56).byte
    ∧ (cursorAt frameA 56).byte ≤ (cursorAt frameA 56).params.cap ∧ (cursorAt frameA 56).params.checkCrc8 = true
    ∧ crc8Of (bytesAt (cursorAt frameA 56).input 0 (7 - 0 - 1)) = 0x93
    ∧ crc16Of (bytesAt (cursorAt frameA 88).input 0 (11 - 0)) = 0
    ∧ crc16Of (bytesAt (cursorAt frameA 80).input 0 (10 - 0)) ≠ 0 := by decide +kernel

/-! ### Witnesses: subframes -/

/-- One Rice partition, method 0. -/
def riceSection (k : Nat) (values : List Int) : ResidualSection where
  method := 0
  order := 0
  partitions := [{ coding := .rice k, values := values }]

/-- The two partitions of frame D. -/
def sectionD : ResidualSection where
  method := 0
  order := 1
  partitions := [{ coding := .rice 0, values := [2, -1] }, { coding := .escape 5, values := [-16, 15, 0, -7] }]

/-- The hypotheses of SubframeRows, as a check. -/
def subframeFits (s : State) (lay : SubframeLayout) : Bool :=
  lay.legal s.params.narrowOverflow s.hdr.blocksize.toNat s.seq.base && carries s.input s.position (lay.bitsAfterTag s.seq.base)
    && decide (s.admissible (s.position + (lay.bitsAfterTag s.seq.base).length)) && decide (s.seq.base ≤ 32)

/-- One layout for each tag row, from frames A (with a wasted bit), C, B, C, O, M, N, D. -/
theorem witness_SubframeRows :
    subframeFits (inBlock 4 8 (cursorAt [0x85] 0)) { wasted := 1, body := .constant 5 } = true
    ∧ subframeFits (inBlock 4 8 (cursorAt frameC 64)) { wasted := 0, body := .verbatim [5, 9, -4, 95] } = true
    ∧ subframeFits (inBlock 4 8 (cursorAt frameB 64)) { wasted := 0, body := .fixed 0 [1, -2, 3, -4] (riceSection 2 [1, -2, 3, -4]) } = true
    ∧ subframeFits (inBlock 4 9 (cursorAt frameC 104)) { wasted := 0, body := .fixed 1 [3, 1, 2, 10] (riceSection 1 [-2, 1, 8]) } = true
    ∧ subframeFits (inBlock 5 16 (cursorAt [0x00, 0x01, 0x00, 0x03, 0x00, 0xE3, 0xF0] 0))
      { wasted := 0, body := .fixed 2 [1, 3, 5, 3, 3] (riceSection 3 [0, -4, 2]) } = true
    ∧ subframeFits (inBlock 6 16 (cursorAt [0x00, 0x01, 0x00, 0x04, 0x00, 0x09, 0x00, 0x65, 0x80] 0))
      { wasted := 0, body := .fixed 3 [1, 4, 9, 16, 26, 38] (riceSection 1 [0, 1, -1]) } = true
    ∧ subframeFits (inBlock 6 16 (cursorAt [0x00, 0x01, 0x00, 0x08, 0x00, 0x1B, 0x00, 0x40, 0x00, 0x30] 0))
      { wasted := 0, body := .fixed 4 [1, 8, 27, 64, 125, 216] (riceSection 0 [0, 0]) } = true
    ∧ subframeFits (inBlock 8 16 (cursorAt frameD 64))
      { wasted := 1, body := .lpc 1 4 2 [7, -3] [100, 110, 119, 124, 111, 116, 119, 114] sectionD } = true := by
  decide +kernel

theorem ready_inBlock {bytes : List Nat} {p : Nat} (n base : Nat) (h : p / 8 + 4 ≤ bytes.length + 4) :
    (inBlock n base (cursorAt bytes p)).Ready ∧ (inBlock n base (cursorAt bytes p)).wide = false :=
  ⟨⟨rfl, (ready_cursorAt h).bound, rfl⟩, rfl⟩

theorem witness_DecodeSubframe :
    (inBlock 4 0 (cursorAt frameC 56)).Ready ∧ depthAllowed false 8
    ∧ { wasted := 0, body := .verbatim [5, 9, -4, 95] : SubframeLayout }.legal .wrap 4 8 = true
    ∧ carries (cursorAt frameC 56).input 56 ({ wasted := 0, body := .verbatim [5, 9, -4, 95] : SubframeLayout }.bits 8) = true
    ∧ (cursorAt frameC 56).admissible (56 + ({ wasted := 0, body := .verbatim [5, 9, -4, 95] : SubframeLayout }.bits 8).length) :=
  ⟨(ready_inBlock 4 0 (by decide)).1, ⟨by decide, fun _ => by decide⟩, by decide +kernel, by decide +kernel, by decide +kernel⟩

/-- A wasted-bits code of two zeros, at the end of IN. -/
theorem witness_TagsRejected :
    (cursorAt [0x20] 0).Ready ∧ carries (cursorAt [0x20] 0).input 0 (unaryBits 2) = true
    ∧ (cursorAt [0x20] 0).admissible (0 + (2 + 1)) :=
  ⟨ready_cursorAt (by decide), by decide +kernel, by decide +kernel⟩

/-- V43-4 (frame P), V43-13 (frame T), V43-15 (frame Q), V43-16 (frame R). -/
theorem witness_SubframesRejected :
    (inBlock 4 8 (cursorAt [0x01] 0)).Ready ∧ carries (cursorAt [0x01] 0).input 0 (wastedCode 8) = true
    ∧ (cursorAt [0x01] 0).admissible (0 + (wastedCode 8).length) ∧ (inBlock 4 8 (cursorAt [0x01] 0)).seq.base ≤ 8
    ∧ (inBlock 4 8 (cursorAt [0x01] 0)).hdr.blocksize.toNat < (Body.lpc 4 1 0 [] [] { method := 0, order := 0, partitions := [] }).order
    ∧ carries (cursorAt [0x01, 0xF0] 0).input 0 (wastedCode 0 ++ [1].flatMap (signedBits (8 - 0)) ++ fieldBits 4 15) = true
    ∧ carries (cursorAt [0x01, 0x0F, 0x80] 0).input 0
        (wastedCode 0 ++ [1].flatMap (signedBits (8 - 0)) ++ (fieldBits 4 0 ++ signedBits 5 (-1))) = true
    ∧ (cursorAt [0x01, 0x0F, 0x80] 0).admissible (0 + (8 + 4 + 5)) ∧ fitsBits 5 (-1) = true
    ∧ [(1 : Int)].length = (0 : BitVec 5).toNat + 1 ∧ fitsBits (8 - 0) 1 = true ∧ depthAllowed false 8 :=
  ⟨(ready_inBlock 4 8 (by decide)).1, by decide +kernel, by decide +kernel, by decide +kernel, by decide +kernel,
    by decide +kernel, by decide +kernel, by decide +kernel, by decide, by decide, by decide, ⟨by decide, fun _ => by decide⟩⟩

/-! ### Witnesses: residuals -/

/-- V44-1. -/
theorem witness_DecodeResidual :
    (inBlock 4 8 (cursorAt [0x00, 0xB7, 0x67] 0)).Ready
    ∧ (riceSection 2 [1, -2, 3, -4]).legal 4 0 = true
    ∧ carries (cursorAt [0x00, 0xB7, 0x67] 0).input 0
        (riceSection 2 [1, -2, 3, -4]).bits = true
    ∧ (cursorAt [0x00, 0xB7, 0x67] 0).admissible (0 +
        (riceSection 2 [1, -2, 3, -4]).bits.length) :=
  ⟨(ready_inBlock 4 8 (by decide)).1, by decide +kernel, by decide +kernel, by decide +kernel⟩

/-- V44-1 and V44-5, after the parameter. -/
theorem witness_ResidualRows :
    (inBlock 4 8 (cursorAt [0x00, 0xB7, 0x67] 10)).Ready
    ∧ [1, -2, 3, (-4 : Int)].length = (inBlock 4 8 (cursorAt [0x00, 0xB7, 0x67] 10)).partitionSize
    ∧ (∀ v ∈ [1, -2, 3, (-4 : Int)], fits32 v = true) ∧ (2 : BitVec 4) ≠ 15 ∧ (2 : BitVec 5) ≠ 31
    ∧ carries (cursorAt [0x00, 0xB7, 0x67] 10).input 10 ([1, -2, 3, -4].flatMap (riceBits 2)) = true
    ∧ (cursorAt [0x00, 0xB7, 0x67] 10).admissible (10 + ([1, -2, 3, -4].flatMap (riceBits 2)).length)
    ∧ (∀ v ∈ [-16, 15, 0, (-7 : Int)], fitsBits 5 v = true)
    ∧ carries (cursorAt [0x2C, 0x1E, 0x0C, 0x80] 0).input 0 (fieldBits 5 5 ++ [-16, 15, 0, -7].flatMap (signedBits 5)) = true
    ∧ (cursorAt [0x2C, 0x1E, 0x0C, 0x80] 0).admissible (0 + (5 + 5 * 4)) :=
  ⟨(ready_inBlock 4 8 (by decide)).1, by decide +kernel, by decide, by decide, by decide, by decide +kernel, by decide +kernel,
    by decide, by decide +kernel, by decide +kernel⟩

/-- V44-7, V44-8, V44-9. -/
theorem witness_ResidualsRejected :
    (inBlock 4 8 (cursorAt [0x80] 0)).Ready ∧ carries (cursorAt [0x80] 0).input 0 (fieldBits 2 2) = true
    ∧ (cursorAt [0x80] 0).admissible (0 + 2)
    ∧ carries (cursorAt [0x0C] 0).input 0 (fieldBits 2 0 ++ fieldBits 4 3) = true
    ∧ (inBlock 4 8 (cursorAt [0x0C] 0)).hdr.blocksize.toNat % 2 ^ 3 ≠ 0
    ∧ carries (cursorAt [0x08] 0).input 0 (fieldBits 2 0 ++ fieldBits 4 2) = true
    ∧ (inBlock 4 8 (cursorAt [0x08] 0)).hdr.blocksize.toNat / 2 ^ 2 < (2 : Fin 33).val
    ∧ (30 : BitVec 5) ≠ 31 ∧ 0 < (inBlock 1 8 (cursorAt [0x08, 0, 0, 0, 0] 0)).partitionSize
    ∧ 2 ^ 32 ≤ 4 * 2 ^ 30 + 0
    ∧ carries (cursorAt [0x08, 0, 0, 0, 0] 0).input 0 ([].flatMap (riceBits 30) ++ unaryBits 4 ++ fieldBits 30 0) = true
    ∧ (cursorAt [0x08, 0, 0, 0, 0] 0).admissible (0 + (5 + 30)) :=
  ⟨(ready_inBlock 4 8 (by decide)).1, by decide +kernel, by decide +kernel, by decide +kernel, by decide +kernel,
    by decide +kernel, by decide +kernel, by decide, by decide +kernel, by decide, by decide +kernel, by decide +kernel⟩

/-- Two partitions of two residuals, the second raising (method 1, k = 30, a value of 2^32), after one good partition; and
a first partition that raises so. -/
theorem witness_ResidualsRejected_partition :
    let s := inBlock 4 8 (cursorAt [0x44, 0x1F, 0x82, 0x00, 0x00, 0x00, 0x00] 0)
    let parts : List Partition := [{ coding := .rice 0, values := [0, 0] }]
    let bits := fieldBits 2 1 ++ fieldBits 4 1 ++ parts.flatMap (Partition.bits (4 + 1)) ++ fieldBits (4 + 1) 30
    let u := ((s.mapSeq fun q => { q with chan := 0, order := 0, part := 1 }).mapRp fun r =>
      { r with method := 1, paramBits := 5, partitionOrder := 1 }).moveTo (0 + bits.length)
    s.Ready ∧ partitionsFit 4 1 0 = true ∧ parts.length < 2 ^ 1 ∧ (∀ q ∈ parts, q.codable 5 = true)
    ∧ (∀ j (h : j < parts.length), parts[j].values.length = partitionSize 4 1 0 j)
    ∧ carries s.input 0 bits = true ∧ s.admissible (0 + bits.length)
    ∧ ∃ v, exec (decodeParam5 (BitVec.ofNat 5 30)) u = .next v
      ∧ (!v.curValid && v.err == .arithmeticOverflow) = true :=
  ⟨⟨rfl, by decide +kernel, rfl⟩, by decide +kernel, by decide, by decide +kernel, by decide +kernel, by decide +kernel,
    by decide +kernel, next_of_answers (by decide +kernel)⟩

/-- A Fixed subframe with one wasted bit and an LPC subframe, each with a reserved coding method after its warm-up sample. -/
theorem witness_ResidualsRejected_section :
    let s := inBlock 4 8 (cursorAt [0x81, 0x80] 0)
    let u := inBlock 4 8 (cursorAt [0x01, 0x00, 0x20] 0)
    let fixedBits := wastedCode 1 ++ [1].flatMap (signedBits (8 - 1)) ++ []
    let lpcMid := fieldBits 4 (1 - 1) ++ fieldBits 5 0 ++ [0].flatMap (signedBits 1)
    let lpcBits := wastedCode 0 ++ [1].flatMap (signedBits (8 - 0)) ++ lpcMid
    s.Ready ∧ residualRow 1 true .fixed [] (.subframeFixed1 true) ∧ 1 < s.seq.base ∧ depthAllowed s.wide s.seq.base
    ∧ (1 : Fin 33).val ≤ s.hdr.blocksize.toNat ∧ fitsBits (8 - 1) 1 = true
    ∧ carries s.input 0 fixedBits = true ∧ s.admissible (0 + fixedBits.length)
    ∧ (∃ v, exec (.decodeResidual 0 1) (((s.mapSub 0 fun _ => { type := .fixed, order := 1, wasted := 1, depth := 8 - 1 }).writeCh 0
        0 [1]).moveTo (0 + fixedBits.length)) = .next v ∧ (!v.curValid && v.err == .structuralError) = true)
    ∧ u.Ready ∧ residualRow 1 false .lpc lpcMid (.subframeLpc 0 false)
    ∧ carries u.input 0 lpcBits = true ∧ u.admissible (0 + lpcBits.length)
    ∧ (∃ v, exec (.decodeResidual 0 1) (((u.mapSub 0 fun _ => { type := .lpc, order := 1, wasted := 0, depth := 8 - 0 }).writeCh 0
        0 [1]).moveTo (0 + lpcBits.length)) = .next v ∧ (!v.curValid && v.err == .structuralError) = true) :=
  ⟨⟨rfl, by decide +kernel, rfl⟩, .inl ⟨1, rfl, rfl, rfl, rfl⟩, by decide, ⟨by decide, fun _ => by decide⟩, by decide,
    by decide, by decide +kernel, by decide +kernel, next_of_answers (by decide +kernel), ⟨rfl, by decide +kernel, rfl⟩,
    .inr ⟨0, 1, 0, [0], rfl, rfl, by decide, by decide, by decide, rfl, by decide, rfl, rfl⟩, by decide +kernel,
    by decide +kernel, next_of_answers (by decide +kernel)⟩

/-! ### Witnesses: parts that the stream cuts short -/

/-- Rice codes cut in a quotient, in a remainder, and escape residuals cut in the third. -/
theorem witness_BufferOverrunRaised_partitions :
    (inBlock 4 8 (cursorAt [0xDC] 0)).Ready
    ∧ (inBlock 4 8 (cursorAt [0xDC] 0)).partCut (.partitionRice4 2)
    ∧ (inBlock 1 8 (cursorAt [0x80] 0)).Ready ∧ (inBlock 1 8 (cursorAt [0x80] 0)).partCut (.partitionRice5 30)
    ∧ (inBlock 4 8 (cursorAt [0x2C, 0x1E] 0)).Ready
    ∧ (inBlock 4 8 (cursorAt [0x2C, 0x1E] 0)).partCut .partitionEscape4 :=
  ⟨(ready_inBlock 4 8 (by decide)).1,
    .inl (.inl ⟨2, 9, 0, [1, -2], .inl ⟨2, by decide, rfl, rfl⟩, by decide, by decide, by decide +kernel, by decide +kernel⟩),
    (ready_inBlock 1 8 (by decide)).1,
    .inl (.inl ⟨30, 0, 0, [], .inr ⟨30, by decide, rfl, rfl⟩, by decide, by decide, by decide +kernel, by decide +kernel⟩),
    (ready_inBlock 4 8 (by decide)).1,
    .inl (.inr ⟨5, [-16, 15, 0, 0], .inl rfl, by decide, by decide, by decide, by decide +kernel, by decide +kernel⟩)⟩

/-- A subframe row's body, cut short. -/
def bodyCut (n base : Nat) (bytes : List Nat) (p : Nat) (lay : SubframeLayout) : Bool :=
  let s := inBlock n base (cursorAt bytes p)
  lay.readable n base && begins s.input s.params.cap s.position (lay.bitsAfterTag base)
    && !decide (s.admissible (s.position + (lay.bitsAfterTag base).length))

/-- A body of each kind cut short, a wasted-bits code of zeros to the end, and an LPC subframe cut in its shift. -/
theorem witness_BufferOverrunRaised_rows :
    bodyCut 4 8 [] 0 { wasted := 0, body := .constant 0 } = true
    ∧ bodyCut 4 8 [0x05, 0x09] 0 { wasted := 0, body := .verbatim [5, 9, 0, 0] } = true
    ∧ bodyCut 4 8 (frameB.take 10) 64 { wasted := 0, body := .fixed 0 [] (riceSection 2 [1, -2, 14, 0]) } = true
    ∧ bodyCut 8 16 (frameD.take 9) 64 { wasted := 1, body := .lpc 1 4 2 [7, -3] [0, 0] sectionD } = true
    ∧ (cursorAt [0x00] 0).Ready ∧ (cursorAt [0x00] 0).cutShort 0 (unaryBits 15)
    ∧ (inBlock 4 8 (cursorAt [0x01] 0)).Ready ∧ (inBlock 4 8 (cursorAt [0x01] 0)).partCut (.subframeLpc 0 false) :=
  ⟨by decide +kernel, by decide +kernel, by decide +kernel, by decide +kernel, ready_cursorAt (by decide),
    ⟨by decide +kernel, by decide +kernel⟩, (ready_inBlock 4 8 (by decide)).1,
    .inr (.inl (.inr (.inr ⟨0, 0, 1, [1], rfl, ⟨by decide, fun _ => by decide⟩, by decide, by decide, rfl, by decide, by decide,
      by decide, by decide +kernel, by decide +kernel, by decide +kernel⟩)))⟩

/-- The two procedures: no tag byte, no method, no partition order, and each cut later. -/
theorem witness_BufferOverrunRaised_procedures :
    (∀ p ∈ [0, 4, 6], (cursorAt [] p).Ready)
    ∧ (cursorAt [] 0).partCut (.decodeSubframe 7 8) ∧ (cursorAt [] 6).partCut (.decodeResidual 7 32)
    ∧ (cursorAt [] 4).partCut (.decodeResidual 7 32)
    ∧ (inBlock 4 0 (cursorAt (frameC.take 9) 56)).Ready
    ∧ (inBlock 4 0 (cursorAt (frameC.take 9) 56)).partCut (.decodeSubframe 0 8)
    ∧ (inBlock 4 8 (cursorAt [0x00, 0xB7] 0)).Ready ∧ (inBlock 4 8 (cursorAt [0x00, 0xB7] 0)).partCut (.decodeResidual 0 0) :=
  ⟨fun p h => ready_cursorAt (by revert p; decide), .inr (.inr (.inl ⟨7, 8, rfl, by decide +kernel⟩)),
    .inr (.inr (.inr (.inl ⟨7, 32, rfl, .inl (by decide +kernel)⟩))),
    .inr (.inr (.inr (.inl ⟨7, 32, rfl, .inr ⟨0, by decide, by decide +kernel, by decide +kernel⟩⟩))),
    (ready_inBlock 4 0 (by decide)).1,
    .inr (.inr (.inr (.inr (.inl ⟨0, 8, { wasted := 0, body := .verbatim [5, 0, 0, 0] }, rfl, ⟨by decide, fun _ => by decide⟩,
      by decide +kernel, by decide +kernel, by decide +kernel⟩)))),
    (ready_inBlock 4 8 (by decide)).1,
    .inr (.inr (.inr (.inr (.inr ⟨0, 0, riceSection 2 [1, -2, 14, 0], rfl, by decide +kernel, by decide +kernel,
      by decide +kernel⟩))))⟩

theorem witness_ZigZag : 4294967295 < 2 ^ 32 := by decide

/-! ### Witnesses: predictors, the stereo transform, the packer -/

/-- V45-2 to V45-5: orders 1 to 4. -/
theorem witness_FixedRestores :
    (∀ i, i < 4 → (verified 16 false [3, -2, 1, 8]).ch.read false 0 i
      = some (if i < 1 then [3, 1, 2, 10].getD i 0 else [3, -2, 1, 8].getD i 0))
    ∧ (∀ i, 1 ≤ i → i < 4 → [3, -2, 1, (8 : Int)].getD i 0 = [3, 1, 2, 10].getD i 0 - [3, 1, 2, 10].getD (i - 1) 0)
    ∧ (∀ i, i < 6 → (verified 16 false [1, 8, 27, 64, 0, 0]).ch.read false 0 i
      = some (if i < 4 then [1, 8, 27, 64, 125, 216].getD i 0 else [1, 8, 27, 64, 0, 0].getD i 0))
    ∧ (∀ i, 4 ≤ i → i < 6 → [1, 8, 27, 64, 0, (0 : Int)].getD i 0 = [1, 8, 27, 64, 125, 216].getD i 0
      - (4 * [1, 8, 27, 64, 125, 216].getD (i - 1) 0 - 6 * [1, 8, 27, 64, 125, 216].getD (i - 2) 0
        + 4 * [1, 8, 27, 64, 125, 216].getD (i - 3) 0 - [1, 8, 27, 64, 125, 216].getD (i - 4) 0))
    ∧ (∀ v ∈ [3, 1, 2, 10, 1, 8, 27, 64, 125, (216 : Int)], fits32 v = true ∧ fits64 v = true)
    ∧ (verified 16 false [3, -2]).hdr.blocksize.toNat ≤ (2 : Fin 5).val := by
  decide +kernel

/-- V45-10: the 32-bit path wraps. -/
theorem witness_FixedRestores_wrap :
    fixedPath 31 1 = .acc32 ∧ wrap32 (-2147483648 - 1073741823) = 1073741825 ∧ fits32 (-2147483648) = true := by decide +kernel

/-- V45-7, the first restored sample: S = 470, P = 117. -/
def lpcHeld : State :=
  { verified 16 false [100, 110, 2] with lpcp := { precision := 4, shift := 2, coeff := ((Vector.replicate 32 0).set 0 7).set 1 (-3) } }

theorem witness_LpcRestores :
    1 ≤ (2 : Fin 33).val ∧ (2 : Fin 33).val ≤ lpcHeld.hdr.blocksize.toNat
    ∧ (∀ i, i < 3 → lpcHeld.ch.read false 0 i = some (if i < 2 then [100, 110, 119].getD i 0 else [100, 110, 2].getD i 0))
    ∧ lpcNarrow .wrap (lpcPath lpcHeld.sub[(0 : Fin 8)].depth)
        ((List.range 2).map fun j => lpcHeld.lpcp.coeff.toList.getD j 0 * [100, 110, 119].getD (2 - 1 - j) 0).sum = some 470
    ∧ acc .wrap false (lpcPath lpcHeld.sub[(0 : Fin 8)].depth) (2 + 470 / 2 ^ lpcHeld.lpcp.shift) = some 119
    ∧ (verified 16 false [100, 110]).hdr.blocksize.toNat ≤ (2 : Fin 33).val := by decide +kernel

/-- `mode` in place of the launch value of NARROW_OVERFLOW. -/
def inMode (mode : NarrowOverflow) (s : State) : State := { s with params := { s.params with narrowOverflow := mode } }

/-- A warm-up sample and a residual, with the one coefficient `a`. -/
def lpcOne (a warm res : Int) : State :=
  { inMode .fault (verified 16 false [warm, res]) with
    lpcp := { precision := 15, shift := 0, coeff := (Vector.replicate 32 0).set 0 a } }

/-- The sum of R296 at index 1 of such a state. -/
def lpcOneSum (a warm res : Int) : Option Int :=
  lpcNarrow .fault (lpcPath (lpcOne a warm res).sub[(0 : Fin 8)].depth)
    ((List.range (1 : Fin 33).val).map fun j => (lpcOne a warm res).lpcp.coeff.toList.getD j 0 * [warm].getD (1 - 1 - j) 0).sum

/-- V45-9, and orders 4 and LPC: a sample that leaves 32 bits in Fault mode, after one that does not. -/
theorem witness_RestoreOverflows :
    (∀ i, i < 2 → (verified 32 false [2147483647, 1]).ch.read false 0 i = some (if i < 1 then 2147483647 else 1))
    ∧ acc .wrap false (fixedPath 32 1) (1 + 2147483647) = none
    ∧ (∀ i, i < 6 → (verified 16 false [0, 0, 0, 0, 1, 2147483647]).ch.read false 0 i
        = some (if i < 4 then 0 else [0, 0, 0, 0, 1, 2147483647].getD i 0))
    ∧ acc .fault false (fixedPath 0 4) (1 + fixedPrediction 4 (fun i => if i = 4 then 1 else 0) 4) = some 1
    ∧ acc .fault false (fixedPath 0 4) (2147483647 + fixedPrediction 4 (fun i => if i = 4 then 1 else 0) 5) = none
    ∧ (∀ i, i < 2 → (lpcOne 1 1 2147483647).ch.read false 0 i = some (if i < 1 then 1 else 2147483647))
    ∧ lpcOneSum 1 1 2147483647 = some 1
    ∧ acc .fault false (lpcPath (lpcOne 1 1 2147483647).sub[(0 : Fin 8)].depth) (2147483647 + 1 / 2 ^ 0) = none
    ∧ lpcOneSum 16383 2147483647 0 = none := by decide +kernel

/-- Samples of 31 bits with one wasted bit in a 32-bit frame: 2^30 does not fit when shifted back. -/
theorem witness_RestoreOverflows_wasted :
    let s := inMode .fault (inBlock 2 32 (cursorAt [0xBF, 0xFF, 0xFF, 0xFF, 0x00, 0x08] 0))
    let u := inMode .fault (inBlock 2 32 (cursorAt [0xBF, 0xFF, 0xFF, 0xFF, 0x10, 0x20, 0x01] 0))
    s.Ready ∧ 1 < s.seq.base ∧ depthAllowed s.wide s.seq.base ∧ (riceSection 0 [1]).legal 2 1 = true
    ∧ (∀ v ∈ [(1073741823 : Int)], fitsBits (32 - 1) v = true)
    ∧ carries s.input 0 (wastedCode 1 ++ [1073741823].flatMap (signedBits (32 - 1)) ++ (riceSection 0 [1]).bits) = true
    ∧ s.admissible (0 + 45)
    ∧ restoreWalk (fixedSample .fault false (fixedPath (32 - 1) 1) 1) [1073741823] [1] = some [1073741824]
    ∧ store .fault false (1073741824 * 2 ^ 1) = none
    ∧ restoreWalk (fixedSample .wrap false (fixedPath 32 1) 1) [2147483647] [1] = none
    ∧ u.Ready ∧ (∀ v ∈ [(1 : Int)], fitsBits 2 v = true)
    ∧ carries u.input 0 (wastedCode 1 ++ [1073741823].flatMap (signedBits (32 - 1)) ++ fieldBits 4 (2 - 1) ++ fieldBits 5 0
        ++ [1].flatMap (signedBits 2) ++ (riceSection 0 [1]).bits) = true
    ∧ u.admissible (0 + 56)
    ∧ restoreWalk (lpcSample .fault false (lpcPath (32 - 1)) [1] 0) [1073741823] [1] = some [1073741824] :=
  ⟨⟨rfl, by decide +kernel, rfl⟩, by decide, ⟨by decide, fun _ => by decide⟩, by decide +kernel, by decide +kernel,
    by decide +kernel, by decide +kernel, by decide +kernel, by decide +kernel, by decide +kernel, ⟨rfl, by decide +kernel, rfl⟩,
    by decide +kernel, by decide +kernel, by decide +kernel, by decide +kernel⟩

/-- The second entry of a block of two holds no value: of one channel, and of channel 1 beside a whole channel 0. -/
theorem witness_RestoreOverflows_missing :
    let s := { verified 16 false [3] with hdr := { (verified 16 false [3]).hdr with blocksize := 2 } }
    let u := { holdingTwo .wrap false .leftSide [5, 6] [3] with fstate := .verified }
    (1 < s.hdr.blocksize.toNat ∧ s.ch.read s.wide 0 1 = none ∧ (∀ j, j < 1 → (s.ch.read s.wide 0 j).isSome = true))
    ∧ 1 ≤ (1 : Fin 5).val ∧ (1 : Fin 5).val < s.hdr.blocksize.toNat ∧ (1 : Fin 33).val < s.hdr.blocksize.toNat
    ∧ s.fstate = .verified ∧ 1 ≤ s.hdr.bps.toNat ∧ s.hdr.bps.toNat ≤ 32 ∧ (0 : Fin 8).val < s.hdr.channels.toNat
    ∧ (1 < u.hdr.blocksize.toNat ∧ u.ch.read u.wide 1 1 = none ∧ (∀ j, j < 1 → (u.ch.read u.wide 1 j).isSome = true))
    ∧ u.hdr.assignment ≠ .independent ∧ (∀ j, j < u.hdr.blocksize.toNat → (u.ch.read u.wide 0 j).isSome = true)
    ∧ u.fstate = .verified ∧ 1 ≤ u.hdr.bps.toNat ∧ u.hdr.bps.toNat ≤ 32 ∧ (1 : Fin 8).val < u.hdr.channels.toNat := by
  decide +kernel

theorem witness_WidthPolicy :
    -2 ^ 31 ≤ (2147483647 : Int) ∧ (2147483647 : Int) ≤ 2 ^ 31 - 1 ∧ ¬(-2 ^ 31 ≤ (2147483648 : Int) ∧ (2147483648 : Int) ≤ 2 ^ 31 - 1)
    ∧ ¬(-2 ^ 63 ≤ (9223372036854775808 : Int) ∧ (9223372036854775808 : Int) ≤ 2 ^ 63 - 1) := by decide

/-- V46-1, V46-5, V46-6, V46-9. -/
theorem witness_Decorrelate :
    (samples (holdingTwo .wrap false .midSide [5] [3]) 0 1 = [some 5] ∧ samples (holdingTwo .wrap false .midSide [5] [3]) 1 1 = [some 3]
      ∧ store .wrap false (2 * 5 + 3 % 2) = some 11 ∧ store .wrap false (11 + 3) = some 14 ∧ store .wrap false (11 - 3) = some 8)
    ∧ (samples (holdingTwo .wrap false .leftSide [100] [10]) 1 1 = [some 10] ∧ store .wrap false (100 - 10) = some 90)
    ∧ (samples (holdingTwo .wrap false .rightSide [1948] [-2048]) 0 1 = [some 1948] ∧ store .wrap false (1948 + -2048) = some (-100))
    ∧ (samples (holdingTwo .fault false .leftSide [1073741823] [-2147483648]) 1 1 = [some (-2147483648)]
      ∧ store .fault false (1073741823 - -2147483648) = none)
    ∧ store .fault false (2 * 1073741824 + 0 % 2) = none
    ∧ (holdingTwo .wrap false .independent [] []).hdr.assignment = .independent := by decide +kernel

/-- V46-10: a 17-bit pair. -/
theorem witness_DecorrelateInvolution :
    samples (holdingTwo .wrap false .midSide [(65535 + -65536) / 2] [65535 - -65536]) 0 1 = [some (-1)]
    ∧ samples (holdingTwo .wrap false .midSide [(65535 + -65536) / 2] [65535 - -65536]) 1 1 = [some 131071]
    ∧ fits32 (65535 + -65536) = true ∧ fits32 (2 * 65535) = true ∧ fits32 (2 * -65536) = true
    ∧ samples (holdingTwo .wrap false .leftSide [100] [100 - 90]) 1 1 = [some 10]
    ∧ samples (holdingTwo .wrap false .rightSide [-100 - -2048] [-2048]) 0 1 = [some 1948] := by decide +kernel

/-- V47-8, V47-11, V47-12. -/
theorem witness_Pack :
    (verified 20 false [1, -1]).fstate = .verified ∧ samples (verified 20 false [1, -1]) 0 2 = [some 1, some (-1)]
    ∧ (verified 20 false [1, -1]).hdr.channels.toNat = 1
    ∧ (verified 32 true [4294967296]).wide = true ∧ samples (verified 32 true [4294967296]) 0 1 = [some 4294967296]
    ∧ fits32 4294967296 = false ∧ ((verified 0 false []).hdr.bps.toNat < 1 ∨ 32 < (verified 0 false []).hdr.bps.toNat)
    ∧ ((verified 33 false []).hdr.bps.toNat < 1 ∨ 32 < (verified 33 false []).hdr.bps.toNat) := by decide +kernel

/-! ### Witnesses: frames -/

/-- Frame C (V48-C): MidSide, a Verbatim and a Fixed subframe, five padding bits. -/
def layoutC : FrameLayout :=
  { header := { headerA with chn := 10, number := 2 }
    crc8 := 0xF1
    subframes := [{ wasted := 0, body := .verbatim [5, 9, -4, 95] }, { wasted := 0, body := .fixed 1 [3, 1, 2, 10] (riceSection 1 [-2, 1, 8]) }]
    padding := [false, false, false, false, false]
    crc16 := 0x34EA }

/-- Frame A (V48-A). -/
def layoutA : FrameLayout :=
  { header := headerA, crc8 := 0x93, subframes := [{ wasted := 0, body := .constant 5 }], padding := [], crc16 := 0x08EC }

theorem witness_DecodeFrame :
    (0 : BitVec 32).toNat < 2 ^ 29 ∧ layoutC.legal (loaded frameC).params (loaded frameC).streamInfo = true
    ∧ carries (loaded frameC).input 0 (layoutC.bits (loaded frameC).streamInfo) = true
    ∧ 0 + layoutC.length (loaded frameC).streamInfo + 4 ≤ (loaded frameC).params.cap
    ∧ crc8Of (bytesAt (loaded frameC).input 0 (layoutC.header.length - 1)) = layoutC.crc8
    ∧ crc16Of (bytesAt (loaded frameC).input 0 (layoutC.length (loaded frameC).streamInfo)) = 0
    ∧ layoutC.samples (loaded frameC).params (loaded frameC).streamInfo = some [[7, 10, -3, 100], [4, 9, -5, 90]] := by
  decide +kernel

/-- Frame A cut in its header's checksum byte, just after its header, and in its footer's last byte. -/
theorem witness_BufferOverrunRaised_frame :
    (let s := loaded (frameA.take 6)
     headerA.legal s.streamInfo = true ∧ begins s.input s.params.cap 0 headerA.bits = true ∧ 0 + 4 ≤ s.params.cap
     ∧ s.params.cap < 0 + headerA.length + 4)
    ∧ ∀ n ∈ [7, 10], let s := loaded (frameA.take n)
      let f := { layoutA with crc16 := 0x0800 }
      f.legal s.params s.streamInfo = true ∧ begins s.input s.params.cap 0 (f.bits s.streamInfo) = true
      ∧ 0 + f.header.length + 4 ≤ s.params.cap ∧ s.params.cap < 0 + f.length s.streamInfo + 4
      ∧ crc8Of (bytesAt s.input 0 (f.header.length - 1)) = f.crc8 := by
  decide +kernel

/-- V60-1: frame A with its last byte changed. -/
theorem witness_FrameChecksumFails :
    let bytes := [0xFF, 0xF8, 0x69, 0x02, 0x00, 0x03, 0x93, 0x00, 0x05, 0x08, 0xED]
    let f := { layoutA with crc16 := 0x08ED }
    f.legal (loaded bytes).params (loaded bytes).streamInfo = true
    ∧ carries (loaded bytes).input 0 (f.bits (loaded bytes).streamInfo) = true
    ∧ 0 + f.length (loaded bytes).streamInfo + 4 ≤ (loaded bytes).params.cap
    ∧ crc8Of (bytesAt (loaded bytes).input 0 (f.header.length - 1)) = f.crc8
    ∧ crc16Of (bytesAt (loaded bytes).input 0 (f.length (loaded bytes).streamInfo)) ≠ 0 := by
  decide +kernel

/-- V42-9 inside a frame: a wrong sync code. -/
theorem witness_FrameChecksumFails_header :
    let s := { loaded [0xFF, 0xF0, 0x89, 0x02, 0x00, 0x21] with wide := true }
    (0 : BitVec 32).toNat + 4 ≤ s.params.cap
    ∧ ∃ u t, exec (.cursorNew (BitVec.ofNat 32 (8 * (0 : BitVec 32).toNat))) { s with wide := false } = .next u
      ∧ exec .parseFrameHeader u = .next t ∧ t.curValid = false := by
  refine ⟨by decide, ?_⟩
  obtain ⟨u, hu, hp⟩ := next_of_answers (r := exec (.cursorNew (BitVec.ofNat 32 (8 * (0 : BitVec 32).toNat)))
    { loaded [0xFF, 0xF0, 0x89, 0x02, 0x00, 0x21] with wide := false }) (p := fun u => answers (exec .parseFrameHeader u) fun t => !t.curValid)
    (by decide +kernel)
  obtain ⟨t, ht, hv⟩ := next_of_answers hp
  exact ⟨u, t, hu, ht, by simpa using hv⟩

/-- R423: WIDE of an earlier frame does not outlive the start of the next one, whose header is rejected. -/
theorem test_decode_frame_clears_wide :
    answers (exec (.decodeFrame 0) { loaded [0xFF, 0xF0, 0x89, 0x02, 0x00, 0x21] with wide := true })
      fun t => !t.wide && t.err == .syncLoss && t.fstate == .failed := by decide +kernel

/-- Frame C with bit 7 of its second tag set, and a frame with the header of A whose first tag is so. -/
theorem witness_FrameChecksumFails_subframe :
    (let s := loaded (frameC.set 12 0x92)
     let f := { layoutC with subframes := layoutC.subframes.take 1 }
     let h := f.record s.streamInfo
     f.header.legal s.streamInfo = true ∧ h.bps.toNat ≤ 32 ∧ (1 : Fin 8).val = f.subframes.length
     ∧ (1 : Fin 8).val < h.channels.toNat
     ∧ (∀ cf ∈ f.channels, cf.2.legal s.params.narrowOverflow h.blocksize.toNat (baseDepth h cf.1) = true)
     ∧ carries s.input 0 (f.dataBits s.streamInfo) = true ∧ s.admissible (0 + (f.dataBits s.streamInfo).length)
     ∧ crc8Of (bytesAt s.input 0 (f.header.length - 1)) = f.crc8
     ∧ ∃ v, exec (.decodeSubframe 1 (baseDepth h 1)) (f.midway 0 s) = .next v ∧ (!v.curValid && v.err == .syncLoss) = true)
    ∧ (let s := loaded (frameA.set 7 0x80)
       let f := { layoutA with subframes := [] }
       let h := f.record s.streamInfo
       (0 : Fin 8).val = f.subframes.length ∧ (0 : Fin 8).val < h.channels.toNat
       ∧ carries s.input 0 (f.dataBits s.streamInfo) = true
       ∧ ∃ v, exec (.decodeSubframe 0 (baseDepth h 0)) (f.midway 0 s) = .next v
         ∧ (!v.curValid && v.err == .syncLoss) = true) :=
  ⟨⟨by decide +kernel, by decide +kernel, by decide, by decide +kernel, by decide +kernel, by decide +kernel, by decide +kernel,
    by decide +kernel, next_of_answers (by decide +kernel)⟩,
    by decide, by decide +kernel, by decide +kernel, next_of_answers (by decide +kernel)⟩

/-- A LeftSide frame of one sample of 31 bits (the depth of STREAMINFO): 1073741823 - (-2147483648) leaves 32 bits. -/
theorem witness_FrameChecksumFails_store :
    let s := { inMode .fault (loaded [0xFF, 0xF8, 0x69, 0x80, 0x00, 0x00, 0x47, 0x00, 0x7F, 0xFF, 0xFF, 0xFE, 0x01, 0x00, 0x00,
      0x00, 0x00, 0x8E, 0x4A]) with streamInfo := { State.reset.streamInfo with bps := 31 } }
    let f : FrameLayout :=
      { header := { headerA with chn := 8, bpc := 0, blocksizeField := 0 }
        crc8 := 0x47
        subframes := [{ wasted := 0, body := .constant 1073741823 }, { wasted := 0, body := .constant (-2147483648) }]
        padding := [false]
        crc16 := 0x8E4A }
    f.legal s.params s.streamInfo = true ∧ carries s.input 0 (f.bits s.streamInfo) = true
    ∧ 0 + f.length s.streamInfo + 4 ≤ s.params.cap
    ∧ crc8Of (bytesAt s.input 0 (f.header.length - 1)) = f.crc8
    ∧ crc16Of (bytesAt s.input 0 (f.length s.streamInfo)) = 0 ∧ f.samples s.params s.streamInfo = none := by
  decide +kernel

theorem witness_DecodeNextFrame :
    (∃ t, exec (.decodeFrame 0) (loaded frameA) = .next t ∧ (t.fstate == .verified) = true)
    ∧ (∃ t, exec (.decodeFrame 0) (loaded ex1) = .next t ∧ (t.fstate != .verified) = true)
    ∧ layoutA.legal (loaded frameA).params (loaded frameA).streamInfo = true
    ∧ carries (loaded frameA).input 0 (layoutA.bits (loaded frameA).streamInfo) = true
    ∧ 0 + layoutA.length (loaded frameA).streamInfo + 4 ≤ (loaded frameA).params.cap
    ∧ crc8Of (bytesAt (loaded frameA).input 0 (layoutA.header.length - 1)) = layoutA.crc8
    ∧ crc16Of (bytesAt (loaded frameA).input 0 (layoutA.length (loaded frameA).streamInfo)) = 0
    ∧ layoutA.samples (loaded frameA).params (loaded frameA).streamInfo = some [[5, 5, 5, 5]]
    ∧ ∀ x ∈ [5, 5, 5, (5 : Int)], fits32 x = true :=
  ⟨next_of_answers (by decide +kernel), next_of_answers (by decide +kernel), by decide +kernel, by decide +kernel,
    by decide +kernel, by decide +kernel, by decide +kernel, by decide +kernel, by decide +kernel⟩

/-- Two states that share the launch state and differ in what an earlier frame left. -/
theorem witness_FrameIndependence :
    let old : State := { verified 24 true [1, 2, 3] with input := (loaded frameA).input, params := (loaded frameA).params }
    old.input = (loaded frameA).input ∧ old.params = (loaded frameA).params ∧ old.streamInfo = (loaded frameA).streamInfo
    ∧ old.freeCount = (loaded frameA).freeCount ∧ (0 : BitVec 32).toNat + 4 ≤ old.params.cap
    ∧ (∃ t, exec (.decodeFrame 0) old = .next t ∧ t.hdr.valid = true)
    ∧ (∃ t, exec (.decodeFrame 0) (loaded frameA) = .next t ∧ t.hdr.valid = true) :=
  ⟨rfl, rfl, rfl, rfl, by decide, next_of_answers (by decide +kernel), next_of_answers (by decide +kernel)⟩

end Sys2Proof.Machine
end

/-! ## Proofs: the fixed-width reads (40_bitcursor.md rules R134 to R139)

Each of these commands is an internal read behind the two checks of R150. What the read answers at an admissible end is
the subject of the laws of the cursor (`readBits_ok`, `readSigned_ok`, `readSigned64_ok`); here the checks are passed. -/

namespace Sys2Proof.Machine

/-! ### The meanings as guarded reads -/

theorem exec_readBits (n : BitVec 32) (s : State) :
    exec (.readBits n) s =
      needCursor s (needRange (readRange32 n) s (runCommand .primitive (discard (readBits n.toNat)) s)) := rfl

theorem exec_readSigned (n : BitVec 32) (s : State) :
    exec (.readSigned n) s =
      needCursor s (needRange (readRange32 n) s (runCommand .primitive (discard (readSigned n.toNat)) s)) := rfl

theorem exec_readSigned64 (n : BitVec 32) (s : State) :
    exec (.readSigned64 n) s =
      needCursor s (needRange (readRange64 n) s (runCommand .primitive (discard (readSigned64 n.toNat)) s)) := rfl

/-! ### The operand ranges (R389) -/

theorem readRange32_iff {n : BitVec 32} : readRange32 n = true ↔ 1 ≤ n.toNat ∧ n.toNat ≤ 32 := by
  simp [readRange32]

theorem readRange64_iff {n : BitVec 32} : readRange64 n = true ↔ 1 ≤ n.toNat ∧ n.toNat ≤ 64 := by
  simp [readRange64]

/-- With a cursor and an operand in range, a read that answers ends the command in the state it answers, at rest. -/
theorem guardedRead_next {α : Type} {c : CommandClass} {op : Op α} {inRange : Bool} {s t : State} {a : α}
    (hs : s.Ready) (hr : inRange = true) (hop : op s = .ok a t) :
    needCursor s (needRange inRange s (runCommand c (discard op) s)) = .next t.atRest := by
  rw [needCursor_valid _ hs.valid, needRange_in _ hr, runCommand_ok (discard_ok hop)]

end Sys2Proof.Machine

namespace Sys2Proof.Proofs
open Sys2Proof.Machine

/-- Settles O23: the read passes both checks and answers the window at its position (`readBits_ok`). -/
theorem readBits : Obligations.ReadBits := by
  unfold Obligations.ReadBits
  intro n s hs h1 h32 hadm
  rw [exec_readBits]
  exact guardedRead_next hs (readRange32_iff.2 ⟨h1, h32⟩) (readBits_ok hs h32 hadm)

/-- Settles O25: a signed read is the unsigned one of its width with RES rewritten by the sign extension
(`readSigned_ok`, `readSigned64_ok`). -/
theorem readSigned : Obligations.ReadSigned := by
  unfold Obligations.ReadSigned
  intro n s hs h1 hadm
  refine ⟨fun h32 => ?_, fun h64 => ?_⟩
  · rw [exec_readSigned]
    exact guardedRead_next hs (readRange32_iff.2 ⟨h1, h32⟩) (readSigned_ok hs h32 hadm)
  · rw [exec_readSigned64]
    exact guardedRead_next hs (readRange64_iff.2 ⟨h1, h64⟩) (readSigned64_ok hs hadm)

end Sys2Proof.Proofs

/-! ## Proofs: what every step keeps (10_state.md rules R20 to R24, 20_memory.md rule R73)

A rule about every instruction is one relation between the states before and after, and `exec_related` asks of it only that
each kind of write and each end of a command is within it. -/

namespace Sys2Proof.Machine

/-! ### Relations of the fields no inner write touches -/

/-- What is written by moves of the cursor, by the start and the end of an attempt, by refusals, and by the choice of a
frame's buffers alone. -/
def State.attempt (s : State) :=
  (s.input, s.params, s.streamInfo, s.byte, s.bit, s.cache, s.curValid, s.wide, s.err, s.pending)

section
variable {R : State → State → Prop} {E : Stop → State → State → Prop} {Q : State → State → Prop}

/-- A relation that holds where these fields are as they were, and of every move, holds of every inner write. -/
theorem anyWrites_of_attempt (hC : Composable R E) (hmove : ∀ b o, Op.Within R E (setPos b o))
    (hsame : ∀ s t : State, t.attempt = s.attempt → R s t) (hreject : ∀ e s t, E e s t → E e s t.rejectHeader)
    (hhalt : MayHalt E) : AnyWrites R E where
  toComposable := hC
  move := hmove
  result _ _ := hsame _ _ rfl
  okFlag _ _ := hsame _ _ rfl
  names _ _ := hsame _ _ rfl
  header _ _ _ := hsame _ _ rfl
  parsed _ := hsame _ _ rfl
  rejected := hreject
  params _ _ := hsame _ _ rfl
  samples _ _ _ _ := hsame _ _ rfl
  descriptor _ _ _ := hsame _ _ rfl
  lpc _ _ := hsame _ _ rfl
  halts := hhalt
  validity _ _ := hsame _ _ rfl
  phase _ _ := hsame _ _ rfl
  output _ _ := hsame _ _ rfl

/-- The same for a projection of them. -/
theorem anyWrites_same {α : Type} (f : State → α) (hplace : ∀ (s : State) b o, f { s with byte := b, bit := o } = f s)
    (hcache : ∀ (s : State) w, f { s with cache := w } = f s) (hsame : ∀ s t : State, t.attempt = s.attempt → f t = f s)
    (hreject : ∀ s : State, f s.rejectHeader = f s) : AnyWrites (Same f) (Anyhow (Same f)) :=
  anyWrites_of_attempt (composable_same f) (within_setPos_anyhow (composable_same f) hplace hcache) hsame
    (fun _ _ t h => (hreject t).trans h) fun _ _ => rfl

/-- What every instruction does, a step that runs a request does: a field is fetched by a read at POS (R90). -/
theorem runRequest_related (hR : AnyWrites R E) (hQ : AnyEnd R E Q)
    (hexec : ∀ (i : Instr) (s t : State), exec i s = .next t → Q s t) {r : Request} {s t : State}
    (hn : runRequest r s = .next t) : Q s t := by
  have hh := hR.toHeaderWrites
  have hfail : Op.Within R E (discard vluFail) := within_discard (within_vluFail hh.toVluWrites)
  have hsync : Op.Within R E (rejecting (raise .syncLoss : Op Unit)) :=
    within_rejecting hh.rejected (within_raise hh.toComposable _)
  have hillegal : ∀ {u v : State}, .next (refuse .illegalCommand u) = (.next v : Result) → Q u v := fun h =>
    Host.Outcome.next.inj h ▸ hQ.refused _ _ rfl
  cases r with
  | command w =>
    simp only [runRequest, runWord] at hn
    split at hn
    · exact hexec _ _ _ hn
    · exact hillegal hn
  | field f =>
    simp only [runRequest] at hn
    split at hn
    · exact hillegal hn
    refine needCursor_related hQ (fun hn => ?_) hn
    have hbegin : R s (fieldBegin f s) := by
      rw [fieldBegin]
      split
      · exact hh.names s fun q => { q with start := s.byte }
      · exact hh.refl s
    have hread := within_readBits hh.toCursorWrites f.width
    split at hn
    next w u hu =>
      have hsu := hQ.stay _ _ (hh.trans _ _ _ hbegin (hread.ok hu))
      split at hn
      next i _ => exact hQ.trans _ _ _ hsu (hexec _ _ _ hn)
      next x _ =>
        refine hQ.trans _ _ _ hsu ?_
        cases x with
        | notContinuation => exact runField_related hQ hfail hn
        | syncCode => exact runField_related hQ hsync hn
        | reservedBit => exact runField_related hQ hsync hn
        | unassignedOpcode => exact hillegal hn
        | unusedOperand => exact hillegal hn
    next k u hu =>
      obtain rfl := Host.Outcome.next.inj hn
      have hsu := hh.stop _ _ _ _ hbegin (hread.error hu)
      split
      · exact hQ.raised _ _ _ _ (hh.rejected _ _ _ hsu)
      · exact hQ.raised _ _ _ _ hsu
    next => cases hn

end

/-! ### The launch state and the queue -/

/-- What the host owns, and the requests that wait. -/
def State.launch (s : State) := (s.input, s.params, s.streamInfo, s.pending)

theorem launch_writes : AnyWrites (Same State.launch) (Anyhow (Same State.launch)) :=
  anyWrites_same State.launch (fun _ _ _ => rfl) (fun _ _ => rfl)
    (fun s t h => by
      simp only [State.attempt, Prod.mk.injEq] at h
      obtain ⟨hin, hpar, hsi, -, -, -, -, -, -, hq⟩ := h
      simp only [State.launch, hin, hpar, hsi, hq]) fun _ => rfl

theorem launch_end : AnyEnd (Same State.launch) (Anyhow (Same State.launch)) (Same State.launch) where
  stay _ _ h := h
  rest _ _ h := h
  drop _ _ h := h
  raised _ _ _ _ h := h
  refused _ _ _ := rfl
  trans _ _ _ h1 h2 := h2.trans h1

theorem exec_launch {i : Instr} {s t : State} (h : exec i s = .next t) : t.launch = s.launch :=
  exec_related launch_writes launch_end (fun _ _ => rfl) (fun _ _ _ _ => rfl) h

theorem runRequest_launch {r : Request} {s t : State} (h : runRequest r s = .next t) : t.launch = s.launch :=
  runRequest_related launch_writes launch_end (fun _ _ _ h => exec_launch h) h

/-- An instruction leaves IN, the parameters, STREAMINFO and the queue (R21, R40, R41). -/
theorem exec_keeps_launch {i : Instr} {s t : State} (h : exec i s = .next t) :
    t.input = s.input ∧ t.params = s.params ∧ t.streamInfo = s.streamInfo ∧ t.pending = s.pending := by
  simpa [State.launch] using exec_launch h

/-! ### The ends of the commands that start an attempt -/

/-- `cursor_new` at an admissible position (R132). -/
theorem exec_cursorNew_placed {off : BitVec 32} {s : State} (h : off.toNat / 8 + 4 ≤ s.params.cap) :
    exec (.cursorNew off) s = .next ((startAttempt s).moveTo off.toNat).atRest :=
  runCommand_ok (cursorNew_placed h)

/-- `cursor_new` at any other position raises BufferOverrun in the attempt it started (R132, R133). -/
theorem exec_cursorNew_overrun {off : BitVec 32} {s : State} (h : ¬ off.toNat / 8 + 4 ≤ s.params.cap) :
    exec (.cursorNew off) s = .next (takeRaise .primitive .bufferOverrun (startAttempt s)) :=
  (runCommand_raise (cursorNew_overrun h)).trans rfl

/-- How `decode_frame` can end: refused, with the cursor dropped after its steps (R372), or with a raise in them. -/
theorem exec_decodeFrame_ends {a : BitVec 32} {s t : State} (h : exec (.decodeFrame a) s = .next t) :
    t = refuse .argumentRange s ∨ (∃ u, frameSteps a.toNat s = .ok () u ∧ t = dropCursor u)
      ∨ ∃ k u, frameSteps a.toNat s = .error (.raise k) u ∧ t = takeRaise .frame k u := by
  simp only [exec, execDecodeFrame] at h
  by_cases hr : frameIndexRange a = true
  · rw [needRange_in _ hr] at h
    rcases finish_cases .frame dropCursor (frameSteps a.toNat s) with ⟨u, hu, hf⟩ | ⟨k, u, hu, hf⟩ | ⟨f, u, hu, hf⟩
    · exact .inr (.inl ⟨u, hu, (Host.Outcome.next.inj (hf.symm.trans h)).symm⟩)
    · exact .inr (.inr ⟨k, u, hu, (Host.Outcome.next.inj (hf.symm.trans h)).symm⟩)
    · rw [hf] at h; cases h
  · rw [needRange_out _ (by simpa using hr)] at h
    exact .inl (Host.Outcome.next.inj h).symm

/-- How `decode_next_frame` can end: as its `decode_frame` did, or with the `pack` after one that ended Verified (R371). -/
theorem exec_decodeNextFrame_ends {a : BitVec 32} {s t : State} (h : exec (.decodeNextFrame a) s = .next t) :
    t = refuse .argumentRange s ∨ ∃ u, exec (.decodeFrame a) s = .next u ∧
      if u.fstate = .verified then exec .pack u = .next t else t = u := by
  simp only [exec, execDecodeNextFrame] at h
  by_cases hr : frameIndexRange a = true
  · rw [needRange_in _ hr] at h
    cases hd : execDecodeFrame a s with
    | next u =>
      refine .inr ⟨u, hd, ?_⟩
      simp only [hd, packAfter] at h
      split
      · next hv => rwa [if_pos hv] at h
      · next hv => rw [if_neg hv] at h; exact (Host.Outcome.next.inj h).symm
    | fault f => rw [hd] at h; cases h
    | refused x => rw [hd] at h; cases h
  · rw [needRange_out _ (by simpa using hr)] at h
    exact .inl (Host.Outcome.next.inj h).symm

/-! ### The invariant -/

/-- A state without a cursor has only IN to keep. -/
theorem inv_of_noCursor {s : State} (hm : s.input.wf = true) (hv : s.curValid = false) : s.Inv :=
  ⟨hm, fun h => absurd (hv.symm.trans h) Bool.false_ne_true⟩

/-- The invariant reads IN, CAP, the cursor and nothing else. -/
theorem inv_of_attempt {s t : State} (h : t.attempt = s.attempt) (hs : s.Inv) : t.Inv := by
  simp only [State.attempt, Prod.mk.injEq] at h
  obtain ⟨hin, hpar, -, hbyte, hbit, hcache, hval, -⟩ := h
  exact ⟨hin ▸ hs.memory, by simpa only [State.CursorInv, hin, hpar, hbyte, hbit, hcache, hval] using hs.cursor⟩

/-- While no attempt starts, writes keep the invariant; where one stops, the raise that follows drops the cursor, and IN is
all there is to keep. -/
theorem inv_writes : AnyWrites (fun s t => s.Inv → t.Inv) (fun _ s t => s.Inv → t.input.wf = true) := by
  refine anyWrites_of_attempt ⟨fun _ h => h, fun _ _ _ h1 h2 h => h2 (h1 h), fun _ _ _ h => h.memory,
    fun _ _ _ _ h1 h2 h => h2 (h1 h)⟩ (fun b o s => ?_) (fun _ _ => inv_of_attempt) (fun _ _ _ h => h)
    fun _ _ h => h.memory
  by_cases hb : b + 4 ≤ s.params.cap
  · rw [setPos_ok o hb]
    exact fun h => ⟨h.memory, fun _ => ⟨hb, rfl⟩⟩
  · rw [setPos_error o hb]
    exact fun h => h.memory

theorem inv_end : AnyEnd (fun s t => s.Inv → t.Inv) (fun _ s t => s.Inv → t.input.wf = true)
    (fun s t => s.Inv → t.Inv) where
  stay _ _ h := h
  rest _ _ h hs := ⟨(h hs).memory, (h hs).cursor⟩
  drop _ _ h hs := inv_of_noCursor (h hs).memory rfl
  raised _ _ _ _ h hs := inv_of_noCursor (h hs) rfl
  refused _ _ _ hs := ⟨hs.memory, hs.cursor⟩
  trans _ _ _ h1 h2 h := h2 (h1 h)

theorem startsAttempt_of_decodesFrame {i : Instr} (h : decodesFrame i = true) : startsAttempt i = true := by
  cases i with
  | cursorNew off => rfl
  | _ => exact h

/-- Every instruction that starts no attempt. -/
theorem exec_keeps_inv_inAttempt {i : Instr} (hi : startsAttempt i = false) {s t : State} (hs : s.Inv)
    (h : exec i s = .next t) : t.Inv :=
  have hno : ¬ startsAttempt i = true := by rw [hi]; exact Bool.false_ne_true
  exec_related inv_writes inv_end (fun e => absurd e hno) (fun e => absurd (startsAttempt_of_decodesFrame e) hno) h hs

theorem exec_decodeFrame_keeps_inv {a : BitVec 32} {s t : State} (hs : s.Inv) (h : exec (.decodeFrame a) s = .next t) :
    t.Inv := by
  have hm : t.input.wf = true := (exec_keeps_launch h).1 ▸ hs.memory
  rcases exec_decodeFrame_ends h with rfl | ⟨u, -, rfl⟩ | ⟨k, u, -, rfl⟩
  · exact ⟨hm, hs.cursor⟩
  · exact inv_of_noCursor hm rfl
  · exact inv_of_noCursor hm rfl

/-- Every instruction keeps the invariant. -/
theorem exec_keeps_inv {i : Instr} {s t : State} (hs : s.Inv) (h : exec i s = .next t) : t.Inv := by
  cases hi : startsAttempt i with
  | false => exact exec_keeps_inv_inAttempt hi hs h
  | true =>
    cases i with
    | cursorNew off =>
      by_cases hp : off.toNat / 8 + 4 ≤ s.params.cap
      · obtain rfl := Host.Outcome.next.inj ((exec_cursorNew_placed hp).symm.trans h)
        exact ⟨hs.memory, fun _ => ⟨hp, rfl⟩⟩
      · obtain rfl := Host.Outcome.next.inj ((exec_cursorNew_overrun hp).symm.trans h)
        exact inv_of_noCursor hs.memory rfl
    | decodeFrame a => exact exec_decodeFrame_keeps_inv hs h
    | decodeNextFrame a =>
      rcases exec_decodeNextFrame_ends h with rfl | ⟨u, hu, hend⟩
      · exact ⟨hs.memory, hs.cursor⟩
      · have hui := exec_decodeFrame_keeps_inv hs hu
        split at hend
        · exact exec_keeps_inv_inAttempt rfl hui hend
        · exact hend ▸ hui
    | _ => cases hi

end Sys2Proof.Machine

namespace Sys2Proof.Proofs
open Sys2Proof.Machine

/-- Settles O11: an instruction keeps the invariant (`exec_keeps_inv`), and the fetch of a field is a read at POS. -/
theorem stepKeepsInv : Obligations.StepKeepsInv := by
  unfold Obligations.StepKeepsInv
  intro s t hs hn
  unfold step at hn
  split at hn
  · exact Host.Outcome.next.inj hn ▸ hs
  · next r rest _ =>
    exact runRequest_related inv_writes inv_end (fun _ _ _ h hs => exec_keeps_inv hs h) hn ⟨hs.memory, hs.cursor⟩

/-- Settles O13: no instruction and no fetch writes the launch state (`runRequest_launch`); the host's writes are those of
`applyHostWrite`, and a loaded string is read back (`Memory.read_load`). -/
theorem launchStateFixed : Obligations.LaunchStateFixed := by
  unfold Obligations.LaunchStateFixed
  refine ⟨fun s t hn => ?_, fun s => ⟨fun hv w => hostWrite_refused w hv, fun hv => ⟨fun si => ?_, fun check narrow => ?_,
    fun bytes slack => ?_⟩⟩⟩
  · unfold step at hn
    split at hn
    · next hp =>
      obtain rfl := Host.Outcome.next.inj hn
      exact ⟨rfl, rfl, rfl, by rw [hp]; rfl⟩
    · next r rest hp =>
      have := runRequest_launch hn
      simp only [State.launch, Prod.mk.injEq] at this
      rw [hp]
      exact this
  · exact hostWrite_next _ hv
  · exact hostWrite_next _ hv
  · refine ⟨Memory.load [] 0 (bytes ++ slack), ?_, Memory.wf_load 0 _ Memory.wf_nil, fun a ha => ?_⟩
    · rw [hostWrite_next _ hv, applyHostWrite_load, List.length_append]
    · rw [List.getElem?_eq_getElem ha, ← Memory.read_load Memory.wf_nil 0 _ a ha, Nat.zero_add]

end Sys2Proof.Proofs

/-! ## Proofs: ERR, WIDE, FSTATE, and the primitive commands (10_state.md rules R31, R34 to R37) -/

namespace Sys2Proof.Machine

/-! ### ERR (R380, R386) -/

/-- While an instruction runs, ERR is as it was, or None after a start of an attempt. -/
def ErrKept (starts : Bool) (s t : State) : Prop := t.err = s.err ∨ (t.err = .none ∧ starts = true)

/-- What stops an inner step is a kind of class fault, or a fault of the model. -/
def StopsByFault (e : Stop) (_ _ : State) : Prop := ∀ k, e = .raise k → k.isFault = true

/-- What ERR can be after an instruction. -/
def ErrAfter (starts : Bool) (s t : State) : Prop :=
  t.err = s.err ∨ t.err.isFault = true ∨ t.err.isRefusal = true ∨ (t.err = .none ∧ starts = true)

theorem errKept_composable (b : Bool) : Composable (ErrKept b) StopsByFault where
  refl _ := .inl rfl
  trans s t u := by
    rintro h1 (h2 | h2)
    · rw [ErrKept, h2]; exact h1
    · exact .inr h2
  raises k _ hk := by rintro _ ⟨⟩; exact hk
  stop _ _ _ _ _ h := h

theorem errKept_writes (b : Bool) : AnyWrites (ErrKept b) StopsByFault := by
  refine anyWrites_of_attempt (errKept_composable b) (fun n o s => ?_) (fun s t h => ?_) (fun _ _ _ h => h)
    (by rintro _ _ _ ⟨⟩)
  · by_cases hn : n + 4 ≤ s.params.cap
    · rw [setPos_ok o hn]; exact .inl rfl
    · rw [setPos_error o hn]; rintro _ ⟨⟩; rfl
  · simp only [State.attempt, Prod.mk.injEq] at h
    obtain ⟨-, -, -, -, -, -, -, -, herr, -⟩ := h
    exact .inl herr

theorem errAfter_of_kept {b : Bool} {s t u : State} (h : ErrKept b s t) (hu : u.err = t.err) : ErrAfter b s u := by
  rcases h with h | h
  · exact .inl (hu.trans h)
  · exact .inr (.inr (.inr ⟨hu.trans h.1, h.2⟩))

theorem errKept_end (b : Bool) : AnyEnd (ErrKept b) StopsByFault (ErrAfter b) where
  stay _ _ h := errAfter_of_kept h rfl
  rest _ _ h := errAfter_of_kept h rfl
  drop _ _ h := errAfter_of_kept h rfl
  raised _ k _ _ h := .inr (.inl (h k rfl))
  refused _ _ hk := .inr (.inr (.inl hk))
  trans s t u := by
    rintro h1 (h2 | h2)
    · rw [ErrAfter, h2]; exact h1
    · exact .inr h2

/-! ### WIDE (R31) -/

theorem wide_writes : AnyWrites (Same State.wide) (Anyhow (Same State.wide)) :=
  anyWrites_same State.wide (fun _ _ _ => rfl) (fun _ _ => rfl)
    (fun s t h => by
      simp only [State.attempt, Prod.mk.injEq] at h
      obtain ⟨-, -, -, -, -, -, -, hwide, -⟩ := h
      exact hwide) fun _ => rfl

theorem wide_end : AnyEnd (Same State.wide) (Anyhow (Same State.wide)) (Same State.wide) where
  stay _ _ h := h
  rest _ _ h := h
  drop _ _ h := h
  raised _ _ _ _ h := h
  refused _ _ _ := rfl
  trans _ _ _ h1 h2 := h2.trans h1

/-! ### POS never moves backward (R130) -/

/-- POS is where it was, or past it. -/
def Forward (s t : State) : Prop := s.position ≤ t.position

theorem forward_composable : Composable Forward Whatever where
  refl _ := Nat.le_refl _
  trans _ _ _ := Nat.le_trans
  raises _ _ _ := trivial
  stop _ _ _ _ _ _ := trivial

theorem forward_advance (n : Nat) : Op.Within Forward Whatever (advance n) := by
  intro s
  by_cases h : s.admissible (s.position + n)
  · rw [advance_ok h]
    show s.position ≤ (s.moveTo (s.position + n)).position
    rw [moveTo_position]
    exact Nat.le_add_right _ _
  · rw [advance_error h]
    trivial

theorem forward_setRes (v : Word64) : Op.Within Forward Whatever (setRes v) :=
  within_update fun s => Nat.le_refl s.position

theorem forward_setOk (b : Bool) : Op.Within Forward Whatever (setOk b) :=
  within_update fun s => Nat.le_refl s.position

theorem forward_updateSeq (f : Sequencer → Sequencer) : Op.Within Forward Whatever (updateSeq f) :=
  within_update fun s => Nat.le_refl s.position

/-- The end every read shares: its result enters RES. -/
theorem forward_answer {α : Type} (v : Word64) (a : α) : Op.Within Forward Whatever (do setRes v; pure a) :=
  within_bind forward_composable (forward_setRes v) fun _ => within_pure forward_composable a

theorem forward_small (m : Nat) : Op.Within Forward Whatever (small m) :=
  within_bind forward_composable (within_view forward_composable _) fun _ =>
  within_bind forward_composable (forward_advance m) fun _ => within_pure forward_composable _

theorem forward_readBits (n : Nat) : Op.Within Forward Whatever (readBits n) :=
  within_ite (within_bind forward_composable (forward_small n) fun v => forward_answer _ v)
    (within_bind forward_composable (forward_small 24) fun _ =>
      within_bind forward_composable (forward_small (n - 24)) fun _ =>
      within_bind forward_composable (within_pure forward_composable _) fun v => forward_answer _ v)

theorem forward_readChunks (rounds rem v : Nat) : Op.Within Forward Whatever (readChunks rounds rem v) := by
  induction rounds generalizing rem v with
  | zero => exact within_pure forward_composable v
  | succ rounds ih =>
    exact within_ite (within_pure forward_composable v)
      (within_bind forward_composable (forward_readBits _) fun _ => ih _ _)

theorem forward_readBits64 (n : Nat) : Op.Within Forward Whatever (readBits64 n) :=
  within_bind forward_composable (forward_readChunks _ _ _) fun v => forward_answer _ v

theorem forward_readSigned (n : Nat) : Op.Within Forward Whatever (readSigned n) :=
  within_bind forward_composable (forward_readBits n) fun _ => forward_answer _ _

theorem forward_readSigned64 (n : Nat) : Op.Within Forward Whatever (readSigned64 n) :=
  within_bind forward_composable (forward_readBits64 n) fun _ => forward_answer _ _

theorem forward_unaryLoop (rounds q : Nat) : Op.Within Forward Whatever (unaryLoop rounds q) := by
  induction rounds generalizing q with
  | zero => exact within_raise forward_composable _
  | succ rounds ih =>
    exact within_bind forward_composable (forward_readBits 1) fun _ => within_ite (ih _) (forward_answer _ q)

theorem forward_readUnary : Op.Within Forward Whatever readUnary :=
  within_bind forward_composable (within_view forward_composable _) fun _ => forward_unaryLoop _ _

theorem forward_flush : Op.Within Forward Whatever flush :=
  within_bind forward_composable (within_view forward_composable _) fun _ =>
  within_ite (within_pure forward_composable ()) (forward_advance _)

theorem forward_positionBits : Op.Within Forward Whatever positionBits :=
  within_bind forward_composable (within_view forward_composable _) fun _ => forward_setRes _

theorem forward_crc8Op (a b : Nat) : Op.Within Forward Whatever (crc8Op a b) :=
  within_bind forward_composable (within_readSpan forward_composable a b) fun _ => forward_answer _ _

theorem forward_crc16Op (a b : Nat) : Op.Within Forward Whatever (crc16Op a b) :=
  within_bind forward_composable (within_readSpan forward_composable a b) fun _ => forward_answer _ _

theorem forward_vluFail : Op.Within Forward Whatever vluFail :=
  within_bind forward_composable (within_view forward_composable _) fun _ =>
  within_bind forward_composable (forward_setOk _) fun _ => forward_answer _ _

theorem forward_vluSucceed : Op.Within Forward Whatever vluSucceed :=
  within_bind forward_composable (within_view forward_composable _) fun _ =>
  within_bind forward_composable (forward_setOk _) fun _ => forward_answer _ _

theorem forward_vluContinue (c : Nat) : Op.Within Forward Whatever (vluContinue c) := by
  induction c with
  | zero => exact within_pure forward_composable true
  | succ c ih =>
    exact within_bind forward_composable (forward_readBits 8) fun _ =>
      within_ite (within_bind forward_composable (forward_updateSeq _) fun _ => ih) (within_pure forward_composable false)

theorem forward_vluAfterLead (payload c : Nat) : Op.Within Forward Whatever (vluAfterLead payload c) :=
  within_bind forward_composable (forward_updateSeq _) fun _ =>
  within_bind forward_composable (forward_vluContinue c) fun _ => within_ite forward_vluSucceed forward_vluFail

theorem forward_readVlu (wide : Bool) : Op.Within Forward Whatever (readVlu wide) :=
  within_bind forward_composable (forward_updateSeq _) fun _ =>
  within_bind forward_composable (forward_readBits 8) fun b => by
    cases vluLeadClass wide b with
    | none => exact forward_vluFail
    | some x => exact forward_vluAfterLead x.1 x.2

/-! ### What a primitive command writes -/

/-- A state that differs in POS, CACHE, RES, OK and the sequencer's names alone. -/
def ReadsOf (s t : State) : Prop :=
  ∃ b o w r x q, t = { s with byte := b, bit := o, cache := w, res := r, ok := x, seq := q }

/-- Inside a primitive command: these writes, and of OK by a variable-length read only. -/
def Reads (vlu : Bool) (s t : State) : Prop := ReadsOf s t ∧ (vlu = false → t.ok = s.ok)

/-- It stops by raising a kind of class fault. -/
def ReadsRaise (e : Stop) (s t : State) : Prop := ReadsOf s t ∧ ∃ k, e = .raise k ∧ k.isFault = true

theorem ReadsOf.refl (s : State) : ReadsOf s s := ⟨_, _, _, _, _, _, rfl⟩

theorem ReadsOf.trans {s t u : State} (h1 : ReadsOf s t) (h2 : ReadsOf t u) : ReadsOf s u := by
  obtain ⟨_, _, _, _, _, _, rfl⟩ := h1
  obtain ⟨b, o, w, r, x, q, rfl⟩ := h2
  exact ⟨b, o, w, r, x, q, rfl⟩

/-- None of them is shown by a raise. -/
theorem ReadsOf.takeRaise {s t : State} (h : ReadsOf s t) (c : CommandClass) (k : ErrKind) :
    takeRaise c k t = Machine.takeRaise c k s := by
  obtain ⟨_, _, _, _, _, _, rfl⟩ := h
  rfl

theorem reads_composable (vlu : Bool) : Composable (Reads vlu) ReadsRaise where
  refl s := ⟨.refl s, fun _ => rfl⟩
  trans _ _ _ h1 h2 := ⟨h1.1.trans h2.1, fun e => (h2.2 e).trans (h1.2 e)⟩
  raises k s hk := ⟨.refl s, k, rfl, hk⟩
  stop _ _ _ _ h1 h2 := ⟨h1.1.trans h2.1, h2.2⟩

theorem reads_cursor (vlu : Bool) : CursorWrites (Reads vlu) ReadsRaise where
  toComposable := reads_composable vlu
  move b o := by
    intro s
    by_cases hb : b + 4 ≤ s.params.cap
    · rw [setPos_ok o hb]; exact ⟨⟨_, _, _, _, _, _, rfl⟩, fun _ => rfl⟩
    · rw [setPos_error o hb]; exact ⟨⟨_, _, _, _, _, _, rfl⟩, _, rfl, rfl⟩
  result _ _ := ⟨⟨_, _, _, _, _, _, rfl⟩, fun _ => rfl⟩

theorem reads_vlu : VluWrites (Reads true) ReadsRaise where
  toCursorWrites := reads_cursor true
  okFlag _ _ := ⟨⟨_, _, _, _, _, _, rfl⟩, fun e => nomatch e⟩
  names _ _ := ⟨⟨_, _, _, _, _, _, rfl⟩, fun e => nomatch e⟩

/-- How a primitive command can end: refused, with a raise, or with these writes, the sequencer empty and POS not moved
backward. -/
def PrimitiveEnd (vlu : Bool) (s t : State) : Prop :=
  (∃ k, k.isRefusal = true ∧ t = refuse k s)
  ∨ (∃ k, k.isFault = true ∧ t = takeRaise .primitive k s)
  ∨ ((∃ b o w r x, t = { s with byte := b, bit := o, cache := w, res := r, ok := x, seq := Sequencer.idle })
      ∧ s.position ≤ t.position ∧ (vlu = false → t.ok = s.ok))

section
variable {vlu : Bool} {s : State}

theorem runCommand_primitive {op : Op Unit} (hw : Op.Within (Reads vlu) ReadsRaise op)
    (hf : Op.Within Forward Whatever op) :
    ∃ t, runCommand .primitive op s = .next t ∧ PrimitiveEnd vlu s t := by
  cases h : op s with
  | ok a t =>
    obtain ⟨⟨b, o, w, r, x, q, ht⟩, hok⟩ := hw.ok h
    have hpos : s.position ≤ t.position := hf.ok h
    exact ⟨_, runCommand_ok h, .inr (.inr ⟨⟨b, o, w, r, x, by rw [ht]⟩, hpos, hok⟩)⟩
  | error e t =>
    obtain ⟨hr, k, rfl, hk⟩ := hw.error h
    exact ⟨_, runCommand_raise h, .inr (.inl ⟨k, hk, hr.takeRaise _ _⟩)⟩

theorem needRange_primitive {r : Result} (inRange : Bool) (h : ∃ t, r = .next t ∧ PrimitiveEnd vlu s t) :
    ∃ t, needRange inRange s r = .next t ∧ PrimitiveEnd vlu s t := by
  rw [needRange]
  split
  · exact h
  · exact ⟨_, rfl, .inl ⟨_, rfl, rfl⟩⟩

theorem needCursor_primitive {r : Result} (h : ∃ t, r = .next t ∧ PrimitiveEnd vlu s t) :
    ∃ t, needCursor s r = .next t ∧ PrimitiveEnd vlu s t := by
  rw [needCursor]
  split
  · exact h
  · exact ⟨_, rfl, .inl ⟨_, rfl, rfl⟩⟩

end

/-- A primitive command always answers, in one of these ways. -/
theorem exec_primitive {i : Instr} (hi : primitiveCommand i = true) (s : State) :
    ∃ t, exec i s = .next t ∧ PrimitiveEnd (readsVlu i) s t := by
  have hc := reads_cursor false
  have read : ∀ {α : Type} {op : Op α}, Op.Within (Reads false) ReadsRaise op → Op.Within Forward Whatever op →
      ∃ t, runCommand .primitive (discard op) s = .next t ∧ PrimitiveEnd false s t :=
    fun hw hf => runCommand_primitive (within_discard hw) (within_discard hf)
  have vlu : ∀ wide, ∃ t, runCommand .primitive (discard (readVlu wide)) s = .next t ∧ PrimitiveEnd true s t :=
    fun wide => runCommand_primitive (within_discard (within_readVlu reads_vlu wide)) (within_discard (forward_readVlu wide))
  cases i with
  | readBits n =>
    exact needCursor_primitive (needRange_primitive _ (read (within_readBits hc _) (forward_readBits _)))
  | readBits64 n =>
    exact needCursor_primitive (needRange_primitive _ (read (within_readBits64 hc _) (forward_readBits64 _)))
  | readSigned n =>
    exact needCursor_primitive (needRange_primitive _ (read (within_readSigned hc _) (forward_readSigned _)))
  | readSigned64 n =>
    exact needCursor_primitive (needRange_primitive _ (read (within_readSigned64 hc _) (forward_readSigned64 _)))
  | readUnary => exact needCursor_primitive (read (within_readUnary hc) forward_readUnary)
  | readVariableLengthUint32 => exact needCursor_primitive (vlu false)
  | readVariableLengthUint64 => exact needCursor_primitive (vlu true)
  | seekBits n =>
    exact needCursor_primitive (needRange_primitive _ (runCommand_primitive (within_advance hc _) (forward_advance _)))
  | seekBytes n =>
    exact needCursor_primitive (needRange_primitive _ (runCommand_primitive (within_advance hc _) (forward_advance _)))
  | flushToByteBoundary => exact needCursor_primitive (runCommand_primitive (within_flush hc) forward_flush)
  | positionBits => exact needCursor_primitive (runCommand_primitive (within_positionBits hc) forward_positionBits)
  | crc8 a b => exact read (within_crc8Op hc _ _) (forward_crc8Op _ _)
  | crc16 a b => exact read (within_crc16Op hc _ _) (forward_crc16Op _ _)
  | _ => cases hi

/-- Whichever way it ends, FSTATE is as it was (R34, R390 item 4). -/
theorem PrimitiveEnd.fstate {vlu : Bool} {s t : State} (h : PrimitiveEnd vlu s t) : t.fstate = s.fstate := by
  rcases h with ⟨k, -, rfl⟩ | ⟨k, -, rfl⟩ | ⟨⟨b, o, w, r, x, rfl⟩, -⟩
  · rfl
  · rfl
  · rfl

/-! ### FSTATE (R373) -/

/-- A frame-level command that answers a state ended in its own last state, at rest, or Failed. -/
theorem runCommand_frame_fstate {op : Op Unit} {f : FState} {s t : State}
    (hop : ∀ u, op s = .ok () u → u.fstate = f) (hn : runCommand .frame op s = .next t) :
    t.fstate = f ∨ t.fstate = .failed := by
  rcases finish_cases .frame (fun t => { t with seq := Sequencer.idle }) (op s) with
    ⟨u, hu, hf⟩ | ⟨k, u, -, hf⟩ | ⟨x, u, -, hf⟩
  · rw [runCommand, hf] at hn
    obtain rfl := Host.Outcome.next.inj hn
    exact .inl (hop u hu)
  · rw [runCommand, hf] at hn
    obtain rfl := Host.Outcome.next.inj hn
    exact .inr rfl
  · rw [runCommand, hf] at hn
    cases hn

/-- A step that meets a condition meets it where it answers. -/
theorem Op.Meets.ok {α : Type} {P : State → Prop} {Q : α → State → Prop} {x : Op α} (h : Op.Meets P x Q) {s t : State}
    {a : α} (hs : P s) (hx : x s = .ok a t) : Q a t := by
  have := h s hs
  rw [hx] at this
  exact this

/-- And never stops in a fault of the model. -/
theorem Op.Meets.error {α : Type} {P : State → Prop} {Q : α → State → Prop} {x : Op α} (h : Op.Meets P x Q) {s t : State}
    {e : Stop} (hs : P s) (hx : x s = .error e t) : ∃ k, e = .raise k := by
  have := h s hs
  rw [hx] at this
  cases e with
  | raise k => exact ⟨k, rfl⟩
  | halt f => cases this

/-- At a byte boundary the position is that of BYTE (R22). -/
theorem position_of_aligned {s : State} (h : s.bit.val = 0) : s.position = 8 * s.byte := by
  rw [State.position, h, Nat.add_zero]

/-- `parse_frame_header` is refused, or ends HeaderParsed or Failed. -/
theorem exec_parseFrameHeader_fstate {s t : State} (h : exec .parseFrameHeader s = .next t) :
    (t.err.isRefusal = true ∧ t.fstate = s.fstate) ∨ t.fstate = .headerParsed ∨ t.fstate = .failed := by
  simp only [exec, execParseFrameHeader] at h
  by_cases hv : s.curValid = true
  · rw [needCursor_valid _ hv] at h
    by_cases hb : s.bit.val = 0
    · rw [needRange_in _ (by rw [hb]; rfl)] at h
      refine .inr (runCommand_frame_fstate (fun u hu => ?_) h)
      obtain ⟨-, -, hf, -⟩ := (parseHeader_meets (a := s.byte) (si := s.streamInfo)).ok ⟨rfl, position_of_aligned hb⟩ hu
      exact hf
    · rw [needRange_out _ (by simpa using hb)] at h
      obtain rfl := Host.Outcome.next.inj h
      exact .inl ⟨rfl, rfl⟩
  · rw [needCursor_none _ (by simpa using hv)] at h
    obtain rfl := Host.Outcome.next.inj h
    exact .inl ⟨rfl, rfl⟩

/-- `decode_frame` is refused, or ends Verified or Failed. -/
theorem exec_decodeFrame_fstate {a : BitVec 32} {s t : State} (h : exec (.decodeFrame a) s = .next t) :
    (t.err.isRefusal = true ∧ t.fstate = s.fstate) ∨ t.fstate = .verified ∨ t.fstate = .failed := by
  rcases exec_decodeFrame_ends h with rfl | ⟨u, hu, rfl⟩ | ⟨k, u, -, rfl⟩
  · exact .inl ⟨rfl, rfl⟩
  · obtain ⟨-, -, -, hf, -⟩ := (frameSteps_meets (si := s.streamInfo)).ok rfl hu
    exact .inr (.inl hf)
  · exact .inr (.inr rfl)

/-- A `pack` that answers packed. -/
theorem packOp_fstate {s u : State} (h : packOp s = .ok () u) : u.fstate = .packed := by
  simp only [packOp, view_bind] at h
  split at h
  · cases h
  · rw [view_bind] at h
    obtain ⟨chans, t, -, h⟩ := of_bind_ok h
    split at h
    · cases h; rfl
    · cases h

/-- `pack` is refused unless FSTATE is Verified, and ends Packed or Failed. -/
theorem exec_pack_fstate {s t : State} (h : exec .pack s = .next t) :
    (t.fstate = s.fstate ∧ s.fstate ≠ .verified)
      ∨ (s.fstate = .verified ∧ (t.fstate = .packed ∨ t.fstate = .failed)) := by
  simp only [exec, execPack] at h
  split at h
  · next hv => exact .inr ⟨hv, runCommand_frame_fstate (fun u hu => packOp_fstate hu) h⟩
  · next hv =>
    obtain rfl := Host.Outcome.next.inj h
    exact .inl ⟨rfl, hv⟩

/-- `decode_next_frame` is refused as its `decode_frame` is, or ends Packed or Failed. -/
theorem exec_decodeNextFrame_fstate {a : BitVec 32} {s t : State} (h : exec (.decodeNextFrame a) s = .next t) :
    (t.err.isRefusal = true ∧ t.fstate = s.fstate) ∨ t.fstate = .packed ∨ t.fstate = .failed := by
  rcases exec_decodeNextFrame_ends h with rfl | ⟨u, hu, hend⟩
  · exact .inl ⟨rfl, rfl⟩
  · split at hend
    · next hv =>
      rcases exec_pack_fstate hend with ⟨-, hn⟩ | ⟨-, hp⟩
      · exact absurd hv hn
      · exact .inr hp
    · next hv =>
      subst hend
      rcases exec_decodeFrame_fstate hu with hr | hf | hf
      · exact .inl hr
      · exact absurd hf hv
      · exact .inr (.inr hf)

/-! ### The checksums and the wide read as guarded steps -/

theorem exec_readBits64 (n : BitVec 32) (s : State) :
    exec (.readBits64 n) s =
      needCursor s (needRange (readRange64 n) s (runCommand .primitive (discard (readBits64 n.toNat)) s)) := rfl

theorem exec_crc8 (a b : BitVec 32) (s : State) :
    exec (.crc8 a b) s = runCommand .primitive (discard (crc8Op a.toNat b.toNat)) s := rfl

theorem exec_crc16 (a b : BitVec 32) (s : State) :
    exec (.crc16 a b) s = runCommand .primitive (discard (crc16Op a.toNat b.toNat)) s := rfl

/-- The table step of `crc16` (R174), with the high byte taken by a shift. -/
theorem crc16Step_eq (c : BitVec 16) (x : Byte) : crc16Step c x = (c <<< 8) ^^^ t16 ((c >>> 8).setWidth 8 ^^^ x) := by
  have : c.extractLsb' 8 8 = (c >>> 8).setWidth 8 := by
    apply BitVec.eq_of_toNat_eq
    simp
  rw [crc16Step, this]

end Sys2Proof.Machine

namespace Sys2Proof.Proofs
open Sys2Proof.Machine

/-- Settles O14: a relation of ERR that every write and every end is within (`errKept_writes`, `errKept_end`). -/
theorem errHistory : Obligations.ErrHistory := by
  unfold Obligations.ErrHistory
  intro i s t hn
  refine exec_related (errKept_writes _) (errKept_end _) (fun hi s => ?_) (fun _ s w f => ?_) hn
  · exact .inr ⟨rfl, hi⟩
  · exact .inl rfl

/-- Settles O15, command by command. -/
theorem fStateTransitions : Obligations.FStateTransitions := by
  unfold Obligations.FStateTransitions
  intro s t
  refine ⟨fun i hi hn => ?_, fun off hn => ?_, exec_parseFrameHeader_fstate, fun _ => exec_decodeFrame_fstate,
    exec_pack_fstate, fun _ => exec_decodeNextFrame_fstate⟩
  · obtain ⟨u, hu, hend⟩ := exec_primitive hi s
    obtain rfl := Host.Outcome.next.inj (hu.symm.trans hn)
    exact hend.fstate
  · by_cases hp : off.toNat / 8 + 4 ≤ s.params.cap
    · obtain rfl := Host.Outcome.next.inj ((exec_cursorNew_placed hp).symm.trans hn)
      rfl
    · obtain rfl := Host.Outcome.next.inj ((exec_cursorNew_overrun hp).symm.trans hn)
      rfl

/-- Settles O16: only a start of a frame and the choice of its buffers write WIDE, and other instructions have neither. -/
theorem wideWrittenPerFrame : Obligations.WideWrittenPerFrame := by
  unfold Obligations.WideWrittenPerFrame
  intro i s t hi hn
  exact exec_related wide_writes wide_end (fun _ _ => rfl) (fun e => absurd (hi.symm.trans e) Bool.false_ne_true) hn

/-- Settles O17 (`exec_primitive`). -/
theorem primitiveFrame : Obligations.PrimitiveFrame := by
  unfold Obligations.PrimitiveFrame
  intro i s t hi hn
  obtain ⟨u, hu, hend⟩ := exec_primitive hi s
  obtain rfl := Host.Outcome.next.inj (hu.symm.trans hn)
  exact hend

/-- Settles O24: the read passes both checks and answers the window at its position (`readBits64_ok`). -/
theorem readBits64 : Obligations.ReadBits64 := by
  unfold Obligations.ReadBits64
  intro n s hs h1 h64 hadm
  rw [exec_readBits64]
  exact guardedRead_next hs (readRange64_iff.2 ⟨h1, h64⟩) (readBits64_ok hs hadm)

/-- Settles O34: the span is read whole (`crc8Op_ok`, `crc16Op_ok`), and the checksum of its bytes is the fold. -/
theorem checksums : Obligations.Checksums := by
  unfold Obligations.Checksums
  intro a b s h
  refine ⟨?_, ?_⟩
  · rw [exec_crc8, runCommand_ok (discard_ok (crc8Op_ok h))]
    rfl
  · rw [exec_crc16, runCommand_ok (discard_ok (crc16Op_ok h)), crc16Of, funext₂ crc16Step_eq]

/-- Settles O10: at reset there is no cursor, no request, no valid header and no frame. -/
theorem resetGood : Obligations.ResetGood := by
  have hinv : State.reset.Inv := inv_of_noCursor Memory.wf_reset rfl
  exact ⟨hinv, { inv := hinv, commands := rfl, header := nofun, parsed := fun h => absurd rfl h, samples := nofun }⟩

end Sys2Proof.Proofs

/-! ## Proofs: a host that issues command words only (60_exceptions.md rule R396, 10_state.md rule R32)

No command of R92 can stop in a fault from a state a host keeps, and each leaves such a state again. -/

namespace Sys2Proof.Machine

/-! ### The commands of R92 -/

/-- A command word decodes to a primitive command or one of the four that read or start an attempt. -/
def hostCommand : Instr → Bool
  | .cursorNew _ | .parseFrameHeader | .decodeFrame _ | .pack => true
  | i => primitiveCommand i

theorem useNone_ok {i j : Instr} {w : CmdWord} (h : useNone i w = .ok j) : j = i := by
  simp only [useNone] at h
  split at h
  · cases h; rfl
  · cases h

theorem useA_ok {f : BitVec 32 → Instr} {j : Instr} {w : CmdWord} (h : useA f w = .ok j) : j = f (cmdA w) := by
  simp only [useA] at h
  split at h
  · cases h; rfl
  · cases h

theorem useAB_ok {f : BitVec 32 → BitVec 32 → Instr} {j : Instr} {w : CmdWord} (h : useAB f w = .ok j) :
    j = f (cmdA w) (cmdB w) := by
  cases h; rfl

theorem decodeCommand_host {w : CmdWord} {i : Instr} (h : decodeCommand w = .ok i) : hostCommand i = true := by
  have none : ∀ {j : Instr}, hostCommand j = true → useNone j w = .ok i → hostCommand i = true := fun hj h =>
    useNone_ok h ▸ hj
  have a : ∀ {f : BitVec 32 → Instr}, (∀ x, hostCommand (f x) = true) → useA f w = .ok i → hostCommand i = true :=
    fun hf h => useA_ok h ▸ hf _
  have ab : ∀ {f : BitVec 32 → BitVec 32 → Instr}, (∀ x y, hostCommand (f x y) = true) → useAB f w = .ok i →
      hostCommand i = true := fun hf h => useAB_ok h ▸ hf _ _
  simp only [decodeCommand] at h
  split at h
  · exact a (fun _ => rfl) h
  · exact a (fun _ => rfl) h
  · exact a (fun _ => rfl) h
  · exact a (fun _ => rfl) h
  · exact a (fun _ => rfl) h
  · exact none rfl h
  · exact none rfl h
  · exact none rfl h
  · exact a (fun _ => rfl) h
  · exact a (fun _ => rfl) h
  · exact none rfl h
  · exact none rfl h
  · exact ab (fun _ _ => rfl) h
  · exact ab (fun _ _ => rfl) h
  · exact none rfl h
  · exact a (fun _ => rfl) h
  · exact none rfl h
  · cases h

/-! ### The host's part of the invariant -/

/-- What `HostInv` says of the attempt, IN, the cursor and the queue aside. -/
structure Attempted (s : State) : Prop where
  header : s.hdr.valid = true → HeaderOk s.streamInfo s.hdr
  parsed : s.fstate ≠ .idle → s.fstate ≠ .failed → s.hdr.valid = true
  samples : s.fstate = .verified → s.hdr.channels.toNat ≤ Config.maxChannels ∧ s.SamplesPresent

theorem State.HostInv.attempted {s : State} (h : s.HostInv) : Attempted s := ⟨h.header, h.parsed, h.samples⟩

/-- The rest of it an instruction keeps. -/
theorem hostInv_of_exec {i : Instr} {s t : State} (hs : s.HostInv) (hn : exec i s = .next t) (ht : Attempted t) :
    t.HostInv where
  inv := exec_keeps_inv hs.inv hn
  commands := by rw [(exec_keeps_launch hn).2.2.2]; exact hs.commands
  header := ht.header
  parsed := ht.parsed
  samples := ht.samples

/-- After a raise every entry of CH reads as a value (R390 item 5). -/
theorem takeRaise_samplesPresent (c : CommandClass) (k : ErrKind) (s : State) : (takeRaise c k s).SamplesPresent := by
  intro d _ i _
  simp [ChannelFile.read, ChannelFile.backgroundAt]

/-- A frame-level raise leaves Failed, and a header that is marked invalid or legal. -/
theorem attempted_raise {k : ErrKind} {s : State} (h : s.hdr.valid = true → HeaderOk s.streamInfo s.hdr) :
    Attempted (takeRaise .frame k s) where
  header := h
  parsed _ hf := absurd rfl hf
  samples := nofun

/-- A new attempt has no header yet (R132). -/
theorem attempted_idle {s : State} (hv : s.hdr.valid = false) (hf : s.fstate = .idle) : Attempted s where
  header h := absurd (hv.symm.trans h) Bool.false_ne_true
  parsed h := absurd hf h
  samples h := nomatch hf.symm.trans h

/-- A primitive command leaves HDR and FSTATE, and the samples or a background in their place. -/
theorem attempted_primitive {vlu : Bool} {s t : State} (hs : Attempted s) (h : PrimitiveEnd vlu s t) : Attempted t := by
  rcases h with ⟨k, -, rfl⟩ | ⟨k, -, rfl⟩ | ⟨⟨b, o, w, r, x, rfl⟩, -⟩
  · exact ⟨hs.header, hs.parsed, hs.samples⟩
  · exact ⟨hs.header, hs.parsed, fun hf => ⟨(hs.samples hf).1, takeRaise_samplesPresent _ _ _⟩⟩
  · exact ⟨hs.header, hs.parsed, hs.samples⟩

/-! ### The header where a frame stops -/

/-- A parse that stops leaves the header marked invalid (R204). -/
theorem parseHeader_error {s t : State} {e : Stop} (h : parseHeader s = .error e t) : t.hdr.valid = false := by
  obtain ⟨u, -, rfl⟩ := of_rejecting_error h
  rfl

/-- Where the steps of `decode_frame` stop, the header is marked invalid, or it is the legal one their parse left. -/
theorem frameSteps_error_header {a : Nat} {s t : State} {e : Stop} (h : frameSteps a s = .error e t) :
    t.hdr.valid = true → HeaderOk t.streamInfo t.hdr := by
  have hinvalid : ∀ {u : State}, u.hdr.valid = false → u.hdr.valid = true → HeaderOk u.streamInfo u.hdr := fun hf h =>
    absurd (hf.symm.trans h) Bool.false_ne_true
  by_cases hp : 8 * a / 8 + 4 ≤ s.params.cap
  · rw [frameSteps, bind_ok (frameStart_placed hp)] at h
    generalize hu : ({ startAttempt (s.withBuffers false s.ch) with
      byte := 8 * a / 8, bit := Fin.ofNat 8 (8 * a)
      cache := cacheWord s.input (8 * a / 8) (Fin.ofNat 8 (8 * a)) } : State) = u at h
    have hpos : u.position = 8 * a := by
      rw [← hu]
      simp only [State.position, Fin.ofNat]
      omega
    cases hparse : parseHeader u with
    | error e' v =>
      rw [bind_error hparse] at h
      cases h
      exact hinvalid (parseHeader_error hparse)
    | ok _ v =>
      rw [bind_ok hparse] at h
      obtain ⟨hok, -, -, hsi, -⟩ := (parseHeader_meets (a := a) (si := u.streamInfo)).ok ⟨rfl, hpos⟩ hparse
      have hrest := within_afterSelection.error (s := v.withBuffers (wideOf v.hdr) .unwritten) h
      simp only [Anyhow, Same, State.shown, withBuffers_streamInfo, withBuffers_hdr, Prod.mk.injEq] at hrest
      obtain ⟨⟨-, -, hsi', -⟩, hhdr⟩ := hrest
      rw [hhdr, hsi', hsi]
      exact fun _ => hok
  · rw [frameSteps, bind_error (frameStart_overrun hp)] at h
    cases h
    exact hinvalid rfl

/-! ### The commands -/

/-- `parse_frame_header` (R190). -/
theorem exec_parseFrameHeader_attempted {s : State} (hs : Attempted s) :
    ∃ t, exec .parseFrameHeader s = .next t ∧ Attempted t := by
  have refused : ∀ k, Attempted (refuse k s) := fun _ => ⟨hs.header, hs.parsed, hs.samples⟩
  simp only [exec, execParseFrameHeader]
  by_cases hv : s.curValid = true
  · rw [needCursor_valid _ hv]
    by_cases hb : s.bit.val = 0
    · rw [needRange_in _ (by rw [hb]; rfl)]
      have hm := parseHeader_meets (a := s.byte) (si := s.streamInfo)
      have hs0 : s.streamInfo = s.streamInfo ∧ s.position = 8 * s.byte := ⟨rfl, position_of_aligned hb⟩
      cases h : parseHeader s with
      | ok _ u =>
        obtain ⟨hok, hval, hf, hsi, -⟩ := hm.ok hs0 h
        exact ⟨_, runCommand_ok h, fun _ => hsi ▸ hok, fun _ _ => hval, fun e => nomatch hf.symm.trans e⟩
      | error e u =>
        obtain ⟨k, rfl⟩ := hm.error hs0 h
        exact ⟨_, runCommand_raise h, attempted_raise fun e => absurd ((parseHeader_error h).symm.trans e) Bool.false_ne_true⟩
    · rw [needRange_out _ (by simpa using hb)]
      exact ⟨_, rfl, refused _⟩
  · rw [needCursor_none _ (by simpa using hv)]
    exact ⟨_, rfl, refused _⟩

/-- `decode_frame` (R360). -/
theorem exec_decodeFrame_attempted {a : BitVec 32} {s : State} (hs : Attempted s) :
    ∃ t, exec (.decodeFrame a) s = .next t ∧ Attempted t := by
  simp only [exec, execDecodeFrame]
  by_cases hr : frameIndexRange a = true
  · rw [needRange_in _ hr]
    have hm := frameSteps_meets (a := a.toNat) (si := s.streamInfo)
    cases h : frameSteps a.toNat s with
    | ok _ u =>
      obtain ⟨hok, hval, hsi, -, hch⟩ := hm.ok rfl h
      exact ⟨_, rfl, fun _ => hsi ▸ hok, fun _ _ => hval, fun _ => ⟨hok.channels.2, hch⟩⟩
    | error e u =>
      obtain ⟨k, rfl⟩ := hm.error rfl h
      exact ⟨_, rfl, attempted_raise (frameSteps_error_header h)⟩
  · rw [needRange_out _ (by simpa using hr)]
    exact ⟨_, rfl, hs.header, hs.parsed, hs.samples⟩

/-- `pack` (R340). -/
theorem exec_pack_attempted {s : State} (hs : Attempted s) : ∃ t, exec .pack s = .next t ∧ Attempted t := by
  simp only [exec, execPack]
  by_cases hv : s.fstate = .verified
  · rw [if_pos hv]
    obtain ⟨h8, hch⟩ := hs.samples hv
    rcases packOp_meets h8 hch with ⟨out, h⟩ | ⟨k, h⟩
    · exact ⟨_, runCommand_ok h, hs.header, fun _ _ => hs.parsed (by rw [hv]; decide) (by rw [hv]; decide), nofun⟩
    · exact ⟨_, runCommand_raise h, attempted_raise hs.header⟩
  · rw [if_neg hv]
    exact ⟨_, rfl, hs.header, hs.parsed, hs.samples⟩

/-- Every command of R92. -/
theorem exec_attempted {i : Instr} (hi : hostCommand i = true) {s : State} (hs : Attempted s) :
    ∃ t, exec i s = .next t ∧ Attempted t := by
  cases hp : primitiveCommand i with
  | true =>
    obtain ⟨t, hn, hend⟩ := exec_primitive hp s
    exact ⟨t, hn, attempted_primitive hs hend⟩
  | false =>
    cases i with
    | cursorNew off =>
      by_cases h : off.toNat / 8 + 4 ≤ s.params.cap
      · exact ⟨_, exec_cursorNew_placed h, attempted_idle rfl rfl⟩
      · exact ⟨_, exec_cursorNew_overrun h, attempted_idle rfl rfl⟩
    | parseFrameHeader => exact exec_parseFrameHeader_attempted hs
    | decodeFrame a => exact exec_decodeFrame_attempted hs
    | pack => exact exec_pack_attempted hs
    | _ => exact absurd (hp.symm.trans hi) Bool.false_ne_true

end Sys2Proof.Machine

namespace Sys2Proof.Proofs
open Sys2Proof.Machine

/-- Settles O12: the oldest request is a command word, which decodes to a command of R92 (`exec_attempted`) or is
refused. -/
theorem hostRunsOn : Obligations.HostRunsOn := by
  unfold Obligations.HostRunsOn
  intro s hs
  unfold step
  split
  · exact ⟨s, rfl, hs⟩
  · next r rest hp =>
    have hc := hs.commands
    rw [hp, List.all_cons, Bool.and_eq_true] at hc
    have hu : State.HostInv { s with pending := rest } :=
      { inv := ⟨hs.inv.memory, hs.inv.cursor⟩, commands := hc.2, header := hs.header, parsed := hs.parsed
        samples := hs.samples }
    cases r with
    | field f => cases hc.1
    | command w =>
      simp only [runRequest, runWord]
      split
      · next i hd =>
        obtain ⟨t, hn, ht⟩ := exec_attempted (decodeCommand_host hd) hu.attempted
        exact ⟨t, hn, hostInv_of_exec hu hn ht⟩
      · exact ⟨_, rfl, { inv := ⟨hu.inv.memory, hu.inv.cursor⟩, commands := hu.commands, header := hu.header
                         parsed := hu.parsed, samples := hu.samples }⟩

end Sys2Proof.Proofs

/-! ## Proofs: values a restore cannot store and entries it cannot read (45_predictors.md rule R303, 10_state.md rule R32)

A restore reads its channel, walks the residuals and writes the samples back. `Restores` says what that comes to in terms of
the walk, for the Fixed and the LPC restore alike; where the walk has no value, or the wasted-bits shift after it has
none, the subframe raises ArithmeticOverflow. -/

namespace Sys2Proof.Machine

/-! ### Commands that stop in a fault of the model -/

theorem runField_halt {c : CommandClass} {op : Op Unit} {s t : State} {f : Fault} (h : op s = .error (.halt f) t) :
    runField c op s = .fault f := by
  simp [runField, h, finish]

theorem runCommand_halt {c : CommandClass} {op : Op Unit} {s t : State} {f : Fault} (h : op s = .error (.halt f) t) :
    runCommand c op s = .fault f := by
  simp [runCommand, h, finish]

/-! ### An entry that holds no value -/

/-- Entry `i` of channel `c`, in a block of `n`, is the first that holds no value. -/
structure State.MissingAt (s : State) (c : Fin 8) (n i : Nat) : Prop where
  inBlock : i < n
  absent : s.ch.read s.wide c i = none
  before : ∀ j, j < i → (s.ch.read s.wide c j).isSome = true

section
variable {s : State} {c : Fin 8} {n i : Nat}

theorem State.MissingAt.readSamples (h : s.MissingAt c n i) :
    readSamples c n s = .error (.halt (.unwrittenSample c.val i)) s :=
  readSamples_missing h.inBlock h.absent h.before

theorem restoreWith_missing {k : Nat} {f : List Int → Int → Option Int} (h : s.MissingAt c s.hdr.blocksize.toNat i)
    (hk : k < s.hdr.blocksize.toNat) : restoreWith c k f s = .error (.halt (.unwrittenSample c.val i)) s := by
  rw [restoreWith, view_bind, if_neg (by omega), bind_error h.readSamples]

theorem restoreFixed_missing {k : Nat} (h : s.MissingAt c s.hdr.blocksize.toNat i) (h0 : k ≠ 0)
    (hk : k < s.hdr.blocksize.toNat) : restoreFixed c k s = .error (.halt (.unwrittenSample c.val i)) s := by
  simp only [restoreFixed, if_neg h0, view_bind]
  exact restoreWith_missing h hk

theorem restoreLpc_missing {k : Nat} (h : s.MissingAt c s.hdr.blocksize.toNat i) (hk : k < s.hdr.blocksize.toNat) :
    restoreLpc c k s = .error (.halt (.unwrittenSample c.val i)) s := by
  simp only [restoreLpc, view_bind]
  exact restoreWith_missing h hk

/-- The two channels a stereo transform reads, the first whole where the second has the gap. -/
theorem readPair_missing {g : List Int → List Int → Op Unit} (h : s.MissingAt c n i)
    (hc : c = 0 ∨ (c = 1 ∧ s.Filled 0 n)) :
    (readSamples 0 n >>= fun xs => readSamples 1 n >>= fun ys => g xs ys) s =
      .error (.halt (.unwrittenSample c.val i)) s := by
  rcases hc with rfl | ⟨rfl, hf⟩
  · exact bind_error h.readSamples
  · obtain ⟨xs, hx, -⟩ := readSamples_filled hf
    rw [bind_ok hx, bind_error h.readSamples]

theorem decorrelateOp_missing (h : s.MissingAt c s.hdr.blocksize.toNat i) (ha : s.hdr.assignment ≠ .independent)
    (hc : c = 0 ∨ (c = 1 ∧ s.Filled 0 s.hdr.blocksize.toNat)) :
    decorrelateOp s = .error (.halt (.unwrittenSample c.val i)) s := by
  simp only [decorrelateOp, view_bind]
  cases hs : s.hdr.assignment with
  | independent => exact absurd hs ha
  | leftSide => exact readPair_missing h hc
  | rightSide => exact readPair_missing h hc
  | midSide => exact readPair_missing h hc

/-- The packer reads the channels in ascending order (R345). -/
theorem readChannels_missing {j m : Nat} (h : s.MissingAt c n i) (hj : j ≤ c.val) (hm : c.val < j + m)
    (hf : ∀ d : Fin 8, d < c → s.Filled d n) :
    readChannels n (List.range' j m) s = .error (.halt (.unwrittenSample c.val i)) s := by
  induction m generalizing j with
  | zero => omega
  | succ m ih =>
    have h8 : j < 8 := by omega
    rw [List.range'_succ]
    simp only [readChannels, dif_pos h8]
    by_cases hjc : j = c.val
    · subst hjc
      exact bind_error h.readSamples
    · obtain ⟨xs, hx, -⟩ := readSamples_filled (hf ⟨j, h8⟩ (Fin.lt_def.2 (by simp only; omega)))
      rw [bind_ok hx, bind_error (ih (by omega) (by omega))]

theorem packOp_missing (h : s.MissingAt c s.hdr.blocksize.toNat i) (hb : 1 ≤ s.hdr.bps.toNat ∧ s.hdr.bps.toNat ≤ 32)
    (hc : c.val < s.hdr.channels.toNat) (hf : ∀ d : Fin 8, d < c → s.Filled d s.hdr.blocksize.toNat) :
    packOp s = .error (.halt (.unwrittenSample c.val i)) s := by
  have hp : packable s.hdr.bps.toNat = true := by simp [packable, hb]
  have hr := readChannels_missing (m := s.hdr.channels.toNat) h (Nat.zero_le _) (by omega) hf
  simp only [packOp, view_bind, hp, Bool.not_true, Bool.false_eq_true, if_false]
  rw [List.range_eq_range', bind_error hr]

end

/-! ### A value that cannot be stored, index by index -/

/-- The first `k` entries of a channel that holds warm-up samples, then residuals. -/
theorem take_warm {x r : Nat → Int} {k n : Nat} (hk : k ≤ n) :
    ((List.range n).map fun i => if i < k then x i else r i).take k = (List.range k).map x := by
  apply List.ext_getElem
  · simp [hk]
  · intro j h1 h2
    simp at h2
    simp [h2]

/-- And those after them. -/
theorem drop_warm {x r : Nat → Int} (k n : Nat) :
    ((List.range n).map fun i => if i < k then x i else r i).drop k = ((List.range n).map r).drop k := by
  apply List.ext_getElem
  · simp
  · intro j h1 h2
    simp

/-- A restore that has no value at index `m`, and those of `x` before it, raises and has written nothing. -/
theorem restoreWith_overflow {s : State} {c : Fin 8} {k m : Nat} {f : List Int → Int → Option Int} {x r : Nat → Int}
    (hk : k ≤ m) (hm : m < s.hdr.blocksize.toNat)
    (hread : ∀ i, i < s.hdr.blocksize.toNat → s.ch.read s.wide c i = some (if i < k then x i else r i))
    (hg : ∀ i, k ≤ i → i < m → f ((List.range i).map x).reverse (r i) = some (x i))
    (hb : f ((List.range m).map x).reverse (r m) = none) :
    restoreWith c k f s = .error (.raise .arithmeticOverflow) s := by
  rw [restoreWith, view_bind, if_neg (by omega), bind_ok (readSamples_range hread), take_warm (by omega), drop_warm,
    restoreWalk_stops hk hm hg hb]
  rfl

/-- The newest sample of a history comes first. -/
theorem history_succ (x : Nat → Int) (i : Nat) :
    ((List.range (i + 1)).map x).reverse = x i :: ((List.range i).map x).reverse := by
  simp [List.range_succ]

/-- The prediction over a history is the one of R282 to R285 by index. -/
theorem predictFixed_history {k : Fin 5} {x : Nat → Int} {i : Nat} (hi : k.val ≤ i) :
    predictFixed k.val ((List.range i).map x).reverse = fixedPrediction k x i := by
  obtain ⟨j, rfl⟩ : ∃ j, i = j + k.val := ⟨i - k.val, by omega⟩
  match k with
  | 0 => rfl
  | 1 => simp [history_succ, predictFixed, fixedPrediction]
  | 2 => simp [history_succ, predictFixed, fixedPrediction]
  | 3 => simp [history_succ, predictFixed, fixedPrediction]
  | 4 => simp [history_succ, predictFixed, fixedPrediction]

/-- The sum over the first `k` coefficients of LPCP and a history, by index. -/
theorem lpcSum_coeff {l : LpcParams} {k : Nat} (hk : k ≤ 32) {x : Nat → Int} {i : Nat} (hi : k ≤ i) :
    lpcSum (l.coeff.toList.take k) ((List.range i).map x).reverse
      = ((List.range k).map fun j => l.coeff.toList.getD j 0 * x (i - 1 - j)).sum := by
  rw [lpcSum_history (by simp [hk]) hi]
  congr 1
  refine List.map_congr_left fun j hj => ?_
  have hj := List.mem_range.1 hj
  simp [List.getD_eq_getElem?_getD, hj]

/-! ### What a legal residual section holds -/

theorem partitionSizes_sum {n po k : Nat} (hk : k ≤ n >>> po) (m : Nat) :
    k + ((List.range m).map (partitionSize n po k)).sum = partitionStart n po k m := by
  induction m with
  | zero => rfl
  | succ m ih =>
    rw [List.range_succ, List.map_append, List.sum_append, ← Nat.add_assoc, ih, ← partitionStart_next hk m]
    simp

/-- The residuals fill the block after the warm-up samples (R252, R258). -/
theorem legal_length {n k : Nat} {sec : ResidualSection} (h : sec.legal n k = true) : k + sec.values.length = n := by
  simp only [ResidualSection.legal, partitionsFit, Bool.and_eq_true, decide_eq_true_eq, beq_iff_eq] at h
  obtain ⟨⟨⟨-, hmod, hk⟩, hsizes⟩, -⟩ := h
  rw [ResidualSection.values, List.length_flatMap, hsizes, partitionSizes_sum hk, partitionStart,
    if_neg (Nat.two_pow_pos _).ne', Nat.shiftRight_eq_div_pow]
  exact Nat.mul_div_cancel' (Nat.dvd_of_mod_eq_zero hmod)

/-- They are 32-bit values (R254, R257). -/
theorem codable_fits32 {pb : Nat} {q : Partition} (h : q.codable pb = true) : ∀ v ∈ q.values, fits32 v = true := by
  intro v hv
  unfold Partition.codable at h
  split at h
  · next k _ =>
    simp only [Bool.and_eq_true, List.all_eq_true] at h
    exact h.2 v hv
  · next w _ =>
    simp only [Bool.and_eq_true, decide_eq_true_eq, List.all_eq_true] at h
    have hw := h.2 v hv
    split at hw
    · rw [eq_of_beq hw]; rfl
    · exact fits32_of_bits hw (by omega)

theorem legal_fits32 {n k : Nat} {sec : ResidualSection} (h : sec.legal n k = true) :
    ∀ v ∈ sec.values, fits32 v = true := by
  simp only [ResidualSection.legal, Bool.and_eq_true, List.all_eq_true] at h
  intro v hv
  obtain ⟨q, hq, hv⟩ := List.mem_flatMap.1 hv
  exact codable_fits32 (h.2 q hq) v hv

/-! ### A restore as its walk -/

theorem restoreWalk_length {f : List Int → Int → Option Int} {h rs xs : List Int} (hw : restoreWalk f h rs = some xs) :
    xs.length = rs.length := by
  induction rs generalizing h xs with
  | nil => cases hw; rfl
  | cons r rs ih =>
    rw [restoreWalk] at hw
    split at hw
    · cases hw
    · split at hw
      · cases hw
      · next hvs => cases hw; rw [List.length_cons, ih hvs, List.length_cons]

/-- `Acc` of a 32-bit value is the value, whatever the path (R303). -/
theorem acc_of_fits32 (mode : NarrowOverflow) (wide : Bool) (path : Path) {v : Int} (h : fits32 v = true) :
    acc mode wide path v = some v := by
  cases path with
  | acc32 => exact narrow32_of_fits mode h
  | acc64 =>
    cases wide with
    | false => exact if_pos h
    | true =>
      refine wide64_of_fits ?_
      simp only [fits32, fits64, Bool.and_eq_true, decide_eq_true_eq] at h ⊢
      omega

/-- The walk of order 0 over 32-bit residuals changes none (R281). -/
theorem restoreWalk_orderZero (mode : NarrowOverflow) (wide : Bool) (path : Path) {rs : List Int}
    (h : ∀ v ∈ rs, fits32 v = true) (hist : List Int) : restoreWalk (fixedSample mode wide path 0) hist rs = some rs := by
  induction rs generalizing hist with
  | nil => rfl
  | cons r rs ih =>
    have hr : fixedSample mode wide path 0 hist r = some r := by
      rw [fixedSample, predictFixed, Int.add_zero]
      · exact acc_of_fits32 mode wide path (h r (List.mem_cons_self ..))
      all_goals nofun
    rw [restoreWalk, hr]
    simp only [ih fun v hv => h v (List.mem_cons_of_mem _ hv)]

/-- What a restore does in state `s`, where channel `c` begins with `warm` and `walk` is the walk over its residuals: it
raises where the walk has no value, and otherwise leaves the samples in CH and touches nothing else. -/
def Restores (restore : Op Unit) (s : State) (c : Fin 8) (warm : List Int) : Option (List Int) → Prop
  | none => ∃ t, restore s = .error (.raise .arithmeticOverflow) t
  | some xs => s.hdr.blocksize.toNat = (warm ++ xs).length
      ∧ ∃ f : ChannelFile, f.Holds c (warm ++ xs) ∧ restore s = .ok () { s with ch := f }

/-- Samples written over the residuals stand after the warm-up samples. -/
theorem holds_write_after {f : ChannelFile} {c : Fin 8} {warm rs : List Int} (h : f.Holds c (warm ++ rs)) (xs : List Int) :
    (f.write c warm.length xs).Holds c (warm ++ xs) := by
  intro j hj
  have hcells : (f.write c warm.length xs).cells[c] = writeAt f.cells[c] warm.length xs := by simp [ChannelFile.write]
  rw [List.length_append] at hj
  rw [hcells, writeAt_getD]
  by_cases hw : warm.length ≤ j
  · rw [dif_pos ⟨hw, hj⟩, List.getElem_append_right hw]
  · rw [dif_neg (fun e => hw e.1), h j (by rw [List.length_append]; omega), List.getElem_append_left (by omega),
      List.getElem_append_left (by omega)]

section
variable {s : State} {c : Fin 8} {warm rs : List Int}

theorem restoreWith_restores (f : List Int → Int → Option Int) (hn : s.hdr.blocksize.toNat = warm.length + rs.length)
    (hh : s.ch.Holds c (warm ++ rs)) :
    Restores (restoreWith c warm.length f) s c warm (restoreWalk f warm.reverse rs) := by
  cases hw : restoreWalk f warm.reverse rs with
  | none =>
    have hrs : rs ≠ [] := by rintro rfl; cases hw
    have hpos := List.length_pos_iff.2 hrs
    refine ⟨s, ?_⟩
    rw [restoreWith, view_bind, if_neg (by omega), hn, ← List.length_append, bind_ok (readSamples_ok hh), List.take_left,
      List.drop_left, hw]
    rfl
  | some xs =>
    exact ⟨by rw [hn, List.length_append, restoreWalk_length hw], s.ch.write c warm.length xs, holds_write_after hh xs,
      restoreWith_ok rfl hn hh hw⟩

/-- The Fixed restore, of order 0 too (R281 to R285). -/
theorem restoreFixed_restores (hfits : ∀ v ∈ rs, fits32 v = true)
    (hn : s.hdr.blocksize.toNat = warm.length + rs.length) (hh : s.ch.Holds c (warm ++ rs)) :
    Restores (restoreFixed c warm.length) s c warm
      (restoreWalk (fixedSample s.params.narrowOverflow s.wide (fixedPath s.sub[c].depth warm.length) warm.length)
        warm.reverse rs) := by
  by_cases h0 : warm.length = 0
  · rw [h0, restoreWalk_orderZero _ _ _ hfits]
    exact ⟨by rw [hn, List.length_append], s.ch, hh, rfl⟩
  · have heq : restoreFixed c warm.length s = restoreWith c warm.length
        (fixedSample s.params.narrowOverflow s.wide (fixedPath s.sub[c].depth warm.length) warm.length) s := by
      simp only [restoreFixed, if_neg h0, view_bind]
    have h := restoreWith_restores
      (fixedSample s.params.narrowOverflow s.wide (fixedPath s.sub[c].depth warm.length) warm.length) hn hh
    simp only [Restores, heq] at h ⊢
    exact h

/-- The LPC restore (R296). -/
theorem restoreLpc_restores (hn : s.hdr.blocksize.toNat = warm.length + rs.length) (hh : s.ch.Holds c (warm ++ rs)) :
    Restores (restoreLpc c warm.length) s c warm
      (restoreWalk (lpcSample s.params.narrowOverflow s.wide (lpcPath s.sub[c].depth)
        (s.lpcp.coeff.toList.take warm.length) s.lpcp.shift) warm.reverse rs) :=
  restoreWith_restores _ hn hh

theorem mapOption_none {f : Int → Option Int} {v : Int} {xs : List Int} (hv : v ∈ xs) (hf : f v = none) :
    mapOption f xs = none := by
  induction xs with
  | nil => cases hv
  | cons x xs ih =>
    rw [mapOption]
    rcases List.mem_cons.1 hv with rfl | hv
    · rw [hf]
    · rw [ih hv]
      cases f x <;> rfl

/-- A restore and the wasted-bits shift after it, where one of them has a value it cannot store (R229, R303). -/
theorem restored_unstorable {restore : Op Unit} {walk : Option (List Int)} {wasted : Nat}
    (hr : Restores restore s c warm walk) (hw : s.sub[c].wasted = wasted)
    (hu : unstorable s.params.narrowOverflow s.wide wasted warm walk) :
    ∃ t, (restore >>= fun _ => restoreWasted c) s = .error (.raise .arithmeticOverflow) t := by
  rcases hu with rfl | ⟨xs, rfl, h0, v, hv, hst⟩
  · obtain ⟨t, ht⟩ := hr
    exact ⟨t, bind_error ht⟩
  · obtain ⟨hn, f, hf, hok⟩ := hr
    refine ⟨{ s with ch := f }, ?_⟩
    rw [bind_ok hok]
    simp only [restoreWasted, view_bind, hw, if_neg h0, hn]
    rw [bind_ok (readSamples_ok (s := { s with ch := f }) hf), mapOption_none hv hst]
    rfl

end

/-! ### A subframe whose restore cannot store a value -/

/-- What a restore reads beside CH. -/
def State.restoring (s : State) := (s.hdr, s.params, s.wide, s.sub, s.lpcp)

/-- The channel of a subframe after its warm-up samples (R221, R222, R226, R228). -/
def State.warmed (s : State) (ty : SubframeType) (wasted : Nat) (warm : List Int) : State :=
  (s.mapSub s.seq.chan fun _ =>
    { type := ty, order := warm.length, wasted := wasted, depth := s.seq.base - wasted }).writeCh s.seq.chan 0 warm

/-- From the residual section on, in a state whose channel begins with its warm-up samples. -/
theorem section_unstorable {u : State} {p : Nat} {r : Word64} {c : Fin 8} {f : ChannelFile} {warm : List Int}
    {sec : ResidualSection} {restore : Op Unit} {walk : Option (List Int)} {wasted : Nat} (hu : u.curValid = true)
    (hl : sec.legal u.hdr.blocksize.toNat warm.length = true) (hc : carries u.input p sec.bits = true)
    (ha : u.admissible (p + sec.bits.length)) (hch : u.ch = f.write c 0 warm) (hw : u.sub[c].wasted = wasted)
    (hun : unstorable u.params.narrowOverflow u.wide wasted warm walk)
    (hrest : ∀ v : State, v.restoring = u.restoring → v.ch.Holds c (warm ++ sec.values) → Restores restore v c warm walk) :
    ∃ t, (decodeResidual c warm.length >>= fun _ => restore >>= fun _ => restoreWasted c) (u.readTo p r) =
      .error (.raise .arithmeticOverflow) t := by
  obtain ⟨g, h, r', -, hd⟩ := decodeResidual_at (r := r) (c := c) hu hl hc ha
  rw [bind_ok hd]
  refine restored_unstorable (hrest _ rfl ?_) hw hun
  have := warm_residuals_hold f c warm sec.values
  rw [← hch] at this
  exact this

section
variable {u : State} {p d : Nat} {r : Word64} {c : Fin 8} {f : ChannelFile} {warm : List Int} {sec : ResidualSection}
  {wasted : Nat}

/-- The rest of a Fixed body after its warm-up samples, and the wasted-bits shift (R226, R229). -/
theorem fixedRest_unstorable (hu : u.curValid = true) (hl : sec.legal u.hdr.blocksize.toNat warm.length = true)
    (hc : carries u.input p sec.bits = true) (ha : u.admissible (p + sec.bits.length)) (hch : u.ch = f.write c 0 warm)
    (hw : u.sub[c].wasted = wasted) (hd : u.sub[c].depth = d)
    (hun : unstorable u.params.narrowOverflow u.wide wasted warm (restoreWalk
      (fixedSample u.params.narrowOverflow u.wide (fixedPath d warm.length) warm.length) warm.reverse sec.values)) :
    ∃ t, ((do decodeResidual c warm.length; restoreFixed c warm.length) >>= fun _ => restoreWasted c) (u.readTo p r) =
      .error (.raise .arithmeticOverflow) t := by
  rw [bind_assoc]
  refine section_unstorable hu hl hc ha hch hw hun fun v hv hh => ?_
  simp only [State.restoring, Prod.mk.injEq] at hv
  obtain ⟨hhdr, hpar, hwide, hsub, -⟩ := hv
  have := restoreFixed_restores (legal_fits32 hl) (by rw [hhdr]; exact (legal_length hl).symm) hh
  rwa [hpar, hwide, hsub, hd] at this

/-- What an LPC body runs once LPCP holds its parameters, and the wasted-bits shift (R228, R229). -/
theorem lpcSection_unstorable {coeff : List Int} {shift : Nat} (hu : u.curValid = true)
    (hl : sec.legal u.hdr.blocksize.toNat warm.length = true) (hc : carries u.input p sec.bits = true)
    (ha : u.admissible (p + sec.bits.length)) (hch : u.ch = f.write c 0 warm) (hw : u.sub[c].wasted = wasted)
    (hd : u.sub[c].depth = d) (htake : u.lpcp.coeff.toList.take warm.length = coeff) (hshift : u.lpcp.shift = shift)
    (hun : unstorable u.params.narrowOverflow u.wide wasted warm (restoreWalk
      (lpcSample u.params.narrowOverflow u.wide (lpcPath d) coeff shift) warm.reverse sec.values)) :
    ∃ t, (decodeResidual c warm.length >>= fun _ => restoreLpc c warm.length >>= fun _ => restoreWasted c) (u.readTo p r) =
      .error (.raise .arithmeticOverflow) t := by
  refine section_unstorable hu hl hc ha hch hw hun fun v hv hh => ?_
  simp only [State.restoring, Prod.mk.injEq] at hv
  obtain ⟨hhdr, hpar, hwide, hsub, hlp⟩ := hv
  have := restoreLpc_restores (by rw [hhdr]; exact (legal_length hl).symm) hh
  rwa [hpar, hwide, hsub, hd, hlp, htake, hshift] at this

/-- The rest of an LPC body after its warm-up samples, and the wasted-bits shift (R228, R229). -/
theorem lpcRest_unstorable {precision shift : Nat} {coeff : List Int} (hu : u.curValid = true) (h32 : warm.length ≤ 32)
    (hp1 : 1 ≤ precision) (hp15 : precision ≤ 15) (hsh : shift < 16) (hcl : coeff.length = warm.length)
    (hcf : ∀ v ∈ coeff, fitsBits precision v = true) (hl : sec.legal u.hdr.blocksize.toNat warm.length = true)
    (hc : carries u.input p (fieldBits 4 (precision - 1) ++ fieldBits 5 shift ++ coeff.flatMap (signedBits precision)
      ++ sec.bits) = true)
    (ha : u.admissible (p + (fieldBits 4 (precision - 1) ++ fieldBits 5 shift ++ coeff.flatMap (signedBits precision)
      ++ sec.bits).length))
    (hch : u.ch = f.write c 0 warm) (hw : u.sub[c].wasted = wasted) (hd : u.sub[c].depth = d)
    (hun : unstorable u.params.narrowOverflow u.wide wasted warm (restoreWalk
      (lpcSample u.params.narrowOverflow u.wide (lpcPath d) coeff shift) warm.reverse sec.values)) :
    ∃ t, ((do lpcParameters warm.length; decodeResidual c warm.length; restoreLpc c warm.length) >>= fun _ =>
      restoreWasted c) (u.readTo p r) = .error (.raise .arithmeticOverflow) t := by
  rw [carries_append, Bool.and_eq_true] at hc
  simp only [List.length_append, fieldBits_length] at hc ha
  obtain ⟨r', hr⟩ := lpcParameters_at (r := r) hu hp1 hp15 hsh hcf hc.1 (admissible_mono ha (by omega))
  obtain ⟨l, hlpcp⟩ : ∃ l, l = { u.lpcp with precision := precision, shift := shift }.withCoeff coeff := ⟨_, rfl⟩
  have htake : l.coeff.toList.take warm.length = coeff := by
    rw [hlpcp, ← hcl]
    exact LpcParams.withCoeff_take _ _ (by omega)
  have hshift : l.shift = shift := by rw [hlpcp, LpcParams.withCoeff_shift]
  rw [hcl, State.mapLpcp, ← hlpcp] at hr
  rw [bind_assoc, bind_ok hr, bind_assoc]
  exact lpcSection_unstorable (u := { u with lpcp := l }) hu hl hc.2 (by rw [Nat.add_assoc]; exact ha) hch hw hd htake hshift hun

end

section
variable {s : State} {wasted : Nat} {warm : List Int}

/-- A tag row reads up to its warm-up samples and then runs the rest of its body. -/
theorem subframe_unstorable {ty : SubframeType} {body : Fin 8 → Op Unit} {rest : Op Unit} (hs : s.Ready)
    (hw : wasted < s.seq.base) (hd : depthAllowed s.wide s.seq.base) (hk : warm.length ≤ s.hdr.blocksize.toNat)
    (hv : ∀ v ∈ warm, fitsBits (s.seq.base - wasted) v = true)
    (hc : carries s.input s.position (wastedCode wasted ++ warm.flatMap (signedBits (s.seq.base - wasted))) = true)
    (ha : s.admissible (s.position + (wastedCode wasted ++ warm.flatMap (signedBits (s.seq.base - wasted))).length))
    (hbody : body s.seq.chan = (do
      setType s.seq.chan ty warm.length
      checkOrder warm.length
      warmUp s.seq.chan warm.length
      rest))
    (hrest : ∀ r, ∃ t, (rest >>= fun _ => restoreWasted s.seq.chan)
      ((s.warmed ty wasted warm).readTo
        (s.position + (wastedCode wasted ++ warm.flatMap (signedBits (s.seq.base - wasted))).length) r) =
      .error (.raise .arithmeticOverflow) t) :
    ∃ t, subframeAfterTag (wasted != 0) body s = .error (.raise .arithmeticOverflow) t := by
  obtain ⟨r, hr⟩ := warmed_at (u := s) (p := s.position) (r := s.res) (c := s.seq.chan) (ty := ty) hs.valid rfl hd hw hk rfl
    hv rfl hc ha
  rw [hs.readTo_self] at hr
  obtain ⟨t, ht⟩ := hrest r
  have hgo := (bind_ok (f := fun _ => rest >>= fun _ => restoreWasted s.seq.chan) hr).trans ht
  refine ⟨t, ?_⟩
  rw [subframeAfterTag, view_bind, hbody]
  simpa only [bind_assoc] using hgo

theorem warmed_sub (s : State) (ty : SubframeType) (wasted : Nat) (warm : List Int) :
    (s.warmed ty wasted warm).sub[s.seq.chan] =
      { type := ty, order := warm.length, wasted := wasted, depth := s.seq.base - wasted } := by
  rw [State.warmed, writeCh_sub, mapSub_get]

/-- A Fixed tag row whose restore, or whose wasted-bits shift, cannot store a value (R226, R229, R303). -/
theorem subframeFixed_unstorable {sec : ResidualSection} (hs : s.Ready) (hw : wasted < s.seq.base)
    (hd : depthAllowed s.wide s.seq.base) (h4 : warm.length ≤ 4)
    (hv : ∀ v ∈ warm, fitsBits (s.seq.base - wasted) v = true) (hl : sec.legal s.hdr.blocksize.toNat warm.length = true)
    (hc : carries s.input s.position
      (wastedCode wasted ++ warm.flatMap (signedBits (s.seq.base - wasted)) ++ sec.bits) = true)
    (ha : s.admissible (s.position
      + (wastedCode wasted ++ warm.flatMap (signedBits (s.seq.base - wasted)) ++ sec.bits).length))
    (hun : unstorable s.params.narrowOverflow s.wide wasted warm (restoreWalk (fixedSample s.params.narrowOverflow s.wide
      (fixedPath (s.seq.base - wasted) warm.length) warm.length) warm.reverse sec.values)) :
    ∃ t, subframeAfterTag (wasted != 0) (fun c => fixedBody c warm.length) s = .error (.raise .arithmeticOverflow) t := by
  have hn := legal_length hl
  rw [carries_append, Bool.and_eq_true] at hc
  rw [List.length_append (bs := sec.bits), ← Nat.add_assoc] at ha
  have hbody : fixedBody s.seq.chan warm.length = (do
      setType s.seq.chan .fixed warm.length
      checkOrder warm.length
      warmUp s.seq.chan warm.length
      decodeResidual s.seq.chan warm.length
      restoreFixed s.seq.chan warm.length) := by
    rw [fixedBody, if_neg (by omega)]
  have hsub := warmed_sub s .fixed wasted warm
  exact subframe_unstorable (ty := .fixed) hs hw hd (by omega) hv hc.1 (admissible_mono ha (by omega)) hbody fun r =>
    fixedRest_unstorable (u := s.warmed .fixed wasted warm) (f := s.ch) hs.valid hl hc.2 ha rfl (by rw [hsub]) (by rw [hsub]) hun

/-- An LPC tag row, in the same way (R228, R229, R296, R303). -/
theorem subframeLpc_unstorable {precision shift : Nat} {coeff : List Int} {sec : ResidualSection} (hs : s.Ready)
    (hw : wasted < s.seq.base) (hd : depthAllowed s.wide s.seq.base) (h32 : warm.length ≤ 32)
    (hv : ∀ v ∈ warm, fitsBits (s.seq.base - wasted) v = true) (hp1 : 1 ≤ precision) (hp15 : precision ≤ 15)
    (hsh : shift < 16) (hcl : coeff.length = warm.length) (hcf : ∀ v ∈ coeff, fitsBits precision v = true)
    (hl : sec.legal s.hdr.blocksize.toNat warm.length = true)
    (hc : carries s.input s.position (wastedCode wasted ++ warm.flatMap (signedBits (s.seq.base - wasted))
      ++ fieldBits 4 (precision - 1) ++ fieldBits 5 shift ++ coeff.flatMap (signedBits precision) ++ sec.bits) = true)
    (ha : s.admissible (s.position + (wastedCode wasted ++ warm.flatMap (signedBits (s.seq.base - wasted))
      ++ fieldBits 4 (precision - 1) ++ fieldBits 5 shift ++ coeff.flatMap (signedBits precision) ++ sec.bits).length))
    (hun : unstorable s.params.narrowOverflow s.wide wasted warm (restoreWalk (lpcSample s.params.narrowOverflow s.wide
      (lpcPath (s.seq.base - wasted)) coeff shift) warm.reverse sec.values)) :
    ∃ t, subframeAfterTag (wasted != 0) (fun c => lpcBody c warm.length) s = .error (.raise .arithmeticOverflow) t := by
  have hn := legal_length hl
  have hbits : wastedCode wasted ++ warm.flatMap (signedBits (s.seq.base - wasted)) ++ fieldBits 4 (precision - 1)
      ++ fieldBits 5 shift ++ coeff.flatMap (signedBits precision) ++ sec.bits
      = (wastedCode wasted ++ warm.flatMap (signedBits (s.seq.base - wasted)))
        ++ (fieldBits 4 (precision - 1) ++ fieldBits 5 shift ++ coeff.flatMap (signedBits precision) ++ sec.bits) := by
    simp only [List.append_assoc]
  rw [hbits, carries_append, Bool.and_eq_true] at hc
  rw [hbits, List.length_append, ← Nat.add_assoc] at ha
  have hsub := warmed_sub s .lpc wasted warm
  exact subframe_unstorable (ty := .lpc) hs hw hd (by omega) hv hc.1 (admissible_mono ha (Nat.le_add_right _ _)) rfl fun r =>
    lpcRest_unstorable (u := s.warmed .lpc wasted warm) (f := s.ch) hs.valid h32 hp1 hp15 hsh hcl hcf hl hc.2 ha rfl
      (by rw [hsub]) (by rw [hsub]) hun

end

end Sys2Proof.Machine

/-! ### The commands -/

namespace Sys2Proof.Machine

section
variable {s : State} {c : Fin 8} {x r : Nat → Int} {m : Nat}

/-- R282 to R285, R303. -/
theorem exec_restoreFixed_overflow {k : Fin 5} (h1 : 1 ≤ k.val) (hk : k.val ≤ m) (hm : m < s.hdr.blocksize.toNat)
    (hread : ∀ i, i < s.hdr.blocksize.toNat → s.ch.read s.wide c i = some (if i < k.val then x i else r i))
    (hg : ∀ i, k.val ≤ i → i < m → acc s.params.narrowOverflow s.wide (fixedPath s.sub[c].depth k.val)
      (r i + fixedPrediction k x i) = some (x i))
    (hb : acc s.params.narrowOverflow s.wide (fixedPath s.sub[c].depth k.val) (r m + fixedPrediction k x m) = none) :
    exec (.restoreFixed c k) s = .next (takeRaise .frame .arithmeticOverflow s) := by
  refine runField_raise ?_
  simp only [restoreFixed, if_neg (show k.val ≠ 0 by omega), view_bind]
  refine restoreWith_overflow hk hm hread (fun i hki hi => ?_) ?_
  · rw [fixedSample, predictFixed_history hki, hg i hki hi]
  · rw [fixedSample, predictFixed_history hk, hb]

/-- One LPC sample over a history, by index (R296). -/
theorem lpcSample_history {mode : NarrowOverflow} {wide : Bool} {path : Path} {l : LpcParams} {k i : Nat} (hk : k ≤ 32)
    (hi : k ≤ i) (v : Int) :
    lpcSample mode wide path (l.coeff.toList.take k) l.shift ((List.range i).map x).reverse v =
      (lpcNarrow mode path ((List.range k).map fun j => l.coeff.toList.getD j 0 * x (i - 1 - j)).sum).bind fun p =>
        acc mode wide path (v + p / 2 ^ l.shift) := by
  rw [lpcSample, lpcSum_coeff hk hi]
  generalize lpcNarrow mode path _ = p
  cases p <;> rfl

/-- R296, R303. -/
theorem exec_restoreLpc_overflow {k : Fin 33} {path : Path} {sum : Nat → Option Int} (hk : k.val ≤ m)
    (hm : m < s.hdr.blocksize.toNat) (hpath : lpcPath s.sub[c].depth = path)
    (hsum : ∀ i, sum i = lpcNarrow s.params.narrowOverflow path
      ((List.range k.val).map fun j => s.lpcp.coeff.toList.getD j 0 * x (i - 1 - j)).sum)
    (hread : ∀ i, i < s.hdr.blocksize.toNat → s.ch.read s.wide c i = some (if i < k.val then x i else r i))
    (hg : ∀ i, k.val ≤ i → i < m → ∃ v, sum i = some v ∧
      acc s.params.narrowOverflow s.wide path (r i + v / 2 ^ s.lpcp.shift) = some (x i))
    (hb : sum m = none ∨ ∃ v, sum m = some v ∧
      acc s.params.narrowOverflow s.wide path (r m + v / 2 ^ s.lpcp.shift) = none) :
    exec (.restoreLpc c k) s = .next (takeRaise .frame .arithmeticOverflow s) := by
  refine runField_raise ?_
  simp only [restoreLpc, view_bind, hpath]
  refine restoreWith_overflow hk hm hread (fun i hki hi => ?_) ?_
  · obtain ⟨v, hv, hx⟩ := hg i hki hi
    rw [lpcSample_history (by omega) hki, ← hsum, hv]
    exact hx
  · rw [lpcSample_history (by omega) hk, ← hsum]
    rcases hb with h | ⟨v, hv, hx⟩
    · rw [h]; rfl
    · rw [hv]; exact hx

/-- R32, R345 and log entry 24. -/
theorem exec_pack_missing {i : Nat} (h : s.MissingAt c s.hdr.blocksize.toNat i) (hv : s.fstate = .verified)
    (hb : 1 ≤ s.hdr.bps.toNat ∧ s.hdr.bps.toNat ≤ 32) (hc : c.val < s.hdr.channels.toNat)
    (hf : ∀ d : Fin 8, d < c → s.Filled d s.hdr.blocksize.toNat) :
    exec .pack s = .fault (.unwrittenSample c.val i) :=
  (if_pos hv).trans (runCommand_halt (packOp_missing h hb hc hf))

end

end Sys2Proof.Machine

namespace Sys2Proof.Proofs
open Sys2Proof.Machine

/-- Settles O52: a restore raises at the first index where its walk has no value, a tag row where the walk of its section
or the shift after it has none (`unstorable`), and the entries are read before any is computed. -/
theorem restoreOverflows : Obligations.RestoreOverflows := by
  unfold Obligations.RestoreOverflows
  intro s c
  refine ⟨?fixedRestore, ?lpcRestore, ?fixedRow, ?lpcRow, ?missing⟩
  case fixedRestore =>
    intro k x r m h1 hk hm path hread hg hb
    exact exec_restoreFixed_overflow h1 hk hm hread hg hb
  case lpcRestore =>
    intro k x r m _ hk hm path sum hread hg hb
    exact exec_restoreLpc_overflow hk hm rfl (fun _ => rfl) hread hg hb
  case fixedRow =>
    intro k wasted warm sec hs hw hd d bits hlen hv hl hc ha hun
    rw [exec_row]
    have hbody : (fun c => (Body.fixed k [] sec).op c) = fun c => fixedBody c warm.length := by rw [hlen]; rfl
    rw [← hlen] at hl hun
    obtain ⟨t, ht⟩ := subframeFixed_unstorable hs hw hd (by omega) hv hl hc ha hun
    rw [hbody]
    exact field_raised hs.valid (within_subframeAfterTag subframe_sameShown (fun _ _ => rfl) _
      fun c => within_fixedBody subframe_sameShown (fun _ _ => rfl) c _) ht
  case lpcRow =>
    intro order wasted precision shift warm coeff sec hs hw hd hp1 hp15 hsh d k bits hlen hv hcl hcf hl hc ha hun
    rw [← hlen] at hl hcl
    obtain ⟨t, ht⟩ := subframeLpc_unstorable hs hw hd (by omega) hv hp1 hp15 hsh hcl hcf hl hc ha hun
    rw [hlen] at ht
    exact field_raised hs.valid (within_subframeAfterTag subframe_sameShown (fun _ _ => rfl) _
      fun c => within_lpcBody subframe_sameShown (fun _ _ => rfl) c _) ht
  case missing =>
    rintro i ⟨hi, habsent, hbefore⟩
    have h : s.MissingAt c s.hdr.blocksize.toNat i := ⟨hi, habsent, hbefore⟩
    exact ⟨fun k h1 hk => runField_halt (restoreFixed_missing h (by omega) hk),
      fun k hk => runField_halt (restoreLpc_missing h hk),
      fun ha hc => runField_halt (decorrelateOp_missing h ha hc),
      fun hv hb1 hb32 hc hf => exec_pack_missing h hv ⟨hb1, hb32⟩ hc hf⟩

end Sys2Proof.Proofs

/-! ## Proofs: two reads and one (20_memory.md rule R67) -/

namespace Sys2Proof.Machine

/-- A byte of IN is the window of its eight stream bits (R12, R67). -/
theorem window_byte (m : Memory) (a : Nat) : window m (8 * a) 8 = (m.read a).toNat := by
  apply Nat.eq_of_testBit_eq
  intro i
  rw [window_testBit, BitVec.testBit_toNat]
  by_cases hi : i < 8
  · have hbyte : (8 * a + (8 - 1 - i)) / 8 = a := by omega
    have hbit : 7 - (8 * a + (8 - 1 - i)) % 8 = i := by omega
    rw [streamBit, hbyte, hbit, decide_eq_true hi, Bool.true_and]
  · rw [decide_eq_false hi, Bool.false_and, BitVec.getLsbD_of_ge _ _ (by omega)]

/-- What two reads return, the first shifted past the second, is what one read of both widths returns (R67). -/
theorem window_split (m : Memory) (p a b : Nat) :
    (BitVec.ofNat 64 (window m p a) <<< b) ||| BitVec.ofNat 64 (window m (p + a) b)
      = BitVec.ofNat 64 (window m p (a + b)) := by
  have hshift : BitVec.ofNat 64 (window m p a) <<< b = BitVec.ofNat 64 (window m p a <<< b) := by
    apply BitVec.eq_of_toNat_eq
    rw [BitVec.toNat_shiftLeft, BitVec.toNat_ofNat, BitVec.toNat_ofNat, Nat.shiftLeft_eq, Nat.shiftLeft_eq, Nat.mod_mul_mod]
  rw [hshift, ← BitVec.ofNat_or, ← window_append_or]

/-- A finished read leaves a ready cursor where it ends. -/
theorem State.Ready.readTo_atRest {s : State} (hs : s.Ready) {p : Nat} (r : Word64) (hp : s.admissible p) :
    (s.readTo p r).atRest.Ready :=
  ⟨hs.valid, hp, rfl⟩

theorem readTo_atRest_position (s : State) (p : Nat) (r : Word64) : (s.readTo p r).atRest.position = p :=
  readTo_position s p r

end Sys2Proof.Machine

namespace Sys2Proof.Proofs
open Sys2Proof.Machine

/-- Settles O26: each of the three reads answers a window (`readBits`), and the window of both widths is the first,
shifted, with the second (`window_split`). -/
theorem readsCompose : Obligations.ReadsCompose := by
  unfold Obligations.ReadsCompose
  refine ⟨fun a b s hs ha hb hab hadm => ?_, window_byte⟩
  have hsum : (a + b).toNat = a.toNat + b.toNat := by bv_omega
  have hmid : s.admissible (s.position + a.toNat) := admissible_mono hadm (Nat.le_add_right _ _)
  have first := readBits a s hs ha (by omega) hmid
  have hs' := hs.readTo_atRest (BitVec.ofNat 64 (window s.input s.position a.toNat)) hmid
  have second := readBits b _ hs' hb (by omega) (by rw [readTo_atRest_position]; exact hadm)
  have whole := readBits (a + b) s hs (by omega) (by omega) (by rwa [hsum, ← Nat.add_assoc])
  refine ⟨_, _, _, first, second, whole, ?_, ?_⟩
  · rw [hsum, readTo_atRest_position]
    exact window_split s.input s.position a.toNat b.toNat
  · rw [readTo_atRest_position, readTo_atRest_position, readTo_atRest_position, hsum, Nat.add_assoc]

end Sys2Proof.Proofs

/-! ## Proofs: where BufferOverrun is raised (40_bitcursor.md rule R133, 60_exceptions.md rules R387 and R390)

The laws of a stream cut short say where an operation raises (`Op.Overruns`). Here they become ends of commands, and the
cuts of fields that no layout describes are added: a number whose continuation bytes are any of the form, alone and in a
header, an LPC row in its shift, and a procedure without its first fields. -/

namespace Sys2Proof.Machine

/-! ### Commands whose step overruns -/

/-- A primitive command whose step overruns ends as that raise in the state it began in: what the step wrote before is
unspecified there. -/
theorem runCommand_overruns {vlu : Bool} {op : Op Unit} {s : State} (hw : Op.Within (Reads vlu) ReadsRaise op)
    (h : op.Overruns s) : runCommand .primitive op s = .next (takeRaise .primitive .bufferOverrun s) := by
  obtain ⟨t, ht⟩ := h
  rw [runCommand_raise ht, (hw.error ht).1.takeRaise]

/-- So does a row, or a procedure, of a subframe. -/
theorem field_overruns {op : Op Unit} {s : State} (hs : s.Ready)
    (hw : Op.Within (Same fun s => (s.shown, s.hdr)) (Anyhow (Same fun s => (s.shown, s.hdr))) op) (h : op.Overruns s) :
    needCursor s (runField .frame op s) = .next (takeRaise .frame .bufferOverrun s) :=
  let ⟨_, ht⟩ := h
  field_raised hs.valid hw ht

/-- A header parse that overruns rejects the header (R204, R205). -/
theorem exec_parseFrameHeader_overruns {s : State} (hs : s.Ready) (hbit : s.bit = 0) (h : parseHeader.Overruns s) :
    exec .parseFrameHeader s = .next (takeRaise .frame .bufferOverrun s.rejectHeader) := by
  obtain ⟨t, ht⟩ := h
  have hshown : Same State.shown s t := (within_parseHeader header_sameShown fun _ _ => rfl).error ht
  have hhdr : t.hdr = s.rejectHeader.hdr := by
    obtain ⟨v, -, rfl⟩ := of_rejecting_error ht
    exact congrArg freeHeader (congrArg (fun x => x.2.2.2.2.2) hshown)
  have hrun : exec .parseFrameHeader s = .next (takeRaise .frame .bufferOverrun t) :=
    (needCursor_valid _ hs.valid).trans ((needRange_in _ (by rw [hbit]; rfl)).trans (runCommand_raise ht))
  rw [hrun, takeRaise_shown (s := s.rejectHeader) hshown hhdr]

/-- A frame whose steps overrun. -/
theorem exec_decodeFrame_overruns {a : BitVec 32} {s t u : State} (ha : a.toNat < 2 ^ 29)
    (h : frameSteps a.toNat s = .error (.raise .bufferOverrun) t) (hshown : Same State.shown u t) (hhdr : t.hdr = u.hdr) :
    exec (.decodeFrame a) s = .next (takeRaise .frame .bufferOverrun u) := by
  have hrun : exec (.decodeFrame a) s = .next (takeRaise .frame .bufferOverrun t) :=
    (needRange_in _ (decide_eq_true ha)).trans (by rw [h]; rfl)
  rw [hrun, takeRaise_shown hshown hhdr]

/-! ### The frame -/

theorem admissible_byte {s : State} {n : Nat} : s.admissible (8 * n) ↔ n + 4 ≤ s.params.cap := by
  rw [State.admissible, Nat.mul_div_cancel_left n (by decide)]

/-- A frame whose start is not admissible (R361). -/
theorem frameSteps_cutStart {s : State} {a : Nat} (h : ¬ a + 4 ≤ s.params.cap) :
    ∃ t, frameSteps a s = .error (.raise .bufferOverrun) t ∧ Same State.shown (s.withBuffers false s.ch) t
      ∧ t.hdr = s.invalidated.hdr :=
  ⟨_, bind_error (frameStart_overrun (mt admissible_byte.1 h)), rfl, rfl⟩

/-! ### Reads and the flush -/

section
variable {s : State}

/-- A ready cursor stands at its own position. -/
theorem Op.Overruns.atPosition {α : Type} {x : Op α} (hs : s.Ready) (h : x.Overruns (s.readTo s.position s.res)) :
    x.Overruns s := by
  rwa [hs.readTo_self] at h

/-- A fixed-width read that overruns passes both checks first (R150). -/
theorem guardedRead_overruns {α : Type} {op : Op α} {inRange : Bool} (hs : s.Ready) (hr : inRange = true)
    (hw : Op.Within (Reads false) ReadsRaise op) (h : op.Overruns (s.readTo s.position s.res)) :
    needCursor s (needRange inRange s (runCommand .primitive (discard op) s)) =
      .next (takeRaise .primitive .bufferOverrun s) := by
  rw [needCursor_valid _ hs.valid, needRange_in _ hr]
  exact runCommand_overruns (within_discard hw) (h.atPosition hs).discard

/-- A variable-length read that overruns, of either form. -/
theorem vluRead_overruns {wide : Bool} (hs : s.Ready) (h : (readVlu wide).Overruns (s.readTo s.position s.res)) :
    needCursor s (runCommand .primitive (discard (readVlu wide)) s) = .next (takeRaise .primitive .bufferOverrun s) := by
  rw [needCursor_valid _ hs.valid]
  exact runCommand_overruns (within_discard (within_readVlu reads_vlu wide)) (h.atPosition hs).discard

/-- A flush that leaves the stream (R148). -/
theorem exec_flush_overruns (hs : s.Ready) (hbit : s.bit ≠ 0) (h : ¬ s.admissible (s.position + (8 - s.bit.val))) :
    exec .flushToByteBoundary s = .next (takeRaise .primitive .bufferOverrun s) := by
  have h0 : s.bit.val ≠ 0 := fun e => hbit (Fin.ext e)
  have hround : (s.position + 7) / 8 * 8 = s.position + (8 - s.bit.val) := by simp only [State.position]; omega
  exact (needCursor_valid _ hs.valid).trans
    (runCommand_overruns (within_flush (reads_cursor false)) (flush_cut (by rwa [hround]) hs.admissible))

end

/-! ### Numbers -/

section
variable {u : State} {p : Nat} {r : Word64}

/-- A read at an admissible end answers the window there. -/
theorem readBits_window {n : Nat} (hu : u.curValid = true) (hn : n ≤ 32) (h : u.admissible (p + n)) :
    readBits n (u.readTo p r) =
      .ok (window u.input p n) (u.readTo (p + n) (BitVec.ofNat 64 (window u.input p n))) :=
  readBits_at hu hn (window_lt _ _ _) (window_carries (Nat.mod_eq_of_lt (window_lt _ _ _)).symm) h

/-- Continuation bytes of the form `10xxxxxx`, and then one that leaves the stream (R142). -/
theorem vluContinue_cutByte {c j : Nat} (hu : u.curValid = true) (hp : u.admissible p) (hj : j < c)
    (hgood : ∀ i, i < j → window u.input (p + 8 * i) 8 / 64 = 2) (h : ¬ u.admissible (p + 8 * (j + 1))) :
    (vluContinue c).Overruns (u.readTo p r) := by
  induction j generalizing u p r c with
  | zero =>
    obtain ⟨c, rfl⟩ : ∃ d, c = d + 1 := ⟨c - 1, by omega⟩
    exact (readBits_cut hu (by omega) hp h).bind
  | succ j ih =>
    obtain ⟨c, rfl⟩ : ∃ d, c = d + 1 := ⟨c - 1, by omega⟩
    by_cases ha : u.admissible (p + 8)
    · have hfirst : window u.input p 8 / 2 ^ 6 = 0b10 := hgood 0 (by omega)
      refine overruns_after (readBits_window hu (by omega) ha) ?_
      rw [if_pos hfirst]
      simp only [vluAppend, updateSeq, Op.Overruns, update_bind, readTo_mapSeq]
      refine ih hu ha (by omega) (fun i hi => ?_) ?_
      · have := hgood (i + 1) (by omega)
        rwa [show p + 8 * (i + 1) = p + 8 + 8 * i by omega] at this
      · rwa [show p + 8 + 8 * (j + 1) = p + 8 * (j + 1 + 1) by omega]
    · exact (readBits_cut hu (by omega) hp ha).bind

/-- A number without its lead byte (R142). -/
theorem readVlu_cutLead {wide : Bool} (hu : u.curValid = true) (hp : u.admissible p) (h : ¬ u.admissible (p + 8)) :
    (readVlu wide).Overruns (u.readTo p r) := by
  simp only [readVlu, updateSeq, Op.Overruns, update_bind, readTo_mapSeq]
  exact (readBits_cut (u := u.mapSeq _) hu (by omega) hp h).bind

/-- A number whose lead byte stands in the stream and whose continuation bytes leave it (R142). -/
theorem readVlu_cutByte {c v j : Nat} {wide : Bool} (hu : u.curValid = true) (hp : u.admissible p)
    (hc : c ≤ if wide then 6 else 5) (hv : v < 2 ^ vluValueBits c) (hcar : carries u.input p (vluHead c v) = true)
    (hj : j < c) (hgood : ∀ i, i < j → window u.input (p + 8 * (i + 1)) 8 / 64 = 2)
    (h : ¬ u.admissible (p + 8 * (j + 2))) : (readVlu wide).Overruns (u.readTo p r) := by
  by_cases ha : u.admissible (p + 8)
  · obtain ⟨hf, hlt⟩ := vluHead_field (by split at hc <;> omega) hv
    rw [hf] at hcar
    simp only [readVlu, updateSeq, Op.Overruns, update_bind, readTo_mapSeq]
    refine overruns_after (readBits_at (u := u.mapSeq fun q => { q with vluWide := wide }) hu (by omega) hlt hcar ha) ?_
    rw [vluLeadClass_lead hc hv]
    simp only [vluAfterLead, updateSeq, Op.Overruns, update_bind, readTo_mapSeq]
    refine (vluContinue_cutByte (u := (u.mapSeq fun q => { q with vluWide := wide }).mapSeq _) hu ha hj (fun i hi => ?_) ?_).bind
    · have := hgood i hi
      rwa [show p + 8 * (i + 1) = p + 8 + 8 * i by omega] at this
    · rwa [show p + 8 + 8 * (j + 1) = p + 8 * (j + 2) by omega]
  · exact readVlu_cutLead hu hp ha

/-! ### A header whose word steps 1 to 6 accept -/

theorem blocksizeOf_reserved {bsc : BitVec 4} : blocksizeOf bsc = .reserved ↔ bsc = 0 := by
  revert bsc; decide

theorem sampleRateOf_reserved {si : StreamInfo} {src : BitVec 4} : sampleRateOf si src = .reserved ↔ src = 15 := by
  rcases src with ⟨src⟩
  fin_cases src <;> simp [sampleRateOf]

theorem channelsOf_isSome {chn : BitVec 4} : (channelsOf chn).isSome = true ↔ chn.toNat < 11 := by
  revert chn; decide

theorem bpsOf_reserved {si : StreamInfo} {bpc : BitVec 3} : bpsOf si bpc = .reserved ↔ bpc = 3 := by
  rcases bpc with ⟨bpc⟩
  fin_cases bpc <;> simp [bpsOf]

/-- Steps 1 to 6 on a word they accept (R191 to R198). -/
theorem headerWord_accepts {w : BitVec 32} {s : State} (h : ¬ rejectedWord w) :
    headerWord w s = .ok () ((s.mapSeq fun q =>
      { q with blk := w.getLsbD 16, bsc := w.extractLsb' 12 4, src := w.extractLsb' 8 4 }).mapHdr
        (headerWordRecord s.streamInfo (w.extractLsb' 12 4) (w.extractLsb' 8 4) (w.extractLsb' 4 4)
          (w.extractLsb' 1 3))) := by
  simp only [rejectedWord, not_or] at h
  obtain ⟨hsync, h17, h0, hbsc, hsrc, hchn, hbpc⟩ := h
  have happly := applyHeaderWord_ok (blk := w.getLsbD 16) (s := s) (mt blocksizeOf_reserved.1 hbsc)
    (mt sampleRateOf_reserved.1 hsrc) (channelsOf_isSome.2 (not_le.1 hchn)) (mt bpsOf_reserved.1 hbpc)
  rw [headerWord, if_neg hsync, bind_ok happly, if_neg (not_or.2 ⟨h17, h0⟩)]
  rfl

/-- `BLK` is stream bit 15 of the header (R94). -/
theorem window_blk (m : Memory) (p : Nat) : (BitVec.ofNat 32 (window m p 32)).getLsbD 16 = streamBit m (p + 15) := by
  rw [BitVec.getLsbD_ofNat, window_testBit]
  rfl

/-- The entry of a parse (R190). -/
theorem headerBegin_at : headerBegin (u.readTo p r) =
    .ok () (((u.mapHdr fun x => { x with valid := false }).mapSeq fun q => { q with start := p / 8 }).readTo p r) := by
  simp only [headerBegin, setHdrValid, updateHdr, updateSeq, update_bind, view_bind, readTo_mapHdr, readTo_byte,
    update_apply, readTo_mapSeq]

/-- The number's form is one that step 7 reads (R199). -/
theorem State.numberBegins.form {s : State} {c v : Nat} (h : s.numberBegins c v) :
    c ≤ if variableBlocksize s.streamInfo (streamBit s.input (s.position + 15)) then 6 else 5 := by
  obtain ⟨-, -, -, hform, -⟩ := h
  rcases hform with h5 | ⟨rfl, hvar⟩
  · split <;> omega
  · rw [if_pos (by simpa [variableBlocksize] using hvar)]

theorem Op.Overruns.rejecting {x : Op Unit} {s : State} (h : x.Overruns s) : (rejecting x).Overruns s :=
  let ⟨_, ht⟩ := h
  ⟨_, rejecting_error ht⟩

/-- A header cut in its first word (R191). -/
theorem parseHeader_cutWord (hu : u.curValid = true) (hp : u.admissible p) (h : ¬ u.admissible (p + 32)) :
    parseHeader.Overruns (u.readTo p r) :=
  (overruns_after headerBegin_at (readBits_cut (u := (u.mapHdr _).mapSeq _) hu (by omega) hp h).bind).rejecting

/-- A header cut in its number, after good continuation bytes (R199, R387). -/
theorem parseHeader_cutNumber {c v j : Nat} (hu : u.curValid = true) (hp : u.admissible p)
    (hw : ¬ rejectedWord (BitVec.ofNat 32 (window u.input p 32))) (hv : v < 2 ^ vluValueBits c)
    (hc : c ≤ if variableBlocksize u.streamInfo (streamBit u.input (p + 15)) then 6 else 5)
    (hcar : carries u.input (p + 32) (vluHead c v) = true) (hj : j < c)
    (hgood : ∀ i, i < j → window u.input (p + 32 + 8 * (i + 1)) 8 / 64 = 2)
    (h : ¬ u.admissible (p + 32 + 8 * (j + 2))) : parseHeader.Overruns (u.readTo p r) := by
  by_cases ha : u.admissible (p + 32)
  · refine (overruns_after headerBegin_at (overruns_after (readBits_window (u := (u.mapHdr _).mapSeq _) hu (by omega) ha)
      (overruns_after (headerWord_accepts hw) (Op.Overruns.bind ?_)))).rejecting
    simp only [readTo_mapSeq, readTo_mapHdr, headerNumber, Op.Overruns, view_bind]
    rw [← window_blk] at hc
    exact (readVlu_cutByte (u := ((((u.mapHdr _).mapSeq _).mapSeq _).mapHdr _)) hu ha hc hv hcar hj hgood h).bind
  · exact parseHeader_cutWord hu hp ha

end

/-! ### The parts of a subframe -/

section
variable {s u : State} {p : Nat} {r : Word64}

theorem within_bodyOp {R : State → State → Prop} {E : Stop → State → State → Prop} (hR : SubframeWrites R E) (hE : MayHalt E)
    (b : Body) (c : Fin 8) : Op.Within R E (b.op c) := by
  cases b with
  | constant v => exact within_constantBody hR c
  | verbatim xs => exact within_verbatimBody hR c
  | fixed k xs sec => exact within_fixedBody hR hE c _
  | lpc o precision shift coeff xs sec => exact within_lpcBody hR hE c _

/-- A tag row that overruns. -/
theorem tagRow_overruns {w : Bool} {body : Fin 8 → Op Unit} (hs : s.Ready)
    (hb : ∀ c, Op.Within (Same fun s => (s.shown, s.hdr)) (Anyhow (Same fun s => (s.shown, s.hdr))) (body c))
    (h : (subframeAfterTag w body).Overruns (s.readTo s.position s.res)) :
    needCursor s (runField .frame (subframeAfterTag w body) s) = .next (takeRaise .frame .bufferOverrun s) :=
  field_overruns hs (within_subframeAfterTag subframe_sameShown (fun _ _ => rfl) w hb) (h.atPosition hs)

/-- An LPC subframe cut in its shift, whatever its sign (R228). -/
theorem subframeLpc_cutShift {wasted precision : Nat} {warm : List Int} (hs : s.Ready) (hd : depthAllowed s.wide s.seq.base)
    (hw : wasted < s.seq.base) (hk : warm.length ≤ s.hdr.blocksize.toNat)
    (hv : ∀ v ∈ warm, fitsBits (s.seq.base - wasted) v = true) (hp1 : 1 ≤ precision) (hp15 : precision ≤ 15)
    {bits : List Bool} (hbits : bits = wastedCode wasted ++ warm.flatMap (signedBits (s.seq.base - wasted)))
    (hc : carries s.input s.position (bits ++ fieldBits 4 (precision - 1)) = true)
    (ha : s.admissible (s.position + bits.length + 4)) (h : ¬ s.admissible (s.position + bits.length + 4 + 5)) :
    (subframeAfterTag (wasted != 0) fun c => lpcBody c warm.length).Overruns (s.readTo s.position s.res) := by
  subst hbits
  rw [carries_append, Bool.and_eq_true] at hc
  obtain ⟨r, hr⟩ := warmed_at (u := s) (r := s.res) (c := s.seq.chan) (ty := .lpc) hs.valid rfl hd hw hk rfl hv rfl
    hc.1 (admissible_mono ha (Nat.le_add_right _ _))
  have hcut := lpcParameters_cutShift (u := s.warmed .lpc wasted warm) (r := r) (k := warm.length) hs.valid hp1 hp15 hc.2 ha h
  have hgo := overruns_after (f := fun _ => do
    lpcParameters warm.length; decodeResidual s.seq.chan warm.length; restoreLpc s.seq.chan warm.length
    restoreWasted s.seq.chan) hr hcut.bind
  simpa only [subframeAfterTag, Op.Overruns, view_bind, readTo_seq, lpcBody, bind_assoc] using hgo

/-- A row of a partition that the stream cuts short (R254, R255). -/
theorem exec_partitionCut {i : Instr} (hs : s.Ready) (h : s.partitionCut i) :
    exec i s = .next (takeRaise .frame .bufferOverrun s) := by
  have hR := subframe_sameShown.toResidualWrites
  rcases h with ⟨kk, q, x, vs, hrow, hn, hv, hb, hend⟩ | ⟨w, vs, hrow, hw, hn, hv, hb, hend⟩
  · have hcut : kk ≤ 32 → needCursor s (runField .frame (ricePartition kk) s) = .next (takeRaise .frame .bufferOverrun s) :=
      fun hk => field_overruns hs (within_ricePartition hR kk)
        ((ricePartition_cut hs.valid hk hv hn hs.admissible hb hend).atPosition hs)
    rcases hrow with ⟨k, -, rfl, rfl⟩ | ⟨k, -, rfl, rfl⟩
    · exact hcut (by omega)
    · exact hcut (by omega)
  · have hcut : ∀ esc, needCursor s (runField .frame (escapePartition esc) s) = .next (takeRaise .frame .bufferOverrun s) :=
      fun esc => field_overruns hs (within_escapePartition hR esc)
        ((escapePartition_cut hs.valid hw hv hn hs.admissible hb hend).atPosition hs)
    rcases hrow with rfl | rfl
    · exact hcut 15
    · exact hcut 31

/-- A tag row that the stream cuts short (R221 to R228). -/
theorem exec_tagRowCut {i : Instr} (hs : s.Ready) (h : s.tagRowCut i) :
    exec i s = .next (takeRaise .frame .bufferOverrun s) := by
  have hR := subframe_sameShown
  have hE : MayHalt (Anyhow (Same fun s : State => (s.shown, s.hdr))) := fun _ _ => rfl
  rcases h with ⟨q, ⟨hb, hend⟩, hrow⟩ | ⟨lay, rfl, hd, hl, hb, hend⟩
    | ⟨order, wasted, precision, warm, rfl, hd, hw, hk, hlen, hv, hp1, hp15, hc, ha, hend⟩
  · have hcut : ∀ body : Fin 8 → Op Unit, (∀ c, Op.Within _ _ (body c)) →
        needCursor s (runField .frame (subframeAfterTag true body) s) = .next (takeRaise .frame .bufferOverrun s) :=
      fun body hbody => tagRow_overruns hs hbody
        (subframeAfterTag_zeros hs.valid hs.admissible hb (by rwa [unaryBits_length] at hend))
    have hreserved : ∀ c, Op.Within _ _ (rejectType c) := fun _ => within_raise hR.toComposable _
    rcases hrow with ⟨b, rfl⟩ | ⟨x, rfl⟩ | ⟨x, rfl⟩ | ⟨x, rfl⟩ | rfl | ⟨x, rfl⟩
    · rw [exec_row]
      exact hcut _ (within_bodyOp hR hE b)
    · exact hcut _ hreserved
    · exact hcut _ hreserved
    · exact hcut _ hreserved
    · exact hcut _ fun c => within_fixedBody hR hE c 5
    · exact hcut _ fun c => within_fixedBody hR hE c (6 + x.toNat)
  · rw [exec_row]
    exact tagRow_overruns hs (within_bodyOp hR hE lay.body)
      (subframeAfterTag_cut hs.valid rfl rfl hd hl hs.admissible hb hend)
  · simp only [List.length_append, fieldBits_length, ← Nat.add_assoc] at ha hend
    have hcut := subframeLpc_cutShift hs hd hw (by omega) hv hp1 hp15 rfl hc
      (by rwa [List.length_append, ← Nat.add_assoc]) (by rwa [List.length_append, ← Nat.add_assoc])
    rw [hlen] at hcut
    exact tagRow_overruns hs (fun c => within_lpcBody hR hE c _) hcut

/-- `decode_subframe` without its tag (R220). -/
theorem decodeSubframe_cutTag {c : Fin 8} {base : Nat} (hu : u.curValid = true) (hp : u.admissible p)
    (h : ¬ u.admissible (p + 8)) : (decodeSubframe c base).Overruns (u.readTo p r) := by
  simp only [decodeSubframe, updateSeq, Op.Overruns, update_bind, readTo_mapSeq]
  exact (readBits_cut (u := u.mapSeq _) hu (by omega) hp h).bind

/-- `decode_residual` without its method (R250). -/
theorem decodeResidual_cutMethod {c : Fin 8} {k : Nat} (hu : u.curValid = true) (hp : u.admissible p)
    (h : ¬ u.admissible (p + 2)) : (decodeResidual c k).Overruns (u.readTo p r) := by
  simp only [decodeResidual, updateSeq, Op.Overruns, update_bind, readTo_mapSeq]
  exact (readBits_cut (u := u.mapSeq _) hu (by omega) hp h).bind

/-- `decode_residual` without its partition order (R250, R252). -/
theorem decodeResidual_cutOrder {m : Nat} {c : Fin 8} {k : Nat} (hu : u.curValid = true)
    (hp : u.admissible p) (hm : m < 2) (hc : carries u.input p (fieldBits 2 m) = true) (h : ¬ u.admissible (p + 6)) :
    (decodeResidual c k).Overruns (u.readTo p r) := by
  by_cases ha : u.admissible (p + 2)
  · simp only [decodeResidual, updateSeq, Op.Overruns, update_bind, readTo_mapSeq]
    refine overruns_after (readBits_at (u := u.mapSeq _) hu (by omega) (by omega) hc ha) ?_
    rw [if_neg (by omega)]
    simp only [setMethod, updateRp, Op.Overruns, update_bind, readTo_mapRp]
    exact (readBits_cut (u := (u.mapSeq _).mapRp _) hu (by omega) ha h).bind
  · exact decodeResidual_cutMethod hu hp ha

/-- A part of a subframe that the stream cuts short. -/
theorem exec_partCut {i : Instr} (hs : s.Ready) (h : s.partCut i) :
    exec i s = .next (takeRaise .frame .bufferOverrun s) := by
  have hR := subframe_sameShown
  have hsub : ∀ c base, (decodeSubframe c base).Overruns (s.readTo s.position s.res) →
      exec (.decodeSubframe c base) s = .next (takeRaise .frame .bufferOverrun s) := fun c base hcut =>
    field_overruns hs (within_decodeSubframe hR (fun _ _ => rfl) c base) (hcut.atPosition hs)
  have hres : ∀ c (k : Fin 33), (decodeResidual c k.val).Overruns (s.readTo s.position s.res) →
      exec (.decodeResidual c k) s = .next (takeRaise .frame .bufferOverrun s) := fun c k hcut =>
    field_overruns hs (within_decodeResidual hR.toResidualWrites c k.val) (hcut.atPosition hs)
  rcases h with h | h | ⟨c, base, rfl, htag⟩ | ⟨c, k, rfl, hmethod | ⟨m, hm, hc, horder⟩⟩ | ⟨c, base, lay, rfl, hd, hl, hb, hend⟩
    | ⟨c, k, sec, rfl, hl, hb, hend⟩
  · exact exec_partitionCut hs h
  · exact exec_tagRowCut hs h
  · exact hsub c base (decodeSubframe_cutTag hs.valid hs.admissible htag)
  · exact hres c k (decodeResidual_cutMethod hs.valid hs.admissible hmethod)
  · exact hres c k (decodeResidual_cutOrder hs.valid hs.admissible hm hc horder)
  · exact hsub c base (decodeSubframe_cut hs.valid hd hl hs.admissible hb hend)
  · exact hres c k (decodeResidual_cut hs.valid hl hs.admissible hb hend)

end

end Sys2Proof.Machine

namespace Sys2Proof.Proofs
open Sys2Proof.Machine

/-- Settles O21, clause by clause: the laws of a stream cut short say that the step of each command overruns, and a raise
shows nothing of what the step wrote before it. -/
theorem bufferOverrunRaised : Obligations.BufferOverrunRaised := by
  unfold Obligations.BufferOverrunRaised
  intro s
  refine ⟨?checksums, ?frameStart, ?frameHeader, ?frame, fun hs => ⟨fun i => exec_partCut hs, ?reads32, ?reads64,
    exec_flush_overruns hs, ?vluLead, ?vluByte, ?headerWord, ?header, ?headerNumber⟩⟩
  case checksums =>
    intro a b hb h
    exact ⟨runCommand_raise (discard_error (crc8Op_error hb (by omega))),
      runCommand_raise (discard_error (crc16Op_error hb (by omega)))⟩
  case frameStart =>
    intro a ha h
    obtain ⟨t, ht, hshown, hhdr⟩ := frameSteps_cutStart (s := s) (a := a.toNat) (by omega)
    exact exec_decodeFrame_overruns ha ht hshown hhdr
  case frameHeader =>
    intro a lay ha hl hb hp h
    obtain ⟨t, ht, hshown, hhdr⟩ := frameSteps_cutHeader hl (admissible_byte.2 hp) hb
      (by rw [← Nat.mul_add, admissible_byte]; omega)
    exact exec_decodeFrame_overruns ha ht hshown hhdr
  case frame =>
    intro a f ha hl hb hp h h8
    obtain ⟨t, ht, hshown⟩ := frameSteps_cut hl hb (by rw [← Nat.mul_add, admissible_byte]; exact hp) h8
      (by rw [← Nat.mul_add, admissible_byte]; omega)
    exact exec_decodeFrame_overruns ha ht (congrArg Prod.fst hshown) (congrArg Prod.snd hshown)
  case reads32 =>
    intro n h1 h32 h
    have hr := readRange32_iff.2 ⟨h1, h32⟩
    exact ⟨guardedRead_overruns hs hr (within_readBits (reads_cursor false) _) (readBits_cut hs.valid h32 hs.admissible h),
      guardedRead_overruns hs hr (within_readSigned (reads_cursor false) _) (readSigned_cut hs.valid h32 hs.admissible h)⟩
  case reads64 =>
    intro n h1 h64 h
    have hr := readRange64_iff.2 ⟨h1, h64⟩
    exact ⟨guardedRead_overruns hs hr (within_readBits64 (reads_cursor false) _) (readBits64_cut hs.valid hs.admissible h),
      guardedRead_overruns hs hr (within_readSigned64 (reads_cursor false) _) (readSigned64_cut hs.valid hs.admissible h)⟩
  case vluLead =>
    intro h
    exact ⟨vluRead_overruns hs (readVlu_cutLead hs.valid hs.admissible h),
      vluRead_overruns hs (readVlu_cutLead hs.valid hs.admissible h)⟩
  case vluByte =>
    intro c v j _ hv hcar hj hgood h
    exact ⟨fun h5 => vluRead_overruns hs (readVlu_cutByte hs.valid hs.admissible h5 hv hcar hj hgood h),
      fun h6 => vluRead_overruns hs (readVlu_cutByte hs.valid hs.admissible h6 hv hcar hj hgood h)⟩
  case headerWord =>
    intro hbit h
    exact exec_parseFrameHeader_overruns hs hbit ((parseHeader_cutWord hs.valid hs.admissible h).atPosition hs)
  case header =>
    intro lay hbit hl hb h
    exact exec_parseFrameHeader_overruns hs hbit ((parseHeader_cut hs.valid hl hs.admissible hb h).atPosition hs)
  case headerNumber =>
    intro c v j hbit hbegins hj hgood h
    have hform := hbegins.form
    obtain ⟨hw, -, hv, -, hcar⟩ := hbegins
    exact exec_parseFrameHeader_overruns hs hbit
      ((parseHeader_cutNumber hs.valid hs.admissible hw hv hform hcar hj hgood h).atPosition hs)

end Sys2Proof.Proofs

/-! ## Proofs: encodings (30_encoding.md rules R91 to R108)

A command word is its three fields, so both directions of decoding come down to the fields of `cmdWord`. The fields of the
bitstream have at most 32 bits: the header word is taken apart by its layout (`headerWord_fields`), the others are small
enough to look at every word of a row. -/

namespace Sys2Proof.Machine

/-! ### Command words (R91) -/

section
variable (op : BitVec 8) (a b : BitVec 32)

@[simp] theorem cmdOp_cmdWord : cmdOp (cmdWord op a b) = op :=
  (BitVec.extractLsb'_append_eq_of_le (by decide)).trans BitVec.extractLsb'_append_eq_left

@[simp] theorem cmdA_cmdWord : cmdA (cmdWord op a b) = a :=
  (BitVec.extractLsb'_append_eq_of_le (by decide)).trans BitVec.extractLsb'_append_eq_right

@[simp] theorem cmdB_cmdWord : cmdB (cmdWord op a b) = b := BitVec.extractLsb'_append_eq_right

end

/-- A command word is its three fields. -/
theorem cmdWord_fields (w : CmdWord) : cmdWord (cmdOp w) (cmdA w) (cmdB w) = w := by
  have hi : cmdOp w ++ cmdA w = w.extractLsb' 32 40 := BitVec.extractLsb'_append_extractLsb'_eq_extractLsb' rfl
  rw [cmdWord, hi]
  exact (BitVec.extractLsb'_append_extractLsb'_eq_extractLsb' rfl).trans BitVec.extractLsb'_eq_self

/-! ### Decoding what is encoded -/

/-- A command's opcode selects its row, and the operands it does not use are 0 in its word (R91, R92). -/
theorem decode_encode_command {i : Instr} (h : i.format = some .cmd72) : decode .cmd72 (encode i) = .ok i := by
  cases i with
  | readUnary | readVariableLengthUint32 | readVariableLengthUint64 | flushToByteBoundary | positionBits
  | parseFrameHeader | pack => simp [encode, decode, decodeCommand, useNone]
  | cursorNew a | readBits a | readBits64 a | readSigned a | readSigned64 a | seekBits a | seekBytes a
  | decodeFrame a => simp [encode, decode, decodeCommand, useA]
  | crc8 a b | crc16 a b => simp [encode, decode, decodeCommand, useAB]
  | _ => cases h

theorem decode_encode_headerWord (blk : Bool) (bsc src chn : BitVec 4) (bpc : BitVec 3) :
    decode .hdrw32 (encode (.frameHeaderWord blk bsc src chn bpc)) = .ok (.frameHeaderWord blk bsc src chn bpc) := by
  obtain ⟨hsync, hblk, hbsc, hsrc, hchn, hbpc, h17, h0⟩ := headerWord_fields blk bsc src chn bpc
  simp only [decode, decodeHeaderWord]
  rw [if_neg (not_not.2 hsync), h17, h0, hblk, hbsc, hsrc, hchn, hbpc]
  rfl

theorem decode_encode_nibble {i : Instr} (h : i.format = some .chn4) : decode .chn4 (encode i) = .ok i := by
  cases i with
  | chnLeftSide | chnRightSide | chnMidSide | chnReserved11 => rfl
  | chnIndependent n => revert n; decide
  | chnReserved12to15 x => revert x; decide
  | _ => cases h

theorem decode_encode_tag {i : Instr} (h : i.format = some .tag8) : decode .tag8 (encode i) = .ok i := by
  cases i with
  | subframeConstant w | subframeVerbatim w | subframeFixed0 w | subframeFixed1 w | subframeFixed2 w
  | subframeFixed3 w | subframeFixed4 w | subframeFixedOrder5 w => cases w <;> rfl
  | subframeLpc o w => revert o w; decide
  | subframeReservedT2to3 x w | subframeReservedT4to7 x w | subframeFixedOrder6to7 x w
  | subframeReservedT16to31 x w => revert x w; decide
  | subframeTagBit7 x => revert x; decide
  | _ => cases h

theorem decode_encode_method {i : Instr} (h : i.format = some .method2) : decode .method2 (encode i) = .ok i := by
  cases i with
  | residualMethodRice4 | residualMethodRice5 => rfl
  | residualMethodReserved x => revert x; decide
  | _ => cases h

/-- A Rice parameter is below the escape pattern, which the escape row takes first (R106). -/
theorem decode_encode_param4 {i : Instr} (hw : i.wellFormed = true) (h : i.format = some .param4) :
    decode .param4 (encode i) = .ok i := by
  cases i with
  | partitionEscape4 => rfl
  | partitionRice4 k => revert k; decide
  | _ => cases h

theorem decode_encode_param5 {i : Instr} (hw : i.wellFormed = true) (h : i.format = some .param5) :
    decode .param5 (encode i) = .ok i := by
  cases i with
  | partitionEscape5 => rfl
  | partitionRice5 k => revert k; decide
  | _ => cases h

theorem decode_encode_vluLead {i : Instr} (h : i.format = some .vluLead8) : decode .vluLead8 (encode i) = .ok i := by
  cases i with
  | vluLead7byte | vluLeadFf => rfl
  | vluLead1byte x | vluLead2byte x | vluLead3byte x | vluLead4byte x | vluLead5byte x | vluLead6byte x
  | vluLeadContinuation x => revert x; decide
  | _ => cases h

theorem decode_encode_vluContinuation {i : Instr} (h : i.format = some .vluCont8) :
    decode .vluCont8 (encode i) = .ok i := by
  cases i with
  | vluContinuation x => revert x; decide
  | _ => cases h

/-- A stored checksum is any word of its width (R99, R108). -/
theorem decode_encode_checksum {i : Instr} {f : Format} (hf : f = .footer16 ∨ f = .crc8f) (h : i.format = some f) :
    decode f (encode i) = .ok i := by
  rcases hf with rfl | rfl
  · cases i with
    | frameFooter c => simp [decode, encode]
    | _ => cases h
  · cases i with
    | headerCrc8 c => simp [decode, encode]
    | _ => cases h

/-! ### Encoding what is decoded -/

/-- `w` is the word of the well-formed instruction `i` in format `f`. -/
abbrev IsWordOf (f : Format) (w : Nat) (i : Instr) : Prop :=
  i.wellFormed = true ∧ i.format = some f ∧ encode i = w

theorem useA_ok_iff {f : BitVec 32 → Instr} {w : CmdWord} {i : Instr} :
    useA f w = .ok i ↔ cmdB w = 0 ∧ f (cmdA w) = i := by
  rw [useA]
  split
  · next hb => simp [hb]
  · next hb => exact ⟨nofun, fun e => absurd e.1 hb⟩

theorem useNone_ok_iff {j : Instr} {w : CmdWord} {i : Instr} :
    useNone j w = .ok i ↔ (cmdA w = 0 ∧ cmdB w = 0) ∧ j = i := by
  rw [useNone]
  split
  · next hab => simp [hab]
  · next hab => exact ⟨nofun, fun e => absurd e.1 hab⟩

/-- A word that decodes has one of the opcodes of R92 and is the word of the command of that opcode. -/
theorem decodeCommand_isWordOf {w : CmdWord} {i : Instr} (h : decodeCommand w = .ok i) :
    IsWordOf .cmd72 w.toNat i := by
  have fields : ∀ {op : Nat}, (cmdOp w).toNat = op → w = cmdWord (BitVec.ofNat 8 op) (cmdA w) (cmdB w) := by
    rintro _ rfl
    rw [BitVec.ofNat_toNat, BitVec.setWidth_eq, cmdWord_fields]
  have none : ∀ {op : Nat} {j : Instr}, (cmdOp w).toNat = op → IsWordOf .cmd72 (cmdWord (BitVec.ofNat 8 op) 0 0).toNat j →
      useNone j w = .ok i → IsWordOf .cmd72 w.toNat i := by
    intro op j hop hj hu
    obtain ⟨⟨ha, hb⟩, rfl⟩ := useNone_ok_iff.1 hu
    rwa [fields hop, ha, hb]
  have a : ∀ {op : Nat} {f : BitVec 32 → Instr}, (cmdOp w).toNat = op →
      (∀ x, IsWordOf .cmd72 (cmdWord (BitVec.ofNat 8 op) x 0).toNat (f x)) →
      useA f w = .ok i → IsWordOf .cmd72 w.toNat i := by
    intro op f hop hf hu
    obtain ⟨hb, rfl⟩ := useA_ok_iff.1 hu
    have hw := hf (cmdA w)
    rwa [← hb, ← fields hop] at hw
  have ab : ∀ {op : Nat} {f : BitVec 32 → BitVec 32 → Instr}, (cmdOp w).toNat = op →
      (∀ x y, IsWordOf .cmd72 (cmdWord (BitVec.ofNat 8 op) x y).toNat (f x y)) →
      useAB f w = .ok i → IsWordOf .cmd72 w.toNat i := by
    intro op f hop hf hu
    obtain rfl := useAB_ok hu
    have hw := hf (cmdA w) (cmdB w)
    rwa [← fields hop] at hw
  simp only [decodeCommand] at h
  split at h
  · next hop => exact a hop (fun _ => ⟨rfl, rfl, rfl⟩) h
  · next hop => exact a hop (fun _ => ⟨rfl, rfl, rfl⟩) h
  · next hop => exact a hop (fun _ => ⟨rfl, rfl, rfl⟩) h
  · next hop => exact a hop (fun _ => ⟨rfl, rfl, rfl⟩) h
  · next hop => exact a hop (fun _ => ⟨rfl, rfl, rfl⟩) h
  · next hop => exact none hop ⟨rfl, rfl, rfl⟩ h
  · next hop => exact none hop ⟨rfl, rfl, rfl⟩ h
  · next hop => exact none hop ⟨rfl, rfl, rfl⟩ h
  · next hop => exact a hop (fun _ => ⟨rfl, rfl, rfl⟩) h
  · next hop => exact a hop (fun _ => ⟨rfl, rfl, rfl⟩) h
  · next hop => exact none hop ⟨rfl, rfl, rfl⟩ h
  · next hop => exact none hop ⟨rfl, rfl, rfl⟩ h
  · next hop => exact ab hop (fun _ _ => ⟨rfl, rfl, rfl⟩) h
  · next hop => exact ab hop (fun _ _ => ⟨rfl, rfl, rfl⟩) h
  · next hop => exact none hop ⟨rfl, rfl, rfl⟩ h
  · next hop => exact a hop (fun _ => ⟨rfl, rfl, rfl⟩) h
  · next hop => exact none hop ⟨rfl, rfl, rfl⟩ h
  · cases h

/-- The words of the rows with fewer than nine bits, each looked at. -/
theorem isWordOf_decodeChannelNibble : ∀ w : BitVec 4, IsWordOf .chn4 w.toNat (decodeChannelNibble w) := by decide

theorem isWordOf_decodeTag : ∀ w : BitVec 8, IsWordOf .tag8 w.toNat (decodeTag w) := by decide

theorem isWordOf_decodeMethod : ∀ w : BitVec 2, IsWordOf .method2 w.toNat (decodeMethod w) := by decide

theorem isWordOf_decodeParam4 : ∀ w : BitVec 4, IsWordOf .param4 w.toNat (decodeParam4 w) := by decide

theorem isWordOf_decodeParam5 : ∀ w : BitVec 5, IsWordOf .param5 w.toNat (decodeParam5 w) := by decide

theorem isWordOf_decodeVluLead : ∀ w : BitVec 8, IsWordOf .vluLead8 w.toNat (decodeVluLead w) := by decide

theorem decodeVluContinuation_isWordOf {w : BitVec 8} {i : Instr} (h : decodeVluContinuation w = .ok i) :
    IsWordOf .vluCont8 w.toNat i := by
  have hword : ∀ w : BitVec 8, w &&& 0xC0 = 0x80 → IsWordOf .vluCont8 w.toNat (.vluContinuation (w.extractLsb' 0 6)) := by
    decide
  simp only [decodeVluContinuation] at h
  split at h
  · next hw => cases h; exact hword w hw
  · cases h

/-- One bit as a field. -/
theorem ofBool_getLsbD {n : Nat} (w : BitVec n) (i : Nat) : BitVec.ofBool (w.getLsbD i) = w.extractLsb' i 1 := by
  apply BitVec.eq_of_getLsbD_eq
  intro j hj
  obtain rfl : j = 0 := by omega
  simp

/-- A header word is its fields, the sync code and the reserved bits among them (R94). -/
theorem headerWord_eq_fields (w : BitVec 32) :
    w.extractLsb' 18 14 ++ BitVec.ofBool (w.getLsbD 17) ++ BitVec.ofBool (w.getLsbD 16) ++ w.extractLsb' 12 4
      ++ w.extractLsb' 8 4 ++ w.extractLsb' 4 4 ++ w.extractLsb' 1 3 ++ BitVec.ofBool (w.getLsbD 0) = w := by
  have join : ∀ {p q m n : Nat}, p = q + n → w.extractLsb' p m ++ w.extractLsb' q n = w.extractLsb' q (m + n) := fun h =>
    BitVec.extractLsb'_append_extractLsb'_eq_extractLsb' h
  simp only [ofBool_getLsbD]
  rw [join (by rfl), join (by rfl), join (by rfl), join (by rfl), join (by rfl), join (by rfl), join (by rfl)]
  exact BitVec.extractLsb'_eq_self

/-- A header word that decodes is that of its fields: the sync code is right and the reserved bits are 0 (R94). -/
theorem decodeHeaderWord_isWordOf {w : BitVec 32} {i : Instr} (h : decodeHeaderWord w = .ok i) :
    IsWordOf .hdrw32 w.toNat i := by
  simp only [decodeHeaderWord] at h
  split at h
  · cases h
  · next hsync =>
    split at h
    · cases h
    · next hreserved =>
      cases h
      simp only [not_or, Bool.not_eq_true] at hreserved
      obtain ⟨h17, h0⟩ := hreserved
      have hw := headerWord_eq_fields w
      rw [not_not.1 hsync, h17, h0] at hw
      exact ⟨rfl, rfl, congrArg BitVec.toNat hw⟩

end Sys2Proof.Machine

namespace Sys2Proof.Proofs
open Sys2Proof.Machine

/-- Settles O1, format by format. -/
theorem decodeOfEncode : Obligations.DecodeOfEncode := by
  unfold Obligations.DecodeOfEncode
  intro i f hw hf
  cases f with
  | cmd72 => exact decode_encode_command hf
  | hdrw32 =>
    cases i with
    | frameHeaderWord blk bsc src chn bpc => exact decode_encode_headerWord blk bsc src chn bpc
    | _ => cases hf
  | chn4 => exact decode_encode_nibble hf
  | tag8 => exact decode_encode_tag hf
  | method2 => exact decode_encode_method hf
  | param4 => exact decode_encode_param4 hw hf
  | param5 => exact decode_encode_param5 hw hf
  | vluLead8 => exact decode_encode_vluLead hf
  | vluCont8 => exact decode_encode_vluContinuation hf
  | footer16 => exact decode_encode_checksum (.inl rfl) hf
  | crc8f => exact decode_encode_checksum (.inr rfl) hf

/-- Settles O2, format by format: a word below the width is the bit vector its format decodes. -/
theorem encodeOfDecode : Obligations.EncodeOfDecode := by
  unfold Obligations.EncodeOfDecode
  intro f w i hlt h
  have ofNat : ∀ {n : Nat}, w < 2 ^ n → (BitVec.ofNat n w).toNat = w := fun hn => by
    rw [BitVec.toNat_ofNat, Nat.mod_eq_of_lt hn]
  rw [← ofNat hlt]
  cases f with
  | cmd72 => exact decodeCommand_isWordOf h
  | hdrw32 => exact decodeHeaderWord_isWordOf h
  | vluCont8 => exact decodeVluContinuation_isWordOf h
  | chn4 => cases h; exact isWordOf_decodeChannelNibble _
  | tag8 => cases h; exact isWordOf_decodeTag _
  | method2 => cases h; exact isWordOf_decodeMethod _
  | param4 => cases h; exact isWordOf_decodeParam4 _
  | param5 => cases h; exact isWordOf_decodeParam5 _
  | vluLead8 => cases h; exact isWordOf_decodeVluLead _
  | footer16 | crc8f => cases h; exact ⟨rfl, rfl, rfl⟩

end Sys2Proof.Proofs

/-! ## Proofs: whole frames (48_frame_decoder.md rules R360 to R371)

The steps of `decode_frame` on a frame the stream carries are the subject of `frameSteps_at`. For `decode_next_frame` the
packer is added: it reads the samples the frame left in CH, and packs each into as many bytes. -/

namespace Sys2Proof.Machine

/-- `decode_frame` of a frame of the format, its checksums good and its samples storable. -/
theorem exec_decodeFrame_verified {s : State} {a : BitVec 32} {f : FrameLayout} {outs : List (List Int)}
    (ha : a.toNat < 2 ^ 29) (hl : f.legal s.params s.streamInfo = true)
    (hc : carries s.input (8 * a.toNat) (f.bits s.streamInfo) = true)
    (hcap : a.toNat + f.length s.streamInfo + 4 ≤ s.params.cap)
    (h8 : s.params.checkCrc8 = true → crc8Of (bytesAt s.input a.toNat (f.header.length - 1)) = f.crc8)
    (h16 : crc16Of (bytesAt s.input a.toNat (f.length s.streamInfo)) = 0)
    (hout : f.samples s.params s.streamInfo = some outs) :
    ∃ rp, exec (.decodeFrame a) s = .next (f.after outs rp s) := by
  obtain ⟨rp, t, ht, hafter⟩ := frameSteps_at hl hc (by rw [← Nat.mul_add, admissible_byte]; exact hcap) h8 h16 hout
  refine ⟨rp, (needRange_in _ (decide_eq_true ha)).trans ?_⟩
  rw [ht, ← hafter]
  rfl

theorem FrameLayout.legal_bps {p : Params} {si : StreamInfo} {f : FrameLayout} (h : f.legal p si = true) :
    1 ≤ (f.record si).bps.toNat ∧ (f.record si).bps.toNat ≤ 32 := by
  simp only [FrameLayout.legal, Bool.and_eq_true, decide_eq_true_eq] at h
  obtain ⟨⟨⟨⟨⟨⟨-, h1⟩, h32⟩, -⟩, -⟩, -⟩, -⟩ := h
  exact ⟨h1, h32⟩

/-! ### What a frame leaves in CH -/

/-- Writes of other channels leave a channel. -/
theorem foldl_write_holds {cxs : List (Fin 8 × List Int)} {f : ChannelFile} {d : Fin 8} {xs : List Int}
    (hd : ∀ cx ∈ cxs, cx.1 ≠ d) (h : f.Holds d xs) : (cxs.foldl (fun f cx => f.write cx.1 0 cx.2) f).Holds d xs := by
  induction cxs generalizing f with
  | nil => exact h
  | cons cx cxs ih =>
    exact ih (fun e he => hd e (List.mem_cons_of_mem _ he)) (write_other_holds (hd cx (List.mem_cons_self ..)) _ h)

/-- Writes of distinct channels leave each of them. -/
theorem foldl_write_holds_mem {cxs : List (Fin 8 × List Int)} {f : ChannelFile} {d : Fin 8} {xs : List Int}
    (hn : (cxs.map Prod.fst).Nodup) (hm : (d, xs) ∈ cxs) :
    (cxs.foldl (fun f cx => f.write cx.1 0 cx.2) f).Holds d xs := by
  induction cxs generalizing f with
  | nil => cases hm
  | cons cx cxs ih =>
    obtain ⟨hhead, htail⟩ := List.nodup_cons.1 hn
    rcases List.mem_cons.1 hm with rfl | hm
    · exact foldl_write_holds (cxs := cxs) (fun e he hed => hhead (List.mem_map.2 ⟨e, he, hed⟩)) (write_holds _ _ _)
    · exact ih htail hm

/-- CH with some channels holds each of them. -/
theorem holding_holds {chans : List (List Int)} {c : Fin 8} (hc : c.val < chans.length) :
    (ChannelFile.holding chans).Holds c chans[c.val] := by
  refine foldl_write_holds_mem ?_ (List.mem_iff_getElem.2 ⟨c.val, by simp [hc], by simp⟩)
  rw [zip_map_fst]
  exact (List.nodup_finRange 8).sublist (List.take_sublist _ _)

/-- The packer reads the channels a frame left, from channel `j` on (R345). -/
theorem readChannels_holding {s : State} {chans : List (List Int)} {n j m : Nat} (hch : s.ch = ChannelFile.holding chans)
    (h8 : chans.length ≤ 8) (hn : ∀ x ∈ chans, x.length = n) (hm : j + m = chans.length) :
    readChannels n (List.range' j m) s = .ok (chans.drop j) s := by
  induction m generalizing j with
  | zero =>
    rw [List.drop_of_length_le (by omega)]
    rfl
  | succ m ih =>
    have hj8 : j < 8 := by omega
    have hj : j < chans.length := by omega
    have hread : readSamples ⟨j, hj8⟩ n s = .ok chans[j] s := by
      rw [← hn _ (List.getElem_mem hj)]
      exact readSamples_ok (hch ▸ holding_holds (c := ⟨j, hj8⟩) hj)
    rw [List.range'_succ]
    simp only [readChannels, dif_pos hj8]
    rw [bind_ok hread, bind_ok (ih (by omega)), pure_apply, List.drop_eq_getElem_cons hj]

/-- Two channels of one length and their pairs under a partial map have that length. -/
theorem zipOption_lengths {α : Type} {g : Int → Int → Option α} {x y : List Int} {z : List α} {n : Nat}
    (hn : ∀ t ∈ [x, y], t.length = n) (h : zipOption g x y = some z) : x.length = n ∧ y.length = n ∧ z.length = n := by
  have hx := hn x (by simp)
  have hy := hn y (by simp)
  exact ⟨hx, hy, (zipOption_length h (hx.trans hy.symm)).trans hx⟩

/-- The stereo transform keeps the number of channels and their length (R321 to R324). -/
theorem decorrelated_lengths {mode : NarrowOverflow} {wide : Bool} {a : Assignment} {chans outs : List (List Int)} {n : Nat}
    (hn : ∀ x ∈ chans, x.length = n) (h : decorrelated mode wide a chans = some outs) :
    outs.length = chans.length ∧ ∀ x ∈ outs, x.length = n := by
  unfold decorrelated at h
  split at h
  · obtain ⟨z, hz, rfl⟩ := Option.map_eq_some_iff.1 h
    simp [zipOption_lengths hn hz]
  · obtain ⟨z, hz, rfl⟩ := Option.map_eq_some_iff.1 h
    simp [zipOption_lengths hn hz]
  · obtain ⟨z, hz, rfl⟩ := Option.map_eq_some_iff.1 h
    simp [zipOption_lengths hn hz]
  · cases h
    exact ⟨rfl, hn⟩

/-! ### The packer (R340 to R345) -/

theorem interleave_length (n : Nat) (chans : List (List Int)) : (interleave n chans).length = n * chans.length := by
  induction n generalizing chans with
  | zero => simp [interleave]
  | succ n ih => simp [interleave, ih, Nat.succ_mul, Nat.add_comm]

/-- The packed samples are those of the channels. -/
theorem mem_of_mem_interleave {n : Nat} {chans : List (List Int)} {v : Int} (hn : ∀ x ∈ chans, x.length = n)
    (hv : v ∈ interleave n chans) : ∃ x ∈ chans, v ∈ x := by
  induction n generalizing chans with
  | zero => cases hv
  | succ n ih =>
    rcases List.mem_append.1 hv with hv | hv
    · obtain ⟨x, hx, rfl⟩ := List.mem_map.1 hv
      match x, hn x hx with
      | y :: ys, _ => exact ⟨_, hx, List.mem_cons_self ..⟩
    · obtain ⟨t, ht, hvt⟩ := ih (by simpa using fun x hx => by rw [hn x hx]; rfl) hv
      obtain ⟨x, hx, rfl⟩ := List.mem_map.1 ht
      exact ⟨x, hx, List.mem_of_mem_tail hvt⟩

theorem littleEndian_length (n w : Nat) : (littleEndian n w).length = n := by
  induction n generalizing w with
  | zero => rfl
  | succ n ih => simp [littleEndian, ih]

/-- A sample takes B bytes (R341). -/
theorem sampleBytes_length (bps : Nat) (v : Int) : (sampleBytes bps v).length = (bps + 7) / 8 := littleEndian_length _ _

/-- `pack` of channels held in CH whose samples are in its range writes all of OUT and ends Packed. -/
theorem packOp_ok {s : State} {chans : List (List Int)} (hch : s.ch = ChannelFile.holding chans)
    (hC : chans.length = s.hdr.channels.toNat) (h8 : chans.length ≤ 8)
    (hn : ∀ x ∈ chans, x.length = s.hdr.blocksize.toNat) (hb : 1 ≤ s.hdr.bps.toNat ∧ s.hdr.bps.toNat ≤ 32)
    (hfit : s.wide = true → ∀ x ∈ chans, ∀ v ∈ x, fits32 v = true) :
    ∃ bytes, packOp s = .ok () ((s.withOut bytes).withFState .packed)
      ∧ bytes.length = s.hdr.blocksize.toNat * s.hdr.channels.toNat * ((s.hdr.bps.toNat + 7) / 8) := by
  have hp : packable s.hdr.bps.toNat = true := by simp [packable, hb]
  have hread := readChannels_holding (j := 0) hch h8 hn (Nat.zero_add _)
  have hall : (interleave s.hdr.blocksize.toNat chans).all (packChecked s.wide) = true := by
    refine List.all_eq_true.2 fun v hv => ?_
    obtain ⟨x, hx, hvx⟩ := mem_of_mem_interleave hn hv
    cases hw : s.wide with
    | false => rfl
    | true => exact hfit hw x hx v hvx
  refine ⟨((interleave s.hdr.blocksize.toNat chans).map (sampleBytes s.hdr.bps.toNat)).flatten, ?_, ?_⟩
  · simp only [packOp, view_bind, hp, Bool.not_true, Bool.false_eq_true, if_false]
    rw [List.range_eq_range', ← hC, bind_ok hread, List.drop_zero, if_pos hall]
    rfl
  · rw [List.length_flatten, List.map_map, ← hC, ← interleave_length]
    simp [Function.comp_def, sampleBytes_length]

theorem exec_pack_verified {s : State} (h : s.fstate = .verified) : exec .pack s = runCommand .frame packOp s := if_pos h

/-- `decode_next_frame` after a `decode_frame` that answered (R371). -/
theorem exec_decodeNextFrame_of {s t : State} {a : BitVec 32} (ha : a.toNat < 2 ^ 29)
    (h : exec (.decodeFrame a) s = .next t) :
    exec (.decodeNextFrame a) s = if t.fstate = .verified then exec .pack t else .next t := by
  refine (needRange_in _ (decide_eq_true ha)).trans ?_
  rw [show execDecodeFrame a s = .next t from h]
  rfl

end Sys2Proof.Machine

namespace Sys2Proof.Proofs
open Sys2Proof.Machine

/-- Settles O57: the steps on a frame the stream carries end in the state the statement names, but for the cursor, which
the end of the attempt drops (R372). -/
theorem decodeFrame : Obligations.DecodeFrame := by
  unfold Obligations.DecodeFrame
  intro s a f outs ha hl hc hcap h8 h16 hout
  exact exec_decodeFrame_verified ha hl hc hcap h8 h16 hout

/-- Settles O59: `pack` follows a `decode_frame` that ended Verified (`exec_decodeNextFrame_of`); after a frame of the format
it reads the samples that frame left (`packOp_ok`). -/
theorem decodeNextFrame : Obligations.DecodeNextFrame := by
  unfold Obligations.DecodeNextFrame
  refine ⟨fun s t a ha hd => ?_, fun s a f outs ha hl hc hcap h8 h16 hout hfit => ?_⟩
  · rw [exec_decodeNextFrame_of ha hd]
    exact ⟨fun hv => if_pos hv, fun hv => if_neg hv⟩
  · obtain ⟨rp, hd⟩ := exec_decodeFrame_verified ha hl hc hcap h8 h16 hout
    obtain ⟨hcount, hmax, -, hlen⟩ := FrameLayout.legal_channels hl
    obtain ⟨hlength, hn⟩ := decorrelated_lengths hlen hout
    rw [List.length_map, hcount] at hlength
    obtain ⟨bytes, hpack, hbytes⟩ := packOp_ok (s := f.after outs rp s) rfl hlength (hlength ▸ hmax) hn
      (FrameLayout.legal_bps hl) hfit
    have hv : (f.after outs rp s).fstate = .verified := rfl
    refine ⟨rp, bytes, ?_, hbytes⟩
    rw [exec_decodeNextFrame_of ha hd, if_pos hv, exec_pack_verified hv, runCommand_ok hpack]
    rfl

end Sys2Proof.Proofs

/-! ## Proofs: variable-length integers (40_bitcursor.md rules R142 to R144)

What `ReadVLU` does on carried bytes is the subject of `readVlu_at` and `vluAfterLead_at`. Here a malformed byte is added:
a lead byte by its window, and a continuation byte after good ones. -/

namespace Sys2Proof.Machine

/-- A variable-length read that answers ends the command there, whatever the sequencer held meanwhile. -/
theorem vluRead_next {wide ok : Bool} {s : State} {q : Sequencer → Sequencer} {p : Nat} {r : Word64} {v : Option Nat}
    (hs : s.Ready) (h : readVlu wide (s.readTo s.position s.res) = .ok v (((s.mapSeq q).withOk ok).readTo p r)) :
    needCursor s (runCommand .primitive (discard (readVlu wide)) s) = .next ((s.withOk ok).readTo p r).atRest := by
  rw [hs.readTo_self] at h
  rw [needCursor_valid _ hs.valid, runCommand_ok (discard_ok h)]
  rfl

/-- The lead bytes that begin no form (R101): a continuation pattern, all ones, and `11111110` in the 32-bit form. -/
theorem vluLeadClass_malformed : ∀ (wide : Bool) (b : Nat), b < 256 →
    (128 ≤ b ∧ b < 192 ∨ b = 254 ∧ wide = false ∨ b = 255) → vluLeadClass wide b = none := by
  intro wide b hb h
  have hwide : ¬ (b = 0b11111110 ∧ wide = true) := by
    rintro ⟨rfl, rfl⟩
    simp at h
  have hrange : 128 ≤ b ∧ b < 192 ∨ 254 ≤ b := by
    rcases h with h | h | h <;> omega
  simp only [vluLeadClass]
  rw [if_neg (by omega), if_neg (by omega), if_neg (by omega), if_neg (by omega), if_neg (by omega), if_neg (by omega),
    if_neg hwide]

section
variable {u : State} {p : Nat} {r : Word64}

/-- Continuation bytes of the form `10xxxxxx`, and then one that is not (R142). -/
theorem vluContinue_badByte {c j : Nat} (hu : u.curValid = true) (hj : j < c)
    (hgood : ∀ i, i < j → window u.input (p + 8 * i) 8 / 64 = 2) (hbad : window u.input (p + 8 * j) 8 / 64 ≠ 2)
    (h : u.admissible (p + 8 * (j + 1))) :
    ∃ v r', vluContinue c (u.readTo p r) =
      .ok false ((u.mapSeq fun q => { q with vlu := v }).readTo (p + 8 * (j + 1)) r') := by
  induction j generalizing u p r c with
  | zero =>
    obtain ⟨c, rfl⟩ : ∃ d, c = d + 1 := ⟨c - 1, by omega⟩
    have hfirst : ¬ window u.input p 8 / 2 ^ 6 = 0b10 := hbad
    refine ⟨u.seq.vlu, BitVec.ofNat 64 (window u.input p 8), ?_⟩
    rw [vluContinue, bind_ok (readBits_window (n := 8) hu (by omega) h), if_neg hfirst]
    rfl
  | succ j ih =>
    obtain ⟨c, rfl⟩ : ∃ d, c = d + 1 := ⟨c - 1, by omega⟩
    have hfirst : window u.input p 8 / 2 ^ 6 = 0b10 := hgood 0 (by omega)
    have hend : p + 8 + 8 * (j + 1) = p + 8 * (j + 1 + 1) := by omega
    obtain ⟨v, r', hrest⟩ := ih (u := u.mapSeq fun q => { q with vlu := (q.vlu <<< 6) ||| window u.input p 8 % 2 ^ 6 })
      (p := p + 8) (r := BitVec.ofNat 64 (window u.input p 8)) (c := c) hu (by omega)
      (fun i hi => by rw [show p + 8 + 8 * i = p + 8 * (i + 1) by omega]; exact hgood (i + 1) (by omega))
      (by rw [show p + 8 + 8 * j = p + 8 * (j + 1) by omega]; exact hbad) (by rw [hend]; exact h)
    rw [hend] at hrest
    refine ⟨v, r', ?_⟩
    rw [vluContinue, bind_ok (readBits_window hu (by omega) (admissible_mono h (by omega))), if_pos hfirst]
    exact hrest

/-- A number with a malformed continuation byte fails just after that byte (R142). -/
theorem readVlu_badByte {c v j : Nat} {wide : Bool} (hu : u.curValid = true)
    (hc : c ≤ if wide then 6 else 5) (hv : v < 2 ^ vluValueBits c) (hcar : carries u.input p (vluHead c v) = true)
    (hj : j < c) (hgood : ∀ i, i < j → window u.input (p + 8 * (i + 1)) 8 / 64 = 2)
    (hbad : window u.input (p + 8 * (j + 1)) 8 / 64 ≠ 2) (h : u.admissible (p + 8 * (j + 2))) :
    ∃ q, readVlu wide (u.readTo p r) =
      .ok none (((u.mapSeq q).withOk false).readTo (p + 8 * (j + 2)) (vluSentinel wide)) := by
  obtain ⟨hf, hlt⟩ := vluHead_field (by split at hc <;> omega) hv
  rw [hf] at hcar
  have hend : p + 8 + 8 * (j + 1) = p + 8 * (j + 2) := by omega
  obtain ⟨x, r', hcont⟩ := vluContinue_badByte (c := c) (j := j) (p := p + 8) (r := BitVec.ofNat 64 (vluLead c v))
    (u := (u.mapSeq fun q => { q with vluWide := wide }).mapSeq fun q => { q with vlu := v >>> (6 * c) }) hu hj
    (fun i hi => by rw [show p + 8 + 8 * i = p + 8 * (i + 1) by omega]; exact hgood i hi)
    (by rw [show p + 8 + 8 * j = p + 8 * (j + 1) by omega]; exact hbad) (by rw [hend]; exact h)
  rw [hend] at hcont
  refine ⟨fun q => { q with vluWide := wide, vlu := x }, ?_⟩
  simp only [readVlu, updateSeq, update_bind, readTo_mapSeq]
  rw [bind_ok (readBits_at (u := u.mapSeq fun q => { q with vluWide := wide }) hu (by omega) hlt hcar
    (admissible_mono h (by omega))), vluLeadClass_lead hc hv]
  simp only [vluAfterLead, updateSeq, update_bind, readTo_mapSeq]
  rw [bind_ok hcont]
  rfl

end

/-! ### The byte rows -/

/-- The lead row of a value reads as many continuation bytes as its form has, after the value's leading bits (R101). -/
theorem exec_vluLeadRow {c v : Nat} {s : State} (hc : c ≤ 6) (hv : v < 2 ^ vluValueBits c)
    (hwide : c = 6 → s.seq.vluWide = true) :
    exec (vluLeadRow c v) s =
      needCursor s (runField .primitive (discard (vluAfterLead (v >>> (6 * c)) c)) s) := by
  have row : ∀ {n k m : Nat}, v < 2 ^ (n + k) →
      needCursor s (runField .primitive (discard (vluAfterLead (BitVec.ofNat n (v >>> k)).toNat m)) s) =
        needCursor s (runField .primitive (discard (vluAfterLead (v >>> k) m)) s) := fun {n k m} h => by
    have hlt : v >>> k < 2 ^ n := by
      rw [Nat.shiftRight_eq_div_pow]
      exact Nat.div_lt_of_lt_mul (by rwa [← Nat.pow_add, Nat.add_comm])
    rw [BitVec.toNat_ofNat, Nat.mod_eq_of_lt hlt]
  obtain rfl | rfl | rfl | rfl | rfl | rfl | rfl : c = 0 ∨ c = 1 ∨ c = 2 ∨ c = 3 ∨ c = 4 ∨ c = 5 ∨ c = 6 := by omega
  · exact row (n := 7) (k := 0) hv
  · exact row (n := 5) (k := 6) hv
  · exact row (n := 4) (k := 12) hv
  · exact row (n := 3) (k := 18) hv
  · exact row (n := 2) (k := 24) hv
  · exact row (n := 1) (k := 30) hv
  · have hzero : v >>> 36 = 0 := Nat.shiftRight_eq_zero _ _ hv
    simp only [vluLeadRow, exec, execVluLead7byte, hwide rfl, hzero, if_true]

/-- A malformed lead row fails where it stands (R142). -/
theorem runField_vluFail {s : State} (hs : s.Ready) :
    needCursor s (runField .primitive (discard vluFail) s) =
      .next ((s.withOk false).withRes (vluSentinel s.seq.vluWide)) := by
  rw [needCursor_valid _ hs.valid, runField_ok (discard_ok (vluFail_apply s))]

end Sys2Proof.Machine

namespace Sys2Proof.Proofs
open Sys2Proof.Machine

/-- Settles O30: each read on a carried number of a form it accepts (`readVlu_at`). -/
theorem vluRead : Obligations.VluRead := by
  unfold Obligations.VluRead
  intro s c v hs hv hcar h
  exact ⟨fun h5 => vluRead_next hs (readVlu_at (wide := false) hs.valid h5 hv hcar h),
    fun h6 => vluRead_next hs (readVlu_at (wide := true) hs.valid h6 hv hcar h)⟩

/-- Settles O31: a malformed lead byte (`readVlu_badLead`), and a malformed continuation byte (`readVlu_badByte`). -/
theorem vluMalformed : Obligations.VluMalformed := by
  unfold Obligations.VluMalformed
  intro s hs
  refine ⟨fun h => ?_, fun c v j _ hv hcar hj hgood hbad h => ?_⟩
  · have hlt : window s.input s.position 8 < 256 := window_lt _ _ _
    have hcar := window_carries (m := s.input) (p := s.position) (n := 8) (Nat.mod_eq_of_lt hlt).symm
    have bad : ∀ wide, vluLeadClass wide (window s.input s.position 8) = none →
        needCursor s (runCommand .primitive (discard (readVlu wide)) s) =
          .next ((s.withOk false).readTo (s.position + 8) (vluSentinel wide)).atRest := fun wide hclass =>
      vluRead_next hs (readVlu_badLead hs.valid hlt hclass hcar h)
    exact ⟨fun hb => bad false (vluLeadClass_malformed _ _ hlt (by simpa using hb)),
      fun hb => bad true (vluLeadClass_malformed _ _ hlt (by simpa using hb))⟩
  · have bad : ∀ wide, (c ≤ if wide then 6 else 5) →
        needCursor s (runCommand .primitive (discard (readVlu wide)) s) =
          .next ((s.withOk false).readTo (s.position + 8 * (j + 2)) (vluSentinel wide)).atRest := fun wide hc =>
      let ⟨_, hread⟩ := readVlu_badByte hs.valid hc hv hcar hj hgood hbad h
      vluRead_next hs hread
    exact ⟨fun h5 => bad false h5, fun h6 => bad true h6⟩

/-- Settles O33: the lead rows by their form (`exec_vluLeadRow`), the malformed ones as the failed read, and the
continuation row by the value it makes. -/
theorem vluRows : Obligations.VluRows := by
  unfold Obligations.VluRows
  intro s hs
  refine ⟨fun c v hc hv hwide hcar h => ?_, fun hnarrow => ?_, fun _ => runField_vluFail hs, runField_vluFail hs,
    fun x => ?_⟩
  · have hread := vluAfterLead_at (r := s.res) hs.valid hcar h
    rw [hs.readTo_self] at hread
    rw [exec_vluLeadRow hc hv hwide, needCursor_valid _ hs.valid, runField_ok (discard_ok hread)]
  · have hfail := runField_vluFail hs
    rw [hnarrow] at hfail
    simp only [exec, execVluLead7byte, hnarrow]
    exact hfail
  · have happend : (s.seq.vlu <<< 6) ||| x.toNat = 64 * s.seq.vlu + x.toNat := by
      rw [Nat.shiftLeft_eq, Nat.mul_comm, ← Nat.two_pow_add_eq_or_of_lt x.isLt]
    refine (needCursor_valid _ hs.valid).trans ((runField_ok rfl).trans ?_)
    rw [State.mapSeq, State.mapSeq, happend]

end Sys2Proof.Proofs

/-! ## Proofs: subframe tags (43_subframe.md rules R220 to R230)

A tag row runs the operation that R223's tests select for its word, so what is known of the tests (`classify`) is known of
the rows. -/

namespace Sys2Proof.Machine

/-! ### The tests of R223 on the word of a row -/

/-- A tag byte is taken apart into its type and its flag (R102). -/
theorem subframeTag_tagByte (t : BitVec 6) (w : Bool) :
    subframeTag (tagByte t w) = subframeAfterTag w (classify t) := by
  have hparts : ∀ (t : BitVec 6) (w : Bool), (tagByte t w).getLsbD 7 = false ∧ (tagByte t w).getLsbD 0 = w
      ∧ (tagByte t w).extractLsb' 1 6 = t := by decide
  obtain ⟨h7, h0, ht⟩ := hparts t w
  rw [subframeTag, h7, h0, ht]
  rfl

/-- A type that is none of R223's four. -/
abbrev ReservedType (t : BitVec 6) : Prop :=
  t ≠ 0 ∧ t ≠ 1 ∧ t.getLsbD 5 = false ∧ (t.getLsbD 3 && !t.getLsbD 4) = false

theorem classify_reserved {t : BitVec 6} (h : ReservedType t) : classify t = rejectType := by
  obtain ⟨h0, h1, h5, h34⟩ := h
  funext c
  rw [classify, if_neg h0, if_neg h1, h5, h34]
  rfl

/-- A type `001xxx`, whatever its order (R223). -/
theorem classify_fixed (x : BitVec 3) : classify ((1 : BitVec 3) ++ x) = fun c => fixedBody c x.toNat := by
  have htests : ∀ x : BitVec 3, ((1 : BitVec 3) ++ x : BitVec 6) ≠ 0 ∧ ((1 : BitVec 3) ++ x : BitVec 6) ≠ 1
      ∧ ((1 : BitVec 3) ++ x).getLsbD 5 = false
      ∧ (((1 : BitVec 3) ++ x).getLsbD 3 && !((1 : BitVec 3) ++ x).getLsbD 4) = true
      ∧ ((1 : BitVec 3) ++ x).extractLsb' 0 3 = x := by decide
  obtain ⟨h0, h1, h5, h34, hx⟩ := htests x
  funext c
  rw [classify, if_neg h0, if_neg h1, h5, h34, hx]
  rfl

/-- A type `1ooooo` (R228). -/
theorem classify_lpc (o : BitVec 5) : classify ((1 : BitVec 1) ++ o) = fun c => lpcBody c (o.toNat + 1) := by
  have htests : ∀ o : BitVec 5, ((1 : BitVec 1) ++ o : BitVec 6) ≠ 0 ∧ ((1 : BitVec 1) ++ o : BitVec 6) ≠ 1
      ∧ ((1 : BitVec 1) ++ o).getLsbD 5 = true ∧ ((1 : BitVec 1) ++ o).extractLsb' 0 5 = o := by decide
  obtain ⟨h0, h1, h5, ho⟩ := htests o
  funext c
  rw [classify, if_neg h0, if_neg h1, h5, ho]
  rfl

/-- A tag row does what R220 and R223 do on its word. -/
theorem exec_tag {i : Instr} (h : i.format = some .tag8) (s : State) :
    exec i s = needCursor s (runField .frame (subframeTag (BitVec.ofNat 8 (encode i))) s) := by
  have row : ∀ {t : BitVec 6} {w : Bool} {body : Fin 8 → Op Unit}, classify t = body →
      needCursor s (runField .frame (subframeAfterTag w body) s) =
        needCursor s (runField .frame (subframeTag (BitVec.ofNat 8 (tagByte t w).toNat)) s) := by
    rintro t w _ rfl
    rw [BitVec.ofNat_toNat, BitVec.setWidth_eq, subframeTag_tagByte]
  have h2to3 : ∀ x : BitVec 1, ReservedType ((1 : BitVec 5) ++ x) := by decide
  have h4to7 : ∀ x : BitVec 2, ReservedType ((1 : BitVec 4) ++ x) := by decide
  have h16to31 : ∀ x : BitVec 4, ReservedType ((1 : BitVec 2) ++ x) := by decide
  cases i with
  | subframeConstant w => exact row rfl
  | subframeVerbatim w => exact row rfl
  | subframeFixed0 w => exact row (classify_fixed 0)
  | subframeFixed1 w => exact row (classify_fixed 1)
  | subframeFixed2 w => exact row (classify_fixed 2)
  | subframeFixed3 w => exact row (classify_fixed 3)
  | subframeFixed4 w => exact row (classify_fixed 4)
  | subframeLpc o w => exact row (classify_lpc o)
  | subframeReservedT2to3 x w => exact row (classify_reserved (h2to3 x))
  | subframeReservedT4to7 x w => exact row (classify_reserved (h4to7 x))
  | subframeReservedT16to31 x w => exact row (classify_reserved (h16to31 x))
  | subframeFixedOrder5 w => exact row (classify_fixed 5)
  | subframeFixedOrder6to7 x w =>
    have hx : ∀ x : BitVec 1, (7 : BitVec 5) ++ x = (1 : BitVec 3) ++ ((3 : BitVec 2) ++ x)
        ∧ ((3 : BitVec 2) ++ x).toNat = 6 + x.toNat := by decide
    exact row (by rw [(hx x).1, classify_fixed, (hx x).2])
  | subframeTagBit7 x =>
    have hx : ∀ x : BitVec 7, (BitVec.ofNat 8 (encode (.subframeTagBit7 x))).getLsbD 7 = true := by decide
    rw [subframeTag, if_pos (hx x)]
    rfl
  | _ => cases h

/-! ### Rejected tags -/

/-- A subframe whose type is rejected raises StructuralError after its wasted-bits code, be it by the depth that code leaves
or by the type (R222, R223, R230). -/
theorem subframeAfterTag_rejects {s : State} {w : Bool} {q : Nat} {body : Fin 8 → Op Unit} (hs : s.Ready)
    (hw : w = true → carries s.input s.position (unaryBits q) = true ∧ s.admissible (s.position + (q + 1)))
    (hbody : ∀ u, ∃ t, body s.seq.chan u = .error (.raise .structuralError) t) :
    ∃ t, subframeAfterTag w body s = .error (.raise .structuralError) t := by
  have hwasted : ∃ u, wastedBits s.seq.chan w s = .ok () u := by
    cases w with
    | false => exact ⟨_, rfl⟩
    | true =>
      obtain ⟨hc, ha⟩ := hw rfl
      have hread := readUnary_at (r := s.res) hs.valid hc ha
      rw [hs.readTo_self] at hread
      exact ⟨_, bind_ok hread⟩
  obtain ⟨u, hu⟩ := hwasted
  rw [subframeAfterTag, view_bind, bind_ok hu]
  by_cases hd : u.seq.base ≤ u.sub[s.seq.chan].wasted
  · have hdepth : effectiveDepth s.seq.chan u = .error (.raise .structuralError) u := by
      simp only [effectiveDepth, view_bind, if_pos hd]
      rfl
    exact ⟨u, bind_error hdepth⟩
  · have hdepth : ∃ v, effectiveDepth s.seq.chan u = .ok () v := by
      simp only [effectiveDepth, view_bind, if_neg hd]
      exact ⟨_, rfl⟩
    obtain ⟨v, hv⟩ := hdepth
    obtain ⟨t, ht⟩ := hbody v
    exact ⟨t, (bind_ok hv).trans (bind_error ht)⟩

end Sys2Proof.Machine

namespace Sys2Proof.Proofs
open Sys2Proof.Machine

/-- Settles O4: a byte is the word of the row it decodes to (`isWordOf_decodeTag`), which does what the tests do on its word
(`exec_tag`). -/
theorem tagRowsAgree : Obligations.TagRowsAgree := by
  unfold Obligations.TagRowsAgree
  intro s
  have rows : ∀ (s : State) (tag : BitVec 8),
      exec (decodeTag tag) s = needCursor s (runField .frame (subframeTag tag) s) := fun s tag => by
    obtain ⟨-, hformat, hword⟩ := isWordOf_decodeTag tag
    rw [exec_tag hformat, hword, BitVec.ofNat_toNat, BitVec.setWidth_eq]
  refine ⟨rows s, ?_⟩
  intro c base hs h tag
  have hread := readBits_window (u := s.mapSeq fun q => { q with chan := c, base := base }) (r := s.res) (n := 8)
    hs.valid (by omega) h
  have hrun : Machine.decodeSubframe c base s = subframeTag (BitVec.ofNat 8 tag)
      ((s.mapSeq fun q => { q with chan := c, base := base }).readTo (s.position + 8) (BitVec.ofNat 64 tag)) := by
    rw [← readTo_mapSeq, hs.readTo_self] at hread
    exact (update_bind _ _ s).trans (bind_ok hread)
  calc exec (.decodeSubframe c base) s
      = runField .frame (Machine.decodeSubframe c base) s := needCursor_valid _ hs.valid
    _ = runField .frame (subframeTag (BitVec.ofNat 8 tag)) _ := congrArg (finish .frame id) hrun
    _ = exec (decodeTag (BitVec.ofNat 8 tag)) _ :=
        ((rows _ _).trans (needCursor_valid _ (by exact hs.valid))).symm

/-- Settles O42 (`subframeAfterTag_at`): the row of a body's tag runs the body's operation. -/
theorem subframeRows : Obligations.SubframeRows := by
  unfold Obligations.SubframeRows
  intro s lay hs hd hl hc h
  obtain ⟨g, f, r, -, hrun⟩ := subframeAfterTag_at (r := s.res) hs.valid rfl rfl hd hl hc h
  rw [hs.readTo_self] at hrun
  exact ⟨g s.seq, f s.rp, r, by rw [exec_row, needCursor_valid _ hs.valid, runField_ok hrun]; rfl⟩

/-- Settles O43 (`decodeSubframe_at`). -/
theorem decodeSubframe : Obligations.DecodeSubframe := by
  unfold Obligations.DecodeSubframe
  intro s c base lay hs hd hl hc h
  obtain ⟨g, f, r, -, hrun⟩ := decodeSubframe_at (c := c) (r := s.res) hs.valid hd hl hc h
  rw [hs.readTo_self] at hrun
  exact ⟨g s.seq, f s.rp, r, (needCursor_valid _ hs.valid).trans (runField_ok hrun)⟩

/-- Settles O44: the types are rejected after the wasted-bits code (`subframeAfterTag_rejects`), and the raise shows nothing
that code left. -/
theorem tagsRejected : Obligations.TagsRejected := by
  unfold Obligations.TagsRejected
  intro s hs
  refine ⟨fun x => field_raised hs.valid (within_raise subframe_sameShown.toComposable _) rfl, fun w q hw => ?_⟩
  have hR := subframe_sameShown
  have hE : MayHalt (Anyhow (Same fun s : State => (s.shown, s.hdr))) := fun _ _ => rfl
  have rejected : ∀ body : Fin 8 → Op Unit, (∀ c, Op.Within _ _ (body c)) →
      (∀ c u, ∃ t, body c u = .error (.raise .structuralError) t) →
      needCursor s (runField .frame (subframeAfterTag w body) s) = .next (takeRaise .frame .structuralError s) :=
    fun body hwithin hbody =>
      let ⟨_, ht⟩ := subframeAfterTag_rejects hs hw (hbody _)
      field_raised hs.valid (within_subframeAfterTag hR hE w hwithin) ht
  have reserved := rejected rejectType (fun _ => within_raise hR.toComposable _) fun _ u => ⟨u, rfl⟩
  have order : ∀ k, 4 < k → _ := fun k hk => rejected (fun c => fixedBody c k) (fun c => within_fixedBody hR hE c k)
    fun c u => ⟨_, (update_bind _ _ u).trans (by rw [if_pos hk]; rfl)⟩
  exact ⟨fun _ => reserved, fun _ => reserved, fun _ => reserved, order 5 (by omega), fun x => order (6 + x.toNat) (by omega)⟩

end Sys2Proof.Proofs

/-! ## Proofs: the fields of the header and of the residual section (42_frame_header.md rules R191 to R198, 44_residual.md)

As for the tags: a row does what the rule's tests do on its word. Of the header word the rejections are added, where every
way out of steps 1 to 6 is SyncLoss with the header rejected (R204). -/

namespace Sys2Proof.Machine

/-! ### Steps 1 to 6 on codes they reject -/

/-- A step of the header word under STREAMINFO `si`: SyncLoss where its code is reserved, and otherwise an answer that
leaves STREAMINFO. -/
def CodeStep (si : StreamInfo) (reserved : Prop) (x : Op Unit) : Prop :=
  ∀ s : State, s.streamInfo = si → (reserved → ∃ t, x s = .error (.raise .syncLoss) t)
    ∧ (¬ reserved → ∃ t, x s = .ok () t ∧ t.streamInfo = si)

section
variable {si : StreamInfo}

theorem CodeStep.bind {A B : Prop} {x y : Op Unit} (hx : CodeStep si A x) (hy : CodeStep si B y) :
    CodeStep si (A ∨ B) (do x; y) := by
  intro s hs
  by_cases hA : A
  · obtain ⟨t, ht⟩ := (hx s hs).1 hA
    exact ⟨fun _ => ⟨t, bind_error ht⟩, fun hn => absurd (.inl hA) hn⟩
  · obtain ⟨t, ht, hsi⟩ := (hx s hs).2 hA
    obtain ⟨hraise, hpass⟩ := hy t hsi
    simp only [bind_ok ht]
    exact ⟨fun hAB => hraise (hAB.resolve_left hA), fun hn => hpass fun hB => hn (.inr hB)⟩

theorem applyBlocksize_codeStep (bsc : BitVec 4) : CodeStep si (blocksizeOf bsc = .reserved) (applyBlocksize bsc) := by
  intro s hs
  rw [applyBlocksize]
  cases blocksizeOf bsc with
  | reserved => exact ⟨fun _ => ⟨s, rfl⟩, fun h => absurd rfl h⟩
  | hint | value n => exact ⟨nofun, fun _ => ⟨_, rfl, hs⟩⟩

theorem applySampleRate_codeStep (src : BitVec 4) :
    CodeStep si (sampleRateOf si src = .reserved) (applySampleRate src) := by
  rintro s rfl
  rw [applySampleRate, view_bind]
  cases sampleRateOf s.streamInfo src with
  | reserved => exact ⟨fun _ => ⟨s, rfl⟩, fun h => absurd rfl h⟩
  | hint | value n => exact ⟨nofun, fun _ => ⟨_, rfl, rfl⟩⟩

theorem applyChannels_codeStep (chn : BitVec 4) : CodeStep si (channelsOf chn = none) (applyChannels chn) := by
  intro s hs
  rw [applyChannels]
  cases channelsOf chn with
  | none => exact ⟨fun _ => ⟨s, rfl⟩, fun h => absurd rfl h⟩
  | some x => exact ⟨nofun, fun _ => ⟨_, rfl, hs⟩⟩

theorem applyBps_codeStep (bpc : BitVec 3) : CodeStep si (bpsOf si bpc = .reserved) (applyBps bpc) := by
  rintro s rfl
  rw [applyBps, view_bind]
  cases h : bpsOf s.streamInfo bpc with
  | reserved => exact ⟨fun _ => ⟨s, rfl⟩, fun h => absurd rfl h⟩
  | hint => exact absurd h (bpsOf_not_hint _ _)
  | value n => exact ⟨nofun, fun _ => ⟨_, rfl, rfl⟩⟩

end

/-- Steps 2 to 5 on codes one of which is reserved (R193 to R197). -/
theorem applyHeaderWord_reserved {blk : Bool} {bsc src chn : BitVec 4} {bpc : BitVec 3} {s : State}
    (h : blocksizeOf bsc = .reserved ∨ sampleRateOf s.streamInfo src = .reserved ∨ channelsOf chn = none
      ∨ bpsOf s.streamInfo bpc = .reserved) :
    ∃ t, applyHeaderWord blk bsc src chn bpc s = .error (.raise .syncLoss) t :=
  (((applyBlocksize_codeStep bsc).bind ((applySampleRate_codeStep src).bind ((applyChannels_codeStep chn).bind
    (applyBps_codeStep bpc)))) (s.mapSeq fun q => { q with blk := blk, bsc := bsc, src := src }) rfl).1 h

/-- Steps 1 to 6 on a word they reject (R191 to R198). -/
theorem headerWord_rejects {w : BitVec 32} {s : State} (h : rejectedWord w) :
    ∃ t, headerWord w s = .error (.raise .syncLoss) t := by
  by_cases hsync : w.extractLsb' 18 14 ≠ 0x3FFE
  · exact ⟨s, by rw [headerWord, if_pos hsync, raise_apply]⟩
  · rw [headerWord, if_neg hsync]
    by_cases hcodes : blocksizeOf (w.extractLsb' 12 4) = .reserved ∨ sampleRateOf s.streamInfo (w.extractLsb' 8 4) = .reserved
        ∨ channelsOf (w.extractLsb' 4 4) = none ∨ bpsOf s.streamInfo (w.extractLsb' 1 3) = .reserved
    · obtain ⟨t, ht⟩ := applyHeaderWord_reserved (blk := w.getLsbD 16) hcodes
      exact ⟨t, bind_error ht⟩
    · simp only [not_or] at hcodes
      obtain ⟨hbsc, hsrc, hchn, hbpc⟩ := hcodes
      have hbits : w.getLsbD 17 = true ∨ w.getLsbD 0 = true := by
        rcases h with h | h | h | h | h | h | h
        · exact absurd h hsync
        · exact .inl h
        · exact .inr h
        · exact absurd (blocksizeOf_reserved.2 h) hbsc
        · exact absurd (sampleRateOf_reserved.2 h) hsrc
        · exact absurd (channelsOf_isSome.1 (Option.isSome_iff_ne_none.2 hchn)) (not_lt.2 h)
        · exact absurd (bpsOf_reserved.2 h) hbpc
      have happly := applyHeaderWord_ok (blk := w.getLsbD 16) hbsc hsrc (Option.isSome_iff_ne_none.2 hchn) hbpc
      rw [bind_ok happly, if_pos hbits]
      exact ⟨_, rfl⟩

/-- A step of the header that raises as a field of its own rejects the header (R204). -/
theorem runField_rejected {op : Op Unit} {k : ErrKind} {s t : State}
    (hw : Op.Within (Same State.shown) (Anyhow (Same State.shown)) op) (h : op s = .error (.raise k) t) :
    runField .frame (rejecting op) s = .next (takeRaise .frame k s.rejectHeader) := by
  have hshown : Same State.shown s t := hw.error h
  have hhdr : t.rejectHeader.hdr = s.rejectHeader.hdr :=
    congrArg freeHeader (congrArg (fun x => x.2.2.2.2.2) hshown)
  rw [runField_raise (rejecting_error h), takeRaise_shown (s := s.rejectHeader) (t := t.rejectHeader) hshown hhdr]

theorem exec_frameHeaderWord (blk : Bool) (bsc src chn : BitVec 4) (bpc : BitVec 3) (s : State) :
    exec (.frameHeaderWord blk bsc src chn bpc) s =
      needCursor s (runField .frame (rejecting (applyHeaderWord blk bsc src chn bpc)) s) := rfl

/-- A header word that decodes passes steps 1 and 6, and its row does the steps between them. -/
theorem exec_decodedHeaderWord {w : BitVec 32} {i : Instr} (h : decodeHeaderWord w = .ok i) (s : State) :
    exec i s = needCursor s (runField .frame (rejecting (headerWord w)) s) := by
  simp only [decodeHeaderWord] at h
  split at h
  · cases h
  · next hsync =>
    split at h
    · cases h
    · next hreserved =>
      cases h
      simp only [headerWord, if_neg hsync, if_neg hreserved, bind_pure_unit]
      rfl

/-- One that does not decode raises what steps 1 to 6 raise. -/
theorem rejectField_headerWord {w : BitVec 32} {r : Reject} (h : decodeHeaderWord w = .error r) (s : State) :
    rejectField r s = runField .frame (rejecting (headerWord w)) s := by
  have rejected : rejectedWord w → runField .frame (rejecting (raise .syncLoss)) s = runField .frame (rejecting (headerWord w)) s :=
    fun hw =>
      let ⟨_, ht⟩ := headerWord_rejects (s := s) hw
      (runField_rejected (within_raise header_sameShown.toComposable _) rfl).trans
        (runField_rejected (within_headerWord header_sameShown w) ht).symm
  simp only [decodeHeaderWord] at h
  split at h
  · next hsync => cases h; exact rejected (.inl hsync)
  · split at h
    · next hreserved => cases h; exact rejected (.inr (hreserved.imp_right .inl))
    · cases h

/-! ### The rows of the other fields on their words -/

/-- A channel row does what R196 does on its word. -/
theorem exec_nibble {i : Instr} (h : i.format = some .chn4) (s : State) :
    exec i s = needCursor s (runField .frame (rejecting (applyChannels (BitVec.ofNat 4 (encode i)))) s) := by
  cases i with
  | chnLeftSide | chnRightSide | chnMidSide | chnReserved11 => rfl
  | chnIndependent n =>
    have hn : ∀ n : BitVec 3, channelsOf (BitVec.ofNat 4 (encode (.chnIndependent n))) = some (n.toNat + 1, .independent) := by
      decide
    rw [applyChannels, hn]
    rfl
  | chnReserved12to15 x =>
    have hx : ∀ x : BitVec 2, channelsOf (BitVec.ofNat 4 (encode (.chnReserved12to15 x))) = none := by decide
    rw [applyChannels, hx]
    rfl
  | _ => cases h

/-- A method row does what R250 does on its word. -/
theorem exec_method {i : Instr} (h : i.format = some .method2) (s : State) :
    exec i s = needCursor s (runField .frame
      (if 2 ≤ encode i then rejectMethod (encode i) else setMethod (encode i)) s) := by
  cases i with
  | residualMethodRice4 | residualMethodRice5 => rfl
  | residualMethodReserved x =>
    have hx : ∀ x : BitVec 1, encode (.residualMethodReserved x) = 2 + x.toNat := by decide
    rw [hx, if_pos (Nat.le_add_right _ _)]
    rfl
  | _ => cases h

theorem exec_decodeParam4 (k : BitVec 4) (s : State) :
    exec (decodeParam4 k) s = needCursor s (runField .frame
      (if k.toNat = 2 ^ 4 - 1 then escapePartition k.toNat else ricePartition k.toNat) s) := by
  by_cases hk : k = 15
  · subst hk
    rfl
  · have hnat : ¬ k.toNat = 2 ^ 4 - 1 := fun e => hk (BitVec.eq_of_toNat_eq e)
    rw [decodeParam4, if_neg hk, if_neg hnat]
    rfl

theorem exec_decodeParam5 (k : BitVec 5) (s : State) :
    exec (decodeParam5 k) s = needCursor s (runField .frame
      (if k.toNat = 2 ^ 5 - 1 then escapePartition k.toNat else ricePartition k.toNat) s) := by
  by_cases hk : k = 31
  · subst hk
    rfl
  · have hnat : ¬ k.toNat = 2 ^ 5 - 1 := fun e => hk (BitVec.eq_of_toNat_eq e)
    rw [decodeParam5, if_neg hk, if_neg hnat]
    rfl

/-- What follows a lead byte in R142, by its class. -/
def vluAfterClass : Option (Nat × Nat) → Op (Option Nat)
  | none => vluFail
  | some (payload, c) => vluAfterLead payload c

/-- A lead row does what R142 does on its word. -/
theorem exec_vluLead {i : Instr} (h : i.format = some .vluLead8) (s : State) :
    exec i s = needCursor s (runField .primitive (discard (vluAfterClass (vluLeadClass s.seq.vluWide (encode i)))) s) := by
  generalize hw : s.seq.vluWide = wide
  have row : ∀ {c : Option (Nat × Nat)}, vluLeadClass wide (encode i) = c →
      needCursor s (runField .primitive (discard (vluAfterClass c)) s) =
        needCursor s (runField .primitive (discard (vluAfterClass (vluLeadClass wide (encode i)))) s) := by
    rintro _ rfl
    rfl
  have lead1 : ∀ (wide : Bool) (x : BitVec 7), vluLeadClass wide (encode (.vluLead1byte x)) = some (x.toNat, 0) := by decide
  have lead2 : ∀ (wide : Bool) (x : BitVec 5), vluLeadClass wide (encode (.vluLead2byte x)) = some (x.toNat, 1) := by decide
  have lead3 : ∀ (wide : Bool) (x : BitVec 4), vluLeadClass wide (encode (.vluLead3byte x)) = some (x.toNat, 2) := by decide
  have lead4 : ∀ (wide : Bool) (x : BitVec 3), vluLeadClass wide (encode (.vluLead4byte x)) = some (x.toNat, 3) := by decide
  have lead5 : ∀ (wide : Bool) (x : BitVec 2), vluLeadClass wide (encode (.vluLead5byte x)) = some (x.toNat, 4) := by decide
  have lead6 : ∀ (wide : Bool) (x : BitVec 1), vluLeadClass wide (encode (.vluLead6byte x)) = some (x.toNat, 5) := by decide
  have leadCont : ∀ (wide : Bool) (x : BitVec 6), vluLeadClass wide (encode (.vluLeadContinuation x)) = none := by decide
  have leadFf : ∀ wide : Bool, vluLeadClass wide (encode .vluLeadFf) = none := by decide
  cases i with
  | vluLead1byte x => exact row (lead1 wide x)
  | vluLead2byte x => exact row (lead2 wide x)
  | vluLead3byte x => exact row (lead3 wide x)
  | vluLead4byte x => exact row (lead4 wide x)
  | vluLead5byte x => exact row (lead5 wide x)
  | vluLead6byte x => exact row (lead6 wide x)
  | vluLead7byte =>
    simp only [exec, execVluLead7byte, hw]
    cases wide with
    | false => rfl
    | true => rfl
  | vluLeadContinuation x => exact row (leadCont wide x)
  | vluLeadFf => exact row (leadFf wide)
  | _ => cases h

end Sys2Proof.Machine

namespace Sys2Proof.Proofs
open Sys2Proof.Machine

/-- Settles O5, field by field: a word is that of the row it decodes to, which does what the rule's tests do on it. -/
theorem fieldRowsAgree : Obligations.FieldRowsAgree := by
  unfold Obligations.FieldRowsAgree
  intro s
  refine ⟨fun chn => ?_, fun m => ?_, fun k => exec_decodeParam4 k s, fun k => exec_decodeParam5 k s, fun b => ?_,
    fun w i h => exec_decodedHeaderWord h s, fun w r h => rejectField_headerWord h s⟩
  · obtain ⟨-, hformat, hword⟩ := isWordOf_decodeChannelNibble chn
    rw [exec_nibble hformat, hword, BitVec.ofNat_toNat, BitVec.setWidth_eq]
  · obtain ⟨-, hformat, hword⟩ := isWordOf_decodeMethod m
    rw [exec_method hformat, hword]
  · obtain ⟨-, hformat, hword⟩ := isWordOf_decodeVluLead b
    rw [exec_vluLead hformat, hword]
    rfl

/-- Settles O39: the header word by `applyHeaderWord_ok` and `applyHeaderWord_reserved`, the channel rows by what they write. -/
theorem headerRows : Obligations.HeaderRows := by
  unfold Obligations.HeaderRows
  intro s hs
  have reserved : needCursor s (runField .frame (rejecting (raise .syncLoss)) s) =
      .next (takeRaise .frame .syncLoss s.rejectHeader) :=
    (needCursor_valid _ hs).trans (runField_rejected (within_raise header_sameShown.toComposable _) rfl)
  have channels : ∀ n a, needCursor s (runField .frame (setChannels n a) s) =
      .next (s.mapHdr fun h => { h with channels := BitVec.ofNat 4 n, assignment := a }) := fun _ _ =>
    (needCursor_valid _ hs).trans (runField_ok rfl)
  refine ⟨fun blk bsc src chn bpc hbsc hsrc hbpc n x b hchn hb => ?_, fun blk bsc src chn bpc h => ?_,
    fun n => channels _ _, channels _ _, channels _ _, channels _ _, reserved, fun _ => reserved⟩
  · have hrecord : headerWordRecord s.streamInfo bsc src chn bpc = fun h =>
        { h with
          blocksize := (match blocksizeOf bsc with | .value v => BitVec.ofNat 17 v | _ => h.blocksize)
          sampleRate := (match sampleRateOf s.streamInfo src with | .value v => sampleRateBits v | _ => h.sampleRate)
          channels := BitVec.ofNat 4 n
          assignment := x
          bps := bpsBits b } := by
      funext h
      rw [headerWordRecord, hchn, hb]
      rfl
    rw [exec_frameHeaderWord, needCursor_valid _ hs,
      runField_ok (rejecting_ok (applyHeaderWord_ok hbsc hsrc (Option.isSome_of_eq_some hchn) hbpc))]
    exact congrArg (fun f => Host.Outcome.next
      ((s.mapSeq fun q => { q with blk := blk, bsc := bsc, src := src }).mapHdr f)) hrecord
  · obtain ⟨t, ht⟩ := applyHeaderWord_reserved (blk := blk) h
    rw [exec_frameHeaderWord, needCursor_valid _ hs,
      runField_rejected (within_applyHeaderWord header_sameShown _ _ _ _ _) ht]

end Sys2Proof.Proofs

/-! ## Proofs: steps, refusals and the tables (30_encoding.md rules R91 to R98, 60_exceptions.md rule R389) -/

namespace Sys2Proof.Machine

/-! ### Illegal command words -/

/-- The word of a command has one of the opcodes of R92 and sets no operand its command does not use. -/
theorem encode_command_not_illegal {i : Instr} (h : i.format = some .cmd72) :
    ¬ illegalWord (BitVec.ofNat 72 (encode i)) := by
  cases i with
  | readUnary | readVariableLengthUint32 | readVariableLengthUint64 | flushToByteBoundary | positionBits
  | parseFrameHeader | pack => simp [encode, illegalWord, opcodesNone, opcodesA, opcodesAB]
  | cursorNew a | readBits a | readBits64 a | readSigned a | readSigned64 a | seekBits a | seekBytes a
  | decodeFrame a => simp [encode, illegalWord, opcodesNone, opcodesA, opcodesAB]
  | crc8 a b | crc16 a b => simp [encode, illegalWord, opcodesNone, opcodesA, opcodesAB]
  | _ => cases h

theorem decodeCommand_ok_not_illegal {w : CmdWord} {i : Instr} (h : decodeCommand w = .ok i) : ¬ illegalWord w := by
  obtain ⟨-, hf, hw⟩ := decodeCommand_isWordOf h
  have hlegal := encode_command_not_illegal hf
  rwa [hw, BitVec.ofNat_toNat, BitVec.setWidth_eq] at hlegal

/-! ### Running the oldest request -/

theorem runWord_ok {w : CmdWord} {i : Instr} (h : decodeCommand w = .ok i) (s : State) : runWord w s = exec i s := by
  rw [runWord, h]

theorem runWord_illegal {w : CmdWord} (h : illegalWord w) (s : State) :
    runWord w s = .next (refuse .illegalCommand s) := by
  cases hd : decodeCommand w with
  | ok i => exact absurd h (decodeCommand_ok_not_illegal hd)
  | error r => rw [runWord, hd]

theorem step_idle {s : State} (h : s.pending = []) : step s = .next s := by
  rw [step, h]

theorem step_request {s : State} {r : Request} {rest : List Request} (h : s.pending = r :: rest) :
    step s = runRequest r { s with pending := rest } := by
  rw [step, h]

/-- Only the sequencer notes that a field begins. -/
theorem fieldBegin_eq_mapSeq (f : Format) (s : State) : ∃ g, fieldBegin f s = s.mapSeq g := by
  rw [fieldBegin]
  split
  · exact ⟨fun q => { q with start := s.byte }, rfl⟩
  · exact ⟨id, rfl⟩

/-- The fields of the bitstream have at most 32 bits. -/
theorem field_width_le {f : Format} (h : f ≠ .cmd72) : f.width ≤ 32 := by
  cases f with
  | cmd72 => exact absurd rfl h
  | _ => decide

/-- A field whose bits the stream carries is fetched at POS. -/
theorem readBits_field {f : Format} {s : State} (hf : f ≠ .cmd72) (hs : s.Ready)
    (h : s.admissible (s.position + f.width)) :
    readBits f.width (fieldBegin f s) = .ok (window s.input s.position f.width)
      ((fieldBegin f s).readTo (s.position + f.width) (BitVec.ofNat 64 (window s.input s.position f.width))) := by
  obtain ⟨g, hg⟩ := fieldBegin_eq_mapSeq f s
  rw [hg]
  exact readBits_ok (s := s.mapSeq g) ⟨hs.valid, hs.bound, hs.cached⟩ (field_width_le hf) h

/-- A field once fetched runs as the row it decodes to, or is rejected. -/
theorem runFieldAt_fetched {f : Format} {s t : State} {v : Nat} (hs : s.curValid = true)
    (h : readBits f.width (fieldBegin f s) = .ok v t) :
    (∀ i, decode f v = .ok i → runFieldAt f s = exec i t)
      ∧ ∀ r, decode f v = .error r → runFieldAt f s = rejectField r t := by
  rw [runFieldAt, needCursor_valid _ hs]
  exact ⟨fun i hi => by simp only [h, hi], fun r hr => by simp only [h, hr]⟩

end Sys2Proof.Machine

namespace Sys2Proof.Proofs
open Sys2Proof.Machine

/-- Settles O6: a command word by `runWord_ok`, a field by `readBits_field` and `runFieldAt_fetched`. -/
theorem stepRunsRequest : Obligations.StepRunsRequest := by
  unfold Obligations.StepRunsRequest
  refine fun s => ⟨step_idle, fun w rest i hp hw => (step_request hp).trans (runWord_ok hw _), ?_⟩
  intro f rest hp hf hs hadm
  have hfetch := readBits_field (s := { s with pending := rest }) hf ⟨hs.valid, hs.bound, hs.cached⟩ hadm
  rw [step_request hp, show runRequest (.field f) _ = runFieldAt f _ from if_neg hf]
  exact runFieldAt_fetched hs.valid hfetch

/-- Settles O8: the operand ranges by `needRange_out`, the words by `runWord_illegal`. -/
theorem refusalsChangeErrOnly : Obligations.RefusalsChangeErrOnly := by
  unfold Obligations.RefusalsChangeErrOnly
  intro s
  have ranged : ∀ {b : Bool} {r : Result}, s.curValid = true → b = false →
      needCursor s (needRange b s r) = .next { s with err := .argumentRange } := fun hv hb =>
    (needCursor_valid _ hv).trans (needRange_out _ hb)
  refine ⟨fun n hv hn => ?_, fun n hv hn => ?_, fun n hv hn => ranged hv (decide_eq_false (not_lt.2 hn)),
    fun n hv hn => ranged hv (decide_eq_false (not_lt.2 hn)), fun a ha => ?_,
    fun hv hbit => ranged hv (beq_false_of_ne fun h => hbit (Fin.ext h)), fun hf => if_neg hf,
    fun w rest hp hw => (step_request hp).trans (runWord_illegal hw _)⟩
  · have hb : readRange32 n = false := Bool.eq_false_iff.2 (mt readRange32_iff.1 hn)
    exact ⟨ranged hv hb, ranged hv hb⟩
  · have hb : readRange64 n = false := Bool.eq_false_iff.2 (mt readRange64_iff.1 hn)
    exact ⟨ranged hv hb, ranged hv hb⟩
  · have hb : frameIndexRange a = false := decide_eq_false (not_lt.2 ha)
    exact ⟨needRange_out _ hb, needRange_out _ hb⟩

/-- Settles O3, each word decoded. -/
theorem specWords : Obligations.SpecWords := by
  unfold Obligations.SpecWords
  exact ⟨rfl, rfl, rfl, rfl, rfl, rfl, rfl, rfl, rfl, rfl, rfl, rfl, rfl⟩

/-- Settles O40, each code looked up. -/
theorem codeTables : Obligations.CodeTables := by
  unfold Obligations.CodeTables
  exact ⟨fun _ => ⟨rfl, rfl, rfl⟩, rfl⟩

end Sys2Proof.Proofs

/-! ## Proofs: the cursor's own commands (40_bitcursor.md rules R132, R133, R140, R145 to R149)

`cursor_new`, the seeks, the flush and the unary read move POS behind the checks of R150, so each has two ends: where the
move ends at an admissible position, and where it does not. A variable-length read that keeps its cursor has answered, and
OK and RES say what (R145). -/

namespace Sys2Proof.Machine

section
variable {s : State}

/-! ### The unary read -/

/-- A unary read of zeros as far as the stream goes (R140). -/
theorem readUnary_zeros (hs : s.Ready)
    (hz : ∀ x, s.position ≤ x → x + 2 ≤ 8 * (s.params.cap - 3) → streamBit s.input x = false) :
    readUnary.Overruns (s.readTo s.position s.res) := by
  have hzeros : ∀ j, s.admissible (s.position + j + 1) → j < 8 * s.params.cap →
      streamBit s.input (s.position + j) = false := fun j hj _ => hz _ (Nat.le_add_right _ _) (by
    simp only [State.admissible] at hj
    omega)
  have hend : ¬ s.admissible (s.position + 8 * s.params.cap + 1) := by
    simp only [State.admissible]
    omega
  simp only [readUnary, Op.Overruns, view_bind]
  exact unaryLoop_cut hs.valid hs.admissible hzeros hend

theorem exec_readUnary (s : State) :
    exec .readUnary s = needCursor s (runCommand .primitive (discard readUnary) s) := rfl

/-! ### The seeks -/

theorem exec_seekBits (n : BitVec 32) (s : State) :
    exec (.seekBits n) s =
      needCursor s (needRange (seekBitsRange n) s (runCommand .primitive (advance n.toNat) s)) := rfl

theorem exec_seekBytes (n : BitVec 32) (s : State) :
    exec (.seekBytes n) s =
      needCursor s (needRange (seekBytesRange n) s (runCommand .primitive (advance (8 * n.toNat)) s)) := rfl

/-- With a cursor and an operand in range, an advance moves POS to an admissible end (R133). -/
theorem guardedAdvance_next {n : Nat} {inRange : Bool} (hs : s.Ready) (hr : inRange = true)
    (h : s.admissible (s.position + n)) :
    needCursor s (needRange inRange s (runCommand .primitive (advance n) s)) =
      .next (s.moveTo (s.position + n)).atRest := by
  rw [needCursor_valid _ hs.valid, needRange_in _ hr, runCommand_ok (advance_ok h)]

/-- And raises BufferOverrun at any other (R133). -/
theorem guardedAdvance_overruns {n : Nat} {inRange : Bool} (hs : s.Ready) (hr : inRange = true)
    (h : ¬ s.admissible (s.position + n)) :
    needCursor s (needRange inRange s (runCommand .primitive (advance n) s)) =
      .next (takeRaise .primitive .bufferOverrun s) := by
  rw [needCursor_valid _ hs.valid, needRange_in _ hr]
  exact runCommand_overruns (within_advance (reads_cursor false) n) ⟨_, advance_error h⟩

/-! ### The flush -/

theorem exec_flush (s : State) :
    exec .flushToByteBoundary s = needCursor s (runCommand .primitive flush s) := rfl

/-- A flush at a byte boundary (R148). -/
theorem flush_aligned (h : s.bit = 0) : flush s = .ok () s := by
  have h0 : s.bit.val = 0 := congrArg Fin.val h
  rw [flush, view_bind, if_pos h0, pure_apply]

/-- A flush inside a byte goes to the next boundary (R148). -/
theorem flush_inByte (hs : s.Ready) (h0 : s.bit ≠ 0) (h : s.admissible (8 * (s.byte + 1))) :
    flush s = .ok () (s.moveTo (8 * (s.byte + 1))) := by
  have hbit : s.bit.val ≠ 0 := fun e => h0 (Fin.ext e)
  have hround : (s.position + 7) / 8 * 8 = 8 * (s.byte + 1) := by
    simp only [State.position]
    omega
  rw [← hround] at h ⊢
  exact flush_ok hs h

/-! ### What a variable-length read leaves in OK and RES -/

/-- A move of the cursor leaves which read is running. -/
theorem cursor_sameVluWide :
    CursorWrites (Same fun s => s.seq.vluWide) (Anyhow (Same fun s => s.seq.vluWide)) where
  toComposable := composable_same _
  move := within_setPos_anyhow (composable_same _) (fun _ _ _ => rfl) fun _ _ => rfl
  result _ _ := rfl

/-- So does the continuation loop. -/
theorem vluContinue_sameVluWide (c : Nat) :
    Op.Within (Same fun s => s.seq.vluWide) (Anyhow (Same fun s => s.seq.vluWide)) (vluContinue c) := by
  have hC := cursor_sameVluWide.toComposable
  induction c with
  | zero => exact within_pure hC true
  | succ c ih =>
    exact within_bind hC (within_readBits cursor_sameVluWide 8) fun _ =>
      within_ite (within_bind hC (within_update fun _ => rfl) fun _ => ih) (within_pure hC false)

/-- OK and RES as an answer of the variable-length read says them: the value, or the sentinel of the width (R142). -/
def VluAnswered (wide : Bool) (r : Option Nat) (t : State) : Prop :=
  match r with
  | some v => t.ok = true ∧ t.res = BitVec.ofNat 64 v
  | none => t.ok = false ∧ t.res = vluSentinel wide

theorem vluFail_answered {wide : Bool} {r : Option Nat} {t : State} (hw : s.seq.vluWide = wide)
    (h : vluFail s = .ok r t) : VluAnswered wide r t := by
  rw [vluFail_apply, hw] at h
  cases h
  exact ⟨rfl, rfl⟩

theorem vluAfterLead_answered {payload c : Nat} {wide : Bool} {r : Option Nat} {t : State} (hw : s.seq.vluWide = wide)
    (h : vluAfterLead payload c s = .ok r t) : VluAnswered wide r t := by
  rw [vluAfterLead, updateSeq, update_bind] at h
  obtain ⟨good, u, hgood, h⟩ := of_bind_ok h
  have hu : u.seq.vluWide = wide := ((vluContinue_sameVluWide c).ok hgood).trans hw
  cases good with
  | true => cases h; exact ⟨rfl, rfl⟩
  | false => exact vluFail_answered hu h

theorem readVlu_answered {wide : Bool} {r : Option Nat} {t : State} (h : readVlu wide s = .ok r t) :
    VluAnswered wide r t := by
  rw [readVlu, updateSeq, update_bind] at h
  obtain ⟨b, u, hb, h⟩ := of_bind_ok h
  have hu : u.seq.vluWide = wide := (within_readBits cursor_sameVluWide 8).ok hb
  cases hl : vluLeadClass wide b with
  | none => rw [hl] at h; exact vluFail_answered hu h
  | some x => rw [hl] at h; exact vluAfterLead_answered hu h

/-- A variable-length read that keeps its cursor ended in an answer (R145). -/
theorem vluRead_range {wide : Bool} {t : State} (hs : s.curValid = true) (ht : t.curValid = true)
    (h : needCursor s (runCommand .primitive (discard (readVlu wide)) s) = .next t) :
    (t.ok = true ∧ t.res.toNat < 2 ^ 36 ∧ (wide = false → t.res.toNat < 2 ^ 31))
      ∨ (t.ok = false ∧ t.res = vluSentinel wide) := by
  rw [needCursor_valid _ hs] at h
  cases hread : readVlu wide s with
  | error e u =>
    have herr := discard_error hread
    cases e with
    | raise k =>
      rw [runCommand_raise herr] at h
      obtain rfl := Host.Outcome.next.inj h
      cases ht
    | halt f =>
      rw [runCommand_halt herr] at h
      cases h
  | ok r u =>
    rw [runCommand_ok (discard_ok hread)] at h
    obtain rfl := Host.Outcome.next.inj h
    have hanswer := readVlu_answered hread
    cases r with
    | none => exact .inr hanswer
    | some v =>
      obtain ⟨hok, hres⟩ : u.ok = true ∧ u.res = BitVec.ofNat 64 v := hanswer
      have hmeets := readVlu_meets (P := fun _ => True) (fun _ _ _ _ => trivial) (fun _ _ _ => trivial)
        (fun _ _ _ _ => trivial) wide s.position
      obtain ⟨-, hfits⟩ := hmeets.ok ⟨trivial, rfl⟩ hread
      obtain ⟨h36, h31, -⟩ := hfits v rfl
      have hval : u.res.toNat = v := by
        rw [hres, BitVec.toNat_ofNat, Nat.mod_eq_of_lt (by omega)]
      exact .inl ⟨hok, hval ▸ h36, hval ▸ h31⟩

theorem exec_readVariableLengthUint32 (s : State) :
    exec .readVariableLengthUint32 s = needCursor s (runCommand .primitive (discard (readVlu false)) s) := rfl

theorem exec_readVariableLengthUint64 (s : State) :
    exec .readVariableLengthUint64 s = needCursor s (runCommand .primitive (discard (readVlu true)) s) := rfl

end

end Sys2Proof.Machine

namespace Sys2Proof.Proofs
open Sys2Proof.Machine

/-- Settles O22: both ends of the move that follows the start of an attempt. -/
theorem cursorNew : Obligations.CursorNew := by
  unfold Obligations.CursorNew
  intro off s
  refine ⟨exec_cursorNew_placed, fun h => ?_⟩
  exact ⟨_, exec_cursorNew_overrun (not_le.2 h), rfl, rfl, rfl, rfl⟩

/-- Settles O27: `q` zeros and a one are read as `q` (`readUnary_ok`), zeros to the end leave the stream
(`readUnary_zeros`). -/
theorem readUnary : Obligations.ReadUnary := by
  unfold Obligations.ReadUnary
  intro s hs
  rw [exec_readUnary, needCursor_valid _ hs.valid]
  refine ⟨fun q hz h1 h => runCommand_ok (discard_ok (readUnary_ok hs hz h1 h)), fun hz => ?_⟩
  exact runCommand_overruns (within_discard (within_readUnary (reads_cursor false)))
    ((readUnary_zeros hs hz).atPosition hs).discard

/-- Settles O28: each seek is an advance behind its range. -/
theorem seeks : Obligations.Seeks := by
  unfold Obligations.Seeks
  intro n s hs
  refine ⟨fun hn => ?_, fun hn => ?_⟩
  · have hr : seekBitsRange n = true := decide_eq_true hn
    exact ⟨guardedAdvance_next hs hr, guardedAdvance_overruns hs hr⟩
  · have hr : seekBytesRange n = true := decide_eq_true hn
    exact ⟨guardedAdvance_next hs hr, guardedAdvance_overruns hs hr⟩

/-- Settles O29: the flush by whether POS stands at a byte boundary; `position_bits` moves nothing. -/
theorem flushAndPosition : Obligations.FlushAndPosition := by
  unfold Obligations.FlushAndPosition
  intro s hs
  rw [exec_flush, needCursor_valid _ hs.valid]
  exact ⟨fun h0 => runCommand_ok (flush_aligned h0), fun h0 h => runCommand_ok (flush_inByte hs h0 h),
    needCursor_valid _ hs.valid⟩

/-- Settles O32 for either form (`vluRead_range`): OK and RES are as the read answers, and what it answers has the bits of
its form. -/
theorem vluRange : Obligations.VluRange := by
  unfold Obligations.VluRange
  intro s t hs ht
  rw [exec_readVariableLengthUint32, exec_readVariableLengthUint64]
  refine ⟨fun h => ?_, fun h => ?_⟩
  · exact (vluRead_range hs ht h).imp_left fun ⟨hok, _, h31⟩ => ⟨hok, h31 rfl⟩
  · exact (vluRead_range hs ht h).imp_left fun ⟨hok, h36, _⟩ => ⟨hok, h36⟩

end Sys2Proof.Proofs

/-! ## Proofs: what the header parse rejects (42_frame_header.md rules R191 to R205)

A parse that raises leaves its header rejected, whatever it had written (`exec_parseFrameHeader_raises`). Past a word that
steps 1 to 6 accept, it fails in its number (R199), or in its checksum (R203) after fields that are all good. -/

namespace Sys2Proof.Machine

/-- A header parse that raises rejects the header (R204, R205). -/
theorem exec_parseFrameHeader_raises {s t : State} {k : ErrKind} (hs : s.Ready) (hbit : s.bit = 0)
    (h : parseHeader s = .error (.raise k) t) :
    exec .parseFrameHeader s = .next (takeRaise .frame k s.rejectHeader) := by
  have hshown : Same State.shown s t := (within_parseHeader header_sameShown fun _ _ => rfl).error h
  have hhdr : t.hdr = s.rejectHeader.hdr := by
    obtain ⟨v, -, rfl⟩ := of_rejecting_error h
    exact congrArg freeHeader (congrArg (fun x => x.2.2.2.2.2) hshown)
  have hrun : exec .parseFrameHeader s = .next (takeRaise .frame k t) :=
    (needCursor_valid _ hs.valid).trans ((needRange_in _ (by rw [hbit]; rfl)).trans (runCommand_raise h))
  rw [hrun, takeRaise_shown (s := s.rejectHeader) hshown hhdr]

/-! ### Past the header word -/

/-- The state of a parse that began at `p`, once steps 1 to 6 accept its word `w` (R190 to R198), POS and RES aside. -/
def State.worded (u : State) (p : Nat) (w : BitVec 32) : State :=
  ((u.mapHdr fun x => { x with valid := false }).mapSeq fun q =>
    { q with start := p / 8, blk := w.getLsbD 16, bsc := w.extractLsb' 12 4, src := w.extractLsb' 8 4 }).mapHdr
      (headerWordRecord u.streamInfo (w.extractLsb' 12 4) (w.extractLsb' 8 4) (w.extractLsb' 4 4) (w.extractLsb' 1 3))

/-- What rejecting makes of two steps that end alike. -/
theorem rejecting_congr {α : Type} {x y : Op α} {s t : State} (h : x s = y t) : rejecting x s = rejecting y t := by
  simp only [rejecting, h]

/-- Steps 7 to 9 (R199 to R201). -/
def headerFields : Op Unit := do
  headerNumber
  headerBlocksizeHint
  headerRateHint

section
variable {u : State} {p : Nat} {r : Word64}

/-- A parse whose word is rejected (R191 to R198). -/
theorem parseHeader_rejectedWord (hu : u.curValid = true) (ha : u.admissible (p + 32))
    (hw : rejectedWord (BitVec.ofNat 32 (window u.input p 32))) :
    ∃ t, parseHeader (u.readTo p r) = .error (.raise .syncLoss) t := by
  obtain ⟨t, ht⟩ := headerWord_rejects hw
  exact ⟨_, rejecting_error ((bind_ok headerBegin_at).trans
    ((bind_ok (readBits_window (u := (u.mapHdr _).mapSeq _) hu (by omega) ha)).trans (bind_error ht)))⟩

/-- A parse whose word is accepted goes on with the number. -/
theorem parseHeader_acceptedWord (hu : u.curValid = true) (ha : u.admissible (p + 32))
    (hw : ¬ rejectedWord (BitVec.ofNat 32 (window u.input p 32))) :
    ∃ r', parseHeader (u.readTo p r) =
      rejecting (headerFields >>= fun _ => readBits 8 >>= fun c => headerChecksum (BitVec.ofNat 8 c))
        ((u.worded p (BitVec.ofNat 32 (window u.input p 32))).readTo (p + 32) r') := by
  refine ⟨BitVec.ofNat 64 (window u.input p 32), ?_⟩
  simp only [parseHeader, headerFields, bind_assoc]
  exact rejecting_congr ((bind_ok headerBegin_at).trans
    ((bind_ok (readBits_window (u := (u.mapHdr _).mapSeq _) hu (by omega) ha)).trans (bind_ok (headerWord_accepts hw))))

/-- A number that does not read raises SyncLoss (R199). -/
theorem parseHeader_badNumber (hu : u.curValid = true) (ha : u.admissible (p + 32))
    (hw : ¬ rejectedWord (BitVec.ofNat 32 (window u.input p 32)))
    (hnum : ∀ r', ∃ t, readVlu (variableBlocksize u.streamInfo (streamBit u.input (p + 15)))
      ((u.worded p (BitVec.ofNat 32 (window u.input p 32))).readTo (p + 32) r') = .ok none t) :
    ∃ t, parseHeader (u.readTo p r) = .error (.raise .syncLoss) t := by
  obtain ⟨r', hrest⟩ := parseHeader_acceptedWord (r := r) hu ha hw
  obtain ⟨t, ht⟩ := hnum r'
  rw [← window_blk] at ht
  have hnumber : headerNumber ((u.worded p (BitVec.ofNat 32 (window u.input p 32))).readTo (p + 32) r') =
      .error (.raise .syncLoss) t := (view_bind _ _ _).trans (bind_ok ht)
  exact ⟨_, hrest.trans (rejecting_error (bind_error (bind_error hnumber)))⟩

/-! ### The checksum of good fields -/

/-- A legal number has at most six continuation bytes (R199). -/
theorem HeaderLayout.legal_cont {si : StreamInfo} {lay : HeaderLayout} (hl : lay.legal si = true) : lay.cont ≤ 6 := by
  simp only [HeaderLayout.legal, Bool.and_eq_true, decide_eq_true_eq] at hl
  obtain ⟨⟨⟨⟨-, hcont⟩, -⟩, -⟩, -⟩ := hl
  split at hcont <;> omega

/-- Steps 7 to 9 on carried fields. -/
theorem headerFields_at {lay : HeaderLayout} (hu : u.curValid = true) (hblk : u.seq.blk = lay.blk)
    (hbsc : u.seq.bsc = lay.bsc) (hsrc : u.seq.src = lay.src) (hl : lay.legal u.streamInfo = true)
    (hc : carries u.input p (vluBits lay.cont lay.number ++ fieldBits lay.blocksizeWidth lay.blocksizeField
      ++ fieldBits lay.rateWidth lay.rateField) = true)
    (h : u.admissible (p + 8 * (lay.cont + 1) + lay.blocksizeWidth + lay.rateWidth)) :
    ∃ (v : State) (r' : Word64), headerFields (u.readTo p r) =
        .ok () (v.readTo (p + 8 * (lay.cont + 1) + lay.blocksizeWidth + lay.rateWidth) r')
      ∧ v.curValid = true ∧ v.input = u.input ∧ v.params = u.params ∧ v.seq.start = u.seq.start := by
  have hc6 := HeaderLayout.legal_cont hl
  simp only [HeaderLayout.legal, Bool.and_eq_true, decide_eq_true_eq] at hl
  obtain ⟨⟨⟨⟨-, hcont⟩, hnumber⟩, hblocksize⟩, hrate⟩ := hl
  simp only [carries_append, Bool.and_eq_true, fieldBits_length, List.length_append, vluBits_length hc6,
    ← Nat.add_assoc] at hc
  obtain ⟨⟨hcn, hcb⟩, hcr⟩ := hc
  rw [← hblk] at hcont
  obtain ⟨g, hg, e1⟩ := headerNumber_at (r := r) hu hcont hnumber hcn (admissible_mono h (by omega))
  generalize hv1 : ((u.mapSeq g).withOk true).mapHdr _ = v1 at e1
  obtain ⟨hval, hin, hpar, hstart, hvbsc, hvsrc⟩ : v1.curValid = true ∧ v1.input = u.input ∧ v1.params = u.params
      ∧ v1.seq.start = u.seq.start ∧ v1.seq.bsc = lay.bsc ∧ v1.seq.src = lay.src := by
    simp [← hv1, hu, hbsc, hsrc, hg u.seq]
  have hadm : ∀ n, v1.admissible n ↔ u.admissible n := fun n => by simp only [State.admissible, hpar]
  obtain ⟨r2, e2⟩ := headerBlocksizeHint_at (r := BitVec.ofNat 64 lay.number) hval hvbsc hblocksize (hin ▸ hcb)
    ((hadm _).2 (admissible_mono h (by omega)))
  generalize hv2 : v1.mapHdr _ = v2 at e2
  obtain ⟨r3, e3⟩ := headerRateHint_at (u := v2) (r := r2)
    (p := p + 8 * (lay.cont + 1) + lay.blocksizeWidth) (by simp [← hv2, hval]) (by simp [← hv2, hvsrc]) hrate
    (by simpa [← hv2, hin] using hcr) (by simpa [← hv2] using (hadm _).2 h)
  refine ⟨_, r3, (bind_ok e1).trans ((bind_ok e2).trans e3), ?_⟩
  simp [← hv2, hval, hin, hpar, hstart]

/-- A stored checksum that is not that of the header's bytes (R203). -/
theorem headerChecksum_wrong {crc : BitVec 8} (hn : p / 8 - u.seq.start < 32) (hk : u.params.checkCrc8 = true)
    (hcap : u.seq.start + (p / 8 - u.seq.start - 1) ≤ u.params.cap)
    (hne : crc8Of (bytesAt u.input u.seq.start (p / 8 - u.seq.start - 1)) ≠ crc) :
    ∃ t, headerChecksum crc (u.readTo p r) = .error (.raise .headerChecksumMismatch) t := by
  simp only [headerChecksum, view_bind, updateHdr, update_bind, readTo_byte, readTo_seq, readTo_mapHdr, readTo_params,
    mapHdr_params, hk, if_true, mapHdr_seq, readTo_hdr, mapHdr_hdr, BitVec.toNat_ofNat, Nat.mod_eq_of_lt hn]
  have hcrc := crc8Op_ok (s := (u.mapHdr fun x =>
    { x with crc8 := crc, length := BitVec.ofNat 5 (p / 8 - u.seq.start) }).readTo p r) hcap
  exact ⟨_, (bind_ok hcrc).trans (by rw [if_pos (by exact hne)]; exact bind_error rfl)⟩

/-- The word of a legal header is accepted (R191 to R198). -/
theorem HeaderLayout.legal_word {si : StreamInfo} {lay : HeaderLayout} (hl : lay.legal si = true) :
    ¬ rejectedWord (BitVec.ofNat 32 (encode (.frameHeaderWord lay.blk lay.bsc lay.src lay.chn lay.bpc))) := by
  simp only [HeaderLayout.legal, Bool.and_eq_true, bne_iff_ne] at hl
  obtain ⟨⟨⟨⟨⟨⟨⟨hbsc, hsrc⟩, hchn⟩, hbpc⟩, -⟩, -⟩, -⟩, -⟩ := hl
  obtain ⟨hsync, -, ebsc, esrc, echn, ebpc, h17, h0⟩ := headerWord_fields lay.blk lay.bsc lay.src lay.chn lay.bpc
  simp only [rejectedWord, not_or, hsync, ebsc, esrc, echn, ebpc, h17, h0]
  exact ⟨not_not.2 rfl, Bool.false_ne_true, Bool.false_ne_true, mt blocksizeOf_reserved.2 hbsc,
    mt sampleRateOf_reserved.2 hsrc, not_le.2 (channelsOf_isSome.1 hchn), mt bpsOf_reserved.2 hbpc⟩

/-- Where the stream carries the word of a legal header, steps 1 to 6 accept what is read, and its codes are the header's. -/
theorem HeaderLayout.legal_carried {si : StreamInfo} {lay : HeaderLayout} {m : Memory} (hl : lay.legal si = true)
    (hc : carries m p (fieldBits 32 (encode (.frameHeaderWord lay.blk lay.bsc lay.src lay.chn lay.bpc))) = true) :
    let w := BitVec.ofNat 32 (window m p 32)
    ¬ rejectedWord w ∧ w.getLsbD 16 = lay.blk ∧ w.extractLsb' 12 4 = lay.bsc ∧ w.extractLsb' 8 4 = lay.src := by
  have hw : BitVec.ofNat 32 (window m p 32) =
      BitVec.ofNat 32 (encode (.frameHeaderWord lay.blk lay.bsc lay.src lay.chn lay.bpc)) := by
    rw [carries_window hc]
    exact BitVec.eq_of_toNat_eq (by simp)
  obtain ⟨-, hblk, hbsc, hsrc, -⟩ := headerWord_fields lay.blk lay.bsc lay.src lay.chn lay.bpc
  rw [hw]
  exact ⟨HeaderLayout.legal_word hl, hblk, hbsc, hsrc⟩

/-- A legal header whose stored checksum is wrong (R203). -/
theorem parseHeader_wrongChecksum {lay : HeaderLayout} {crc : BitVec 8} {a : Nat} (hu : u.curValid = true) (hp : p = 8 * a)
    (hl : lay.legal u.streamInfo = true) (hc : carries u.input p (lay.bits ++ fieldBits 8 crc.toNat) = true)
    (h : u.admissible (p + 8 * lay.length)) (hk : u.params.checkCrc8 = true)
    (hne : crc8Of (bytesAt u.input a (lay.length - 1)) ≠ crc) :
    ∃ t, parseHeader (u.readTo p r) = .error (.raise .headerChecksumMismatch) t := by
  have hcont := HeaderLayout.legal_cont hl
  have hlen := lay.length_eq hcont
  have hbits := lay.bits_length hcont
  have hle := lay.length_le hcont
  simp only [HeaderLayout.bits, List.append_assoc] at hc
  rw [carries_append, ← List.append_assoc, ← List.append_assoc, carries_append, Bool.and_eq_true, Bool.and_eq_true,
    fieldBits_length] at hc
  obtain ⟨hword, hfields, hcrc⟩ := hc
  obtain ⟨haccept, hblk, hbsc, hsrc⟩ := HeaderLayout.legal_carried hl hword
  have hadm : ∀ {v : State} {n : Nat}, v.params = u.params → n ≤ p + 8 * lay.length → v.admissible n :=
    fun {v n} hv hn => by
      simp only [State.admissible, hv] at h ⊢
      omega
  obtain ⟨r1, hparse⟩ := parseHeader_acceptedWord (r := r) hu (hadm rfl (by omega)) haccept
  obtain ⟨v, r2, e1, hv, (hin : v.input = u.input), (hpar : v.params = u.params), (hstart : v.seq.start = p / 8)⟩ :=
    headerFields_at (u := u.worded p _) (r := r1) hu hblk hbsc hsrc hl hfields (hadm rfl (by omega))
  replace hstart : v.seq.start = a := hstart.trans (by omega)
  simp only [List.length_append, fieldBits_length, vluBits_length hcont, ← Nat.add_assoc] at hcrc
  have e2 := readBits_at (r := r2) (n := 8) hv (by omega) crc.isLt (hin ▸ hcrc) (hadm hpar (by omega))
  have hend : p + 32 + 8 * (lay.cont + 1) + lay.blocksizeWidth + lay.rateWidth + 8 = p + 8 * lay.length := by omega
  have hspan : (p + 8 * lay.length) / 8 - v.seq.start = lay.length := by omega
  rw [hend] at e2
  obtain ⟨t, ht⟩ := headerChecksum_wrong (u := v) (p := p + 8 * lay.length) (r := BitVec.ofNat 64 crc.toNat) (crc := crc)
    (by omega) (hpar ▸ hk) (by simp only [State.admissible] at h; rw [hpar]; omega) (by rwa [hspan, hstart, hin])
  have hcrc8 : BitVec.ofNat 8 crc.toNat = crc := by rw [BitVec.ofNat_toNat, BitVec.setWidth_eq]
  have hwrong := (congrArg (headerChecksum · _) hcrc8).trans ht
  exact ⟨_, hparse.trans (rejecting_error ((bind_ok e1).trans ((bind_ok e2).trans hwrong)))⟩

end

end Sys2Proof.Machine

namespace Sys2Proof.Proofs
open Sys2Proof.Machine

/-- Settles O38: the word is rejected (`parseHeader_rejectedWord`), the number does not read, in its lead byte or in a later
one (`parseHeader_badNumber`), or the stored checksum is wrong (`parseHeader_wrongChecksum`). -/
theorem headerRejected : Obligations.HeaderRejected := by
  unfold Obligations.HeaderRejected
  intro s hs hbit
  have raised : ∀ {k : ErrKind}, (∃ t, parseHeader (s.readTo s.position s.res) = .error (.raise k) t) →
      exec .parseFrameHeader s = .next (takeRaise .frame k s.rejectHeader) := fun ⟨_, ht⟩ =>
    exec_parseFrameHeader_raises hs hbit (by rwa [hs.readTo_self] at ht)
  refine ⟨?word, ?lead, ?continuation, ?checksum⟩
  case word => exact fun h hw => raised (parseHeader_rejectedWord hs.valid h hw)
  case lead =>
    intro h hw hb
    have hlt : window s.input (s.position + 32) 8 < 256 := window_lt _ _ _
    have hclass : vluLeadClass (variableBlocksize s.streamInfo (streamBit s.input (s.position + 15)))
        (window s.input (s.position + 32) 8) = none := by
      refine vluLeadClass_malformed _ _ hlt ?_
      rcases hb with hb | hb | ⟨hb, hblk, hfixed⟩
      · exact .inl hb
      · exact .inr (.inr hb)
      · exact .inr (.inl ⟨hb, by simp [variableBlocksize, hblk, hfixed]⟩)
    exact raised (parseHeader_badNumber hs.valid (admissible_mono h (by omega)) hw fun _ =>
      ⟨_, readVlu_badLead (u := s.worded _ _) hs.valid hlt hclass (window_carries (Nat.mod_eq_of_lt hlt).symm) h⟩)
  case continuation =>
    intro c v j hbegins hj hgood hbad h
    have hform := hbegins.form
    obtain ⟨hw, -, hv, -, hcar⟩ := hbegins
    refine raised (parseHeader_badNumber hs.valid (admissible_mono h (by omega)) hw fun _ => ?_)
    obtain ⟨q, hread⟩ := readVlu_badByte (u := s.worded _ _) hs.valid hform hv hcar hj hgood hbad h
    exact ⟨_, hread⟩
  case checksum =>
    intro lay crc hl hc h hk hne
    exact raised (parseHeader_wrongChecksum hs.valid (position_of_aligned (congrArg Fin.val hbit)) hl hc h hk hne)

end Sys2Proof.Proofs

/-! ## Proofs: the two checksums (41_checksums.md rules R170 to R176)

A checksum's shift step is linear in its register, and answers 0 from 0 only, because the polynomial is odd. Linear: a
table step is eight shift steps of the register with the byte at its top (R175). 0 from 0 only: what must follow the data
to reach 0 is the register itself (R176). -/

namespace Sys2Proof.Machine

section
variable {w : Nat}

/-- One shift step of a checksum of any width: the register shifts left, and the polynomial is applied when a 1 is shifted
out (R170). -/
def crcShift (poly c : BitVec w) : BitVec w := if c.msb then (c <<< 1) ^^^ poly else c <<< 1

theorem crcShift_of_msb {poly c : BitVec w} (h : c.msb = true) : crcShift poly c = (c <<< 1) ^^^ poly := if_pos h

theorem crcShift_of_not_msb {poly c : BitVec w} (h : c.msb = false) : crcShift poly c = c <<< 1 := if_neg (by simp [h])

/-- A shift step is linear: where both registers shift a 1 out, the two polynomials cancel. -/
theorem crcShift_xor (poly a b : BitVec w) : crcShift poly (a ^^^ b) = crcShift poly a ^^^ crcShift poly b := by
  have hmsb : (a ^^^ b).msb = (a.msb ^^ b.msb) := BitVec.msb_xor
  rcases ha : a.msb with - | - <;> rcases hb : b.msb with - | -
  all_goals simp only [ha, hb, Bool.xor_false, Bool.xor_true, Bool.not_false, Bool.not_true] at hmsb
  · rw [crcShift_of_not_msb hmsb, crcShift_of_not_msb ha, crcShift_of_not_msb hb, BitVec.shiftLeft_xor_distrib]
  · rw [crcShift_of_msb hmsb, crcShift_of_not_msb ha, crcShift_of_msb hb, BitVec.shiftLeft_xor_distrib, BitVec.xor_assoc]
  · rw [crcShift_of_msb hmsb, crcShift_of_msb ha, crcShift_of_not_msb hb, BitVec.shiftLeft_xor_distrib]
    ac_rfl
  · rw [crcShift_of_not_msb hmsb, crcShift_of_msb ha, crcShift_of_msb hb]
    calc (a ^^^ b) <<< 1
        = ((a <<< 1) ^^^ (b <<< 1)) ^^^ (poly ^^^ poly) := by
          rw [BitVec.shiftLeft_xor_distrib, BitVec.xor_self, BitVec.xor_zero]
      _ = ((a <<< 1) ^^^ poly) ^^^ ((b <<< 1) ^^^ poly) := by ac_rfl

/-- With an odd polynomial a shift step answers 0 from 0 only: a 1 shifted out at the top would set the lowest bit. -/
theorem crcShift_eq_zero {poly c : BitVec w} (hodd : poly.getLsbD 0 = true) : crcShift poly c = 0#w ↔ c = 0#w := by
  refine ⟨fun h => ?_, ?_⟩
  · have hmsb : c.msb = false := Bool.eq_false_iff.2 fun hm => by
      have hbit := congrArg (·.getLsbD 0) ((crcShift_of_msb hm).symm.trans h)
      simp [hodd] at hbit
    rw [crcShift_of_not_msb hmsb] at h
    refine BitVec.eq_of_getMsbD_eq fun i _ => ?_
    cases i with
    | zero => exact hmsb.trans BitVec.getMsbD_zero.symm
    | succ i =>
      have hbit : (c <<< 1).getMsbD i = (0#w).getMsbD i := by rw [h]
      rwa [BitVec.getMsbD_shiftLeft, BitVec.getMsbD_zero, ← BitVec.getMsbD_zero (i := i + 1)] at hbit
  · rintro rfl
    exact (crcShift_of_not_msb BitVec.msb_zero).trans (BitVec.zero_shiftLeft 1)

/-- Any number of linear steps is linear. -/
theorem repeat_xor {f : BitVec w → BitVec w} (hf : ∀ a b, f (a ^^^ b) = f a ^^^ f b) (n : Nat) (a b : BitVec w) :
    Nat.repeat f n (a ^^^ b) = Nat.repeat f n a ^^^ Nat.repeat f n b := by
  induction n with
  | zero => rfl
  | succ n ih => exact (congrArg f ih).trans (hf _ _)

theorem repeat_eq_zero {f : BitVec w → BitVec w} (hf : ∀ c, f c = 0#w ↔ c = 0#w) (n : Nat) (c : BitVec w) :
    Nat.repeat f n c = 0#w ↔ c = 0#w := by
  induction n with
  | zero => exact Iff.rfl
  | succ n ih => exact (hf _).trans ih

/-- While no 1 is shifted out the steps only shift. -/
theorem repeat_crcShift_of_topBits {poly c : BitVec w} {n : Nat} (h : ∀ i < n, c.getMsbD i = false) :
    Nat.repeat (crcShift poly) n c = c <<< n := by
  induction n with
  | zero => exact (BitVec.shiftLeft_zero c).symm
  | succ n ih =>
    have hmsb : (c <<< n).msb = false := BitVec.msb_shiftLeft.trans (h n n.lt_succ_self)
    calc Nat.repeat (crcShift poly) (n + 1) c
        = crcShift poly (Nat.repeat (crcShift poly) n c) := rfl
      _ = crcShift poly (c <<< n) := by rw [ih fun i hi => h i (Nat.lt_succ_of_lt hi)]
      _ = c <<< (n + 1) := (crcShift_of_not_msb hmsb).trans (BitVec.shiftLeft_add c n 1).symm

end

theorem crc8Shift_eq : crc8Shift = crcShift 0x07 := rfl

theorem crc16Shift_eq : crc16Shift = crcShift 0x8005 := rfl

/-- Shifted by a byte, two bytes leave the second at the top. -/
theorem shiftLeft_append_lowByte (x y : Byte) : (x ++ y) <<< 8 = y ++ 0#8 :=
  (BitVec.shiftLeft_eq_concat_of_lt (by decide)).trans (congrArg (· ++ 0#8) BitVec.extractLsb'_append_eq_right)

/-- Eight shift steps move the low byte of the CRC-16 register to its top. -/
theorem repeat_crc16Shift_lowByte (y : Byte) : Nat.repeat crc16Shift 8 (0#8 ++ y) = y ++ 0#8 := by
  have htop : ∀ i < 8, (0#8 ++ y).getMsbD i = false := fun i hi => by
    rw [BitVec.getMsbD_append, if_neg (Nat.not_le.2 hi), BitVec.getMsbD_zero]
  rw [crc16Shift_eq, repeat_crcShift_of_topBits htop, shiftLeft_append_lowByte]

theorem repeat_crc16Shift_xor (n : Nat) (a b : BitVec 16) :
    Nat.repeat crc16Shift n (a ^^^ b) = Nat.repeat crc16Shift n a ^^^ Nat.repeat crc16Shift n b := by
  rw [crc16Shift_eq, repeat_xor (crcShift_xor _)]

theorem repeat_crc16Shift_eq_zero (n : Nat) (c : BitVec 16) : Nat.repeat crc16Shift n c = 0#16 ↔ c = 0#16 := by
  rw [crc16Shift_eq, repeat_eq_zero fun _ => crcShift_eq_zero rfl]

theorem crc8Step_eq_zero (c : BitVec 8) (x : Byte) : crc8Step c x = 0#8 ↔ x = c := by
  rw [crc8Step, t8, crc8Shift_eq, repeat_eq_zero fun _ => crcShift_eq_zero rfl, BitVec.xor_eq_zero_iff, eq_comm]

/-- R175 at one byte: the register's top byte goes through the table, its low byte moves to the top. -/
theorem crc16Step_eq_repeat (c : BitVec 16) (x : Byte) : crc16Step c x = Nat.repeat crc16Shift 8 (c ^^^ (x ++ 0#8)) := by
  have hc : c.extractLsb' 8 8 ++ c.extractLsb' 0 8 = c :=
    (BitVec.extractLsb'_append_extractLsb'_eq_extractLsb' rfl).trans BitVec.extractLsb'_eq_self
  generalize c.extractLsb' 8 8 = hi, c.extractLsb' 0 8 = lo at hc
  subst hc
  calc crc16Step (hi ++ lo) x
      = ((hi ++ lo) <<< 8) ^^^ Nat.repeat crc16Shift 8 ((hi ^^^ x) ++ 0#8) := by
        rw [crc16Step, t16, BitVec.extractLsb'_append_eq_left, BitVec.ofNat_eq_ofNat]
    _ = Nat.repeat crc16Shift 8 ((0#8 ++ lo) ^^^ ((hi ^^^ x) ++ 0#8)) := by
        rw [shiftLeft_append_lowByte, repeat_crc16Shift_xor, repeat_crc16Shift_lowByte]
    _ = Nat.repeat crc16Shift 8 ((hi ++ lo) ^^^ (x ++ 0#8)) := by
        rw [BitVec.xor_append, BitVec.xor_append, BitVec.zero_xor, BitVec.xor_zero]

/-- Two bytes are a sum of the first at the top and the second at the bottom. -/
theorem append_eq_xor (x y : Byte) : x ++ y = (x ++ 0#8) ^^^ (0#8 ++ y) := by
  rw [BitVec.xor_append, BitVec.xor_zero, BitVec.zero_xor]

/-- R174 over two bytes: they enter the register together. -/
theorem crc16Step_crc16Step (c : BitVec 16) (x y : Byte) :
    crc16Step (crc16Step c x) y = Nat.repeat crc16Shift 8 (Nat.repeat crc16Shift 8 (c ^^^ (x ++ y))) := by
  rw [crc16Step_eq_repeat, crc16Step_eq_repeat, ← repeat_crc16Shift_lowByte y, ← repeat_crc16Shift_xor, BitVec.xor_assoc,
    ← append_eq_xor]

theorem crc16Step_crc16Step_eq_zero (c : BitVec 16) (x y : Byte) :
    crc16Step (crc16Step c x) y = 0#16 ↔ x ++ y = c := by
  rw [crc16Step_crc16Step, repeat_crc16Shift_eq_zero, repeat_crc16Shift_eq_zero, BitVec.xor_eq_zero_iff, eq_comm]

theorem crc8Of_append (data more : List Byte) : crc8Of (data ++ more) = more.foldl crc8Step (crc8Of data) :=
  List.foldl_append

theorem crc16Of_append (data more : List Byte) : crc16Of (data ++ more) = more.foldl crc16Step (crc16Of data) :=
  List.foldl_append

end Sys2Proof.Machine

namespace Sys2Proof.Proofs
open Sys2Proof.Machine

/-- Settles O35: the two forms agree byte by byte, CRC-8 as the table is defined, CRC-16 because its shift steps are linear
(`crc16Step_eq_repeat`). -/
theorem checksumsBitSerial : Obligations.ChecksumsBitSerial := by
  unfold Obligations.ChecksumsBitSerial
  exact fun bytes => ⟨rfl, congrArg (bytes.foldl · 0) (funext₂ crc16Step_eq_repeat)⟩

/-- Settles O36: the bytes that follow the data enter the register together, and the steps after that answer 0 from 0
only. -/
theorem checksumResidue : Obligations.ChecksumResidue := by
  unfold Obligations.ChecksumResidue
  intro data x y
  rw [crc16Of_append, crc8Of_append]
  exact ⟨crc16Step_crc16Step_eq_zero (crc16Of data) x y, crc8Step_eq_zero (crc8Of data) x⟩

end Sys2Proof.Proofs

/-! ## Proofs: what a parse, a pack and a raise leave (42_frame_header.md rules R190 to R204, 47_packer.md rule R340)

A header parse and a pack end refused, with a raise, or with the writes of their steps (`ParseWrites`, `PackWrites`). That a
good parse leaves OK = 1 is its number's answer (R142), which no later step writes. The rows of the two stored checksums are
one step each, computed once for every state whose span is inside IN. -/

namespace Sys2Proof.Machine

/-- A command that answers a state ended at rest where its steps did, or with a raise in them. -/
theorem runCommand_ends {c : CommandClass} {op : Op Unit} {s t : State} (h : runCommand c op s = .next t) :
    (∃ u, op s = .ok () u ∧ t = u.atRest) ∨ ∃ k u, op s = .error (.raise k) u ∧ t = takeRaise c k u := by
  cases hop : op s with
  | ok _ u =>
    rw [runCommand_ok hop] at h
    exact .inl ⟨u, rfl, (Host.Outcome.next.inj h).symm⟩
  | error e u =>
    cases e with
    | raise k =>
      rw [runCommand_raise hop] at h
      exact .inr ⟨k, u, rfl, (Host.Outcome.next.inj h).symm⟩
    | halt f =>
      rw [runCommand_halt hop] at h
      cases h

/-! ### What a header parse writes -/

/-- A state that differs in what a header parse writes (R190), and in the sequencer's names. -/
def ParseWrites (s t : State) : Prop :=
  ∃ h b o w r x f q,
    t = { s with hdr := h, byte := b, bit := o, cache := w, res := r, ok := x, fstate := f, seq := q }

theorem parseWrites_composable : Composable ParseWrites (Anyhow ParseWrites) :=
  composable_anyhow (fun _ => ⟨_, _, _, _, _, _, _, _, rfl⟩) <| by
    rintro s _ _ ⟨_, _, _, _, _, _, _, _, rfl⟩ ⟨h, b, o, w, r, x, f, q, rfl⟩
    exact ⟨h, b, o, w, r, x, f, q, rfl⟩

theorem parseWrites_header : HeaderWrites ParseWrites (Anyhow ParseWrites) where
  toComposable := parseWrites_composable
  move := within_setPos_anyhow parseWrites_composable (fun _ _ _ => ⟨_, _, _, _, _, _, _, _, rfl⟩)
    fun _ _ => ⟨_, _, _, _, _, _, _, _, rfl⟩
  result _ _ := ⟨_, _, _, _, _, _, _, _, rfl⟩
  okFlag _ _ := ⟨_, _, _, _, _, _, _, _, rfl⟩
  names _ _ := ⟨_, _, _, _, _, _, _, _, rfl⟩
  header _ _ _ := ⟨_, _, _, _, _, _, _, _, rfl⟩
  parsed _ := ⟨_, _, _, _, _, _, _, _, rfl⟩
  rejected := by
    rintro _ s _ ⟨_, b, o, w, r, x, f, q, rfl⟩
    exact ⟨_, b, o, w, r, x, f, q, rfl⟩

/-- A header parse keeps to these writes, wherever it ends. -/
theorem parseHeader_writes : Op.Within ParseWrites (Anyhow ParseWrites) parseHeader :=
  within_parseHeader parseWrites_header fun _ _ => ⟨_, _, _, _, _, _, _, _, rfl⟩

/-! ### OK after a header parse (R142, log entry 7) -/

theorem of_rejecting_ok {α : Type} {x : Op α} {s t : State} {a : α} (h : rejecting x s = .ok a t) : x s = .ok a t := by
  cases hx : x s with
  | ok b u => rw [rejecting_ok hx] at h; exact h
  | error e u => rw [rejecting_error hx] at h; cases h

theorem cursor_sameOk : CursorWrites (Same State.ok) (Anyhow (Same State.ok)) where
  toComposable := composable_same _
  move := within_setPos_anyhow (composable_same _) (fun _ _ _ => rfl) fun _ _ => rfl
  result _ _ := rfl

/-- A field of the header read into HDR leaves OK. -/
theorem sameOk_readIntoHdr (n : Nat) (f : Nat → Header → Header) :
    Op.Within (Same State.ok) (Anyhow (Same State.ok)) (do let v ← readBits n; updateHdr (f v)) :=
  within_bind cursor_sameOk.toComposable (within_readBits cursor_sameOk n) fun _ => within_update fun _ => rfl

theorem sameOk_headerBlocksizeHint : Op.Within (Same State.ok) (Anyhow (Same State.ok)) headerBlocksizeHint :=
  have hC := cursor_sameOk.toComposable
  within_bind hC (within_view hC _) fun _ => within_ite (sameOk_readIntoHdr 8 _)
    (within_ite (sameOk_readIntoHdr 16 _) (within_pure hC ()))

theorem sameOk_headerRateHint : Op.Within (Same State.ok) (Anyhow (Same State.ok)) headerRateHint :=
  have hC := cursor_sameOk.toComposable
  within_bind hC (within_view hC _) fun _ => within_ite (sameOk_readIntoHdr 8 _)
    (within_ite (sameOk_readIntoHdr 16 _) (within_ite (sameOk_readIntoHdr 16 _) (within_pure hC ())))

theorem sameOk_headerChecksum (crc : BitVec 8) :
    Op.Within (Same State.ok) (Anyhow (Same State.ok)) (headerChecksum crc) := by
  have hC := cursor_sameOk.toComposable
  have hend : Op.Within (Same State.ok) (Anyhow (Same State.ok)) (do setHdrValid true; setFState .headerParsed) :=
    within_bind hC (within_update fun _ => rfl) fun _ => within_update fun _ => rfl
  refine within_bind hC (within_view hC _) fun _ => within_bind hC (within_update fun _ => rfl) fun _ =>
    within_bind hC (within_view hC _) fun _ => within_ite ?_ hend
  exact within_bind hC (within_view hC _) fun _ => within_bind hC (within_view hC _) fun _ =>
    within_bind hC (within_crc8Op cursor_sameOk _ _) fun _ =>
    within_ite (within_bind hC (within_raise hC _) fun _ => hend) hend

/-- A header's number that reads leaves OK = 1 (R142, R199). -/
theorem headerNumber_sets_ok {s t : State} (h : headerNumber s = .ok () t) : t.ok = true := by
  rw [headerNumber, view_bind] at h
  obtain ⟨r, u, hread, h⟩ := of_bind_ok h
  cases r with
  | none => cases h
  | some v =>
    obtain ⟨hok, -⟩ : VluAnswered _ (some v) u := readVlu_answered hread
    cases h
    exact hok

/-- A parse that answers leaves OK = 1: its number read, and no later step writes OK. -/
theorem parseHeader_sets_ok {s t : State} (h : parseHeader s = .ok () t) : t.ok = true := by
  have hC := cursor_sameOk.toComposable
  have hrest := within_bind hC sameOk_headerBlocksizeHint fun _ => within_bind hC sameOk_headerRateHint fun _ =>
    within_bind hC (within_readBits cursor_sameOk 8) fun c => sameOk_headerChecksum (BitVec.ofNat 8 c)
  obtain ⟨_, _, -, h⟩ := of_bind_ok (of_rejecting_ok h)
  obtain ⟨_, _, -, h⟩ := of_bind_ok h
  obtain ⟨_, _, -, h⟩ := of_bind_ok h
  obtain ⟨_, _, hnumber, h⟩ := of_bind_ok h
  exact (hrest.ok h).trans (headerNumber_sets_ok hnumber)

/-! ### How a header parse ends -/

theorem exec_parseFrameHeader (s : State) :
    exec .parseFrameHeader s = needCursor s (needRange (s.bit.val == 0) s (runCommand .frame parseHeader s)) := rfl

/-- What a parse raises is a kind of class fault, and the raise shows the state it began in with its header rejected (R204). -/
theorem parseHeader_raised {k : ErrKind} {s t : State} (h : parseHeader s = .error (.raise k) t) :
    k.isFault = true ∧ takeRaise .frame k t = takeRaise .frame k s.rejectHeader := by
  have hkept := errKept_writes false
  have hkind : StopsByFault (.raise k) s t := (within_parseHeader hkept.toHeaderWrites hkept.validity).error h
  refine ⟨hkind k rfl, ?_⟩
  have hwrites : ParseWrites s t := parseHeader_writes.error h
  obtain ⟨u, -, hu⟩ := of_rejecting_error h
  have hhdr : t.hdr = freeHeader t.freeCount := by rw [hu]; rfl
  obtain ⟨_, _, _, _, _, _, _, _, rfl⟩ := hwrites
  exact takeRaise_shown rfl hhdr

/-- A parse that answers, at a byte boundary, leaves a valid header, HeaderParsed and OK = 1 (R203). -/
theorem parseHeader_answered {s t : State} (hbit : s.bit.val = 0) (h : parseHeader s = .ok () t) :
    ∃ hd b o w r q, hd.valid = true ∧ t = { s with
      hdr := hd, fstate := .headerParsed, byte := b, bit := o, cache := w, res := r, ok := true, seq := q } := by
  obtain ⟨-, hvalid, hf, -⟩ := (parseHeader_meets (a := s.byte) (si := s.streamInfo)).ok ⟨rfl, position_of_aligned hbit⟩ h
  have hok := parseHeader_sets_ok h
  obtain ⟨hd, b, o, w, r, x, f, q, rfl⟩ := parseHeader_writes.ok h
  obtain rfl : f = .headerParsed := hf
  obtain rfl : x = true := hok
  exact ⟨hd, b, o, w, r, q, hvalid, rfl⟩

/-- How `parse_frame_header` can end: refused, at rest after its steps, or with a raise in them. -/
theorem exec_parseFrameHeader_ends {s t : State} (h : exec .parseFrameHeader s = .next t) :
    (∃ k, k.isRefusal = true ∧ t = refuse k s)
      ∨ (s.bit.val = 0 ∧ ∃ u, parseHeader s = .ok () u ∧ t = u.atRest)
      ∨ ∃ k u, parseHeader s = .error (.raise k) u ∧ t = takeRaise .frame k u := by
  rw [exec_parseFrameHeader] at h
  by_cases hv : s.curValid = true
  · rw [needCursor_valid _ hv] at h
    by_cases hb : s.bit.val = 0
    · rw [needRange_in _ (beq_iff_eq.2 hb)] at h
      exact .inr ((runCommand_ends h).imp_left fun hok => ⟨hb, hok⟩)
    · rw [needRange_out _ (beq_eq_false_iff_ne.2 hb)] at h
      exact .inl ⟨_, rfl, (Host.Outcome.next.inj h).symm⟩
  · rw [needCursor_none _ (eq_false_of_ne_true hv)] at h
    exact .inl ⟨_, rfl, (Host.Outcome.next.inj h).symm⟩

/-! ### What a pack writes -/

/-- A state that differs in OUT and FSTATE alone (R340). -/
def PackWrites (s t : State) : Prop := ∃ bytes f, t = { s with out := bytes, fstate := f }

theorem packWrites_composable : Composable PackWrites (Anyhow PackWrites) :=
  composable_anyhow (fun _ => ⟨_, _, rfl⟩) <| by
    rintro s _ _ ⟨_, _, rfl⟩ ⟨bytes, f, rfl⟩
    exact ⟨bytes, f, rfl⟩

/-- A pack keeps to these writes, wherever it ends. -/
theorem packOp_writes : Op.Within PackWrites (Anyhow PackWrites) packOp :=
  within_packOp packWrites_composable (fun _ _ => ⟨_, _, rfl⟩) (fun _ _ => ⟨_, _, rfl⟩) fun _ => ⟨_, _, rfl⟩

/-- What a pack raises is a kind of class fault, and the raise shows the state it began in. -/
theorem packOp_raised {k : ErrKind} {s t : State} (h : packOp s = .error (.raise k) t) :
    k.isFault = true ∧ takeRaise .frame k t = takeRaise .frame k s := by
  have hkept := errKept_writes false
  have hkind : StopsByFault (.raise k) s t :=
    (within_packOp hkept.toHeaderWrites.toComposable hkept.halts hkept.output fun s => hkept.phase s _).error h
  refine ⟨hkind k rfl, ?_⟩
  obtain ⟨_, _, rfl⟩ : PackWrites s t := packOp_writes.error h
  exact takeRaise_shown rfl rfl

/-- How `pack` can end: refused, at rest after its steps, or with a raise in them. -/
theorem exec_pack_ends {s t : State} (h : exec .pack s = .next t) :
    t = refuse .illegalCommand s ∨ (∃ u, packOp s = .ok () u ∧ t = u.atRest)
      ∨ ∃ k u, packOp s = .error (.raise k) u ∧ t = takeRaise .frame k u := by
  by_cases hv : s.fstate = .verified
  · rw [exec_pack_verified hv] at h
    exact .inr (runCommand_ends h)
  · exact .inl (Host.Outcome.next.inj ((if_neg hv : exec .pack s = _).symm.trans h)).symm

/-! ### The rows of the stored checksums -/

theorem exec_headerCrc8 (crc : BitVec 8) (s : State) :
    exec (.headerCrc8 crc) s = needCursor s (runField .frame (rejecting (headerChecksum crc)) s) := rfl

theorem exec_frameFooter (f : BitVec 16) (s : State) :
    exec (.frameFooter f) s = needCursor s (runField .frame frameChecksum s) := rfl

/-- The header's bytes so far as its field HDR.length counts them (R26). -/
def State.headerLength (s : State) : Nat := (s.byte - s.seq.start) % 32

/-- A header that ends here with the stored checksum `crc` (R203). -/
def State.headerEnded (crc : BitVec 8) (s : State) : State :=
  (s.mapHdr fun h => { h with crc8 := crc, length := BitVec.ofNat 5 s.headerLength, valid := true }).withFState .headerParsed

section
variable {s : State} {crc : BitVec 8}

theorem ofNat_headerLength (s : State) : BitVec.ofNat 5 (s.byte - s.seq.start) = BitVec.ofNat 5 s.headerLength :=
  BitVec.eq_of_toNat_eq (by simp [State.headerLength])

theorem toNat_headerLength (s : State) : (BitVec.ofNat 5 s.headerLength).toNat = s.headerLength := by
  simp [State.headerLength]

/-- Step 10 where the checksum is not checked (R203). -/
theorem headerChecksum_unchecked (hk : s.params.checkCrc8 = false) :
    headerChecksum crc s = .ok () (s.headerEnded crc) := by
  simp only [headerChecksum, view_bind, updateHdr, update_bind, mapHdr_params, hk, Bool.false_eq_true, if_false,
    ofNat_headerLength]
  rfl

/-- Step 10 where the checksum is checked, over a span inside IN: it is right or wrong (R203). -/
theorem headerChecksum_checked (hk : s.params.checkCrc8 = true)
    (hcap : s.seq.start + (s.headerLength - 1) ≤ s.params.cap) :
    let k := crc8Of (bytesAt s.input s.seq.start (s.headerLength - 1))
    (k = crc → headerChecksum crc s = .ok () ((s.headerEnded crc).withRes (k.setWidth 64)))
    ∧ (k ≠ crc → ∃ t, headerChecksum crc s = .error (.raise .headerChecksumMismatch) t) := by
  have hcrc := crc8Op_ok (s := s.mapHdr fun h => { h with crc8 := crc, length := BitVec.ofNat 5 s.headerLength }) hcap
  rw [mapHdr_input] at hcrc
  simp only [headerChecksum, view_bind, updateHdr, update_bind, mapHdr_params, hk, if_true, ofNat_headerLength, mapHdr_seq,
    mapHdr_hdr, toNat_headerLength]
  rw [bind_ok hcrc]
  exact ⟨fun hright => by rw [if_neg (not_not.2 hright)]; rfl, fun hwrong => ⟨_, by rw [if_pos hwrong]; rfl⟩⟩

/-- Step 8 of a frame whose span is inside IN (R367, R368). -/
theorem frameChecksum_checked (hcap : s.seq.start + (s.byte - s.seq.start) ≤ s.params.cap) :
    let k := crc16Of (bytesAt s.input s.seq.start (s.byte - s.seq.start))
    (k = 0 → frameChecksum s = .ok () ((s.withRes 0).withFState .verified))
    ∧ (k ≠ 0 → frameChecksum s = .error (.raise .frameChecksumMismatch) (s.withRes (k.setWidth 64))) := by
  simp only [frameChecksum, view_bind]
  rw [bind_ok (crc16Op_ok hcap)]
  exact ⟨fun h0 => by rw [if_neg (not_not.2 h0), h0]; rfl, fun hne => by rw [if_pos hne, raise_apply]⟩

end

end Sys2Proof.Machine

namespace Sys2Proof.Proofs
open Sys2Proof.Machine

/-- Settles O18: each command by its ends, a good one with the writes of its steps (`parseHeader_answered`, `packOp_writes`),
a raise with what it shows (`parseHeader_raised`, `packOp_raised`). -/
theorem parseAndPackFrame : Obligations.ParseAndPackFrame := by
  unfold Obligations.ParseAndPackFrame
  refine fun s t => ⟨fun h => ?parse, fun h => ?pack⟩
  case parse =>
    rcases exec_parseFrameHeader_ends h with hrefused | ⟨hbit, u, hu, rfl⟩ | ⟨k, u, hu, rfl⟩
    · exact .inl hrefused
    · obtain ⟨hd, b, o, w, r, q, hvalid, rfl⟩ := parseHeader_answered hbit hu
      exact .inr (.inr ⟨hd, b, o, w, r, hvalid, rfl⟩)
    · exact .inr (.inl ⟨k, parseHeader_raised hu⟩)
  case pack =>
    rcases exec_pack_ends h with hrefused | ⟨u, hu, rfl⟩ | ⟨k, u, hu, rfl⟩
    · exact .inl hrefused
    · have hpacked := packOp_fstate hu
      obtain ⟨bytes, f, rfl⟩ := packOp_writes.ok hu
      obtain rfl : f = .packed := hpacked
      exact .inr (.inr ⟨bytes, rfl⟩)
    · exact .inr (.inl ⟨k, packOp_raised hu⟩)

/-- Settles O37: the parse of a carried header (`parseHeader_at`), whose header word, number and fields are all good. -/
theorem parseHeader : Obligations.ParseHeader := by
  unfold Obligations.ParseHeader
  intro s lay crc hs hbit hl hc h hcrc
  have hbit0 : s.bit.val = 0 := congrArg Fin.val hbit
  obtain ⟨g, -, hparse⟩ := parseHeader_at (r := s.res) hs.valid (position_of_aligned hbit0) hl hc h hcrc
  rw [hs.readTo_self] at hparse
  rw [exec_parseFrameHeader, needCursor_valid _ hs.valid, needRange_in _ (beq_iff_eq.2 hbit0), runCommand_ok hparse]
  rfl

/-- Settles O41: the two steps over spans inside IN (`headerChecksum_checked`, `frameChecksum_checked`), a CRC-8 that is not
checked (`headerChecksum_unchecked`), and what the raises show. -/
theorem checksumRows : Obligations.ChecksumRows := by
  unfold Obligations.ChecksumRows
  intro s hs hstart hbyte
  refine ⟨fun crc => ?crc8, fun f => ?footer⟩
  case crc8 =>
    have hcap : s.seq.start + (s.headerLength - 1) ≤ s.params.cap := by
      have := Nat.mod_le (s.byte - s.seq.start) 32
      simp only [State.headerLength]
      omega
    have checked := fun hk => headerChecksum_checked (crc := crc) hk hcap
    rw [exec_headerCrc8, needCursor_valid _ hs]
    exact ⟨fun hk => runField_ok (rejecting_ok (headerChecksum_unchecked hk)),
      fun hk hright => runField_ok (rejecting_ok ((checked hk).1 hright)),
      fun hk hwrong => let ⟨_, ht⟩ := (checked hk).2 hwrong
        runField_rejected (within_headerChecksum header_sameShown (fun _ _ => rfl) crc) ht⟩
  case footer =>
    obtain ⟨hgood, hbad⟩ := frameChecksum_checked (s := s) (by omega)
    rw [exec_frameFooter, needCursor_valid _ hs]
    exact ⟨fun h0 => runField_ok (hgood h0), fun hne => (runField_raise (hbad hne)).trans rfl⟩

/-- Settles O20, field by field of `takeRaise` and `rejectHeader`; FSTATE by the class of the command. -/
theorem raiseEffects : Obligations.RaiseEffects := by
  unfold Obligations.RaiseEffects
  intro c k s
  refine ⟨takeRaise_err c k s, takeRaise_curValid c k s, ?fstate, takeRaise_hdr c k s, takeRaise_input c k s,
    takeRaise_params c k s, takeRaise_streamInfo c k s, takeRaise_wide c k s, takeRaise_pending c k s,
    rejectHeader_valid s, rfl⟩
  case fstate =>
    cases c with
    | frame => rfl
    | primitive => rfl

end Sys2Proof.Proofs

/-! ## Proofs: subframes and residual sections that are rejected (43_subframe.md rules R222, R223, R228; 44_residual.md rules
R250 to R257)

A rejection is followed as an overrun is (`Op.Overruns`): the fields before it are read by the `_at` lemma of their
operation, and what raises hands its kind on through the binds. -/

namespace Sys2Proof.Machine

/-! ### Steps that raise -/

section
variable {α β : Type} {k : ErrKind}

/-- The step raises `k`. -/
def Op.Rejects (x : Op α) (k : ErrKind) (s : State) : Prop := ∃ t, x s = .error (.raise k) t

theorem Op.Rejects.bind {x : Op α} {f : α → Op β} {s : State} (h : x.Rejects k s) : (x >>= f).Rejects k s :=
  let ⟨t, ht⟩ := h
  ⟨t, bind_error ht⟩

/-- A step that answers hands on what the rest raises. -/
theorem rejects_after {x : Op α} {f : α → Op β} {s t : State} {a : α} (h : x s = .ok a t) (hf : (f a).Rejects k t) :
    (x >>= f).Rejects k s :=
  let ⟨u, hu⟩ := hf
  ⟨u, (bind_ok h).trans hu⟩

theorem raise_rejects (k : ErrKind) (s : State) : (raise k : Op α).Rejects k s := ⟨s, rfl⟩

theorem Op.Rejects.atPosition {x : Op α} {s : State} (h : x.Rejects k (s.readTo s.position s.res)) (hs : s.Ready) :
    x.Rejects k s := by
  rwa [hs.readTo_self] at h

/-- A row whose operation raises ends as that raise. -/
theorem field_rejects {op : Op Unit} {s : State} (hs : s.curValid = true)
    (hw : Op.Within (Same fun s => (s.shown, s.hdr)) (Anyhow (Same fun s => (s.shown, s.hdr))) op) (h : op.Rejects k s) :
    needCursor s (runField .frame op s) = .next (takeRaise .frame k s) :=
  let ⟨_, ht⟩ := h
  field_raised hs hw ht

/-- So ends a tag row. -/
theorem tagRow_rejects {w : Bool} {body : Fin 8 → Op Unit} {s : State} (hs : s.curValid = true)
    (hb : ∀ c, Op.Within (Same fun s => (s.shown, s.hdr)) (Anyhow (Same fun s => (s.shown, s.hdr))) (body c))
    (h : (subframeAfterTag w body).Rejects k s) :
    needCursor s (runField .frame (subframeAfterTag w body) s) = .next (takeRaise .frame k s) :=
  field_rejects hs (within_subframeAfterTag subframe_sameShown (fun _ _ => rfl) w hb) h

end

/-! ### Depths, orders and LPC parameters -/

section
variable {s u : State} {c : Fin 8} {p wasted k : Nat} {r : Word64} {warm : List Int}

theorem wastedBits_at (hu : u.curValid = true) (hc : carries u.input p (wastedCode wasted) = true)
    (ha : u.admissible (p + (wastedCode wasted).length)) :
    ∃ r', wastedBits c (wasted != 0) (u.readTo p r) =
      .ok () ((u.mapSub c fun x => { x with wasted := wasted }).readTo (p + (wastedCode wasted).length) r') := by
  cases wasted with
  | zero => exact ⟨r, rfl⟩
  | succ q =>
    have hcode : wastedCode (q + 1) = unaryBits q := rfl
    rw [hcode] at hc ha ⊢
    rw [unaryBits_length] at ha ⊢
    exact ⟨_, bind_ok (readUnary_at hu hc ha)⟩

theorem effectiveDepth_rejects (h : u.seq.base ≤ u.sub[c].wasted) : (effectiveDepth c).Rejects .structuralError u := by
  simp only [effectiveDepth, Op.Rejects, view_bind]
  rw [if_pos h]
  exact raise_rejects _ _

/-- A base depth that the wasted bits use up (R222). -/
theorem subframe_depthRejects {body : Fin 8 → Op Unit} (hs : s.Ready) (hw : s.seq.base ≤ wasted)
    (hc : carries s.input s.position (wastedCode wasted) = true)
    (ha : s.admissible (s.position + (wastedCode wasted).length)) :
    (subframeAfterTag (wasted != 0) body).Rejects .structuralError s := by
  obtain ⟨r, hr⟩ := wastedBits_at (c := s.seq.chan) (r := s.res) hs.valid hc ha
  rw [hs.readTo_self] at hr
  have hdepth : (effectiveDepth s.seq.chan).Rejects .structuralError
      ((s.mapSub s.seq.chan fun x => { x with wasted := wasted }).readTo (s.position + (wastedCode wasted).length) r) :=
    effectiveDepth_rejects (by rw [readTo_seq, mapSub_seq, readTo_sub, mapSub_get]; exact hw)
  exact rejects_after rfl (rejects_after hr hdepth.bind)

/-- A body that raises at every depth (R223). -/
theorem subframe_bodyRejects {body : Fin 8 → Op Unit} {e : ErrKind} (hs : s.Ready) (hw : wasted < s.seq.base)
    (hc : carries s.input s.position (wastedCode wasted) = true)
    (ha : s.admissible (s.position + (wastedCode wasted).length))
    (hbody : ∀ v : State, v.hdr = s.hdr → (body s.seq.chan).Rejects e v) :
    (subframeAfterTag (wasted != 0) body).Rejects e s := by
  let lay : SubframeLayout := { wasted := wasted, body := .constant 0 }
  have hcode : (if lay.flag then unaryBits (lay.wasted - 1) else []) = wastedCode wasted := by
    simp only [lay, SubframeLayout.flag, wastedCode, bne_iff_ne, ite_not]
  obtain ⟨r, hr⟩ := depth_at (c := s.seq.chan) (r := s.res) (lay := lay) hs.valid rfl hw (by rwa [hcode]) (by rwa [hcode])
  rw [hs.readTo_self] at hr
  have hrest := rejects_after (f := fun _ => do body s.seq.chan; restoreWasted s.seq.chan) hr (hbody _ (by rfl)).bind
  rw [bind_assoc] at hrest
  exact rejects_after rfl hrest

theorem checkOrder_rejects (h : u.hdr.blocksize.toNat < k) : (checkOrder k).Rejects .structuralError u := by
  simp only [checkOrder, Op.Rejects, view_bind]
  rw [if_pos h]
  exact raise_rejects _ _

/-- An order above the block size (R223). -/
theorem bodyOp_rejects {b : Body} (h : u.hdr.blocksize.toNat < b.order) : (b.op c).Rejects .structuralError u := by
  cases b with
  | constant v => exact absurd h (Nat.not_lt_zero _)
  | verbatim xs => exact absurd h (Nat.not_lt_zero _)
  | fixed k xs sec =>
    have hcheck : (checkOrder k.val).Rejects .structuralError
        (u.mapSub c fun x => { x with type := .fixed, order := k.val }) := checkOrder_rejects h
    simp only [Body.op, fixedBody, if_neg (show ¬ 4 < k.val by omega)]
    exact rejects_after rfl hcheck.bind
  | lpc o precision shift coeff xs sec =>
    have hcheck : (checkOrder (o.val + 1)).Rejects .structuralError
        (u.mapSub c fun x => { x with type := .lpc, order := o.val + 1 }) := checkOrder_rejects h
    exact rejects_after rfl hcheck.bind

/-- The two LPC parameters that are rejected: the reserved precision and a negative shift (R228). -/
theorem lpcParameters_rejects {tail : List Bool} (hu : u.curValid = true)
    (htail : tail = fieldBits 4 15
      ∨ ∃ prec shift, prec < 15 ∧ fitsBits 5 shift = true ∧ shift < 0 ∧ tail = fieldBits 4 prec ++ signedBits 5 shift)
    (hc : carries u.input p tail = true) (ha : u.admissible (p + tail.length)) :
    (lpcParameters k).Rejects .structuralError (u.readTo p r) := by
  rcases htail with rfl | ⟨prec, shift, hprec, hfits, hneg, rfl⟩
  · rw [fieldBits_length] at ha
    exact rejects_after (readBits_at hu (by omega) (by omega) hc ha) (raise_rejects _ _)
  · rw [carries_append, Bool.and_eq_true, fieldBits_length] at hc
    rw [List.length_append, fieldBits_length, signedBits_length, ← Nat.add_assoc] at ha
    refine rejects_after (readBits_at hu (by omega) (by omega) hc.1 (admissible_mono ha (by omega))) ?_
    rw [if_neg (by omega)]
    have hshift := readSigned_at (u := u.mapLpcp fun l => { l with precision := prec + 1 }) (r := BitVec.ofNat 64 prec) hu
      (by omega) hfits hc.2 ha
    refine rejects_after rfl (rejects_after hshift ?_)
    rw [if_pos hneg]
    exact raise_rejects _ _

/-- What a tag row raises after its warm-up samples (R226, R228). -/
theorem subframe_restRejects {ty : SubframeType} {body : Fin 8 → Op Unit} {rest : Op Unit} {e : ErrKind} {bits : List Bool}
    (hs : s.Ready) (hd : depthAllowed s.wide s.seq.base) (hw : wasted < s.seq.base)
    (hk : warm.length ≤ s.hdr.blocksize.toNat) (hv : ∀ v ∈ warm, fitsBits (s.seq.base - wasted) v = true)
    (hbits : bits = wastedCode wasted ++ warm.flatMap (signedBits (s.seq.base - wasted)))
    (hc : carries s.input s.position bits = true) (ha : s.admissible (s.position + bits.length))
    (hbody : body s.seq.chan = (do
      setType s.seq.chan ty warm.length
      checkOrder warm.length
      warmUp s.seq.chan warm.length
      rest))
    (hrest : ∀ r, rest.Rejects e ((s.warmed ty wasted warm).readTo (s.position + bits.length) r)) :
    (subframeAfterTag (wasted != 0) body).Rejects e s := by
  subst hbits
  obtain ⟨r, hr⟩ := warmed_at (u := s) (r := s.res) (c := s.seq.chan) (ty := ty) hs.valid rfl hd hw hk rfl hv rfl hc ha
  rw [hs.readTo_self] at hr
  have hgo := rejects_after (f := fun _ => do rest; restoreWasted s.seq.chan) hr (hrest r).bind
  rw [Op.Rejects, subframeAfterTag, view_bind, hbody]
  simpa only [Op.Rejects, bind_assoc] using hgo

end

end Sys2Proof.Machine

namespace Sys2Proof.Proofs
open Sys2Proof.Machine

/-- Settles O45: the depth and the order are rejected before the body reads anything (`subframe_depthRejects`,
`subframe_bodyRejects`), the LPC parameters after the warm-up samples (`lpcParameters_rejects`); an LPC order above the block
size is rejected by then. -/
theorem subframesRejected : Obligations.SubframesRejected := by
  unfold Obligations.SubframesRejected
  intro s wasted hs hcode hadm
  have hR := subframe_sameShown
  have hE : MayHalt (Anyhow (Same fun s : State => (s.shown, s.hdr))) := fun _ _ => rfl
  have early : ∀ b : Body, s.seq.base ≤ wasted ∨ s.hdr.blocksize.toNat < b.order →
      exec (b.row (wasted != 0)) s = .next (takeRaise .frame .structuralError s) := by
    intro b h
    rw [exec_row]
    refine tagRow_rejects hs.valid (within_bodyOp hR hE b) ?_
    rcases Nat.lt_or_ge wasted s.seq.base with hw | hw
    · exact subframe_bodyRejects hs hw hcode hadm fun v hv => bodyOp_rejects (by rw [hv]; omega)
    · exact subframe_depthRejects hs hw hcode hadm
  refine ⟨early, fun order warm tail hw hd hlen hv htail => ?_⟩
  intro bits hc ha
  rcases Nat.lt_or_ge s.hdr.blocksize.toNat (order.toNat + 1) with hn | hn
  · have := early (.lpc order.toFin 0 0 [] [] ⟨0, 0, []⟩) (.inr hn)
    simpa [Body.row] using this
  · rw [carries_append, Bool.and_eq_true] at hc
    rw [List.length_append, ← Nat.add_assoc] at ha
    have hrow := subframe_restRejects (ty := .lpc) (body := fun c => lpcBody c warm.length) hs hd hw (by omega) hv rfl hc.1
      (admissible_mono ha (Nat.le_add_right _ _)) rfl fun r =>
        (lpcParameters_rejects (u := s.warmed .lpc wasted warm) hs.valid htail hc.2 ha).bind
    rw [hlen] at hrow
    exact tagRow_rejects hs.valid (fun c => within_lpcBody hR hE c _) hrow

end Sys2Proof.Proofs

/-! ### Residual sections -/

namespace Sys2Proof.Machine

section
variable {α : Type} {s u v : State} {c : Fin 8} {p k m po pb : Nat} {r : Word64}

/-- What a step raises, it raises in every state its run agrees with. -/
theorem Op.Agree.rejects {P : State → State → Prop} {Q : α → State → State → Prop} {x : Op α} {e : ErrKind}
    (hx : Op.Agree P x Q) (hst : P s u) (h : x.Rejects e s) : x.Rejects e u := by
  obtain ⟨t, ht⟩ := h
  rcases hx s u hst with ⟨a, s', u', hs, -, -⟩ | ⟨e', s', u', hs, hu, -⟩
  · cases ht.symm.trans hs
  · cases ht.symm.trans hs
    exact ⟨u', hu⟩

/-- A section whose channel, order, method and partition order are known (R250, R251). -/
def State.inSection (u : State) (c : Fin 8) (k m po : Nat) : State :=
  (u.mapSeq fun q => { q with chan := c, order := k }).mapRp fun x =>
    { x with method := m, paramBits := 4 + m, partitionOrder := po }

/-- METHOD and the partition order are read; the check of R252 is next. -/
theorem decodeResidual_opened (hu : u.curValid = true) (hm : m < 2) (hpo : po < 16)
    (hc : carries u.input p (fieldBits 2 m ++ fieldBits 4 po) = true) (ha : u.admissible (p + 6)) :
    ∃ r', decodeResidual c k (u.readTo p r) =
      (if partitionsFit u.hdr.blocksize.toNat po k then forEach (List.range (2 ^ po)) decodePartition
        else raise .structuralError) ((u.inSection c k m po).readTo (p + 6) r') := by
  rw [carries_append, Bool.and_eq_true, fieldBits_length] at hc
  simp only [decodeResidual, updateSeq, update_bind, readTo_mapSeq]
  rw [bind_ok (readBits_at (u := u.mapSeq fun q => { q with chan := c, order := k }) (v := m) hu (by omega) (by omega) hc.1
    (admissible_mono ha (by omega))), if_neg (by omega)]
  simp only [setMethod, updateRp, update_bind, readTo_mapRp]
  rw [bind_ok (readBits_at (u := (u.mapSeq fun q => { q with chan := c, order := k }).mapRp fun x =>
    { x with method := m, paramBits := 4 + m }) (v := po) hu (by omega) (by omega) hc.2 ha)]
  exact ⟨_, rfl⟩

/-- Methods 2 and 3 (R250). -/
theorem decodeResidual_methodRejects (hu : u.curValid = true) (h2 : 2 ≤ m) (h4 : m < 4)
    (hc : carries u.input p (fieldBits 2 m) = true) (ha : u.admissible (p + 2)) :
    (decodeResidual c k).Rejects .structuralError (u.readTo p r) := by
  have hread := readBits_at (u := u.mapSeq fun q => { q with chan := c, order := k }) (r := r) hu (by omega) h4 hc ha
  refine rejects_after rfl (rejects_after hread ?_)
  rw [if_pos h2]
  exact Op.Rejects.bind ⟨_, rfl⟩

/-- The check of R252 as the rule words it. -/
theorem partitionsFit_iff (n po k : Nat) : partitionsFit n po k = true ↔ n % 2 ^ po = 0 ∧ k ≤ n / 2 ^ po := by
  rw [partitionsFit, Bool.and_eq_true, beq_iff_eq, decide_eq_true_eq, Nat.shiftRight_eq_div_pow]

/-- A partition order that does not fit the block (R252). -/
theorem decodeResidual_orderRejects (hu : u.curValid = true) (hm : m < 2) (hpo : po < 16)
    (hc : carries u.input p (fieldBits 2 m ++ fieldBits 4 po) = true) (ha : u.admissible (p + 6))
    (hfit : u.hdr.blocksize.toNat % 2 ^ po ≠ 0 ∨ u.hdr.blocksize.toNat / 2 ^ po < k) :
    (decodeResidual c k).Rejects .structuralError (u.readTo p r) := by
  obtain ⟨r', hr⟩ := decodeResidual_opened (c := c) (k := k) (r := r) hu hm hpo hc ha
  rw [Op.Rejects, hr, if_neg (by rw [partitionsFit_iff]; omega)]
  exact raise_rejects _ _

/-! ### Rice codes -/

/-- A Rice code of 2^32 or more (R257). -/
theorem riceResidual_rejects {kk q x : Nat} (hu : u.curValid = true) (hk : kk ≤ 32) (hx : x < 2 ^ kk)
    (hbig : 2 ^ 32 ≤ q * 2 ^ kk + x) (hc : carries u.input p (unaryBits q ++ fieldBits kk x) = true)
    (ha : u.admissible (p + (q + 1 + kk))) : (riceResidual kk).Rejects .arithmeticOverflow (u.readTo p r) := by
  rw [carries_append, Bool.and_eq_true, unaryBits_length] at hc
  have hjoin : q <<< kk ||| x = q * 2 ^ kk + x := by
    rw [Nat.shiftLeft_eq, Nat.mul_comm, Nat.two_pow_add_eq_or_of_lt hx]
  have hbad : ∀ t, (if 2 ^ 32 ≤ q <<< kk ||| x then raise .arithmeticOverflow
      else pure (zigZag (q <<< kk ||| x)) : Op Int).Rejects .arithmeticOverflow t := fun t => by
    rw [if_pos (by rwa [hjoin])]
    exact raise_rejects _ _
  refine rejects_after (readUnary_at hu hc.1 (admissible_mono ha (by omega))) ?_
  by_cases h0 : kk = 0
  · obtain rfl : x = 0 := by rw [h0] at hx; omega
    rw [if_pos h0]
    exact rejects_after (pure_apply 0 _) (hbad _)
  · rw [if_neg h0]
    exact rejects_after (readBits_at hu hk hx hc.2 (by rwa [Nat.add_assoc])) (hbad _)

/-- Rice codes of good values, and then one of 2^32 or more. -/
theorem repeatRice_rejects {kk q x n : Nat} {vs : List Int} (hu : u.curValid = true) (hk : kk ≤ 32) (hx : x < 2 ^ kk)
    (hbig : 2 ^ 32 ≤ q * 2 ^ kk + x) (hv : ∀ v ∈ vs, fits32 v = true) (hn : vs.length < n)
    (hc : carries u.input p (vs.flatMap (riceBits kk) ++ (unaryBits q ++ fieldBits kk x)) = true)
    (ha : u.admissible (p + (vs.flatMap (riceBits kk) ++ (unaryBits q ++ fieldBits kk x)).length)) :
    (repeatOp n (riceResidual kk)).Rejects .arithmeticOverflow (u.readTo p r) := by
  induction vs generalizing p r n with
  | nil =>
    obtain ⟨n, rfl⟩ : ∃ m, n = m + 1 := ⟨n - 1, by simp only [List.length_nil] at hn; omega⟩
    exact (riceResidual_rejects hu hk hx hbig hc (by simpa using ha)).bind
  | cons v vs ih =>
    rw [List.length_cons] at hn
    obtain ⟨n, rfl⟩ : ∃ m, n = m + 1 := ⟨n - 1, by omega⟩
    rw [List.flatMap_cons, List.append_assoc] at hc ha
    rw [carries_append, Bool.and_eq_true] at hc
    rw [List.length_append, ← Nat.add_assoc] at ha
    obtain ⟨r', hr⟩ := riceResidual_at (r := r) hu hk (hv v (List.mem_cons_self ..)) hc.1
      (admissible_mono ha (Nat.le_add_right _ _))
    exact rejects_after hr (ih (fun w hw => hv w (List.mem_cons_of_mem _ hw)) (by omega) hc.2 ha).bind

/-- A row of Rice codes with one of 2^32 or more (R255, R257). -/
theorem ricePartition_rejects {kk q x : Nat} {vs : List Int} (hs : s.Ready) (hk : kk ≤ 32) (hx : x < 2 ^ kk)
    (hbig : 2 ^ 32 ≤ q * 2 ^ kk + x) (hv : ∀ v ∈ vs, fits32 v = true) (hn : vs.length < s.partitionSize)
    (hc : carries s.input s.position (vs.flatMap (riceBits kk) ++ (unaryBits q ++ fieldBits kk x)) = true)
    (ha : s.admissible (s.position + (vs.flatMap (riceBits kk) ++ (unaryBits q ++ fieldBits kk x)).length)) :
    (ricePartition kk).Rejects .arithmeticOverflow s := by
  have hcodes := repeatRice_rejects (u := s.mapRp fun r => { r with param := kk }) (r := s.res) (n := s.partitionSize)
    hs.valid hk hx hbig hv hn hc ha
  rw [← readTo_mapRp, hs.readTo_self] at hcodes
  exact rejects_after rfl (rejects_after rfl hcodes.bind)

/-! ### What a partition raises -/

/-- The steps of a partition after its parameter field (R253). -/
def partitionBody (bits x : Nat) : Op Unit := if x = 2 ^ bits - 1 then escapePartition x else ricePartition x

theorem decodePartition_rejects {j x : Nat} {e : ErrKind} (hu : u.curValid = true) (hpb : u.rp.paramBits = pb)
    (hpb5 : pb ≤ 5) (hx : x < 2 ^ pb) (hc : carries u.input p (fieldBits pb x) = true) (ha : u.admissible (p + pb))
    (h : (partitionBody pb x).Rejects e
      ((u.mapSeq fun q => { q with part := j }).readTo (p + pb) (BitVec.ofNat 64 x))) :
    (decodePartition j).Rejects e (u.readTo p r) := by
  subst hpb
  have hread := readBits_at (u := u.mapSeq fun q => { q with part := j }) (r := r) hu (by omega) hx hc ha
  exact rejects_after rfl (rejects_after rfl (rejects_after hread h))

/-- Steps that answer, and then one that raises. -/
theorem forEach_rejects {n j : Nat} {f : Nat → Op Unit} {e : ErrKind} (hj : j < n)
    (hgood : forEach (List.range' 0 j) f s = .ok () u) (hbad : (f j).Rejects e u) :
    (forEach (List.range n) f).Rejects e s := by
  have hsplit : List.range n = List.range' 0 j ++ List.range' (0 + j) (n - j) := by
    rw [List.range'_append_1, Nat.add_sub_cancel' hj.le, List.range_eq_range']
  obtain ⟨l, hl⟩ : ∃ l, n - j = l + 1 := ⟨n - j - 1, by omega⟩
  rw [Op.Rejects, hsplit, forEach_append, hl, Nat.zero_add, List.range'_succ]
  exact rejects_after hgood hbad.bind

/-- Good partitions leave the place of the next one as its index and the section say (R253). -/
theorem placed_afterPartitions {f : ResidualParams → ResidualParams} {g : Sequencer → Sequencer} (hf : KeepsSection f)
    (hg : KeepsNames g) (u : State) (d : Fin 8) (i j : Nat) (vs : List Int) :
    With Placed ((u.mapSeq fun q => { q with part := j }).moveTo p)
      (((((u.mapSeq g).mapRp f).writeCh d i vs).mapSeq fun q => { q with part := j }).readTo p r) := by
  have hpo : (f u.rp).partitionOrder = u.rp.partitionOrder := (hf _).2.2
  have hseq : { g u.seq with part := j } = { u.seq with part := j } := by rw [hg u.seq]
  refine ⟨⟨rfl, rfl, rfl, rfl, rfl, rfl, rfl, rfl, rfl, rfl, rfl, rfl, rfl, fun _ => rfl⟩, ?_, ?_, ?_⟩
  · exact congrArg Sequencer.chan hseq.symm
  · show Machine.partitionStart _ _ _ _ = Machine.partitionStart _ (f u.rp).partitionOrder { g u.seq with part := j }.order _
    rw [hpo, hseq]
    rfl
  · show Machine.partitionSize _ _ _ _ = Machine.partitionSize _ (f u.rp).partitionOrder { g u.seq with part := j }.order _
    rw [hpo, hseq]
    rfl

/-- What a partition raises after good ones and its parameter, the section raises (R253): a partition reads of the section
its place only (`Placed`). -/
theorem decodeResidual_partRejects {x : Nat} {parts : List Partition} {e : ErrKind} {bits : List Bool}
    (hu : u.curValid = true) (hm : m < 2) (hpo : po < 16) (hx : x < 2 ^ (4 + m))
    (hfit : partitionsFit u.hdr.blocksize.toNat po k = true) (hlen : parts.length < 2 ^ po)
    (hq : ∀ q ∈ parts, q.codable (4 + m) = true)
    (hsz : ∀ j (h : j < parts.length), parts[j].values.length = partitionSize u.hdr.blocksize.toNat po k j)
    (hbits : bits = fieldBits 2 m ++ fieldBits 4 po ++ parts.flatMap (Partition.bits (4 + m)) ++ fieldBits (4 + m) x)
    (hc : carries u.input p bits = true) (ha : u.admissible (p + bits.length))
    (h : (partitionBody (4 + m) x).Rejects e
      (((u.inSection c k m po).mapSeq fun q => { q with part := parts.length }).moveTo (p + bits.length))) :
    (decodeResidual c k).Rejects e (u.readTo p r) := by
  have hbl : bits.length = 6 + (parts.flatMap (Partition.bits (4 + m))).length + (4 + m) := by
    simp only [hbits, List.length_append, fieldBits_length]
  rw [hbl, ← Nat.add_assoc, ← Nat.add_assoc p 6] at ha h
  simp only [hbits, carries_append, Bool.and_eq_true, List.length_append, fieldBits_length, ← Nat.add_assoc] at hc
  obtain ⟨⟨⟨hc1, hc2⟩, hc3⟩, hc4⟩ := hc
  obtain ⟨r1, hr1⟩ := decodeResidual_opened (c := c) (k := k) (r := r) hu hm hpo
    (by rw [carries_append, Bool.and_eq_true, fieldBits_length]; exact ⟨hc1, hc2⟩) (admissible_mono ha (by omega))
  have hk : k ≤ u.hdr.blocksize.toNat >>> po := by
    rw [Nat.shiftRight_eq_div_pow]
    exact ((partitionsFit_iff _ _ _).1 hfit).2
  obtain ⟨f, g, r2, hf, hg, hr2⟩ := partitions_at (u := u.inSection c k m po) (p := p + 6) (r := r1) (j := 0) (pb := 4 + m)
    (n := u.hdr.blocksize.toNat) (po := po) (k := k) hu rfl rfl rfl rfl (by omega) hk hq
    (fun i hi => by rw [Nat.zero_add]; exact hsz i hi) hc3 (admissible_mono ha (Nat.le_add_right _ _))
  rw [Op.Rejects, hr1, if_pos hfit]
  refine forEach_rejects hlen hr2 (decodePartition_rejects (pb := 4 + m) hu (hf _).2.1 (by omega) hx hc4 ha ?_)
  exact (agree_partition _ _).rejects (placed_afterPartitions hf hg _ _ _ _ _) h

/-- The row a parameter field selects (R254, R255). -/
theorem exec_param {x : Nat} (hm : m < 2) (hx : x < 2 ^ (4 + m)) :
    exec (if m = 0 then decodeParam4 (BitVec.ofNat 4 x) else decodeParam5 (BitVec.ofNat 5 x)) s =
      needCursor s (runField .frame (partitionBody (4 + m) x) s) := by
  obtain rfl | rfl : m = 0 ∨ m = 1 := by omega
  · rw [if_pos rfl, exec_decodeParam4, BitVec.toNat_ofNat, Nat.mod_eq_of_lt hx]
    rfl
  · rw [if_neg Nat.one_ne_zero, exec_decodeParam5, BitVec.toNat_ofNat, Nat.mod_eq_of_lt hx]
    rfl

theorem within_partitionBody {R : State → State → Prop} {E : Stop → State → State → Prop} (hR : ResidualWrites R E)
    (bits x : Nat) : Op.Within R E (partitionBody bits x) :=
  within_ite (within_escapePartition hR x) (within_ricePartition hR x)

/-! ### What a residual section raises -/

/-- A section raises the same whatever LPCP and RES hold (`agree_decodeResidual`). -/
theorem decodeResidual_rejectsAt {e : ErrKind} (l : LpcParams → LpcParams)
    (h : (decodeResidual c k).Rejects e (u.moveTo p)) : (decodeResidual c k).Rejects e ((u.mapLpcp l).readTo p r) :=
  (agree_decodeResidual (L := AnyLpcp) k).rejects (s := u.moveTo p)
    ⟨⟨rfl, rfl, rfl, rfl, rfl, rfl, rfl, rfl, rfl, rfl, rfl, rfl, rfl, fun _ => rfl⟩,
      ⟨⟨⟨⟨rfl, rfl, rfl, rfl⟩, rfl, rfl, trivial⟩, rfl⟩, rfl⟩⟩ h

/-- A Fixed or LPC row raises what its section raises after its warm-up samples and parameters (R226, R228). -/
theorem residualRow_rejects {wasted : Nat} {ty : SubframeType} {warm : List Int} {mid bits : List Bool} {i : Instr}
    {e : ErrKind} (hrow : residualRow warm.length (wasted != 0) ty mid i) (hs : s.Ready) (hw : wasted < s.seq.base)
    (hd : depthAllowed s.wide s.seq.base) (hk : warm.length ≤ s.hdr.blocksize.toNat)
    (hv : ∀ v ∈ warm, fitsBits (s.seq.base - wasted) v = true)
    (hbits : bits = wastedCode wasted ++ warm.flatMap (signedBits (s.seq.base - wasted)) ++ mid)
    (hc : carries s.input s.position bits = true) (ha : s.admissible (s.position + bits.length))
    (h : (decodeResidual s.seq.chan warm.length).Rejects e ((s.warmed ty wasted warm).moveTo (s.position + bits.length))) :
    exec i s = .next (takeRaise .frame e s) := by
  have hR := subframe_sameShown
  have hE : MayHalt (Anyhow (Same fun s : State => (s.shown, s.hdr))) := fun _ _ => rfl
  obtain ⟨pre, hpre⟩ : ∃ pre, pre = wastedCode wasted ++ warm.flatMap (signedBits (s.seq.base - wasted)) := ⟨_, rfl⟩
  rw [hbits, ← hpre, carries_append, Bool.and_eq_true] at hc
  rw [hbits, ← hpre, List.length_append, ← Nat.add_assoc] at ha h
  have ha' := admissible_mono ha (Nat.le_add_right _ _)
  rcases hrow with ⟨j, hj, rfl, rfl, rfl⟩ | ⟨order, precision, shift, coeff, ho, rfl, hp1, hp15, hsh, hcl, hcf, rfl, rfl⟩
  · rw [exec_row]
    refine tagRow_rejects hs.valid (within_bodyOp hR hE _) ?_
    refine subframe_restRejects (ty := .fixed) hs hd hw hk hv hpre hc.1 ha' (rest := do
      decodeResidual s.seq.chan warm.length; restoreFixed s.seq.chan warm.length) ?_ fun r => ?_
    · rw [Body.op, fixedBody, if_neg (by omega), hj]
    · exact (decodeResidual_rejectsAt id h).bind
  · simp only [List.length_append, fieldBits_length] at ha h
    have hbody := subframe_restRejects (ty := .lpc) (body := fun c => lpcBody c warm.length) hs hd hw hk hv hpre hc.1 ha' rfl
      fun r => by
        obtain ⟨r', hr⟩ := lpcParameters_at (u := s.warmed .lpc wasted warm) (r := r) hs.valid hp1 hp15 hsh hcf hc.2 ha
        rw [hcl] at hr
        exact rejects_after hr (decodeResidual_rejectsAt _ h).bind
    rw [← ho] at hbody
    exact tagRow_rejects hs.valid (fun c => within_lpcBody hR hE c _) hbody

end

end Sys2Proof.Machine

namespace Sys2Proof.Proofs
open Sys2Proof.Machine

/-- Settles O48, clause by clause. A partition's row and a section raise where they stand alone
(`of_field_raised`), and so they do inside their section (`decodeResidual_partRejects`) and their subframe
(`residualRow_rejects`). -/
theorem residualsRejected : Obligations.ResidualsRejected := by
  unfold Obligations.ResidualsRejected
  intro s hs
  have hR := subframe_sameShown.toResidualWrites
  have section_rejects : ∀ {c k e}, (Machine.decodeResidual c k.val).Rejects e (s.readTo s.position s.res) →
      exec (.decodeResidual c k) s = .next (takeRaise .frame e s) := fun {c k _} h =>
    field_rejects hs.valid (within_decodeResidual hR c k.val) (h.atPosition hs)
  refine ⟨?method, ?order, ?rice, ?partition, ?residual⟩
  case method =>
    intro c k m h2 h4 hc ha
    exact section_rejects (decodeResidual_methodRejects hs.valid h2 h4 hc ha)
  case order =>
    intro c k m p hm hp hc ha hfit
    exact section_rejects (decodeResidual_orderRejects hs.valid hm hp hc ha hfit)
  case rice =>
    intro vs kk q r i hrow hn hv hr hbig bits hc ha
    have hbits : bits = vs.flatMap (riceBits kk) ++ (unaryBits q ++ fieldBits kk r) := List.append_assoc ..
    rw [hbits] at hc ha
    have row : kk ≤ 32 →
        needCursor s (runField .frame (ricePartition kk) s) = .next (takeRaise .frame .arithmeticOverflow s) := fun hk =>
      field_rejects hs.valid (within_ricePartition hR kk) (ricePartition_rejects hs hk hr hbig hv hn hc ha)
    rcases hrow with ⟨k, -, rfl, rfl⟩ | ⟨k, -, rfl, rfl⟩
    · exact row (by omega)
    · exact row (by omega)
  case partition =>
    intro c k m p param parts hm hp hparam hfit hlen hq hsz bits hc ha u row v hrow hv
    rw [exec_param hm hparam] at hrow
    have hraise := of_field_raised (s := u) hs.valid
      (within_partitionBody subframe_sameCursor.toResidualWrites _ _) hrow hv
    exact section_rejects (decodeResidual_partRejects hs.valid hm hp hparam hfit hlen hq hsz rfl hc ha hraise)
  case residual =>
    intro wasted k ty warm mid row hrow hw hd hk hlen d hv bits hc ha u v hsec hvalid
    have hraise := of_field_raised (s := u) hs.valid
      (within_decodeResidual subframe_sameCursor.toResidualWrites _ _) hsec hvalid
    have hu : u = (s.warmed ty wasted warm).moveTo (s.position + bits.length) := by rw [State.warmed, hlen]
    rw [hu] at hraise
    rw [← hlen] at hrow hk hraise
    exact residualRow_rejects hrow hs hw hd hk hv rfl hc ha hraise

end Sys2Proof.Proofs

/-! ## Proofs: what a part of a subframe changes (43_subframe.md, 44_residual.md, 45_predictors.md, 46_decorrelator.md)

A footprint names the entries, the descriptors and the registers a part may write. `Op.Covers` says that a step that answers
wrote nothing else; unlike `Op.Within` it carries a fact of the state from step to step and on to the values, as the length
of what is written to CH decides which entries that are. -/

namespace Sys2Proof.Machine

/-! ### Footprints -/

/-- What a part may write: entries of CH, descriptors, POS with CACHE and RES, RP, LPCP and the sequencer's names. -/
structure Footprint where
  entry : Fin 8 → Nat → Prop
  descriptor : Fin 8 → Prop
  stream : Bool
  rp : Bool
  lpcp : Bool
  names : Bool

/-- From `s` to `t` only what the footprint names has changed. -/
structure Footprint.Changes (F : Footprint) (s t : State) : Prop where
  outside : t = { s with
    byte := t.byte, bit := t.bit, cache := t.cache, res := t.res, seq := t.seq, sub := t.sub, rp := t.rp
    lpcp := t.lpcp, ch := t.ch }
  entry : ∀ d j, ¬ F.entry d j → t.ch.read s.wide d j = s.ch.read s.wide d j
  descriptor : ∀ d : Fin 8, ¬ F.descriptor d → t.sub[d] = s.sub[d]
  stream : F.stream = false → t.byte = s.byte ∧ t.bit = s.bit ∧ t.cache = s.cache ∧ t.res = s.res
  rp : F.rp = false → t.rp = s.rp
  lpcp : F.lpcp = false → t.lpcp = s.lpcp
  names : F.names = false → t.seq = s.seq

section
variable {F : Footprint} {s t u : State}

theorem Footprint.Changes.refl (F : Footprint) (s : State) : F.Changes s s where
  outside := rfl
  entry _ _ _ := rfl
  descriptor _ _ := rfl
  stream _ := ⟨rfl, rfl, rfl, rfl⟩
  rp _ := rfl
  lpcp _ := rfl
  names _ := rfl

theorem Footprint.Changes.wide (h : F.Changes s t) : t.wide = s.wide := by rw [h.outside]

theorem Footprint.Changes.trans (h1 : F.Changes s t) (h2 : F.Changes t u) : F.Changes s u where
  outside := h2.outside.trans (by rw [h1.outside])
  entry d j h := by rw [← h1.entry d j h, ← h1.wide, h2.entry d j h]
  descriptor d h := (h2.descriptor d h).trans (h1.descriptor d h)
  stream h :=
    let ⟨hb, ho, hw, hr⟩ := h1.stream h
    let ⟨hb', ho', hw', hr'⟩ := h2.stream h
    ⟨hb'.trans hb, ho'.trans ho, hw'.trans hw, hr'.trans hr⟩
  rp h := (h2.rp h).trans (h1.rp h)
  lpcp h := (h2.lpcp h).trans (h1.lpcp h)
  names h := (h2.names h).trans (h1.names h)

theorem changes_moves (hF : F.stream = true) (h : Moves s t) : F.Changes s t := by
  obtain ⟨b, o, w, r, rfl⟩ := h
  exact { Footprint.Changes.refl F s with outside := rfl, stream := fun e => nomatch hF.symm.trans e }

theorem changes_mapSeq (hF : F.names = true) (f : Sequencer → Sequencer) : F.Changes s (s.mapSeq f) :=
  { Footprint.Changes.refl F s with outside := rfl, names := fun e => nomatch hF.symm.trans e }

theorem changes_mapRp (hF : F.rp = true) (f : ResidualParams → ResidualParams) : F.Changes s (s.mapRp f) :=
  { Footprint.Changes.refl F s with outside := rfl, rp := fun e => nomatch hF.symm.trans e }

theorem changes_mapLpcp (hF : F.lpcp = true) (f : LpcParams → LpcParams) : F.Changes s (s.mapLpcp f) :=
  { Footprint.Changes.refl F s with outside := rfl, lpcp := fun e => nomatch hF.symm.trans e }

theorem changes_mapSub {c : Fin 8} (hF : F.descriptor c) (f : Subframe → Subframe) : F.Changes s (s.mapSub c f) :=
  { Footprint.Changes.refl F s with
    outside := rfl
    descriptor := fun d hd => by
      have hne : c.val ≠ d.val := fun e => hd (Fin.ext e ▸ hF)
      simp [State.mapSub, hne] }

theorem changes_writeCh {c : Fin 8} {i : Nat} {vs : List Int} (hF : ∀ j, i ≤ j → j < i + vs.length → F.entry c j) :
    F.Changes s (s.writeCh c i vs) :=
  { Footprint.Changes.refl F s with
    outside := rfl
    entry := fun d j hd => by
      rw [writeCh_ch, write_read, dif_neg]
      rintro ⟨rfl, hi, hj⟩
      exact hd (hF j hi hj) }

end

/-! ### Steps that a footprint covers -/

section
variable {α β : Type} {F : Footprint} {P P' : State → Prop} {Q : α → State → Prop} {S : β → State → Prop}

/-- From P, a step that answers has changed only what F names, and Q holds of its answer and the state it leaves. -/
def Op.Covers (F : Footprint) (P : State → Prop) (x : Op α) (Q : α → State → Prop) : Prop :=
  ∀ s a t, P s → x s = .ok a t → F.Changes s t ∧ Q a t

theorem covers_pure {a : α} (h : ∀ s, P s → Q a s) : Op.Covers F P (pure a) Q := by
  rintro s _ _ hs ⟨⟩
  exact ⟨.refl F s, h s hs⟩

theorem covers_raise {k : ErrKind} : Op.Covers F P (raise k : Op α) Q := by
  rintro s a t - ⟨⟩

theorem covers_update {f : State → State} {Q : Unit → State → Prop} (hf : ∀ s, P s → F.Changes s (f s))
    (hQ : ∀ s, P s → Q () (f s)) : Op.Covers F P (update f) Q := by
  rintro s _ _ hs ⟨⟩
  exact ⟨hf s hs, hQ s hs⟩

theorem covers_bind {x : Op α} {f : α → Op β} (hx : Op.Covers F P x Q) (hf : ∀ a, Op.Covers F (Q a) (f a) S) :
    Op.Covers F P (x >>= f) S := by
  intro s b u hs h
  obtain ⟨a, t, hxs, hft⟩ := of_bind_ok h
  obtain ⟨h1, ha⟩ := hx s a t hs hxs
  obtain ⟨h2, hb⟩ := hf a t b u ha hft
  exact ⟨h1.trans h2, hb⟩

/-- A view of a value that does not matter. -/
theorem covers_view {f : State → α} {g : α → Op β} (h : ∀ a, Op.Covers F P (g a) S) : Op.Covers F P (view f >>= g) S :=
  fun s => h (f s) s

/-- A view of a value that P knows. -/
theorem covers_known {f : State → α} {g : α → Op β} {a : α} (hf : ∀ s, P s → f s = a) (h : Op.Covers F P (g a) S) :
    Op.Covers F P (view f >>= g) S := by
  intro s b t hs hg
  rw [view_bind, hf s hs] at hg
  exact h s b t hs hg

theorem covers_ite {c : Prop} [Decidable c] {x y : Op α} (hx : c → Op.Covers F P x Q) (hy : ¬ c → Op.Covers F P y Q) :
    Op.Covers F P (if c then x else y) Q := by
  split
  · next h => exact hx h
  · next h => exact hy h

theorem covers_orRaise {k : ErrKind} {o : Option α} : Op.Covers F P (orRaise k o) fun a s => P s ∧ o = some a := by
  cases o with
  | none => exact covers_raise
  | some a => exact covers_pure fun s hs => ⟨hs, rfl⟩

/-- A fact that is not about the state. -/
theorem covers_fact {x : Op α} {c : Prop} (h : c → Op.Covers F P x Q) : Op.Covers F (fun s => P s ∧ c) x Q :=
  fun s a t hs => h hs.2 s a t hs.1

theorem Op.Covers.weaken {Q' : α → State → Prop} {x : Op α} (h : Op.Covers F P x Q) (hP : ∀ s, P' s → P s)
    (hQ : ∀ a s, Q a s → Q' a s) : Op.Covers F P' x Q' := fun s a t hs hx =>
  let ⟨h1, h2⟩ := h s a t (hP s hs) hx
  ⟨h1, hQ a t h2⟩

theorem covers_repeatOp {x : Op α} (hx : Op.Covers F P x fun _ => P) (n : Nat) :
    Op.Covers F P (repeatOp n x) fun vs s => P s ∧ vs.length = n := by
  induction n with
  | zero => exact covers_pure fun s hs => ⟨hs, rfl⟩
  | succ n ih =>
    exact covers_bind hx fun _ => covers_bind ih fun _ => covers_pure fun s hs => ⟨hs.1, by rw [List.length_cons, hs.2]⟩

theorem covers_forEach {f : α → Op Unit} {as : List α} (h : ∀ a ∈ as, Op.Covers F P (f a) fun _ => P) :
    Op.Covers F P (forEach as f) fun _ => P := by
  induction as with
  | nil => exact covers_pure fun s hs => hs
  | cons a as ih =>
    exact covers_bind (h a (List.mem_cons_self ..)) fun _ => ih fun b hb => h b (List.mem_cons_of_mem _ hb)

/-- A cursor operation. -/
theorem covers_moves {x : Op α} (hF : F.stream = true) (hP : OffCursor P) (hx : Op.Within Moves Raises x) :
    Op.Covers F P x fun _ => P := fun s _ t hs h =>
  have hm := hx.ok h
  ⟨changes_moves hF hm, hP s t hm hs⟩

theorem covers_writeSamples {c : Fin 8} {i : Nat} {vs : List Int} (hF : ∀ j, i ≤ j → j < i + vs.length → F.entry c j)
    (hP : ∀ s vs, P s → P (s.writeCh c i vs)) : Op.Covers F P (writeSamples c i vs) fun _ => P :=
  covers_update (fun _ _ => changes_writeCh hF) fun s hs => hP s vs hs

theorem readFrom_length {back : Nat → Option Int} {cells : List (Option Int)} {i n : Nat} {xs : List Int}
    (h : readFrom back cells i n = .ok xs) : xs.length = n := by
  induction n generalizing cells i xs with
  | zero => cases h; rfl
  | succ n ih =>
    simp only [readFrom] at h
    split at h
    · cases h
    · split at h
      · next hr => cases h; rw [List.length_cons, ih hr]
      · cases h

theorem covers_readSamples {c : Fin 8} {n : Nat} : Op.Covers F P (readSamples c n) fun xs s => P s ∧ xs.length = n := by
  intro s xs t hs h
  simp only [readSamples] at h
  split at h
  · next hr => cases h; exact ⟨.refl F s, hs, readFrom_length hr⟩
  · cases h

theorem mapOption_length {f : Int → Option Int} {xs ys : List Int} (h : mapOption f xs = some ys) :
    ys.length = xs.length := by
  induction xs generalizing ys with
  | nil => cases h; rfl
  | cons x xs ih =>
    simp only [mapOption] at h
    split at h
    · cases h
    · split at h
      · cases h
      · next hr => cases h; rw [List.length_cons, List.length_cons, ih hr]

end

/-! ### Partitions (R252 to R255) -/

section
variable {F : Footprint} {c : Fin 8} {n k po j : Nat}

/-- The footprint covers a residual section of channel c, or the part of one that writes the entries from `lo` to `hi`. -/
structure Footprint.Section (F : Footprint) (c : Fin 8) (lo hi : Nat) : Prop where
  stream : F.stream = true
  rp : F.rp = true
  entry : ∀ j, lo ≤ j → j < hi → F.entry c j

/-- Inside partition j of a residual section. -/
def InPartition (c : Fin 8) (n k po j : Nat) (s : State) : Prop := InSection c n k po s ∧ s.seq.part = j

theorem inPartition_offCursor : OffCursor (InPartition c n k po j) := by
  rintro s _ ⟨_, _, _, _, rfl⟩ h
  exact h

theorem covers_updateRp {P : State → Prop} {f : ResidualParams → ResidualParams} (hF : F.rp = true)
    (hf : ∀ s, P s → P (s.mapRp f)) : Op.Covers F P (updateRp f) fun _ => P :=
  covers_update (fun _ _ => changes_mapRp hF f) hf

theorem inPartition_mapRp {f : ResidualParams → ResidualParams} (hf : ∀ r, (f r).partitionOrder = r.partitionOrder)
    (s : State) (h : InPartition c n k po j s) : InPartition c n k po j (s.mapRp f) := by
  obtain ⟨⟨hn, hc, hk, hpo⟩, hj⟩ := h
  exact ⟨⟨hn, hc, hk, (hf _).trans hpo⟩, hj⟩

/-- The entries of partition j. -/
abbrev Footprint.Partition (F : Footprint) (c : Fin 8) (n k po j : Nat) : Prop :=
  F.Section c (partitionStart n po k j) (partitionStart n po k j + partitionSize n po k j)

theorem inPartition_start {s : State} (h : InPartition c n k po j s) : s.partitionStart = partitionStart n po k j := by
  obtain ⟨⟨hn, -, hk, hpo⟩, hj⟩ := h
  rw [State.partitionStart, hn, hk, hpo, hj]

theorem inPartition_size {s : State} (h : InPartition c n k po j s) : s.partitionSize = partitionSize n po k j := by
  obtain ⟨⟨hn, -, hk, hpo⟩, hj⟩ := h
  rw [State.partitionSize, hn, hk, hpo, hj]

theorem covers_storePartition {vs : List Int} (hF : F.Partition c n k po j) :
    Op.Covers F (fun s => InPartition c n k po j s ∧ vs.length = partitionSize n po k j) (storePartition vs)
      fun _ => InPartition c n k po j :=
  covers_fact fun hl => covers_known (fun _ h => h.1.2.1) <| covers_known (fun _ => inPartition_start) <|
    covers_writeSamples (fun i h1 h2 => hF.entry i h1 (hl ▸ h2)) fun _ _ h => h

theorem covers_ricePartition (hF : F.Partition c n k po j) (kk : Nat) :
    Op.Covers F (InPartition c n k po j) (ricePartition kk) fun _ => InPartition c n k po j :=
  covers_bind (covers_updateRp hF.rp (inPartition_mapRp fun _ => rfl)) fun _ =>
  covers_known (fun _ => inPartition_size) <|
  covers_bind (covers_repeatOp (covers_moves hF.stream inPartition_offCursor (within_riceResidual moves_cursor kk)) _)
    fun _ => covers_storePartition hF

theorem covers_escapePartition (hF : F.Partition c n k po j) (esc : Nat) :
    Op.Covers F (InPartition c n k po j) (escapePartition esc) fun _ => InPartition c n k po j :=
  covers_bind (covers_updateRp hF.rp (inPartition_mapRp fun _ => rfl)) fun _ =>
  covers_bind (covers_moves hF.stream inPartition_offCursor (within_readBits moves_cursor 5)) fun w =>
  covers_bind (covers_updateRp hF.rp (inPartition_mapRp fun _ => rfl)) fun _ =>
  covers_known (fun _ => inPartition_size) <| covers_ite
    (fun _ => covers_bind (covers_pure fun _ h => ⟨h, List.length_replicate ..⟩) fun _ => covers_storePartition hF)
    (fun _ => covers_bind
      (covers_repeatOp (covers_moves hF.stream inPartition_offCursor (within_readSigned moves_cursor w)) _) fun _ =>
      covers_storePartition hF)

theorem covers_decodePartition (hF : F.Partition c n k po j) (hnames : F.names = true) :
    Op.Covers F (InSection c n k po) (decodePartition j) fun _ => InSection c n k po :=
  covers_bind (Q := fun _ => InPartition c n k po j)
    (covers_update (fun _ _ => changes_mapSeq hnames _) fun _ h => ⟨h, rfl⟩) fun _ =>
  covers_view fun bits =>
  covers_bind (covers_moves hF.stream inPartition_offCursor (within_readBits moves_cursor bits)) fun x =>
  (covers_ite (fun _ => covers_escapePartition hF x) fun _ => covers_ricePartition hF x).weaken (fun _ h => h)
    fun _ _ h => h.1

/-- The partitions of a section lie between its order and the end of the block (R252, R253). -/
theorem partition_inBlock (hfit : partitionsFit n po k = true) (hj : j < 2 ^ po) :
    k ≤ partitionStart n po k j ∧ partitionStart n po k j + partitionSize n po k j ≤ n := by
  obtain ⟨hmod, hk⟩ := (partitionsFit_iff n po k).1 hfit
  rw [← Nat.shiftRight_eq_div_pow] at hk
  constructor
  · rw [partitionStart]
    split
    · exact le_rfl
    · next h0 => exact hk.trans (Nat.le_mul_of_pos_left _ (Nat.pos_of_ne_zero h0))
  · rw [partitionStart_next hk, partitionStart, if_neg (Nat.succ_ne_zero j), Nat.shiftRight_eq_div_pow]
    calc (j + 1) * (n / 2 ^ po) ≤ 2 ^ po * (n / 2 ^ po) := Nat.mul_le_mul_right _ hj
      _ ≤ n := Nat.mul_div_le n _

end

/-! ### Sections and restores (R250, R280, R320) -/

section
variable {F : Footprint} {c : Fin 8} {n k : Nat}

/-- In a block of n samples. -/
def Sized (n : Nat) (s : State) : Prop := s.hdr.blocksize.toNat = n

theorem sized_offCursor : OffCursor (Sized n) := by
  rintro s _ ⟨_, _, _, _, rfl⟩ h
  exact h

theorem covers_partitions (hF : F.Section c k n) (hnames : F.names = true) {po : Nat} :
    Op.Covers F (InSection c n k po) (do
      let m ← view (·.hdr.blocksize.toNat)
      if partitionsFit m po k then forEach (List.range (2 ^ po)) decodePartition else raise .structuralError)
      fun _ => Sized n :=
  covers_known (fun _ h => h.1) <| covers_ite
    (fun hfit => (covers_forEach fun _ hj =>
      have hin := partition_inBlock hfit (List.mem_range.1 hj)
      covers_decodePartition ⟨hF.stream, hF.rp, fun i h1 h2 => hF.entry i (hin.1.trans h1) (h2.trans_le hin.2)⟩
        hnames).weaken (fun _ h => h) fun _ _ h => h.1)
    fun _ => covers_raise

theorem covers_decodeResidual (hF : F.Section c k n) (hnames : F.names = true) :
    Op.Covers F (Sized n) (decodeResidual c k) fun _ => Sized n := by
  let I : State → Prop := fun s => Sized n s ∧ s.seq.chan = c ∧ s.seq.order = k
  have hI : OffCursor I := by
    rintro s _ ⟨_, _, _, _, rfl⟩ h
    exact h
  have rest : Op.Covers F I (do
      let p ← readBits 4
      updateRp fun r => { r with partitionOrder := p }
      let m ← view (·.hdr.blocksize.toNat)
      if partitionsFit m p k then forEach (List.range (2 ^ p)) decodePartition
      else raise .structuralError) fun _ => Sized n :=
    covers_bind (covers_moves hF.stream hI (within_readBits moves_cursor 4)) fun p =>
    covers_bind (Q := fun _ => InSection c n k p)
      (covers_update (fun _ _ => changes_mapRp hF.rp _) fun _ h => ⟨h.1, h.2.1, h.2.2, rfl⟩) fun _ =>
    covers_partitions hF hnames
  exact covers_bind (Q := fun _ => I) (covers_update (fun _ _ => changes_mapSeq hnames _) fun _ h => ⟨h, rfl, rfl⟩) fun _ =>
    covers_bind (covers_moves hF.stream hI (within_readBits moves_cursor 2)) fun m => covers_ite
      (fun _ => covers_bind (Q := fun _ => I) (covers_bind (covers_updateRp hF.rp fun _ h => h) fun _ => covers_raise)
        fun _ => rest)
      fun _ => covers_bind (covers_updateRp hF.rp fun _ h => h) fun _ => rest

theorem covers_restoreWith (hF : ∀ j, k ≤ j → j < n → F.entry c j) (f : List Int → Int → Option Int) :
    Op.Covers F (Sized n) (restoreWith c k f) fun _ => Sized n :=
  covers_known (fun _ h => h) <| covers_ite (fun _ => covers_pure fun _ h => h) fun hk =>
    covers_bind covers_readSamples fun xs => covers_fact fun hl => covers_bind covers_orRaise fun vs =>
    covers_fact fun hvs => covers_writeSamples (fun j h1 h2 => hF j h1 (by
      rw [restoreWalk_length hvs, List.length_drop] at h2
      omega)) fun _ _ h => h

theorem covers_restoreFixed (hF : 1 ≤ k → ∀ j, k ≤ j → j < n → F.entry c j) :
    Op.Covers F (Sized n) (restoreFixed c k) fun _ => Sized n :=
  covers_ite (fun _ => covers_pure fun _ h => h) fun h0 => covers_view fun _ => covers_view fun _ => covers_view fun _ =>
    covers_restoreWith (hF (Nat.pos_of_ne_zero h0)) _

theorem covers_restoreLpc (hF : ∀ j, k ≤ j → j < n → F.entry c j) :
    Op.Covers F (Sized n) (restoreLpc c k) fun _ => Sized n :=
  covers_view fun _ => covers_view fun _ => covers_view fun _ => covers_view fun _ => covers_restoreWith hF _

/-- The whole block of a channel is written. -/
theorem covers_writeChannel (hF : ∀ j, j < n → F.entry c j) {vs : List Int} (hl : vs.length = n) :
    Op.Covers F (Sized n) (writeSamples c 0 vs) fun _ => Sized n :=
  covers_writeSamples (fun j _ h => hF j (by omega)) fun _ _ h => h

end

/-! ### Subframes (R220 to R229) -/

section
variable {F : Footprint} {c : Fin 8} {n k : Nat}

/-- The footprint covers a subframe of channel c without a residual section. -/
structure Footprint.Subframe (F : Footprint) (c : Fin 8) (n : Nat) : Prop where
  stream : F.stream = true
  descriptor : F.descriptor c
  entry : ∀ j, j < n → F.entry c j

theorem covers_updateSub (hF : F.Subframe c n) (f : Machine.Subframe → Machine.Subframe) :
    Op.Covers F (Sized n) (updateSub c f) fun _ => Sized n :=
  covers_update (fun _ _ => changes_mapSub hF.descriptor f) fun _ h => h

theorem covers_wastedBits (hF : F.Subframe c n) (w : Bool) : Op.Covers F (Sized n) (wastedBits c w) fun _ => Sized n :=
  covers_ite (fun _ => covers_bind (covers_moves hF.stream sized_offCursor (within_readUnary moves_cursor)) fun _ =>
    covers_updateSub hF _) fun _ => covers_updateSub hF _

theorem covers_effectiveDepth (hF : F.Subframe c n) : Op.Covers F (Sized n) (effectiveDepth c) fun _ => Sized n :=
  covers_view fun _ => covers_view fun _ => covers_ite (fun _ => covers_raise) fun _ => covers_updateSub hF _

theorem covers_readSample (hF : F.Subframe c n) (d : Nat) : Op.Covers F (Sized n) (readSample d) fun _ => Sized n :=
  covers_moves hF.stream sized_offCursor (within_readSample moves_cursor d)

theorem covers_restoreWasted (hF : F.Subframe c n) : Op.Covers F (Sized n) (restoreWasted c) fun _ => Sized n :=
  covers_view fun _ => covers_ite (fun _ => covers_pure fun _ h => h) fun _ => covers_known (fun _ h => h) <|
    covers_view fun _ => covers_view fun _ => covers_bind covers_readSamples fun _ => covers_fact fun hl =>
    covers_bind covers_orRaise fun _ => covers_fact fun hy =>
    covers_writeChannel hF.entry ((mapOption_length hy).trans hl)

/-- From its tag on a subframe changes what its body does, and its own descriptor and block (R220). -/
theorem covers_subframeAfterTag {P : State → Prop} {body : Fin 8 → Op Unit} (hF : F.Subframe c n) (w : Bool)
    (hP : ∀ s, P s → Sized n s ∧ s.seq.chan = c) (hb : Op.Covers F (Sized n) (body c) fun _ => Sized n) :
    Op.Covers F P (subframeAfterTag w body) fun _ => Sized n :=
  covers_known (fun s h => (hP s h).2) <| (covers_bind (covers_wastedBits hF w) fun _ =>
    covers_bind (covers_effectiveDepth hF) fun _ => covers_bind hb fun _ => covers_restoreWasted hF).weaken
      (fun s h => (hP s h).1) fun _ _ h => h

theorem covers_constantBody (hF : F.Subframe c n) : Op.Covers F (Sized n) (constantBody c) fun _ => Sized n :=
  covers_bind (covers_updateSub hF _) fun _ => covers_known (fun _ h => h) <| covers_view fun d =>
    covers_bind (covers_readSample hF d) fun _ => covers_writeChannel hF.entry (List.length_replicate ..)

theorem covers_verbatimBody (hF : F.Subframe c n) : Op.Covers F (Sized n) (verbatimBody c) fun _ => Sized n :=
  covers_bind (covers_updateSub hF _) fun _ => covers_known (fun _ h => h) <| covers_view fun d =>
    covers_bind (covers_repeatOp (covers_readSample hF d) _) fun _ => covers_fact fun hl => covers_writeChannel hF.entry hl

/-- What follows the check of an order may rely on it (R223). -/
theorem covers_checkOrder {g : Unit → Op Unit} {Q : Unit → State → Prop} (h : k ≤ n → Op.Covers F (Sized n) (g ()) Q) :
    Op.Covers F (Sized n) (checkOrder k >>= g) Q :=
  covers_bind (Q := fun _ s => Sized n s ∧ k ≤ n)
    (covers_known (fun _ h => h) <| covers_ite (fun _ => covers_raise) fun hk =>
      covers_pure fun _ h => ⟨h, Nat.le_of_not_lt hk⟩)
    fun _ => covers_fact h

theorem covers_warmUp (hF : F.Subframe c n) (hk : k ≤ n) : Op.Covers F (Sized n) (warmUp c k) fun _ => Sized n :=
  covers_view fun d => covers_bind (covers_repeatOp (covers_readSample hF d) _) fun _ => covers_fact fun hl =>
    covers_writeSamples (fun j _ h => hF.entry j (by omega)) fun _ _ h => h

/-- A subframe's footprint covers its residual section where it names RP. -/
theorem Footprint.Subframe.toSection (hF : F.Subframe c n) (hrp : F.rp = true) : F.Section c k n :=
  ⟨hF.stream, hrp, fun j _ => hF.entry j⟩

theorem covers_fixedBody (hF : F.Subframe c n) (hrp : F.rp = true) (hnames : F.names = true) :
    Op.Covers F (Sized n) (fixedBody c k) fun _ => Sized n :=
  covers_bind (covers_updateSub hF _) fun _ => covers_ite (fun _ => covers_raise) fun _ => covers_checkOrder fun hk =>
    covers_bind (covers_warmUp hF hk) fun _ => covers_bind (covers_decodeResidual (hF.toSection hrp) hnames) fun _ =>
    covers_restoreFixed fun _ j _ => hF.entry j

theorem covers_updateLpcp (hF : F.lpcp = true) (f : LpcParams → LpcParams) :
    Op.Covers F (Sized n) (updateLpcp f) fun _ => Sized n :=
  covers_update (fun _ _ => changes_mapLpcp hF f) fun _ h => h

theorem covers_lpcParameters (hF : F.Subframe c n) (hlpcp : F.lpcp = true) :
    Op.Covers F (Sized n) (lpcParameters k) fun _ => Sized n :=
  have field := fun {α : Type} {x : Op α} (hx : Op.Within Moves Raises x) =>
    covers_moves hF.stream (sized_offCursor (n := n)) hx
  covers_bind (field (within_readBits moves_cursor 4)) fun _ => covers_ite (fun _ => covers_raise) fun _ =>
    covers_bind (covers_updateLpcp hlpcp _) fun _ => covers_bind (field (within_readSigned moves_cursor 5)) fun _ =>
    covers_ite (fun _ => covers_raise) fun _ => covers_bind (covers_updateLpcp hlpcp _) fun _ =>
    covers_bind (covers_repeatOp (field (within_readSigned moves_cursor _)) k) fun _ => covers_fact fun _ =>
    covers_updateLpcp hlpcp _

theorem covers_lpcBody (hF : F.Subframe c n) (hrp : F.rp = true) (hnames : F.names = true) (hlpcp : F.lpcp = true) :
    Op.Covers F (Sized n) (lpcBody c k) fun _ => Sized n :=
  covers_bind (covers_updateSub hF _) fun _ => covers_checkOrder fun hk =>
    covers_bind (covers_warmUp hF hk) fun _ => covers_bind (covers_lpcParameters hF hlpcp) fun _ =>
    covers_bind (covers_decodeResidual (hF.toSection hrp) hnames) fun _ => covers_restoreLpc fun j _ => hF.entry j

theorem covers_classify (hF : F.Subframe c n) (hrp : F.rp = true) (hnames : F.names = true) (hlpcp : F.lpcp = true)
    (ty : BitVec 6) : Op.Covers F (Sized n) (classify ty c) fun _ => Sized n :=
  covers_ite (fun _ => covers_constantBody hF) fun _ => covers_ite (fun _ => covers_verbatimBody hF) fun _ =>
    covers_ite (fun _ => covers_lpcBody hF hrp hnames hlpcp) fun _ =>
    covers_ite (fun _ => covers_fixedBody hF hrp hnames) fun _ => covers_raise

theorem covers_decodeSubframe (hF : F.Subframe c n) (hrp : F.rp = true) (hnames : F.names = true) (hlpcp : F.lpcp = true)
    (base : Nat) : Op.Covers F (Sized n) (decodeSubframe c base) fun _ => Sized n := by
  let I : State → Prop := fun s => Sized n s ∧ s.seq.chan = c
  have hI : OffCursor I := by
    rintro s _ ⟨_, _, _, _, rfl⟩ h
    exact h
  exact covers_bind (Q := fun _ => I) (covers_update (fun _ _ => changes_mapSeq hnames _) fun _ h => ⟨h, rfl⟩) fun _ =>
    covers_bind (covers_moves hF.stream hI (within_readBits moves_cursor 8)) fun _ =>
    covers_ite (fun _ => covers_raise) fun _ => covers_subframeAfterTag hF _ (fun _ h => h) (covers_classify hF hrp hnames hlpcp _)

end

/-! ### The instructions -/

section
variable {i : Instr} {s t : State} {op : Op Unit}

/-- What an instruction may write, by the model's own tables. -/
def partFootprint (i : Instr) (s : State) : Footprint where
  entry := writesEntry i s
  descriptor d := describes i s = some d
  stream := readsStream i
  rp := writesRp i
  lpcp := writesLpcp i
  names := movesSequencer i

/-- The stereo transform writes the block of the channels its assignment names (R320 to R324). -/
theorem covers_decorrelateOp : Op.Covers (partFootprint .decorrelate s) (fun u => u.hdr = s.hdr) decorrelateOp
    fun _ u => u.hdr = s.hdr := by
  have put : ∀ {d : Fin 8} {vs : List Int}, (∀ j, j < s.hdr.blocksize.toNat → writesEntry .decorrelate s d j) →
      vs.length = s.hdr.blocksize.toNat → Op.Covers (partFootprint .decorrelate s) (fun u => u.hdr = s.hdr)
        (writeSamples d 0 vs) fun _ u => u.hdr = s.hdr := fun hd hl =>
    covers_writeSamples (fun j _ hj => hd j (by omega)) fun _ _ h => h
  have read : ∀ {β : Type} {f : Int → Int → Option β} {g : List β → Op Unit},
      (∀ zs, zs.length = s.hdr.blocksize.toNat → Op.Covers (partFootprint .decorrelate s) (fun u => u.hdr = s.hdr) (g zs)
        fun _ u => u.hdr = s.hdr) →
      Op.Covers (partFootprint .decorrelate s) (fun u => u.hdr = s.hdr) (do
        let xs ← readSamples 0 s.hdr.blocksize.toNat
        let ys ← readSamples 1 s.hdr.blocksize.toNat
        let zs ← orRaise .arithmeticOverflow (zipOption f xs ys)
        g zs) fun _ u => u.hdr = s.hdr := fun hg =>
    covers_bind covers_readSamples fun xs => covers_fact fun hx => covers_bind covers_readSamples fun ys =>
    covers_fact fun hy => covers_bind covers_orRaise fun zs => covers_fact fun hz =>
    hg zs ((zipOption_length hz (hx.trans hy.symm)).trans hx)
  refine covers_known (fun _ h => h) (covers_view fun _ => covers_view fun _ => ?_)
  have hentry : ∀ d j, writesEntry .decorrelate s d j ↔ j < s.hdr.blocksize.toNat ∧ (match s.hdr.assignment with
      | .independent => False
      | .leftSide => d = 1
      | .rightSide => d = 0
      | .midSide => d = 0 ∨ d = 1) := fun _ _ => Iff.rfl
  cases ha : s.hdr.assignment with
  | independent => exact covers_pure fun _ h => h
  | leftSide => exact read fun zs hz => put (fun j hj => by rw [hentry, ha]; exact ⟨hj, rfl⟩) hz
  | rightSide => exact read fun zs hz => put (fun j hj => by rw [hentry, ha]; exact ⟨hj, rfl⟩) hz
  | midSide =>
    refine read fun zs hz => covers_bind (put (fun j hj => ?_) ((List.length_map _).trans hz)) fun _ =>
      put (fun j hj => ?_) ((List.length_map _).trans hz)
    · rw [hentry, ha]; exact ⟨hj, .inl rfl⟩
    · rw [hentry, ha]; exact ⟨hj, .inr rfl⟩

/-- How a part can end: refused, raised, or answered within its footprint. -/
def PartEnds (i : Instr) (s t : State) : Prop :=
  t = refuse .noCursor s
  ∨ (∃ k, k.isFault = true ∧ t = takeRaise .frame k s)
  ∨ (partFootprint i s).Changes s t

/-- A step made of a subframe's writes, whatever relation they are within. -/
def Op.IsPart (op : Op Unit) : Prop :=
  ∀ {R : State → State → Prop} {E : Stop → State → State → Prop}, SubframeWrites R E → MayHalt E → Op.Within R E op

/-- A part run without the test for a cursor: the two restores and the stereo transform. -/
theorem partEnds_of_runField {P : State → Prop} {Q : Unit → State → Prop} (hpart : op.IsPart)
    (hcov : Op.Covers (partFootprint i s) P op Q) (hs : P s) (hn : runField .frame op s = .next t) : PartEnds i s t := by
  rcases finish_cases .frame id (op s) with ⟨u, hu, hf⟩ | ⟨k, u, hu, hf⟩ | ⟨f, u, hu, hf⟩
  · obtain rfl : u = t := Host.Outcome.next.inj (hf.symm.trans hn)
    exact .inr (.inr (hcov s () u hs hu).1)
  · obtain rfl := Host.Outcome.next.inj (hf.symm.trans hn)
    have hraise := raise_of_within (hpart subframe_sameShown fun _ _ => rfl) hu
    have hfault := (hpart (errKept_writes false).toSubframeWrites (errKept_writes false).halts).error hu
    exact .inr (.inl ⟨k, hfault k rfl, hraise⟩)
  · cases hf.symm.trans hn

/-- A row, which is refused without a cursor. -/
theorem partEnds_of_field {P : State → Prop} {Q : Unit → State → Prop} (hpart : op.IsPart)
    (hcov : Op.Covers (partFootprint i s) P op Q) (hs : P s) (hn : needCursor s (runField .frame op s) = .next t) :
    PartEnds i s t := by
  rcases Bool.eq_false_or_eq_true s.curValid with hv | hv
  · rw [needCursor_valid _ hv] at hn
    exact partEnds_of_runField hpart hcov hs hn
  · rw [needCursor_none _ hv] at hn
    exact .inl (Host.Outcome.next.inj hn).symm

/-- A tag row whose body is covered. -/
theorem partEnds_of_tagRow {w : Bool} {body : Fin 8 → Op Unit} (hpart : ∀ c, (body c).IsPart)
    (hF : (partFootprint i s).Subframe s.seq.chan s.hdr.blocksize.toNat)
    (hb : Op.Covers (partFootprint i s) (Sized s.hdr.blocksize.toNat) (body s.seq.chan) fun _ => Sized s.hdr.blocksize.toNat)
    (hn : needCursor s (runField .frame (subframeAfterTag w body) s) = .next t) : PartEnds i s t :=
  partEnds_of_field (P := fun u => Sized s.hdr.blocksize.toNat u ∧ u.seq.chan = s.seq.chan)
    (fun hR hE => within_subframeAfterTag hR hE w fun c => hpart c hR hE)
    (covers_subframeAfterTag hF w (fun _ h => h) hb) ⟨rfl, rfl⟩ hn

/-- A body that never answers makes a tag row that never answers (R223). -/
theorem covers_rejectedTag {F : Footprint} {P : State → Prop} {Q : Unit → State → Prop} {w : Bool} {body : Fin 8 → Op Unit}
    (hb : ∀ c u a v, body c u ≠ .ok a v) : Op.Covers F P (subframeAfterTag w body) Q := by
  intro u a v _ h
  obtain ⟨_, _, _, h⟩ := of_bind_ok h
  obtain ⟨_, _, _, h⟩ := of_bind_ok h
  obtain ⟨_, _, _, h⟩ := of_bind_ok h
  obtain ⟨_, _, hbody, _⟩ := of_bind_ok h
  exact absurd hbody (hb _ _ _ _)

theorem rejectType_ne_ok (c : Fin 8) (u : State) (a : Unit) (v : State) : rejectType c u ≠ .ok a v := nofun

theorem fixedBody_ne_ok {k : Nat} (hk : 4 < k) (c : Fin 8) (u : State) (a : Unit) (v : State) :
    fixedBody c k u ≠ .ok a v := by
  rw [fixedBody, if_pos hk]
  nofun

theorem tagRow_footprint (hi : tagRow i = true) : (partFootprint i s).Subframe s.seq.chan s.hdr.blocksize.toNat := by
  cases i <;> cases hi <;> exact ⟨rfl, rfl, fun _ hj => ⟨rfl, .inl ⟨rfl, hj⟩⟩⟩

theorem partitionRow_footprint (hi : partitionRow i = true) :
    (partFootprint i s).Partition s.seq.chan s.hdr.blocksize.toNat s.seq.order s.rp.partitionOrder s.seq.part := by
  cases i <;> cases hi <;> exact ⟨rfl, rfl, fun _ hlo hhi => ⟨rfl, .inr ⟨rfl, hlo, hhi⟩⟩⟩

/-- A subframe part is refused, raises, or answers within its footprint. -/
theorem exec_partEnds (hi : subframePart i = true) (hn : exec i s = .next t) : PartEnds i s t := by
  have fixed : ∀ {w k}, tagRow i = true → writesRp i = true → movesSequencer i = true →
      needCursor s (runField .frame (subframeAfterTag w fun c => fixedBody c k) s) = .next t → PartEnds i s t :=
    fun htag hrp hnames hn => partEnds_of_tagRow (fun c => fun hR hE => within_fixedBody hR hE c _) (tagRow_footprint htag)
      (covers_fixedBody (tagRow_footprint htag) hrp hnames) hn
  have rejected : ∀ {w} {body : Fin 8 → Op Unit}, (∀ c, (body c).IsPart) → (∀ c u a v, body c u ≠ .ok a v) →
      needCursor s (runField .frame (subframeAfterTag w body) s) = .next t → PartEnds i s t := fun hpart hb hn =>
    partEnds_of_field (P := fun _ => True) (Q := fun _ _ => True)
      (fun hR hE => within_subframeAfterTag hR hE _ fun c => hpart c hR hE) (covers_rejectedTag hb) trivial hn
  have reserved : ∀ {w}, needCursor s (runField .frame (subframeAfterTag w rejectType) s) = .next t → PartEnds i s t :=
    rejected (fun c => fun hR _ => within_raise hR.toComposable _) rejectType_ne_ok
  have order : ∀ {w k}, 4 < k → needCursor s (runField .frame (subframeAfterTag w fun c => fixedBody c k) s) = .next t →
      PartEnds i s t := fun hk => rejected (fun c => fun hR hE => within_fixedBody hR hE c _) (fixedBody_ne_ok hk)
  have method : ∀ {f}, writesRp i = true → needCursor s (runField .frame (updateRp f) s) = .next t → PartEnds i s t :=
    fun hrp hn => partEnds_of_field (P := fun _ => True) (fun hR _ => within_update fun u => hR.params u _)
      (covers_updateRp hrp fun _ h => h) trivial hn
  have rice : ∀ {kk}, partitionRow i = true → needCursor s (runField .frame (ricePartition kk) s) = .next t →
      PartEnds i s t := fun hrow hn =>
    partEnds_of_field (fun hR _ => within_ricePartition hR.toResidualWrites _)
      (covers_ricePartition (partitionRow_footprint hrow) _) ⟨⟨rfl, rfl, rfl, rfl⟩, rfl⟩ hn
  have escape : ∀ {esc}, partitionRow i = true → needCursor s (runField .frame (escapePartition esc) s) = .next t →
      PartEnds i s t := fun hrow hn =>
    partEnds_of_field (fun hR _ => within_escapePartition hR.toResidualWrites _)
      (covers_escapePartition (partitionRow_footprint hrow) _) ⟨⟨rfl, rfl, rfl, rfl⟩, rfl⟩ hn
  cases i with
  | subframeConstant w =>
    exact partEnds_of_tagRow (fun c => fun hR _ => within_constantBody hR c) (tagRow_footprint rfl)
      (covers_constantBody (tagRow_footprint rfl)) hn
  | subframeVerbatim w =>
    exact partEnds_of_tagRow (fun c => fun hR _ => within_verbatimBody hR c) (tagRow_footprint rfl)
      (covers_verbatimBody (tagRow_footprint rfl)) hn
  | subframeFixed0 w => exact fixed rfl rfl rfl hn
  | subframeFixed1 w => exact fixed rfl rfl rfl hn
  | subframeFixed2 w => exact fixed rfl rfl rfl hn
  | subframeFixed3 w => exact fixed rfl rfl rfl hn
  | subframeFixed4 w => exact fixed rfl rfl rfl hn
  | subframeLpc o w =>
    exact partEnds_of_tagRow (fun c => fun hR hE => within_lpcBody hR hE c _) (tagRow_footprint rfl)
      (covers_lpcBody (tagRow_footprint rfl) rfl rfl rfl) hn
  | subframeReservedT2to3 x w => exact reserved hn
  | subframeReservedT4to7 x w => exact reserved hn
  | subframeReservedT16to31 x w => exact reserved hn
  | subframeFixedOrder5 w => exact order (by omega) hn
  | subframeFixedOrder6to7 x w => exact order (by omega) hn
  | subframeTagBit7 x =>
    exact partEnds_of_field (P := fun _ => True) (Q := fun _ _ => True) (fun hR _ => within_raise hR.toComposable _)
      covers_raise trivial hn
  | residualMethodRice4 => exact method rfl hn
  | residualMethodRice5 => exact method rfl hn
  | residualMethodReserved x =>
    have never : Op.Covers (partFootprint (.residualMethodReserved x) s) (fun _ => True) (rejectMethod (2 + x.toNat))
        fun _ _ => True := by rintro u a v - ⟨⟩
    exact partEnds_of_field (fun hR _ => within_rejectMethod hR.toResidualWrites _) never trivial hn
  | partitionEscape4 => exact escape rfl hn
  | partitionEscape5 => exact escape rfl hn
  | partitionRice4 k => exact rice rfl hn
  | partitionRice5 k => exact rice rfl hn
  | decodeSubframe c base =>
    exact partEnds_of_field (fun hR hE => within_decodeSubframe hR hE c base)
      (covers_decodeSubframe (F := partFootprint (.decodeSubframe c base) s) ⟨rfl, rfl, fun _ hj => ⟨rfl, hj⟩⟩ rfl rfl rfl
        base) rfl hn
  | decodeResidual c k =>
    exact partEnds_of_field (fun hR _ => within_decodeResidual hR.toResidualWrites c k.val)
      (covers_decodeResidual ⟨rfl, rfl, fun _ hk hj => ⟨rfl, hk, hj⟩⟩ rfl) rfl hn
  | restoreFixed c k =>
    exact partEnds_of_runField (fun hR hE => within_restoreFixed hR.toComposable hE hR.samples c k.val)
      (covers_restoreFixed fun h1 _ hk hj => ⟨rfl, h1, hk, hj⟩) rfl hn
  | restoreLpc c k =>
    exact partEnds_of_runField (fun hR hE => within_restoreLpc hR.toComposable hE hR.samples c k.val)
      (covers_restoreLpc fun _ hk hj => ⟨rfl, hk, hj⟩) rfl hn
  | decorrelate =>
    exact partEnds_of_runField (fun hR hE => within_decorrelateOp hR.toComposable hE hR.samples) covers_decorrelateOp rfl hn
  | _ => cases hi

end

end Sys2Proof.Machine

namespace Sys2Proof.Proofs
open Sys2Proof.Machine

/-- Settles O19: a part ends within the footprint the model's tables give it (`exec_partEnds`). -/
theorem subframePartsFrame : Obligations.SubframePartsFrame := by
  unfold Obligations.SubframePartsFrame
  intro i s t hi hn
  rcases exec_partEnds hi hn with hrefused | hraised | hchanges
  · exact .inl hrefused
  · exact .inr (.inl hraised)
  · exact .inr (.inr ⟨_, _, _, _, _, _, _, _, _, hchanges.outside, hchanges.entry, hchanges.descriptor, hchanges.stream,
      hchanges.rp, hchanges.lpcp, hchanges.names⟩)

end Sys2Proof.Proofs

/-! ## Proofs: residual sections (44_residual.md) -/

namespace Sys2Proof.Machine

/-! ### The zig-zag map (R256) -/

/-- The zig-zag map on 32-bit words: the low bit chooses between half the word and its complement. -/
theorem zigZag_word {u : Nat} (hu : u < 2 ^ 32) :
    zigZag u = ((BitVec.ofNat 32 u >>> 1) ^^^ -(BitVec.ofNat 32 u &&& 1)).toInt := by
  have hnat : (BitVec.ofNat 32 u >>> 1).toNat = u / 2 := by
    rw [BitVec.toNat_ushiftRight, BitVec.toNat_ofNat, Nat.mod_eq_of_lt hu, Nat.shiftRight_eq_div_pow, Nat.pow_one]
  have hlow : (BitVec.ofNat 32 u &&& 1).toNat = u % 2 := by
    rw [BitVec.toNat_and, BitVec.toNat_ofNat, Nat.mod_eq_of_lt hu]
    exact Nat.and_one_is_mod u
  rcases Nat.mod_two_eq_zero_or_one u with heven | hodd
  · have hword : BitVec.ofNat 32 u &&& 1 = 0#32 := BitVec.eq_of_toNat_eq (hlow.trans heven)
    rw [hword, BitVec.neg_zero, BitVec.xor_zero, BitVec.toInt_eq_toNat_of_lt (by omega), hnat, zigZag, if_pos heven]
  · have hword : BitVec.ofNat 32 u &&& 1 = 1#32 := BitVec.eq_of_toNat_eq (hlow.trans hodd)
    rw [hword, BitVec.neg_one_eq_allOnes, BitVec.xor_allOnes, BitVec.toInt_eq_toNat_cond, BitVec.toNat_not, hnat,
      zigZag, if_neg (by omega), if_neg (by omega)]
    omega

/-! ### The rows of a partition -/

section
variable {s u : State} {p : Nat} {r : Word64}

/-- A Rice partition whose codes the stream carries (R255). -/
theorem ricePartition_at {kk : Nat} {vs : List Int} (hu : u.curValid = true) (hk : kk ≤ 32)
    (hn : vs.length = u.partitionSize) (hv : ∀ v ∈ vs, fits32 v = true)
    (hc : carries u.input p (vs.flatMap (riceBits kk)) = true) (ha : u.admissible (p + (vs.flatMap (riceBits kk)).length)) :
    ∃ r', ricePartition kk (u.readTo p r) =
      .ok () (((u.mapRp fun x => { x with param := kk }).writeCh u.seq.chan u.partitionStart vs).readTo
        (p + (vs.flatMap (riceBits kk)).length) r') := by
  obtain ⟨r', hread⟩ := repeatOp_at (u := u.mapRp fun x => { x with param := kk }) (r := r) vs
    (fun v hm p r hc ha => riceResidual_at hu hk (hv v hm) hc ha) hc ha
  rw [hn, ← readTo_mapRp] at hread
  exact ⟨r', (update_bind _ _ _).trans ((view_bind _ _ _).trans (bind_ok hread))⟩

/-- The residuals of an escape partition: raw fields, or none at width 0, where all are 0 (R254). -/
theorem escapeResiduals_at {w : Nat} {vs : List Int} {op : List Int → Op Unit} (hu : u.curValid = true) (hw : w < 32)
    (hv : ∀ v ∈ vs, if w = 0 then v = 0 else fitsBits w v = true) (hc : carries u.input p (vs.flatMap (signedBits w)) = true)
    (ha : u.admissible (p + w * vs.length)) :
    ∃ r', (do
      let xs ← if w = 0 then pure (List.replicate vs.length 0) else repeatOp vs.length (readSigned w)
      op xs) (u.readTo p r) = op vs (u.readTo (p + w * vs.length) r') := by
  have hlen : (vs.flatMap (signedBits w)).length = w * vs.length := by
    simp [List.length_flatMap, Nat.mul_comm]
  by_cases h0 : w = 0
  · have hzeros : List.replicate vs.length 0 = vs :=
      (List.eq_replicate_iff.2 ⟨rfl, fun v hm => by simpa [h0] using hv v hm⟩).symm
    refine ⟨r, ?_⟩
    rw [if_pos h0, hzeros, h0, Nat.zero_mul]
    rfl
  · obtain ⟨r', hread⟩ := repeatSigned_at (r := r) hu hw.le (fun v hm => by simpa [h0] using hv v hm) hc (by rwa [hlen])
    rw [hlen] at hread
    exact ⟨r', by rw [if_neg h0, bind_ok hread]⟩

/-- An escape partition whose width and raw residuals the stream carries (R254). -/
theorem escapePartition_at {w esc : Nat} {vs : List Int} (hu : u.curValid = true) (hw : w < 32)
    (hn : vs.length = u.partitionSize) (hv : ∀ v ∈ vs, if w = 0 then v = 0 else fitsBits w v = true)
    (hc : carries u.input p (fieldBits 5 w ++ vs.flatMap (signedBits w)) = true)
    (ha : u.admissible (p + (5 + w * vs.length))) :
    ∃ r', escapePartition esc (u.readTo p r) =
      .ok () (((u.mapRp fun x => { x with param := esc, escapeWidth := w }).writeCh u.seq.chan u.partitionStart vs).readTo
        (p + (5 + w * vs.length)) r') := by
  rw [carries_append, Bool.and_eq_true, fieldBits_length] at hc
  have hwidth := readBits_at (u := u.mapRp fun x => { x with param := esc }) (r := r) hu (by omega) hw hc.1
    (admissible_mono ha (by omega))
  rw [← Nat.add_assoc] at ha ⊢
  obtain ⟨r', hread⟩ := escapeResiduals_at (u := u.mapRp fun x => { x with param := esc, escapeWidth := w })
    (r := BitVec.ofNat 64 w) (op := storePartition) hu hw hv hc.2 ha
  rw [hn] at hread ⊢
  exact ⟨r', (update_bind _ _ _).trans ((bind_ok hwidth).trans hread)⟩

/-- A row that answers at the position of a ready state. -/
theorem field_answered {op : Op Unit} {f : Word64 → State} (hs : s.Ready)
    (h : ∃ r, op (s.readTo s.position s.res) = .ok () (f r)) : ∃ r, needCursor s (runField .frame op s) = .next (f r) := by
  obtain ⟨r, hr⟩ := h
  rw [hs.readTo_self] at hr
  exact ⟨r, (needCursor_valid _ hs.valid).trans (runField_ok hr)⟩

end

end Sys2Proof.Machine

namespace Sys2Proof.Proofs
open Sys2Proof.Machine

/-- Settles O46: the section's residuals fill the block (`legal_length`), and the procedure stores them in one walk
(`decodeResidual_at`). -/
theorem decodeResidual : Obligations.DecodeResidual := by
  unfold Obligations.DecodeResidual
  intro s c k sec hs hlegal hc ha
  refine ⟨Nat.eq_sub_of_add_eq' (legal_length hlegal), ?_⟩
  obtain ⟨f, g, r, -, hrun⟩ := decodeResidual_at (c := c) (r := s.res) hs.valid hlegal hc ha
  rw [hs.readTo_self] at hrun
  exact ⟨g s.seq, f s.rp, r, (needCursor_valid _ hs.valid).trans (runField_ok hrun)⟩

/-- Settles O47: the method rows by what they write, a partition's row by its coding (`ricePartition_at`,
`escapePartition_at`). -/
theorem residualRows : Obligations.ResidualRows := by
  unfold Obligations.ResidualRows
  intro s hs
  have method : ∀ m, needCursor s (runField .frame (setMethod m) s) =
      .next (s.mapRp fun p => { p with method := m, paramBits := 4 + m }) := fun m =>
    (needCursor_valid _ hs.valid).trans (runField_ok rfl)
  refine ⟨method 0, method 1, ?reserved, fun vs hn => ⟨?rice, ?escape⟩⟩
  case reserved =>
    intro x
    exact field_raised hs.valid (within_rejectMethod subframe_sameShown.toResidualWrites _) rfl
  case rice =>
    intro kk i hrow hv hc ha
    have row : kk ≤ 32 → ∃ r, needCursor s (runField .frame (ricePartition kk) s) = .next _ := fun hk =>
      field_answered hs (ricePartition_at hs.valid hk hn hv hc ha)
    rcases hrow with ⟨k, -, rfl, rfl⟩ | ⟨k, -, rfl, rfl⟩
    · exact row (by omega)
    · exact row (by omega)
  case escape =>
    intro w esc i hrow hw hv hc ha
    have row : ∃ r, needCursor s (runField .frame (escapePartition esc) s) = .next _ :=
      field_answered hs (escapePartition_at hs.valid hw hn hv hc ha)
    rcases hrow with ⟨rfl, rfl⟩ | ⟨rfl, rfl⟩
    · exact row
    · exact row

/-- Settles O49: the words by `zigZag_word`, the formula and the range by the parity of `u`. -/
theorem zigZag : Obligations.ZigZag := by
  unfold Obligations.ZigZag
  intro u hu
  refine ⟨zigZag_word hu, ?_⟩
  rcases Nat.mod_two_eq_zero_or_one u with heven | hodd
  · rw [Machine.zigZag, if_pos heven, if_pos heven]
    omega
  · rw [Machine.zigZag, if_neg (by omega), if_neg (by omega)]
    omega

end Sys2Proof.Proofs

/-! ## Proofs: the predictors and the numeric widths (45_predictors.md rules R280 to R303, 48_frame_decoder.md rule R363)

A restore is a walk over the history of each sample. Index by index it is the sequence `x` wherever `x` meets the equation of
its rule (`restoreWalk_history`), so a Fixed and an LPC restore differ in one sample only. -/

namespace Sys2Proof.Machine

/-! ### Narrowing (R300 to R303) -/

theorem fits32_iff {v : Int} : fits32 v = true ↔ -2 ^ 31 ≤ v ∧ v ≤ 2 ^ 31 - 1 := by simp [fits32]

theorem fits64_iff {v : Int} : fits64 v = true ↔ -2 ^ 63 ≤ v ∧ v ≤ 2 ^ 63 - 1 := by simp [fits64]

/-- What is wrapped fits, and is congruent to what it was (R13). -/
theorem wrap32_spec (v : Int) : -2 ^ 31 ≤ wrap32 v ∧ wrap32 v ≤ 2 ^ 31 - 1 ∧ (wrap32 v - v) % 2 ^ 32 = 0 := by
  have hlow : -2 ^ 31 ≤ wrap32 v := Int.le_bmod (by decide)
  have hhigh : wrap32 v < 2 ^ 31 := Int.bmod_lt (by decide)
  exact ⟨hlow, by omega, Int.emod_eq_zero_of_dvd Int.dvd_bmod_sub_self⟩

/-- In Wrap mode `Narrow32` wraps every value, and one that fits is its own wrapping. -/
theorem narrow32_wrap (v : Int) : narrow32 .wrap v = some (wrap32 v) := by
  by_cases h : fits32 v = true
  · obtain ⟨hlow, hhigh⟩ := fits32_iff.1 h
    have hv : wrap32 v = v := Int.bmod_eq_of_le hlow (Int.lt_of_le_sub_one hhigh)
    rw [narrow32_of_fits _ h, hv]
  · exact if_neg h

theorem wrap32_add_of_wrapped (a p : Int) : wrap32 (wrap32 a + p) = wrap32 (a + p) := Int.bmod_add_bmod

theorem narrow32_fault_of_not_fits {v : Int} (h : ¬ fits32 v = true) : narrow32 .fault v = none := if_neg h

theorem wide64_of_not_fits {v : Int} (h : ¬ fits64 v = true) : wide64 v = none := if_neg h

/-- `Acc` of a value that fits 64 bits, and 32 where the frame or the path is narrow, is the value (R303). -/
theorem acc_of_fits {mode : NarrowOverflow} {wide : Bool} {path : Path} {v : Int}
    (h32 : wide = false ∨ path = .acc32 → fits32 v = true) (h64 : fits64 v = true) : acc mode wide path v = some v := by
  cases path with
  | acc32 => exact narrow32_of_fits mode (h32 (.inr rfl))
  | acc64 =>
    cases wide with
    | false => exact if_pos (h32 (.inl rfl))
    | true => exact wide64_of_fits h64

theorem fixedPath_acc32_iff {d k : Nat} : fixedPath d k = .acc32 ↔ d + k ≤ 32 := by simp [fixedPath]

theorem lpcPath_acc32_iff {d : Nat} : lpcPath d = .acc32 ↔ d ≤ 16 := by simp [lpcPath]

theorem wideOf_iff {h : Header} :
    wideOf h = true ↔ h.bps.toNat + (if h.assignment = .independent then 0 else 1) > 32 := decide_eq_true_iff

/-! ### A restore, index by index -/

/-- The walk over residuals `r k`, ..., `r (n-1)` after samples `x 0`, ..., `x (k-1)` gives the samples from `x k` on,
where each is the one `f` makes of its history and its residual. -/
theorem restoreWalk_history {f : List Int → Int → Option Int} {x r : Nat → Int} {k n : Nat}
    (hf : ∀ i, k ≤ i → i < n → f ((List.range i).map x).reverse (r i) = some (x i)) :
    restoreWalk f ((List.range k).map x).reverse (((List.range n).map r).drop k) = some ((listOf n x).drop k) := by
  obtain ⟨d, hd⟩ : ∃ d, d = n - k := ⟨_, rfl⟩
  induction d generalizing k with
  | zero =>
    rw [List.drop_of_length_le (by simp; omega), List.drop_of_length_le (by simp [listOf]; omega)]
    rfl
  | succ d ih =>
    have hk : k < n := by omega
    have hrest := ih (k := k + 1) (fun i hki hi => hf i (by omega) hi) (by omega)
    have hx : (listOf n x).drop k = x k :: (listOf n x).drop (k + 1) := by
      rw [List.drop_eq_getElem_cons (by simpa [listOf] using hk)]
      simp [listOf]
    rw [history_succ] at hrest
    rw [List.drop_eq_getElem_cons (by simpa using hk), hx]
    simp only [restoreWalk, List.getElem_map, List.getElem_range, hf k (Nat.le_refl k) hk, hrest]

section
variable {s : State} {c : Fin 8} {k : Nat} {f : List Int → Int → Option Int} {x r : Nat → Int}

/-- With no residual to restore nothing changes (R280). -/
theorem restoreWith_noResidual (h : s.hdr.blocksize.toNat ≤ k) : restoreWith c k f s = .ok () s := by
  rw [restoreWith, view_bind, if_pos h, pure_apply]

/-- A restore of the residuals of `x` leaves `x` from entry `k` on (R280). -/
theorem restoreWith_history (hk : k ≤ s.hdr.blocksize.toNat)
    (hread : ∀ i, i < s.hdr.blocksize.toNat → s.ch.read s.wide c i = some (if i < k then x i else r i))
    (hf : ∀ i, k ≤ i → i < s.hdr.blocksize.toNat → f ((List.range i).map x).reverse (r i) = some (x i)) :
    restoreWith c k f s = .ok () (s.writeCh c k ((listOf s.hdr.blocksize.toNat x).drop k)) := by
  rcases hk.lt_or_eq with hlt | heq
  · rw [restoreWith, view_bind, if_neg (by omega), bind_ok (readSamples_range hread), take_warm hk, drop_warm,
      restoreWalk_history hf]
    rfl
  · rw [restoreWith_noResidual (by omega), List.drop_of_length_le (by simp [listOf, heq]), State.writeCh, write_nil]

end

/-! ### The Fixed and the LPC restore -/

section
variable {s : State} {c : Fin 8} {x r : Nat → Int}

theorem exec_restoreFixed_orderZero : exec (.restoreFixed c 0) s = .next s :=
  runField_ok (c := .frame) (op := restoreFixed c 0) rfl

/-- R281, R280. -/
theorem exec_restoreFixed_noResidual {k : Fin 5} (h : s.hdr.blocksize.toNat ≤ k.val) :
    exec (.restoreFixed c k) s = .next s := by
  refine runField_ok ?_
  rw [restoreFixed]
  split
  · rfl
  · exact restoreWith_noResidual h

/-- R282 to R285 by index: each sample is `Acc` of its residual and its prediction. -/
theorem exec_restoreFixed_history {k : Fin 5} (h1 : 1 ≤ k.val) (hk : k.val ≤ s.hdr.blocksize.toNat)
    (hread : ∀ i, i < s.hdr.blocksize.toNat → s.ch.read s.wide c i = some (if i < k.val then x i else r i))
    (hx : ∀ i, k.val ≤ i → i < s.hdr.blocksize.toNat → acc s.params.narrowOverflow s.wide (fixedPath s.sub[c].depth k.val)
      (r i + fixedPrediction k x i) = some (x i)) :
    exec (.restoreFixed c k) s = .next (s.writeCh c k.val ((listOf s.hdr.blocksize.toNat x).drop k.val)) := by
  refine runField_ok ?_
  simp only [restoreFixed, if_neg (show k.val ≠ 0 by omega), view_bind]
  refine restoreWith_history hk hread fun i hki hi => ?_
  rw [fixedSample, predictFixed_history hki, hx i hki hi]

theorem exec_restoreLpc_noResidual {k : Fin 33} (h : s.hdr.blocksize.toNat ≤ k.val) :
    exec (.restoreLpc c k) s = .next s :=
  runField_ok (restoreWith_noResidual h)

/-- R296 by index: the sum narrowed, shifted, and added to the residual. -/
theorem exec_restoreLpc_history {k : Fin 33} (hk : k.val ≤ s.hdr.blocksize.toNat)
    (hread : ∀ i, i < s.hdr.blocksize.toNat → s.ch.read s.wide c i = some (if i < k.val then x i else r i))
    (hx : ∀ i, k.val ≤ i → i < s.hdr.blocksize.toNat → ∃ sum,
      lpcNarrow s.params.narrowOverflow (lpcPath s.sub[c].depth)
        ((List.range k.val).map fun j => s.lpcp.coeff.toList.getD j 0 * x (i - 1 - j)).sum = some sum
      ∧ acc s.params.narrowOverflow s.wide (lpcPath s.sub[c].depth) (r i + sum / 2 ^ s.lpcp.shift) = some (x i)) :
    exec (.restoreLpc c k) s = .next (s.writeCh c k.val ((listOf s.hdr.blocksize.toNat x).drop k.val)) := by
  refine runField_ok ?_
  simp only [restoreLpc, view_bind]
  refine restoreWith_history hk hread fun i hki hi => ?_
  obtain ⟨sum, hsum, hacc⟩ := hx i hki hi
  rw [lpcSample_history (by omega) hki, hsum]
  exact hacc

end

/-- `Acc` of a residual and its prediction is the sample, where the residual is the difference, or, on the 32-bit path in
Wrap mode, its wrapping (R287, R301). -/
theorem acc_residual {mode : NarrowOverflow} {wide : Bool} {path : Path} {x p r : Int}
    (h32 : wide = false ∨ path = .acc32 → fits32 x = true) (h64 : fits64 x = true)
    (hr : r = x - p ∨ path = .acc32 ∧ mode = .wrap ∧ r = wrap32 (x - p)) : acc mode wide path (r + p) = some x := by
  rcases hr with rfl | ⟨rfl, rfl, rfl⟩
  · rw [Int.sub_add_cancel]
    exact acc_of_fits h32 h64
  · calc narrow32 .wrap (wrap32 (x - p) + p)
        = narrow32 .wrap x := by rw [narrow32_wrap, wrap32_add_of_wrapped, Int.sub_add_cancel, narrow32_wrap]
      _ = some x := narrow32_of_fits _ (h32 (.inr rfl))

end Sys2Proof.Machine

namespace Sys2Proof.Proofs
open Sys2Proof.Machine

/-- Settles O53: each range is the test of its narrowing, and what is wrapped is the residue of `wrap32_spec`. -/
theorem widthPolicy : Obligations.WidthPolicy := by
  unfold Obligations.WidthPolicy
  refine ⟨fun d k => ⟨fixedPath_acc32_iff, lpcPath_acc32_iff⟩, fun mode v => ?values, fun h => wideOf_iff⟩
  case values =>
    exact ⟨fun h => narrow32_of_fits mode (fits32_iff.2 h),
      fun h => ⟨narrow32_fault_of_not_fits (mt fits32_iff.1 h), _, narrow32_wrap v, wrap32_spec v⟩,
      fun h => wide64_of_fits (fits64_iff.2 h), fun h => wide64_of_not_fits (mt fits64_iff.1 h), fun _ => rfl,
      if_congr fits32_iff rfl rfl, rfl, rfl, rfl⟩

/-- Settles O50: index by index the restore adds the prediction of its order to a residual of the sample
(`exec_restoreFixed_history`), which gives the sample (`acc_residual`). -/
theorem fixedRestores : Obligations.FixedRestores := by
  unfold Obligations.FixedRestores
  intro s c
  refine ⟨exec_restoreFixed_orderZero, fun k => exec_restoreFixed_noResidual, ?restores⟩
  case restores =>
    intro k x r h1 hk narrow hfits hread hres
    refine exec_restoreFixed_history h1 hk hread fun i hki hi => ?_
    refine acc_residual (hfits i hi).1 (hfits i hi).2 ?_
    have hr := hres i hki hi
    match k, h1 with
    | 1, _ => exact hr
    | 2, _ => exact hr
    | 3, _ => exact hr
    | 4, _ => exact hr

/-- Settles O51: the rule's equation at each index is what the walk computes there (`exec_restoreLpc_history`). -/
theorem lpcRestores : Obligations.LpcRestores := by
  unfold Obligations.LpcRestores
  intro s c k
  exact ⟨exec_restoreLpc_noResidual, fun x r _ hk hread hx => exec_restoreLpc_history hk hread hx⟩

end Sys2Proof.Proofs

/-! ## Proofs: frames that fail (48_frame_decoder.md rules R362 to R374, 70_reset_and_hazards.md rule R423)

A frame whose header stops is a parse of its own but for the sequencer's names, on which the parse does not depend
(`agree_parseHeader`). A subframe that stops is reached with the subframes before it decoded (`frameListed_at`), in a state
that agrees with `FrameLayout.midway` in all it reads (`midway_listed`). -/

namespace Sys2Proof.Machine

theorem exec_decodeFrame_raises {a : BitVec 32} {k : ErrKind} {s t : State} (ha : a.toNat < 2 ^ 29)
    (h : frameSteps a.toNat s = .error (.raise k) t) : exec (.decodeFrame a) s = .next (takeRaise .frame k t) :=
  (needRange_in _ (decide_eq_true ha)).trans (by rw [h]; rfl)

/-- A raise after the header parse of frame `f` shows its header and its WIDE. -/
theorem exec_decodeFrame_headed {a : BitVec 32} {k : ErrKind} {f : FrameLayout} {s t : State} (ha : a.toNat < 2 ^ 29)
    (h : frameSteps a.toNat s = .error (.raise k) t) (hs : Same (fun s => (s.shown, s.hdr)) (f.headed s) t) :
    exec (.decodeFrame a) s = .next (takeRaise .frame k (f.headed s)) := by
  rw [exec_decodeFrame_raises ha h, headed_raised hs]

/-! ### The header -/

/-- A parse that ends without a cursor raised. -/
theorem exec_parseFrameHeader_dropped {s t : State} (hs : s.curValid = true) (h : exec .parseFrameHeader s = .next t)
    (ht : t.curValid = false) :
    ∃ k u, parseHeader s = .error (.raise k) u ∧ t = takeRaise .frame k s.rejectHeader := by
  rcases exec_parseFrameHeader_ends h with ⟨k, -, rfl⟩ | ⟨-, u, hu, rfl⟩ | ⟨k, u, hu, rfl⟩
  · exact absurd (hs.symm.trans ht) (by decide)
  · have hkept : u.curValid = s.curValid := (within_parseHeader header_sameCursor fun _ _ => rfl).ok hu
    exact absurd ((hkept.trans hs).symm.trans ht) (by decide)
  · exact ⟨k, u, hu, (parseHeader_raised hu).2⟩

/-- What a parse raises does not depend on the sequencer's names. -/
theorem parseHeader_raises_anyNames {k : ErrKind} {s u : State} (q : Sequencer)
    (h : parseHeader { s with seq := q } = .error (.raise k) u) : ∃ t, parseHeader s = .error (.raise k) t := by
  have halike : Alike { s with seq := q } s := by
    constructor
    case header => exact fun _ => rfl
    all_goals rfl
  rcases agree_parseHeader _ _ halike with ⟨_, _, _, hok, -⟩ | ⟨e, _, t, he, ht, -⟩
  · rw [h] at hok
    cases hok
  · rw [h] at he
    cases he
    exact ⟨t, ht⟩

/-- A frame whose header the parse does not accept ends as that parse after `cursor_new` does, with WIDE 0 at its start (R362,
R423). -/
theorem exec_decodeFrame_headerFails {s u t : State} {a : BitVec 32} (ha : a.toNat < 2 ^ 29)
    (hcap : a.toNat + 4 ≤ s.params.cap)
    (hu : exec (.cursorNew (BitVec.ofNat 32 (8 * a.toNat))) { s with wide := false } = .next u)
    (ht : exec .parseFrameHeader u = .next t) (hdropped : t.curValid = false) : exec (.decodeFrame a) s = .next t := by
  have hoff : (BitVec.ofNat 32 (8 * a.toNat)).toNat = 8 * a.toNat := by
    rw [BitVec.toNat_ofNat, Nat.mod_eq_of_lt (by omega)]
  have hadm : s.admissible (8 * a.toNat) := admissible_byte.2 hcap
  rw [exec_cursorNew_placed (by rw [hoff]; exact hadm), hoff] at hu
  obtain rfl := Host.Outcome.next.inj hu
  obtain ⟨k, w, hparse, rfl⟩ := exec_parseFrameHeader_dropped rfl ht hdropped
  obtain ⟨v, hv⟩ := parseHeader_raises_anyNames
    (s := (startAttempt (s.withBuffers false s.ch)).readTo (8 * a.toNat) s.res) Sequencer.idle hparse
  have hsteps : frameSteps a.toNat s = .error (.raise k) v := (bind_ok (frameStart_ok hadm)).trans (bind_error hv)
  rw [exec_decodeFrame_raises ha hsteps, (parseHeader_raised hv).2]
  rfl

/-! ### A subframe -/

/-- The state of frame `f` after the subframes it lists, but for the cursor (R361 to R365). -/
def FrameLayout.listed (f : FrameLayout) (g : Sequencer → Sequencer) (h : ResidualParams → ResidualParams) (s : State) :
    State :=
  ((f.begun g s).mapRp h).afterSubframes (f.record s.streamInfo) f.channels

/-- Whatever runs after the subframes that `f` lists runs in that state. -/
theorem frameListed_at {s : State} {f : FrameLayout} {a : Nat} (hl : f.header.legal s.streamInfo = true)
    (hb : (f.record s.streamInfo).bps.toNat ≤ 32)
    (hsubs : ∀ cf ∈ f.channels, cf.2.legal s.params.narrowOverflow (f.record s.streamInfo).blocksize.toNat
      (baseDepth (f.record s.streamInfo) cf.1) = true)
    (hc : carries s.input (8 * a) (f.dataBits s.streamInfo) = true)
    (hadm : s.admissible (8 * a + (f.dataBits s.streamInfo).length))
    (h8 : s.params.checkCrc8 = true → crc8Of (bytesAt s.input a (f.header.length - 1)) = f.crc8) :
    ∃ g h r u, (∀ q, (g q).start = a) ∧ u.hdr = f.record s.streamInfo
      ∧ (∀ k : Op Unit, (do frameStart a; parseHeader; selectWide; k : Op Unit) s = k u)
      ∧ forEach (f.channels.map Prod.fst) frameSubframe u =
        .ok () ((f.listed g h s).readTo (8 * a + (f.dataBits s.streamInfo).length) r) := by
  have hlen := f.header.length_eq (HeaderLayout.legal_cont hl)
  have hlen8 : (f.header.bits ++ fieldBits 8 f.crc8.toNat).length = 8 * f.header.length := by
    rw [List.length_append, fieldBits_length]; omega
  rw [FrameLayout.dataBits, carries_append, Bool.and_eq_true, hlen8] at hc
  rw [FrameLayout.dataBits, List.length_append, hlen8, ← Nat.add_assoc] at hadm ⊢
  obtain ⟨hhead, hdata⟩ := hc
  obtain ⟨g1, hg1, hbegin⟩ := frameBegin_at hl hhead (admissible_mono hadm (by omega)) h8
  obtain ⟨b1, b2, b3, b4, b5, -⟩ := begun_facts f g1 s
  obtain ⟨g2, h2, r, hg2, hrun⟩ := frameSubframes_at (r := f.crc8.setWidth 64) b1 b4 b5 hb
    (fun cf hcf => by rw [b3]; exact hsubs cf hcf) (by rw [b2]; exact hdata) (by rw [State.admissible, b3]; exact hadm)
  exact ⟨g2 ∘ g1, h2, r, (f.begun g1 s).readTo _ _, fun q => (hg2 _).trans (hg1 q), b4, hbegin, hrun⟩

/-- That state agrees with `midway` in all that a subframe reads. -/
theorem midway_listed {f : FrameLayout} {g : Sequencer → Sequencer} (h : ResidualParams → ResidualParams) {s : State}
    {a : Nat} (r : Word64) (hg : ∀ q, (g q).start = a) :
    With InFrame (f.midway a s) ((f.listed g h s).readTo (8 * a + (f.dataBits s.streamInfo).length) r) := by
  obtain ⟨-, -, -, -, -, -, hch⟩ := read_facts f g h s
  constructor <;> constructor
  case right.ch => exact hch.symm
  all_goals simp [FrameLayout.midway, FrameLayout.listed, FrameLayout.begun, State.afterSubframes, hg]

/-- The channels of a frame: those with a subframe that `f` lists, the next one, and the rest. -/
theorem frameChannels_split {f : FrameLayout} {h : Header} {c : Fin 8} (hc : c.val = f.subframes.length)
    (hn : c.val < h.channels.toNat) : ∃ rest, frameChannels h = f.channels.map Prod.fst ++ c :: rest := by
  have hlt : c.val < (frameChannels h).length := by simp [frameChannels, hn]
  have hget : (frameChannels h)[c.val] = c := by simp [frameChannels]
  refine ⟨(frameChannels h).drop (c.val + 1), ?_⟩
  calc frameChannels h = (frameChannels h).take c.val ++ (frameChannels h).drop c.val := (List.take_append_drop ..).symm
    _ = f.channels.map Prod.fst ++ c :: (frameChannels h).drop (c.val + 1) := by
      rw [List.drop_eq_getElem_cons hlt, hget, FrameLayout.channels, zip_map_fst, ← hc, frameChannels, List.take_take,
        Nat.min_eq_left hn.le]

/-- The subframes of a frame stop where one of them does, after those before it (R365). -/
theorem frameSubframes_error {cs rest : List (Fin 8)} {c : Fin 8} {e : Stop} {s u t : State}
    (hcs : frameChannels s.hdr = cs ++ c :: rest) (hdone : forEach cs frameSubframe s = .ok () u) (hu : u.hdr = s.hdr)
    (hsub : decodeSubframe c (baseDepth s.hdr c) u = .error e t) : frameSubframes s = .error e t := by
  have hc : frameSubframe c u = .error e t := by rw [frameSubframe, view_bind, hu, hsub]
  rw [frameSubframes, view_bind, hcs]
  refine bind_error ?_
  rw [forEach_append, bind_ok hdone]
  exact bind_error hc

/-- Where `decode_subframe` of the next channel raises, `decode_frame` raises the same (R365, R374). -/
theorem exec_decodeFrame_subframeFails {s v : State} {f : FrameLayout} {a : BitVec 32} {c : Fin 8}
    (ha : a.toNat < 2 ^ 29) (hl : f.header.legal s.streamInfo = true) (hb : (f.record s.streamInfo).bps.toNat ≤ 32)
    (hc : c.val = f.subframes.length) (hn : c.val < (f.record s.streamInfo).channels.toNat)
    (hsubs : ∀ cf ∈ f.channels, cf.2.legal s.params.narrowOverflow (f.record s.streamInfo).blocksize.toNat
      (baseDepth (f.record s.streamInfo) cf.1) = true)
    (hcar : carries s.input (8 * a.toNat) (f.dataBits s.streamInfo) = true)
    (hadm : s.admissible (8 * a.toNat + (f.dataBits s.streamInfo).length))
    (h8 : s.params.checkCrc8 = true → crc8Of (bytesAt s.input a.toNat (f.header.length - 1)) = f.crc8)
    (hsub : exec (.decodeSubframe c (baseDepth (f.record s.streamInfo) c)) (f.midway a.toNat s) = .next v)
    (hv : v.curValid = false) : exec (.decodeFrame a) s = .next (takeRaise .frame v.err (f.headed s)) := by
  obtain ⟨g, h, r, u, hg, hhdr, hbegin, hdone⟩ := frameListed_at hl hb hsubs hcar hadm h8
  obtain ⟨w, hw⟩ := of_field_raised (s := f.midway a.toNat s) rfl
    (within_decodeSubframe subframe_sameCursor (fun _ _ => rfl) c _) hsub hv
  rcases agree_decodeSubframe c _ _ _ (midway_listed h r hg) with ⟨_, _, _, hok, -⟩ | ⟨e, _, t, he, ht, -⟩
  · rw [hw] at hok
    cases hok
  · rw [hw] at he
    cases he
    obtain ⟨rest, hrest⟩ := frameChannels_split hc hn
    obtain ⟨-, -, -, hlisted, -⟩ := begun_facts f g s
    have hstop : frameSubframes u = .error (.raise v.err) t :=
      frameSubframes_error (by rw [hhdr]; exact hrest) hdone (hlisted.trans hhdr.symm) (by rw [hhdr]; exact ht)
    have hshown : Same (fun s => (s.shown, s.hdr)) (f.headed s) t :=
      ((within_decodeSubframe subframe_sameShown (fun _ _ => rfl) c _).error ht).trans (begun_shown f g s)
    exact exec_decodeFrame_headed ha ((hbegin _).trans (bind_error hstop)) hshown

end Sys2Proof.Machine

namespace Sys2Proof.Proofs
open Sys2Proof.Machine

/-- Settles O58: a rejected header raises in the frame as in a parse of its own (`exec_decodeFrame_headerFails`), a subframe as
in `midway` (`exec_decodeFrame_subframeFails`), and after good subframes the checksum and the stereo transform are left to
fail (`frameSteps_wrongChecksum`, `frameSteps_unstorable`). -/
theorem frameChecksumFails : Obligations.FrameChecksumFails := by
  unfold Obligations.FrameChecksumFails
  intro s a ha
  refine ⟨fun u t => exec_decodeFrame_headerFails ha, fun f h8 => ⟨?subframe, fun hl hc hcap => ?checksums⟩⟩
  case subframe =>
    intro c v hl hb hc hn hsubs hcar hadm hsub hv
    exact exec_decodeFrame_subframeFails ha hl hb hc hn hsubs hcar hadm h8 hsub hv
  case checksums =>
    have hadm : s.admissible (8 * a.toNat + 8 * f.length s.streamInfo) := by
      rw [← Nat.mul_add, admissible_byte]
      exact hcap
    refine ⟨fun h16 => ?_, fun h16 hout => ?_⟩
    · obtain ⟨t, ht, hshown⟩ := frameSteps_wrongChecksum hl hc hadm h8 h16
      exact exec_decodeFrame_headed ha ht hshown
    · obtain ⟨t, ht, hshown⟩ := frameSteps_unstorable hl hc hadm h8 h16 hout
      exact exec_decodeFrame_headed ha ht hshown

end Sys2Proof.Proofs

/-! ## Proofs: the stereo transform (46_decorrelator.md rules R320 to R326)

Each stereo assignment runs one scheme (`transformPair`): combine the two channels index by index and write what comes out.
So the rules differ in the value at one index only, and R326 is a statement about that value. -/

namespace Sys2Proof.Machine

/-! ### Two channels combined, index by index -/

section
variable {α : Type} {f : Int → Int → Option α} {x y : Nat → Int}

theorem zipOption_map {z : Nat → α} {is : List Nat} (h : ∀ i ∈ is, f (x i) (y i) = some (z i)) :
    zipOption f (is.map x) (is.map y) = some (is.map z) := by
  induction is with
  | nil => rfl
  | cons i is ih =>
    have hrest := ih fun j hj => h j (List.mem_cons_of_mem i hj)
    simp only [List.map_cons, zipOption, h i List.mem_cons_self, hrest]

theorem zipOption_map_none {is : List Nat} (h : ∃ i ∈ is, f (x i) (y i) = none) :
    zipOption f (is.map x) (is.map y) = none := by
  induction is with
  | nil => simp at h
  | cons i is ih =>
    simp only [List.map_cons, zipOption]
    cases hi : f (x i) (y i) with
    | none => rfl
    | some z =>
      have hrest : ∃ j ∈ is, f (x j) (y j) = none := by simpa [hi] using h
      simp only [ih hrest]

end

/-! ### The scheme of R322 to R324 -/

/-- Read both channels, combine them with `f` at every index, and go on with the values as `write` says. -/
def transformPair {α : Type} (n : Nat) (f : Int → Int → Option α) (write : List α → Op Unit) : Op Unit := do
  let xs ← readSamples 0 n
  let ys ← readSamples 1 n
  let zs ← orRaise .arithmeticOverflow (zipOption f xs ys)
  write zs

section
variable {s : State}

theorem decorrelateOp_independent (ha : s.hdr.assignment = .independent) : decorrelateOp s = .ok () s := by
  simp only [decorrelateOp, view_bind, ha, pure_apply]

theorem decorrelateOp_leftSide (ha : s.hdr.assignment = .leftSide) :
    decorrelateOp s =
      transformPair s.hdr.blocksize.toNat (leftSideRight s.params.narrowOverflow s.wide) (writeSamples 1 0) s := by
  simp only [decorrelateOp, view_bind, ha, transformPair]

theorem decorrelateOp_rightSide (ha : s.hdr.assignment = .rightSide) :
    decorrelateOp s =
      transformPair s.hdr.blocksize.toNat (rightSideLeft s.params.narrowOverflow s.wide) (writeSamples 0 0) s := by
  simp only [decorrelateOp, view_bind, ha, transformPair]

theorem decorrelateOp_midSide (ha : s.hdr.assignment = .midSide) :
    decorrelateOp s =
      transformPair s.hdr.blocksize.toNat (midSidePair s.params.narrowOverflow s.wide) (fun zs => do
        writeSamples 0 0 (zs.map Prod.fst)
        writeSamples 1 0 (zs.map Prod.snd)) s := by
  simp only [decorrelateOp, view_bind, ha, transformPair]

end

section
variable {s : State} {α : Type} {n : Nat} {f : Int → Int → Option α} {write : List α → Op Unit} {x y : Nat → Int}

theorem transformPair_some {z : Nat → α} (h0 : s.channelIs 0 n x) (h1 : s.channelIs 1 n y)
    (hz : ∀ i, i < n → f (x i) (y i) = some (z i)) :
    transformPair n f write s = write ((List.range n).map z) s := by
  rw [transformPair, bind_ok (readSamples_range h0), bind_ok (readSamples_range h1),
    zipOption_map fun i hi => hz i (List.mem_range.1 hi), orRaise_some, bind_ok (pure_apply _ _)]

/-- The raise comes before anything is written. -/
theorem transformPair_none (h0 : s.channelIs 0 n x) (h1 : s.channelIs 1 n y) (hz : ∃ i, i < n ∧ f (x i) (y i) = none) :
    transformPair n f write s = .error (.raise .arithmeticOverflow) s := by
  have hnone : ∃ i ∈ List.range n, f (x i) (y i) = none := by simpa using hz
  rw [transformPair, bind_ok (readSamples_range h0), bind_ok (readSamples_range h1), zipOption_map_none hnone, orRaise_none]
  exact bind_error (raise_apply _ _)

end

/-! ### MidSide at one index (R324) -/

section
variable {mode : NarrowOverflow} {wide : Bool} {a b m l r : Int}

theorem midSidePair_some (hm : store mode wide (2 * a + b % 2) = some m) (hl : store mode wide (m + b) = some l)
    (hr : store mode wide (m - b) = some r) : midSidePair mode wide a b = some (l / 2, r / 2) := by
  have hshl : shl a 1 = 2 * a := Int.mul_comm a 2
  simp only [midSidePair, hshl, hm, hl, hr]
  rfl

theorem midSidePair_none (h : store mode wide (2 * a + b % 2) = none
    ∨ ∃ m, store mode wide (2 * a + b % 2) = some m ∧ (store mode wide (m + b) = none ∨ store mode wide (m - b) = none)) :
    midSidePair mode wide a b = none := by
  have hshl : shl a 1 = 2 * a := Int.mul_comm a 2
  simp only [midSidePair, hshl]
  rcases h with hm | ⟨m, hm, hl | hr⟩
  · simp only [hm]
  · simp only [hm, hl]
  · simp only [hm, hr]
    cases store mode wide (m + b) <;> rfl

end

/-- A sum and a difference have the same parity, so half of the sum and the difference hold the whole sum (R326). -/
theorem two_mul_half_add_parity (l r : Int) : 2 * ((l + r) / 2) + (l - r) % 2 = l + r := by omega

/-- `Store` of a value that fits the buffers of the frame is the value (R320). -/
theorem store_of_fits {mode : NarrowOverflow} {wide : Bool} {v : Int}
    (h : if wide then fits64 v = true else fits32 v = true) : store mode wide v = some v := by
  cases wide with
  | false => exact narrow32_of_fits mode h
  | true => exact wide64_of_fits h

/-! ### The command -/

/-- R321. -/
theorem exec_decorrelate_independent {s : State} (ha : s.hdr.assignment = .independent) : exec .decorrelate s = .next s :=
  runField_ok (decorrelateOp_independent ha)

section
variable {s : State} {x y : Nat → Int} (h0 : s.channelIs 0 s.hdr.blocksize.toNat x)
  (h1 : s.channelIs 1 s.hdr.blocksize.toNat y)
include h0 h1

/-- R322. -/
theorem exec_decorrelate_leftSide {z : Nat → Int} (ha : s.hdr.assignment = .leftSide)
    (hz : ∀ i, i < s.hdr.blocksize.toNat → store s.params.narrowOverflow s.wide (x i - y i) = some (z i)) :
    exec .decorrelate s = .next (s.writeCh 1 0 (listOf s.hdr.blocksize.toNat z)) :=
  runField_ok ((decorrelateOp_leftSide ha).trans (transformPair_some h0 h1 hz))

/-- R323. -/
theorem exec_decorrelate_rightSide {z : Nat → Int} (ha : s.hdr.assignment = .rightSide)
    (hz : ∀ i, i < s.hdr.blocksize.toNat → store s.params.narrowOverflow s.wide (x i + y i) = some (z i)) :
    exec .decorrelate s = .next (s.writeCh 0 0 (listOf s.hdr.blocksize.toNat z)) :=
  runField_ok ((decorrelateOp_rightSide ha).trans (transformPair_some h0 h1 hz))

/-- R324. -/
theorem exec_decorrelate_midSide {m l r : Nat → Int} (ha : s.hdr.assignment = .midSide)
    (hz : ∀ i, i < s.hdr.blocksize.toNat → store s.params.narrowOverflow s.wide (2 * x i + y i % 2) = some (m i)
      ∧ store s.params.narrowOverflow s.wide (m i + y i) = some (l i)
      ∧ store s.params.narrowOverflow s.wide (m i - y i) = some (r i)) :
    exec .decorrelate s = .next ((s.writeCh 0 0 (listOf s.hdr.blocksize.toNat fun i => l i / 2)).writeCh 1 0
      (listOf s.hdr.blocksize.toNat fun i => r i / 2)) := by
  have hpair : ∀ i, i < s.hdr.blocksize.toNat →
      midSidePair s.params.narrowOverflow s.wide (x i) (y i) = some (l i / 2, r i / 2) := fun i hi => by
    obtain ⟨hm, hl, hr⟩ := hz i hi
    exact midSidePair_some hm hl hr
  refine runField_ok (((decorrelateOp_midSide ha).trans (transformPair_some h0 h1 hpair)).trans ?_)
  simp only [writeSamples, update_bind, update_apply, List.map_map]
  rfl

/-- R320: one index at which the value of the assignment cannot be stored is enough. -/
theorem exec_decorrelate_overflow {α : Type} {f : Int → Int → Option α} {write : List α → Op Unit}
    (ha : decorrelateOp s = transformPair s.hdr.blocksize.toNat f write s)
    (hz : ∃ i, i < s.hdr.blocksize.toNat ∧ f (x i) (y i) = none) :
    exec .decorrelate s = .next (takeRaise .frame .arithmeticOverflow s) :=
  runField_raise (ha.trans (transformPair_none h0 h1 hz))

end

end Sys2Proof.Machine

namespace Sys2Proof.Proofs
open Sys2Proof.Machine

/-- Settles O54: by assignment, what the scheme of its rule makes of the two channels where every index can be stored, and
where one cannot. -/
theorem decorrelate : Obligations.Decorrelate := by
  unfold Obligations.Decorrelate
  intro s x y
  refine ⟨exec_decorrelate_independent, fun h0 h1 => ⟨fun ha => ?left, fun ha => ?right, fun ha => ?mid⟩⟩
  case left =>
    exact ⟨fun z => exec_decorrelate_leftSide h0 h1 ha,
      exec_decorrelate_overflow h0 h1 (decorrelateOp_leftSide ha)⟩
  case right =>
    exact ⟨fun z => exec_decorrelate_rightSide h0 h1 ha,
      exec_decorrelate_overflow h0 h1 (decorrelateOp_rightSide ha)⟩
  case mid =>
    refine ⟨fun m l r => exec_decorrelate_midSide h0 h1 ha, ?_⟩
    rintro ⟨i, hi, hnone⟩
    exact exec_decorrelate_overflow h0 h1 (decorrelateOp_midSide ha) ⟨i, hi, midSidePair_none hnone⟩

/-- Settles O55: at every index the rule's value is that of the pair; for MidSide the shifted mid with its parity restored is
`l + r` (`two_mul_half_add_parity`), to which adding and from which taking `l - r` gives twice each channel. -/
theorem decorrelateInvolution : Obligations.DecorrelateInvolution := by
  unfold Obligations.DecorrelateInvolution
  intro s l r n ok
  refine ⟨fun ha h0 h1 hok => ?left, fun ha h0 h1 hok => ?right, fun ha h0 h1 hok => ?mid⟩
  case left =>
    refine exec_decorrelate_leftSide h0 h1 ha fun i hi => ?_
    rw [Int.sub_sub_self]
    exact store_of_fits (hok i hi)
  case right =>
    refine exec_decorrelate_rightSide h0 h1 ha fun i hi => ?_
    rw [Int.sub_add_cancel]
    exact store_of_fits (hok i hi)
  case mid =>
    have hrun := exec_decorrelate_midSide (m := fun i => l i + r i) (l := fun i => 2 * l i) (r := fun i => 2 * r i) h0 h1 ha
      fun i hi => by
        obtain ⟨hsum, hl, hr⟩ := hok i hi
        have hleft : l i + r i + (l i - r i) = 2 * l i := by ring
        have hright : l i + r i - (l i - r i) = 2 * r i := by ring
        rw [two_mul_half_add_parity, hleft, hright]
        exact ⟨store_of_fits hsum, store_of_fits hl, store_of_fits hr⟩
    simp only [Int.mul_ediv_cancel_left _ (two_ne_zero : (2 : Int) ≠ 0)] at hrun
    exact hrun

end Sys2Proof.Proofs

/-! ## Proofs: reset, refusals without a cursor, and what a frame depends on (60_exceptions.md rule R388,
70_reset_and_hazards.md rules R420 and R423) -/

namespace Sys2Proof.Machine

/-! ### CH before any write (R45) -/

/-- No entry of buffers that nothing has written holds a value (R32). -/
theorem unwritten_read (wide : Bool) (c : Fin 8) (i : Nat) : ChannelFile.unwritten.read wide c i = none := by
  have hcells : ChannelFile.unwritten.cells[c] = [] := Vector.getElem_replicate c.isLt
  simp only [ChannelFile.read, hcells, List.getD_nil]
  rfl

/-! ### Commands and the cursor (R388) -/

/-- The twelve commands check for a cursor before anything else. -/
theorem exec_of_needsCursor {i : Instr} (hi : needsCursor i = true) (s : State) : ∃ r, exec i s = needCursor s r := by
  cases i with
  | readBits n | readBits64 n | readSigned n | readSigned64 n | readUnary | readVariableLengthUint32
  | readVariableLengthUint64 | seekBits n | seekBytes n | flushToByteBoundary | positionBits | parseFrameHeader =>
    exact ⟨_, rfl⟩
  | _ => cases hi

/-- A kind of class fault is not the refusal for want of a cursor (R380). -/
theorem ne_noCursor_of_isFault {k : ErrKind} (hk : k.isFault = true) : k ≠ .noCursor := by
  rintro rfl
  cases hk

/-- Where a command's steps answered, ERR is as they left it, and they never write NoCursor there. -/
theorem ErrKept.ne_noCursor {b : Bool} {s t : State} (h : ErrKept b s t) (hs : s.err ≠ .noCursor) : t.err ≠ .noCursor := by
  rcases h with h | ⟨h, -⟩
  · rwa [h]
  · rw [h]
    nofun

/-- A command that checks for no cursor itself does not end with NoCursor: its steps keep ERR or clear it, and raise kinds of
class fault alone. -/
theorem runCommand_ne_noCursor {b : Bool} {c : CommandClass} {op : Op Unit} {s t : State}
    (hop : Op.Within (ErrKept b) StopsByFault op) (hs : s.err ≠ .noCursor) (h : runCommand c op s = .next t) :
    t.err ≠ .noCursor := by
  rcases runCommand_ends h with ⟨u, hu, rfl⟩ | ⟨k, u, hu, rfl⟩
  · exact (hop.ok hu).ne_noCursor hs
  · exact ne_noCursor_of_isFault (hop.error hu k rfl)

theorem exec_decodeFrame_ne_noCursor {a : BitVec 32} {s t : State} (hs : s.err ≠ .noCursor)
    (h : exec (.decodeFrame a) s = .next t) : t.err ≠ .noCursor := by
  have hW := errKept_writes true
  have hsteps := within_frameSteps hW.toHeaderWrites hW.validity hW.toSubframeWrites hW.halts (fun _ => .inr ⟨rfl, rfl⟩)
    (fun _ _ _ => .inl rfl) hW.phase a.toNat
  rcases exec_decodeFrame_ends h with rfl | ⟨u, hu, rfl⟩ | ⟨k, u, hu, rfl⟩
  · nofun
  · exact (hsteps.ok hu).ne_noCursor hs
  · exact ne_noCursor_of_isFault (hsteps.error hu k rfl)

theorem exec_pack_ne_noCursor {s t : State} (hs : s.err ≠ .noCursor) (h : exec .pack s = .next t) : t.err ≠ .noCursor := by
  rcases exec_pack_ends h with rfl | ⟨u, hu, rfl⟩ | ⟨k, u, hu, rfl⟩
  · nofun
  · obtain ⟨_, _, rfl⟩ := packOp_writes.ok hu
    exact hs
  · exact ne_noCursor_of_isFault (packOp_raised hu).1

/-- None of the five commands that need no cursor ends with NoCursor. -/
theorem exec_ne_noCursor {i : Instr} (hi : needsNoCursor i = true) {s t : State} (hs : s.err ≠ .noCursor)
    (h : exec i s = .next t) : t.err ≠ .noCursor := by
  have hC : ∀ b, CursorWrites (ErrKept b) StopsByFault := fun b => (errKept_writes b).toCursorWrites
  cases i with
  | cursorNew off =>
    exact runCommand_ne_noCursor (within_cursorNew (hC true) (fun _ => .inr ⟨rfl, rfl⟩) off.toNat) hs h
  | crc8 a b => exact runCommand_ne_noCursor (within_discard (within_crc8Op (hC false) a.toNat b.toNat)) hs h
  | crc16 a b => exact runCommand_ne_noCursor (within_discard (within_crc16Op (hC false) a.toNat b.toNat)) hs h
  | decodeFrame a => exact exec_decodeFrame_ne_noCursor hs h
  | pack => exact exec_pack_ne_noCursor hs h
  | _ => cases hi

/-! ### The end of a frame (R372) -/

theorem exec_decodeFrame_finish {a : BitVec 32} (ha : a.toNat < 2 ^ 29) (s : State) :
    exec (.decodeFrame a) s = finish .frame dropCursor (frameSteps a.toNat s) :=
  needRange_in _ (decide_eq_true ha)

end Sys2Proof.Machine

namespace Sys2Proof.Proofs
open Sys2Proof.Machine

/-- Settles O9: each register as reset leaves it, and CH as buffers that nothing has written (`unwritten_read`). -/
theorem resetValues : Obligations.ResetValues :=
  ⟨rfl, rfl, rfl, rfl, rfl, rfl, rfl, unwritten_read false, rfl⟩

/-- Settles O7: the twelve check for the cursor first (`exec_of_needsCursor`), and the other five end with another ERR
(`exec_ne_noCursor`). -/
theorem noCursorRefused : Obligations.NoCursorRefused := by
  unfold Obligations.NoCursorRefused
  refine ⟨fun i s hi hv => ?_, fun i s hi hs h => exec_ne_noCursor hi hs h rfl⟩
  obtain ⟨r, hr⟩ := exec_of_needsCursor hi s
  rw [hr]
  exact needCursor_none r hv

/-- Settles O60: the steps of the two frames end the same way in states that agree on what a host reads
(`frameSteps_agree`), and so do the cursor's end and the raise made of them. -/
theorem frameIndependence : Obligations.FrameIndependence := by
  unfold Obligations.FrameIndependence
  intro s₁ s₂ t₁ t₂ a ha hinput hparams hinfo hfree h₁ h₂
  rw [exec_decodeFrame_finish ha] at h₁ h₂
  rcases frameSteps_agree a.toNat ⟨hinput, hparams, hinfo, hfree⟩ with
    ⟨u₁, u₂, hu₁, hu₂, ⟨halike, hframe⟩, hres⟩ | ⟨e, u₁, u₂, hu₁, hu₂, hstop, hhdr⟩
  · rw [hu₁] at h₁
    rw [hu₂] at h₂
    obtain rfl := Host.Outcome.next.inj h₁
    obtain rfl := Host.Outcome.next.inj h₂
    exact ⟨halike.err, halike.fstate, halike.valid, fun _ => hframe.hdr, hres, halike.ok, hframe.ch, rfl,
      congrArg (· + 1) halike.freeCount, hframe.wide⟩
  · rw [hu₁] at h₁
    rw [hu₂] at h₂
    cases e with
    | halt f => cases h₁
    | raise k =>
      obtain rfl := Host.Outcome.next.inj h₁
      obtain rfl := Host.Outcome.next.inj h₂
      have hfc := hstop.freeCount
      exact ⟨rfl, rfl, hstop.valid, hhdr, congrArg Config.freeRes hfc, congrArg Config.freeFlag hfc,
        by rw [takeRaise_ch, takeRaise_ch, hfc], rfl, congrArg (· + 1) hfc, hstop.wide⟩

end Sys2Proof.Proofs

/-! ## Proofs: the packer (47_packer.md rules R340 to R345)

`pack` reads each channel as the list of its samples (`readChannels_listOf`), puts those in output order
(`interleave_listOf`) and each sample in bytes (`sampleBytes_getElem?`). Both orders are a concatenation of lists of one
length, whose elements `getElem?_flatMap_uniform` finds. -/

namespace Sys2Proof.Machine

/-! ### Lists of one length in a row -/

/-- Element `k * m + b` of a concatenation of lists of length `m` is element `b` of list `k`. -/
theorem getElem?_flatMap_uniform {α β : Type} {f : α → List β} {m : Nat} (hf : ∀ x, (f x).length = m) {xs : List α}
    {k b : Nat} {x : α} (hk : xs[k]? = some x) (hb : b < m) : (xs.flatMap f)[k * m + b]? = (f x)[b]? := by
  induction xs generalizing k with
  | nil => cases hk
  | cons y ys ih =>
    rw [List.flatMap_cons]
    cases k with
    | zero =>
      obtain rfl := Option.some.inj hk
      rw [Nat.zero_mul, Nat.zero_add, List.getElem?_append_left (by rwa [hf])]
    | succ k =>
      have hindex : (k + 1) * m + b = m + (k * m + b) := by rw [Nat.succ_mul]; omega
      rw [hindex, List.getElem?_append_right (by rw [hf]; omega), hf, Nat.add_sub_cancel_left]
      exact ih hk

theorem length_flatMap_uniform {α β : Type} {f : α → List β} {m : Nat} (hf : ∀ x, (f x).length = m) (xs : List α) :
    (xs.flatMap f).length = xs.length * m := by
  simp [List.length_flatMap, hf]

/-! ### The samples in output order (R345) -/

/-- The samples `v c i` of the channels `cs` in output order: index major. -/
def outputOrder (n : Nat) (cs : List Nat) (v : Nat → Nat → Int) : List Int :=
  (List.range n).flatMap fun i => cs.map fun c => v c i

theorem listOf_succ (n : Nat) (v : Nat → Int) : listOf (n + 1) v = v 0 :: listOf n fun i => v (i + 1) := by
  simp [listOf, List.range_succ_eq_map]

theorem interleave_listOf (n : Nat) (cs : List Nat) (v : Nat → Nat → Int) :
    interleave n (cs.map fun c => listOf n (v c)) = outputOrder n cs v := by
  induction n generalizing v with
  | zero => rfl
  | succ n ih =>
    have htail := ih fun c i => v c (i + 1)
    simp only [outputOrder, List.range_succ_eq_map, List.flatMap_cons, List.flatMap_map] at htail ⊢
    rw [← htail]
    simp [interleave, listOf_succ, Function.comp_def]

theorem mem_outputOrder {n : Nat} {cs : List Nat} {v : Nat → Nat → Int} {x : Int} :
    x ∈ outputOrder n cs v ↔ ∃ i < n, ∃ c ∈ cs, v c i = x := by
  simp [outputOrder]

theorem outputOrder_length (n C : Nat) (v : Nat → Nat → Int) : (outputOrder n (List.range C) v).length = n * C := by
  rw [outputOrder, length_flatMap_uniform (m := C) (by simp), List.length_range]

theorem outputOrder_getElem? {n C i c : Nat} (v : Nat → Nat → Int) (hi : i < n) (hc : c < C) :
    (outputOrder n (List.range C) v)[i * C + c]? = some (v c i) := by
  rw [outputOrder, getElem?_flatMap_uniform (m := C) (by simp) (List.getElem?_range hi) hc]
  simp [hc]

/-- The packer reads each channel as the list of its samples. -/
theorem readChannels_listOf {s : State} {n : Nat} {v : Nat → Nat → Int} (cs : List Nat)
    (hcs : ∀ c ∈ cs, ∃ h : c < 8, s.channelIs ⟨c, h⟩ n (v c)) :
    readChannels n cs s = .ok (cs.map fun c => listOf n (v c)) s := by
  induction cs with
  | nil => rfl
  | cons c cs ih =>
    obtain ⟨h8, hc⟩ := hcs c (List.mem_cons_self ..)
    simp only [readChannels, dif_pos h8]
    rw [bind_ok (readSamples_range hc), bind_ok (ih fun d hd => hcs d (List.mem_cons_of_mem _ hd))]
    rfl

/-! ### The bytes of a sample (R342, R344) -/

theorem littleEndian_getElem? {n b : Nat} (w : Nat) (hb : b < n) :
    (littleEndian n w)[b]? = some (BitVec.ofNat 8 (w >>> (8 * b))) := by
  induction n generalizing w b with
  | zero => omega
  | succ n ih =>
    cases b with
    | zero => rfl
    | succ b =>
      have hshift : w >>> (8 * (b + 1)) = (w / 256) >>> (8 * b) := by
        rw [Nat.mul_succ, Nat.add_comm, Nat.shiftRight_add, Nat.shiftRight_eq_div_pow w 8]
      rw [littleEndian, List.getElem?_cons_succ, ih (w / 256) (by omega), hshift]

theorem sampleBytes_getElem? {bps b : Nat} (v : Int) (hb : b < (bps + 7) / 8) :
    (sampleBytes bps v)[b]? = some (BitVec.ofNat 8 (packedNumber bps ((bps + 7) / 8) v >>> (8 * b))) :=
  littleEndian_getElem? _ hb

/-! ### The command -/

/-- A depth of no container is rejected before any sample is read (R341). -/
theorem packOp_badDepth {s : State} (h : s.hdr.bps.toNat < 1 ∨ 32 < s.hdr.bps.toNat) :
    packOp s = .error (.raise .formatError) s := by
  have hp : packable s.hdr.bps.toNat = false := by
    simp only [packable, Bool.and_eq_false_iff, decide_eq_false_iff_not]
    omega
  simp only [packOp, view_bind, hp]
  rfl

/-- The bytes of OUT: the samples in output order, each in its bytes. -/
def packedBytes (n C bps : Nat) (v : Nat → Nat → Int) : List Byte :=
  (outputOrder n (List.range C) v).flatMap (sampleBytes bps)

theorem packedBytes_length (n C bps : Nat) (v : Nat → Nat → Int) :
    (packedBytes n C bps v).length = n * C * ((bps + 7) / 8) := by
  rw [packedBytes, length_flatMap_uniform (sampleBytes_length bps), outputOrder_length]

theorem packedBytes_getElem? {n C bps i c b : Nat} (v : Nat → Nat → Int) (hi : i < n) (hc : c < C)
    (hb : b < (bps + 7) / 8) : (packedBytes n C bps v)[(i * C + c) * ((bps + 7) / 8) + b]? =
      some (BitVec.ofNat 8 (packedNumber bps ((bps + 7) / 8) (v c i) >>> (8 * b))) := by
  rw [packedBytes, getElem?_flatMap_uniform (sampleBytes_length bps) (outputOrder_getElem? v hi hc) hb,
    sampleBytes_getElem? _ hb]

/-- With a depth and samples that are there, `pack` packs if every sample passes the range check, and else raises (R343). -/
theorem packOp_present {s : State} {v : Nat → Nat → Int} (hb : 1 ≤ s.hdr.bps.toNat ∧ s.hdr.bps.toNat ≤ 32)
    (h8 : s.hdr.channels.toNat ≤ 8)
    (hv : ∀ c : Fin 8, c.val < s.hdr.channels.toNat → s.channelIs c s.hdr.blocksize.toNat (v c.val)) :
    packOp s =
      if (outputOrder s.hdr.blocksize.toNat (List.range s.hdr.channels.toNat) v).all (packChecked s.wide) then
        .ok () ((s.withOut (packedBytes s.hdr.blocksize.toNat s.hdr.channels.toNat s.hdr.bps.toNat v)).withFState .packed)
      else .error (.raise .arithmeticOverflow) s := by
  have hp : packable s.hdr.bps.toNat = true := by simp [packable, hb]
  have hread := readChannels_listOf (s := s) (n := s.hdr.blocksize.toNat) (v := v) (List.range s.hdr.channels.toNat)
    fun c hc => have hlt := List.mem_range.1 hc; ⟨by omega, hv ⟨c, by omega⟩ hlt⟩
  simp only [packOp, view_bind, hp, Bool.not_true, Bool.false_eq_true, if_false]
  rw [bind_ok hread, interleave_listOf]
  split
  · rw [← List.flatMap_def]
    rfl
  · rfl

/-- Every sample passes the range check: it is one of 32 bits, or the buffers are narrow. -/
theorem all_packChecked_iff {n C : Nat} {wide : Bool} {v : Nat → Nat → Int} :
    (outputOrder n (List.range C) v).all (packChecked wide) = true
      ↔ (wide = true → ∀ c i, c < C → i < n → fits32 (v c i) = true) := by
  cases wide with
  | false => simp [packChecked]
  | true =>
    simp only [List.all_eq_true, mem_outputOrder, List.mem_range, packChecked, Bool.not_true, Bool.false_or]
    exact ⟨fun h _ c i hc hi => h _ ⟨i, hi, c, hc, rfl⟩, fun h x ⟨i, hi, c, hc, hx⟩ => hx ▸ h trivial c i hc hi⟩

end Sys2Proof.Machine

namespace Sys2Proof.Proofs
open Sys2Proof.Machine

/-- Settles O56: the depth is checked first (`packOp_badDepth`); the samples are then read and checked one by one
(`packOp_present`, `all_packChecked_iff`), and each byte of OUT is found by its index (`packedBytes_getElem?`). -/
theorem pack : Obligations.Pack := by
  unfold Obligations.Pack
  intro s v hverified n C bps B
  rw [exec_pack_verified hverified]
  refine ⟨fun hbad => runCommand_raise (packOp_badDepth hbad), fun h1 h32 h8 hv => ?_⟩
  have hpack := packOp_present ⟨h1, h32⟩ h8 hv
  refine ⟨fun hfits => ?packed, fun hwide hwrong => ?overflow⟩
  case packed =>
    rw [if_pos (all_packChecked_iff.2 hfits)] at hpack
    exact ⟨packedBytes n C bps v, runCommand_ok hpack, packedBytes_length n C bps v,
      fun i c b => packedBytes_getElem? v⟩
  case overflow =>
    obtain ⟨c, i, hc, hi, hno⟩ := hwrong
    have hfails : ¬ (outputOrder n (List.range C) v).all (packChecked s.wide) = true := fun hall =>
      Bool.false_ne_true (hno.symm.trans (all_packChecked_iff.1 hall hwide c i hc hi))
    rw [if_neg hfails] at hpack
    exact runCommand_raise hpack

end Sys2Proof.Proofs
